-- ==== Sys2Proof/Word.lean ====
section
/-! DEFINITION. The plain data the whole model is written in: blocks of the volume, the numbers that
name stations, tags, drives, cartridges, sides and accounts, and the one way a numbered table is read
and written. -/

namespace Sys2Proof

/-- One block of the volume: 1024 bytes (spec/00_scope.md, Principal quantities).  Byte `i` of the
block is bits `8 * i .. 8 * i + 7`, so a little-endian field of the manual is a run of bits. -/
abbrev Block := BitVec 8192

/-- The fill block of R4: 1024 bytes of 00h. -/
def fillBlock : Block := 0#8192

/-- A station number, 0..31 (R22). -/
abbrev Station := Fin 32
/-- A channel tag, 0..31 (R36). -/
abbrev Tag := Fin 32
/-- A drive number, 0..3 (R56). -/
abbrev DriveNo := Fin 4
/-- A cartridge number, 0..159 (R5). -/
abbrev Cart := Fin 160
/-- A face of a cartridge, 0 or 1 (R5). -/
abbrev Face := Fin 2
/-- A side number, 0..319 (R5). -/
abbrev Side := Fin 320
/-- A deposit account number, 0..15 (R155). -/
abbrev Account := Fin 16

/-- The cartridge that carries a side: side `s` is a face of cartridge `s div 2` (R5). -/
def Side.cart (s : Side) : Cart := ⟨s.val / 2, by omega⟩

/-- The face a side is: side `s` is face `s mod 2` (R5). -/
def Side.face (s : Side) : Face := ⟨s.val % 2, by omega⟩

/-- The other face of the same cartridge. -/
def Face.other (f : Face) : Face := ⟨1 - f.val, by omega⟩

/-- Side `2n + f` of cartridge `n` (R5). -/
def Cart.side (n : Cart) (f : Face) : Side := ⟨2 * n.val + f.val, by omega⟩

/-- The other side of the same cartridge. -/
def Side.otherSide (s : Side) : Side := s.cart.side s.face.other

/-- A table of `n` numbered records. -/
abbrev Table (α : Type) (n : Nat) := Vector α n

/-- The record of number `i`. -/
def Table.at {α : Type} {n : Nat} (t : Table α n) (i : Fin n) : α := t[i.val]

/-- The table with the record of number `i` replaced. -/
def Table.put {α : Type} {n : Nat} (t : Table α n) (i : Fin n) (x : α) : Table α n :=
  t.set i.val x i.isLt

/-- Every record paired with its number, in ascending order of number. -/
def Table.entries {α : Type} {n : Nat} (t : Table α n) : List (Fin n × α) :=
  (List.finRange n).zip t.toList

/-- The table whose record of number `i` is `f i` of the old one. -/
def Table.mapNumbered {α β : Type} {n : Nat} (t : Table α n) (f : Fin n → α → β) : Table β n :=
  ⟨((List.finRange n).zipWith f t.toList).toArray, by simp⟩

@[simp] theorem Table.at_put_same {α : Type} {n : Nat} (t : Table α n) (i : Fin n) (x : α) :
    (t.put i x).at i = x := by
  simp [Table.at, Table.put]

theorem Table.at_put_ne {α : Type} {n : Nat} (t : Table α n) {i j : Fin n} (x : α) (h : i ≠ j) :
    (t.put i x).at j = t.at j := by
  have : i.val ≠ j.val := fun e => h (Fin.ext e)
  simp [Table.at, Table.put, this]

theorem Table.at_put {α : Type} {n : Nat} (t : Table α n) (i j : Fin n) (x : α) :
    (t.put i x).at j = if i = j then x else t.at j := by
  by_cases h : i = j
  · subst h; simp
  · simp [h, Table.at_put_ne t x h]

@[simp] theorem Table.at_mapNumbered {α β : Type} {n : Nat} (t : Table α n) (f : Fin n → α → β)
    (i : Fin n) : (t.mapNumbered f).at i = f i (t.at i) := by
  simp [Table.at, Table.mapNumbered]

@[simp] theorem Table.at_replicate {α : Type} {n : Nat} (x : α) (i : Fin n) :
    Table.at (Vector.replicate n x) i = x := by
  simp [Table.at]

theorem Table.ext_at {α : Type} {n : Nat} {t u : Table α n} (h : ∀ i, t.at i = u.at i) : t = u := by
  apply Vector.ext
  intro i hi
  exact h ⟨i, hi⟩

theorem Table.mem_entries {α : Type} {n : Nat} {t : Table α n} {i : Fin n} {x : α} :
    (i, x) ∈ t.entries ↔ t.at i = x := by
  unfold Table.entries Table.at
  rw [List.mem_iff_getElem]
  constructor
  · rintro ⟨k, hk, he⟩
    simp only [List.getElem_zip, List.getElem_finRange, Prod.mk.injEq] at he
    obtain ⟨hi, hx⟩ := he
    subst hi
    simpa using hx
  · intro h
    refine ⟨i.val, ?_, ?_⟩
    · simp
    · simp [List.getElem_zip, ← h]

@[simp] theorem Side.cart_side (n : Cart) (f : Face) : (n.side f).cart = n := by
  apply Fin.ext; simp [Side.cart, Cart.side]; omega

@[simp] theorem Side.face_side (n : Cart) (f : Face) : (n.side f).face = f := by
  apply Fin.ext; simp [Side.face, Cart.side]; omega

@[simp] theorem Cart.side_cart_face (s : Side) : s.cart.side s.face = s := by
  apply Fin.ext; simp [Side.cart, Side.face, Cart.side]; omega

end Sys2Proof
end

