-- ==== Sys2Proof/Syntax.lean ====
section
/-! DEFINITION. The commands of the part: one constructor of `Instr` for each row of
spec/opcode_table.json, with the data that the event carries into the part.  A command is one of the
part's whole and indivisible steps (spec/95_what_each_step_holds.md).  Operands that the server
writes keep the width their record gives them (R173), so that a value out of range can be spelled
and is judged by the rule that owns the order. -/

namespace Sys2Proof

/-- The kind field of a request as presented: READ, WRITE or another code (R36). -/
inductive KindCode where
  | read
  | write
  | other (code : BitVec 8)
  deriving DecidableEq, Repr

/-- A channel request as the channel presents it (R36). -/
structure ChannelRequest where
  tag : Tag
  kind : KindCode
  station : Station
  sba : BitVec 28
  count : BitVec 8
  copies : BitVec 8
  data : List Block
  deriving DecidableEq, Repr

/-- What a drive returns for one sector of a READ SECTORS command (R66). -/
inductive SectorAnswer where
  | good (data : Block)
  | blank
  | unreadable
  deriving DecidableEq, Repr

/-- The answer to READ SECTORS: a condition per sector, or NOT_READY (R66). -/
inductive ReadAnswer where
  | sectors (conditions : List SectorAnswer)
  | notReady
  deriving DecidableEq, Repr

/-- The answer to a WRITE SECTORS of a deed run: DONE, WRITTEN or MEDIA_ERROR at a sector, or
NOT_READY (R66, R111). -/
inductive RunWriteAnswer where
  | done
  | written (sector : Nat)
  | mediaError (sector : Nat)
  | notReady
  deriving DecidableEq, Repr

/-- The answer to a write of one sector or of a label, where the sector need not be named
(R66, R76, R118, R120). -/
inductive WriteAnswer where
  | done
  | written
  | mediaError
  | notReady
  deriving DecidableEq, Repr

/-- The answer to READ LABEL (R66): GOOD carries the label sector. -/
inductive LabelAnswer where
  | good (sector : Block)
  | blank
  | unreadable
  | notReady
  deriving DecidableEq, Repr

/-- The answer to SEARCH BLANK: a sector, NONE, MEDIA_ERROR or NOT_READY (R66). -/
inductive SearchAnswer where
  | sector (x : Nat)
  | noneBlank
  | mediaError
  | notReady
  deriving DecidableEq, Repr

/-- What the drive bus reports of one drive number at the start-up survey (R183). -/
inductive SurveyReading where
  | absent
  | empty
  | loaded
  deriving DecidableEq, Repr

/-- The commands of the part.  `key` is the level of the key line as the event samples it (R172).
An order row is one order record taken by itself (R169), its operands those of R173. -/
inductive Instr where
  /-- ACCEPTANCE (R39): the channel presents a request. -/
  | acceptance (r : ChannelRequest) (key : Bool)
  /-- WITHHELD_REQUEST_TAKEN (R37). -/
  | withheldRequestTaken (key : Bool)
  /-- DELIVERY (R49) of the request of one tag. -/
  | delivery (t : Tag)
  /-- CHANNEL_RESET (R53). -/
  | channelReset
  /-- POWER_UP (R182): the battery-good line, the drive bus survey and the mail slot sensor. -/
  | powerUp (batteryGood : Bool) (survey : Vector SurveyReading 4) (mailSensed : Bool)
  /-- STARTUP_LABEL_ANSWER (R183). -/
  | startupLabelAnswer (d : DriveNo) (a : LabelAnswer)
  /-- READ_SECTORS_ANSWER (R67). -/
  | readSectorsAnswer (d : DriveNo) (a : ReadAnswer)
  /-- DEED_WRITE_ANSWER (R111). -/
  | deedWriteAnswer (d : DriveNo) (a : RunWriteAnswer)
  /-- HOME_WRITE_ANSWER (R118). -/
  | homeWriteAnswer (d : DriveNo) (a : WriteAnswer)
  /-- SPARE_WRITE_ANSWER (R120). -/
  | spareWriteAnswer (d : DriveNo) (a : WriteAnswer)
  /-- READ_LABEL_ANSWER (R61). -/
  | readLabelAnswer (d : DriveNo) (a : LabelAnswer)
  /-- SEARCH_BLANK_ANSWER (R62). -/
  | searchBlankAnswer (d : DriveNo) (a : SearchAnswer)
  /-- WRITE_LABEL_ANSWER (R76). -/
  | writeLabelAnswer (d : DriveNo) (a : WriteAnswer)
  /-- LATE_DRIVE_ANSWER (R68). -/
  | lateDriveAnswer (d : DriveNo)
  /-- COMMAND_COUNTDOWN_EXPIRY (R72). -/
  | commandCountdownExpiry (d : DriveNo)
  /-- DWELL_EXPIRY (R69). -/
  | dwellExpiry (d : DriveNo)
  /-- LINGER_EXPIRY (R70). -/
  | lingerExpiry (d : DriveNo)
  /-- AGEING_ALARM_EXPIRY (R81). -/
  | ageingAlarmExpiry
  /-- PICKER_ORDER_COMPLETION (R87). -/
  | pickerOrderCompletion
  /-- HOME_COMPLETION (R90, R183). -/
  | homeCompletion
  /-- INVENTORY_COMPLETION (R91, R183): bit `n` is set where slot `n` reads occupied. -/
  | inventoryCompletion (occupied : BitVec 160)
  /-- PICKER_JAMMED (R88). -/
  | pickerJammed
  /-- PICKER_WATCHDOG_EXPIRY (R88). -/
  | pickerWatchdogExpiry
  /-- LATE_PICKER_ANSWER (R86). -/
  | latePickerAnswer
  /-- MAIL_SLOT_PLACED (R93). -/
  | mailSlotPlaced
  /-- MAIL_SLOT_REMOVED (R93). -/
  | mailSlotRemoved
  /-- IDLE_COUNTDOWN_EXPIRY (R148) of the ticket of one station. -/
  | idleCountdownExpiry (t : Station)
  /-- STATION_SET (R32, R33). -/
  | stationSet (station cls : BitVec 8) (base : BitVec 16) (length : BitVec 32)
      (fee account : BitVec 8) (idle : BitVec 16) (key : Bool)
  /-- TRAP_CLEAR (R30). -/
  | trapClear (flags : BitVec 32)
  /-- SIDE_ZONE_SET (R18). -/
  | sideZoneSet (side : BitVec 16) (zone : BitVec 8) (key : Bool)
  /-- CLOSURE_SET (R19). -/
  | closureSet (side : BitVec 16) (mark : BitVec 32) (key : Bool)
  /-- LIBRARY_ID_SET (R20). -/
  | libraryIdSet (libraryId : BitVec 32) (key : Bool)
  /-- LABEL_CARTRIDGE (R75). -/
  | labelCartridge (n : BitVec 16)
  /-- SCHED_PARAMS (R98). -/
  | schedParams (a d l : BitVec 16) (key : Bool)
  /-- EXPORT (R94). -/
  | exportCartridge (n : BitVec 16)
  /-- IMPORT (R96). -/
  | importCartridge (n : BitVec 16)
  /-- PICKER_RESET (R90). -/
  | pickerReset
  /-- DRIVE_RETURN (R92). -/
  | driveReturn (d : BitVec 8)
  /-- TARIFF_SET (R132). -/
  | tariffSet (book : BitVec 8) (rate : BitVec 16) (cap : BitVec 32) (key : Bool)
  /-- SIZE_FACTOR_SET (R132). -/
  | sizeFactorSet (sheet factor : BitVec 8) (key : Bool)
  /-- FEE_PARAMS (R165). -/
  | feeParams (minimum : BitVec 16) (settleStep notice : BitVec 8) (key : Bool)
  /-- TICKET_CLOSE (R152). -/
  | ticketClose (station : BitVec 8)
  /-- ACCOUNT_CREDIT (R156). -/
  | accountCredit (account : BitVec 8) (amount : BitVec 32)
  /-- ACCOUNT_WITHDRAW (R157). -/
  | accountWithdraw (account : BitVec 8) (amount : BitVec 32)
  /-- ACCOUNT_LOW_MARK (R158). -/
  | accountLowMark (account : BitVec 8) (mark : BitVec 32)
  /-- JOURNAL_RELEASE (R160). -/
  | journalRelease (n : BitVec 16)
  /-- SETTINGS_LOCK (R172). -/
  | settingsLock (target : BitVec 8) (key : Bool)
  /-- ATTENTION_MASK (R175). -/
  | attentionMask (flags : BitVec 16) (sense : BitVec 8)
  /-- ATTENTION_CLEAR (R176). -/
  | attentionClear (flags : BitVec 16)
  /-- CLOCK_SET (R180). -/
  | clockSet (seconds : BitVec 32)
  /-- UNKNOWN_ORDER (R169): a record whose code is not in the order table. -/
  | unknownOrder (code : BitVec 8)
  /-- CONTROL_WRITE_NOT_WRITABLE (R168): the channel presents such a write. -/
  | controlWriteNotWritable (r : ChannelRequest) (key : Bool)
  /-- TENTH (R179). -/
  | tenth
  deriving DecidableEq, Repr

end Sys2Proof
end

