-- ==== Sys2Proof/Decode.lean ====
section
/-! DEFINITION. The decoder that the host asks for.  No row of spec/opcode_table.json gives its
command bits (every row's "fields" is empty): the part takes its commands as events at its
connections, not as words.  So no word spells a command. -/

namespace Sys2Proof

/-- The command a word of the table's bits spells: none, since the table gives no row any bits. -/
def decodeTableWord (_nbits _w : Nat) : Option Instr := none

end Sys2Proof
end

