-- ==== Sys2Proof/Config.lean ====
section
/-! DEFINITION. The fixed quantities of the part, each with the rule of spec/ that states it.  The
spec leaves no quantity to the implementation and gives no instruction an undefined value, so this
file holds no free value. -/

namespace Sys2Proof.Config

/-- User sectors of one side (R5). -/
abbrev sectorsPerSide : Nat := 262144
/-- First VBA past the library region (R1). -/
abbrev libraryEnd : Nat := 83886080
/-- First VBA of the control region (R1). -/
abbrev controlBase : Nat := 268435200
/-- Blocks in one window granule (R22). -/
abbrev granule : Nat := 4096
/-- Granules of the whole volume (R22). -/
abbrev volumeGranules : Nat := 65536
/-- Most blocks a request may have (R2). -/
abbrev maxBlocks : Nat := 64
/-- Blocks of one staging region (R45). -/
abbrev regionBlocks : Nat := 64
/-- Most copies a request keeps (R36). -/
abbrev maxCopies : Nat := 99
/-- First sector of an INDEX side's spare pool, and the size of its home area (R8). -/
abbrev spareBase : Nat := 258048
/-- Spares of one INDEX side (R8). -/
abbrev spares : Nat := 4096
/-- Most remap entries and held places together (R115). -/
abbrev remapPlaces : Nat := 4096
/-- Entries at which the remap table is low (R125). -/
abbrev remapLowEntries : Nat := 3840
/-- Spare pointer above which an INDEX side is low (R125). -/
abbrev spareLowPointer : Nat := 3840
/-- Tenths a drive command may stay unanswered (R66). -/
abbrev commandTenths : Nat := 250
/-- Tenths a picker order may stay unanswered (R86). -/
abbrev watchdogTenths : Nat := 400
/-- Most cents on a ticket's gross, an account's balance or a low mark (R135, R155). -/
abbrev centsLimit : Nat := 99999999
/-- Places of the fee journal (R159). -/
abbrev journalPlaces : Nat := 128
/-- Places of a ticket's page list (R139). -/
abbrev pageListPlaces : Nat := 24
/-- Places of a ticket's instrument list (R140). -/
abbrev instrumentListPlaces : Nat := 8
/-- Ceiling of a ticket's pages charged (R138). -/
abbrev pagesCeiling : Nat := 65535
/-- Ceiling of a trap record's count (R29). -/
abbrev trapCeiling : Nat := 255
/-- The value at which the registry clock holds (R180). -/
abbrev clockCeiling : Nat := 4294967294
/-- Records of one order block (R169). -/
abbrev orderRecords : Nat := 64

/-- The page header signature 50h 4Ah 48h 01h of R102, read little-endian. -/
def headerSignature : BitVec 32 := 0x01484A50#32
/-- The label signature 4Ch 42h 4Ch 01h of R5, read little-endian. -/
def labelSignature : BitVec 32 := 0x014C424C#32

end Sys2Proof.Config
end

