-- ==== Sys2Proof/Machine/State.lean ====
section
/-! DEFINITION. Every record the spec gives the part, as plain data, the queue of waiting commands, and
the state after reset.  Records are grouped by the block that owns them (spec/00_scope.md, Block
diagram); each group's docstring says which of its fields the retained store keeps (R181). -/

namespace Sys2Proof.Machine

/-! ### Sides and cartridges (R5 to R13) -/

/-- A side record (R6): each zone carries its own fields.  `none` is UNKNOWN. -/
inductive SideRecord where
  | unused
  | deed (frontier : Option Nat) (remainder : Nat) (closure : Nat)
  | index (pointer : Option Nat) (closure : Nat)
  deriving DecidableEq, Repr

/-- The location of a cartridge (R10). -/
inductive Location where
  | home
  | mounted (d : DriveNo) (f : Face)
  | inPicker
  | shelfOut
  | missing
  | stuck (d : DriveNo) (f : Face)
  deriving DecidableEq, Repr

/-- The verification of a cartridge (R11). -/
inductive Verification where
  | unverified
  | verified
  | foreignBlank
  | foreignWrong
  deriving DecidableEq, Repr

/-- A cartridge record (R10, R11, R12). -/
structure CartridgeRecord where
  location : Location
  verification : Verification
  exportPending : Bool
  labellingPending : Bool
  deriving DecidableEq, Repr

/-- The lasting records of the media: side table, cartridge table and library id, all retained. -/
structure Library where
  sides : Table SideRecord 320
  cartridges : Table CartridgeRecord 160
  libraryId : BitVec 32
  deriving DecidableEq, Repr

/-! ### Stations and traps (R22, R29) -/

/-- A station class (R22). -/
inductive StationClass where
  | vacant
  | search
  | filing
  | clerk
  deriving DecidableEq, Repr

/-- The fee mode of a station, with the account of a DEPOSIT station (R22). -/
inductive FeeMode where
  | exempt
  | counter
  | deposit (account : Account)
  deriving DecidableEq, Repr

/-- A station entry (R22), retained. -/
structure StationEntry where
  cls : StationClass
  base : Nat
  length : Nat
  fee : FeeMode
  idleLimit : Nat
  deriving DecidableEq, Repr

/-- The kind of a trap (R25, R29). -/
inductive TrapKind where
  | outsideWindow
  | writeDenied
  | controlDenied
  | vacant
  deriving DecidableEq, Repr

/-- READ or WRITE, the kind an accepted request keeps (R36). -/
inductive ReqKind where
  | read
  | write
  deriving DecidableEq, Repr

/-- The latest trap of a station (R29). -/
structure Trap where
  kind : TrapKind
  request : ReqKind
  sba : Nat
  deriving DecidableEq, Repr

/-- A trap record (R29): working memory. -/
structure TrapRecord where
  latest : Option Trap
  count : Nat
  deriving DecidableEq, Repr

/-! ### Requests, pieces, queues and staging (R40 to R48) -/

/-- A completion status (R48). -/
inductive Status where
  | done
  | blank
  | windowTrap
  | beyondLibrary
  | shelfOut
  | foreignMedia
  | mediaUnavailable
  | mechanismFault
  | noDrive
  | mediaError
  | driveFault
  | depositShort
  | written
  | offFrontier
  | noHeader
  | imageOverrun
  | closed
  | spareArea
  | notWritableSide
  | sideUnresolved
  | remapFull
  | spareExhausted
  | badRequest
  | tagInUse
  | orderRefused
  | notWritableControl
  deriving DecidableEq, Repr

/-- The condition of one block of a read piece (R42). -/
inductive Cond where
  | good
  | blank
  | unreadable
  | fill
  deriving DecidableEq, Repr

/-- Where a piece lies (R41). -/
inductive Place where
  | side (s : Side) (sector : Nat)
  | gap
  | control (block : Nat)
  deriving DecidableEq, Repr

/-- A piece of a request (R42).  `status` is present once the piece is DONE.  A piece that is not
DONE is RUNNING or QUEUED as its entry in the side queue says. -/
structure Piece where
  place : Place
  count : Nat
  offset : Nat
  conds : List Cond
  status : Option Status
  deriving DecidableEq, Repr

/-- The state of a request record (R46).  A DELIVERED record is freed in the same event, so no
record holds that state. -/
inductive ReqState where
  | accepted
  | inService
  | assembled
  | heldForJournal
  deriving DecidableEq, Repr

/-- A request record (R40); its tag is its place in the request table. -/
structure Request where
  kind : ReqKind
  station : Station
  vba : Option Nat
  count : Nat
  copies : Nat
  arrival : BitVec 32
  windowTrap : Bool
  pieces : List Piece
  state : ReqState
  status : Option Status
  deriving DecidableEq, Repr

/-- To whom a queued piece belongs: a request, a request that a channel reset discarded (R54), or a
labelling (R75). -/
inductive Owner where
  | request (t : Tag)
  | orphan (kind : ReqKind) (p : Piece)
  | label
  deriving DecidableEq, Repr

/-- One entry of a side queue (R15): its stamp, and whether it is RUNNING or QUEUED. -/
structure QEntry where
  owner : Owner
  stamp : BitVec 32
  running : Bool
  deriving DecidableEq, Repr

/-- The condition of a staging region (R45). -/
inductive Region where
  | free
  | holdingWrite
  | gatheringRead
  deriving DecidableEq, Repr

/-- What the part has sent to the server on the storage channel: a refusal answer (R38) or a
delivery (R50). -/
inductive Sent where
  | refusal (t : Tag) (status : Status)
  | delivery (t : Tag) (status : Status) (blocks : List Block)
  deriving DecidableEq, Repr

/-- The channel port's records: request table, requests withheld on the channel, the order of assembly of
the requests that are ASSEMBLED or HELD_FOR_JOURNAL (R49), held list, staging regions, staging memory as
(address, block) pairs, and the answers sent, oldest first.  All working memory; `sent` is the model's own
record of what left the part. -/
structure Channel where
  requests : Table (Option Request) 32
  withheld : List ChannelRequest
  assemblyOrder : List Tag
  heldList : List Tag
  regions : Table Region 32
  staging : List (Nat × Block)
  sent : List Sent
  deriving DecidableEq, Repr

/-! ### Drives (R56) -/

/-- A countdown of a drive record that the record holds as expired once its expiry has been taken
(R69, R70). -/
inductive Countdown where
  | running (tenths : Nat)
  | expired
  deriving DecidableEq, Repr

/-- A drive command outstanding (R66), with what the part needs to take its answer.  `block` is the
block of the piece the command begins at. -/
inductive DriveCommand where
  | readSectors (block first run : Nat)
  | writeDeed (first : Nat) (data : List Block)
  | writeHome (block sector : Nat) (data : Block)
  | writeSpare (block sector homeVba : Nat) (hadEntry : Bool) (data : Block)
  | readLabel
  | writeLabel (libraryId : BitVec 32) (n : Cart) (f : Face)
  | searchBlank (start : Nat)
  deriving DecidableEq, Repr

/-- An outstanding command with its command countdown (R66). -/
structure Issued where
  command : DriveCommand
  left : Nat
  deriving DecidableEq, Repr

/-- What a drive record holds from the mount on: mounted side, mount stamp, dwell countdown, and
whether SIDE_ZONE_SET has set the side's zone since the LOAD or EXCHANGE of this mount started
(R58, R62, R69). -/
structure Mount where
  side : Side
  stamp : BitVec 32
  dwell : Countdown
  zoned : Bool
  deriving DecidableEq, Repr

/-- A drive record (R56, R57): each state carries the fields R56 gives it.  The verification step
and the current piece follow from the outstanding command.  An EMPTY drive has a countdown only
while its start-up READ LABEL is outstanding (R183). -/
inductive Drive where
  | absent
  | empty (labelLeft : Option Nat)
  | loading (side : Side) (zoned : Bool)
  | verifying (m : Mount) (c : Issued)
  | busy (m : Mount) (c : Issued)
  | idle (m : Mount) (since : BitVec 32) (linger : Countdown)
  | yielding (m : Mount) (c : Option Issued)
  | unloading (side : Side)
  | faulted
  deriving DecidableEq, Repr

/-! ### Picker, mail slot and start-up (R86, R93, R183) -/

/-- Why a cartridge is unloaded: a release (R83), a DRIVE_RETURN (R92) or start-up (R183). -/
inductive UnloadKind where
  | release
  | driveReturn
  | startup
  deriving DecidableEq, Repr

/-- A picker order with its operands and the cartridge it moves (R87). -/
inductive PickerOrder where
  | load (n : Cart) (f : Face) (d : DriveNo)
  | exchange (d : DriveNo) (n : Cart)
  | unload (d : DriveNo) (n : Cart) (why : UnloadKind)
  | mailIn (n : Cart)
  | mailOut (n : Cart) (source : Option DriveNo)
  | home
  | inventory
  deriving DecidableEq, Repr

/-- The picker record (R86).  `homingWait` is HOMING with no order current: before HOME has been
started, or while start-up waits for a drive's label (R183). -/
inductive Picker where
  | idle
  | moving (order : PickerOrder) (watchdog : Nat)
  | homing (order : PickerOrder) (watchdog : Nat)
  | homingWait
  | faulted
  deriving DecidableEq, Repr

/-- The mail slot record (R93). -/
inductive MailSlot where
  | empty
  | heldIn
  | reservedOut
  | heldOut
  deriving DecidableEq, Repr

/-- A drive identified at start-up with the cartridge and face it holds (R183). -/
structure Ident where
  drive : DriveNo
  cart : Cart
  face : Face
  deriving DecidableEq, Repr

/-- How far start-up has come (R183): power on and POWER_UP not yet taken; HOME under way; a drive's
label awaited; an UNLOAD under way; INVENTORY under way; complete. -/
inductive Startup where
  | powered
  | homing
  | identifying (d : DriveNo) (rest : List DriveNo) (found : List Ident)
  | unloading (rest : List Ident) (unloaded : List Cart)
  | inventory (unloaded : List Cart)
  | complete
  deriving DecidableEq, Repr

/-- The mechanism's records: drive table, picker, mail slot, ageing alarm, pending export, import
and drive returns, start-up chain and the drives its survey found loaded.  All working memory. -/
structure Mechanism where
  drives : Table Drive 4
  picker : Picker
  mail : MailSlot
  ageing : Option Nat
  pendingExport : Option Cart
  pendingImport : Option Cart
  returns : Table Bool 4
  startup : Startup
  surveyLoaded : List DriveNo
  deriving DecidableEq, Repr

/-- The scheduling parameters A, D and L in seconds (R98), retained. -/
structure SchedParams where
  ageLimit : Nat
  minDwell : Nat
  linger : Nat
  deriving DecidableEq, Repr

/-! ### Remap table (R115) -/

/-- A remap entry (R115). -/
structure RemapEntry where
  home : Nat
  spare : Nat
  deriving DecidableEq, Repr

/-- The remap table: its entries in ascending order of home VBA (retained), and the count of held
places (working memory). -/
structure Remap where
  entries : List RemapEntry
  held : Nat
  deriving DecidableEq, Repr

/-! ### Fees (R131, R146, R155, R159) -/

/-- The tariff and the fee parameters (R131, R165), retained. -/
structure Tariff where
  rate : Table Nat 16
  cap : Table Nat 16
  factor : Table Nat 4
  minimum : Nat
  settleStep : Nat
  notice : Nat
  deriving DecidableEq, Repr

/-- The cause of a settlement (R152). -/
inductive SettleCause where
  | order
  | idle
  | profile
  | totalLimit
  | channelReset
  | powerRestore
  deriving DecidableEq, Repr

/-- An entry of a page list (R139). -/
structure PageEntry where
  instrument : Nat
  page : Nat
  copies : Nat
  deriving DecidableEq, Repr

/-- An entry of an instrument list (R140). -/
structure InstrumentEntry where
  instrument : Nat
  total : Nat
  deriving DecidableEq, Repr

/-- The fields of a ticket that is OPEN or SETTLE_DUE (R146).  Lists are oldest first. -/
structure TicketBody where
  account : Option Account
  openStamp : Nat
  pages : Nat
  gross : Nat
  pageList : List PageEntry
  instruments : List InstrumentEntry
  deriving DecidableEq, Repr

/-- A ticket (R146): IDLE, OPEN with its idle countdown, or SETTLE_DUE with its cause and due
stamp.  All retained but the idle countdown. -/
inductive Ticket where
  | idle
  | opened (b : TicketBody) (countdown : Option Nat)
  | due (b : TicketBody) (cause : SettleCause) (stamp : Nat)
  deriving DecidableEq, Repr

/-- A deposit account (R155), retained. -/
structure DepositAccount where
  balance : Nat
  committed : Nat
  lowMark : Nat
  deriving DecidableEq, Repr

/-- A journal record (R159), retained. -/
structure JournalRecord where
  seq : BitVec 16
  station : Station
  account : Option Account
  cause : SettleCause
  pages : Nat
  gross : Nat
  minAdjust : Nat
  roundAdjust : Int
  settled : Nat
  openStamp : Nat
  settleStamp : Nat
  deriving DecidableEq, Repr

/-- Tickets, due list, accounts, journal, next sequence number and notice countdown: retained. -/
structure Ledger where
  tickets : Table Ticket 32
  dueList : List Station
  accounts : Table DepositAccount 16
  journal : List JournalRecord
  nextSeq : BitVec 16
  noticeLeft : Nat
  deriving DecidableEq, Repr

/-! ### Control region (R170, R171, R174) -/

/-- A result code (R170). -/
inductive ResultCode where
  | done
  | capped
  | trimmed
  | badValue
  | locked
  | noKey
  | unknownOrder
  | zoned
  | notZoned
  | sideUnresolved
  | notMonotone
  | clerkRequired
  | notHome
  | exportPending
  | labelling
  | notBlank
  | pickerBusy
  | notFaulted
  | returnPending
  | mailOccupied
  | unavailable
  | mailEmpty
  | importPending
  | notOut
  | ticketsOpen
  | noTicket
  | belowCommitted
  | endMark
  | noneMark
  deriving DecidableEq, Repr

/-- The order result block (R170): working memory. -/
structure OrderResult where
  number : BitVec 16
  station : Option Station
  tag : Option Tag
  examined : Nat
  refused : Nat
  blockRefused : Bool
  results : List ResultCode
  deriving DecidableEq, Repr

/-- The settings lock mode (R171), retained. -/
inductive LockMode where
  | unlocked
  | keyed
  | locked
  deriving DecidableEq, Repr

/-- The attention unit's flags (R174): bit `c - 1` for cause `c`.  Working memory. -/
structure Attention where
  pending : BitVec 12
  masked : BitVec 12
  deriving DecidableEq, Repr

/-- The registry clock when set (R180): seconds, and the tenths counted since the last second. -/
structure Clock where
  seconds : Nat
  tenth : Nat
  deriving DecidableEq, Repr

/-! ### The machine -/

/-- The state of the part.  `keyLine` is the key line's level when it was last sampled (R172).
`orderAnswer` (the model's own) is the result code of the last order taken as a command of its own.
`pending` is the queue of commands that wait, first in, first out. -/
structure State where
  lib : Library
  stations : Table StationEntry 32
  traps : Table TrapRecord 32
  chan : Channel
  queues : Table (List QEntry) 320
  mech : Mechanism
  sched : SchedParams
  remap : Remap
  tariff : Tariff
  ledger : Ledger
  orderResult : OrderResult
  lock : LockMode
  attention : Attention
  tenths : BitVec 32
  clock : Option Clock
  keyLine : Bool
  orderAnswer : Option ResultCode
  pending : List Instr
  deriving DecidableEq, Repr

/-- Why the part's run stops. -/
inductive Fault where
  /-- A drive answers its outstanding command with an answer that R66 does not list for it (another
  command's answer, a condition count that is not the run's, a sector outside the run or below the
  search's start), or the picker answers INVENTORY without the readings of R86.  Raised by the drive
  answers, PICKER_ORDER_COMPLETION and HOME_COMPLETION.  Safe: the spec says that the mechanism does
  not do this, and gives it no effect. -/
  | answerOutsideProtocol
  deriving DecidableEq, Repr

/-- Why a command has no meaning here. -/
inductive Refusal where
  /-- The command has no meaning in the model.  No arm of `exec` answers it.  Safe. -/
  | notModelled (mnemonic : String)
  deriving DecidableEq, Repr

/-! ### The state after reset -/

/-- The station entry that a VACANT station holds (R23). -/
def vacantEntry : StationEntry :=
  ⟨.vacant, 0, 1, .exempt, 0⟩

/-- Station 0 after a lost retained store: CLERK over the whole volume (R23). -/
def clerkEntry : StationEntry :=
  ⟨.clerk, 0, Config.volumeGranules, .exempt, 0⟩

/-- The lasting media records after a lost retained store (R9, R13, R20). -/
def Library.lost : Library where
  sides := Vector.replicate 320 .unused
  cartridges := Vector.replicate 160 ⟨.home, .unverified, false, false⟩
  libraryId := 0

/-- The station table after a lost retained store (R23). -/
def lostStations : Table StationEntry 32 :=
  Table.put (Vector.replicate 32 vacantEntry) 0 clerkEntry

/-- A cleared trap record (R30). -/
def TrapRecord.cleared : TrapRecord := ⟨none, 0⟩

/-- Tariff and fee parameters after a lost retained store (R131, R165). -/
def Tariff.lost : Tariff where
  rate := Vector.replicate 16 0
  cap := Vector.replicate 16 0
  factor := Vector.replicate 4 4
  minimum := 0
  settleStep := 1
  notice := 1

/-- Tickets, accounts and journal after a lost retained store (R154, R155, R159, R164). -/
def Ledger.lost : Ledger where
  tickets := Vector.replicate 32 .idle
  dueList := []
  accounts := Vector.replicate 16 ⟨0, 0, 0⟩
  journal := []
  nextSeq := 0
  noticeLeft := 1

/-- The scheduling parameters after a lost retained store (R98). -/
def SchedParams.lost : SchedParams := ⟨45, 8, 20⟩

/-- The order result block at power-up (R170). -/
def OrderResult.powerUp : OrderResult where
  number := 0
  station := none
  tag := none
  examined := 0
  refused := 0
  blockRefused := false
  results := List.replicate 64 .noneMark

/-- The channel port's records at power-up (R55), nothing sent. -/
def Channel.empty : Channel where
  requests := Vector.replicate 32 none
  withheld := []
  assemblyOrder := []
  heldList := []
  regions := Vector.replicate 32 .free
  staging := []
  sent := []

/-- The mechanism's records before the survey (R57, R99): no drive has answered on the bus. -/
def Mechanism.powered : Mechanism where
  drives := Vector.replicate 4 .absent
  picker := .homingWait
  mail := .empty
  ageing := none
  pendingExport := none
  pendingImport := none
  returns := Vector.replicate 4 false
  startup := .powered
  surveyLoaded := []

/-- The part right after reset: power on with a lost retained store (R182), every record at its
default or starting value, causes 11 and 12 raised, and the mechanism part of start-up not yet
begun (POWER_UP begins it). -/
def State.reset : State where
  lib := .lost
  stations := lostStations
  traps := Vector.replicate 32 .cleared
  chan := .empty
  queues := Vector.replicate 320 []
  mech := .powered
  sched := .lost
  remap := ⟨[], 0⟩
  tariff := .lost
  ledger := .lost
  orderResult := .powerUp
  lock := .unlocked
  attention := ⟨0b110000000000#12, 0#12⟩
  tenths := 0
  clock := none
  keyLine := false
  orderAnswer := none
  pending := []

end Sys2Proof.Machine
end

