-- ==== Sys2Proof/Machine/Operands.lean ====
section
/-! DEFINITION. How fields are read from and written into blocks and order records (R178): numbers are
little-endian, an absent field is all bytes FFh, an UNKNOWN one reads FFFFFFFEh; and the page header
of R102. -/

namespace Sys2Proof.Machine

/-- The number in `size` bytes of a block from byte `off` (R178). -/
def blockField (b : Block) (off size : Nat) : Nat :=
  (b.extractLsb' (8 * off) (8 * size)).toNat

/-- An order record: 16 bytes (R169). -/
abbrev OrderRecord := BitVec 128

/-- Order record `i` of an order block (R169). -/
def orderRecord (b : Block) (i : Nat) : OrderRecord := b.extractLsb' (128 * i) 128

/-- The operand of `size` bytes at byte `off` of an order record (R173). -/
def operand (r : OrderRecord) (off size : Nat) : BitVec (8 * size) :=
  r.extractLsb' (8 * off) (8 * size)

/-- The fields of a page header that the part reads (R102, R178). -/
structure PageHeader where
  instrument : Nat
  page : Nat
  book : Fin 16
  sheet : Fin 4
  length : Nat
  deriving DecidableEq, Repr

/-- The sum of the first 16 little-endian words of a block (R102). -/
def headerSum (b : Block) : Nat :=
  ((List.range 16).map fun i => blockField b (2 * i) 2).sum

/-- A block that is a valid header, read as one (R102). -/
def validHeader (b : Block) : Option PageHeader :=
  let book := blockField b 12 1
  let sheet := blockField b 13 1
  let len := blockField b 14 2
  if h : blockField b 0 4 = Config.headerSignature.toNat ∧ book < 16 ∧ sheet < 4 ∧
      2 ≤ len ∧ len ≤ 2048 ∧ headerSum b % 65536 = 0 then
    some ⟨blockField b 4 4, blockField b 8 2, ⟨book, h.2.1⟩, ⟨sheet, h.2.2.1⟩, len⟩
  else none

/-- The fields of a label sector that the part compares (R5, R178). -/
structure Label where
  signature : BitVec 32
  libraryId : BitVec 32
  cartridge : BitVec 16
  face : BitVec 8
  deriving DecidableEq, Repr

/-- The label in a label sector; the bytes from 11 on are not compared (R178). -/
def readLabel (b : Block) : Label where
  signature := b.extractLsb' 0 32
  libraryId := b.extractLsb' 32 32
  cartridge := b.extractLsb' 64 16
  face := b.extractLsb' 80 8

/-- The label sector that WRITE LABEL writes for a face of a cartridge, zero from byte 11 on (R66,
R178). -/
def labelSector (libraryId : BitVec 32) (n : Cart) (f : Face) : Block :=
  (BitVec.ofNat 8 f.val ++ BitVec.ofNat 16 n.val ++ libraryId ++
    Config.labelSignature).setWidth 8192

/-- One field of a report block: `size` bytes at byte `off` (R178). -/
structure Field where
  off : Nat
  size : Nat
  value : Nat
  deriving DecidableEq, Repr

/-- The all-FFh value of an absent field (R178). -/
def absentValue (size : Nat) : Nat := 256 ^ size - 1

/-- The value of an UNKNOWN frontier or spare pointer (R178). -/
def unknownValue : Nat := 0xFFFFFFFE

/-- The value of an expired countdown (R178). -/
def expiredValue : Nat := 0xFFFE

/-- A field that may be absent (R178). -/
def optField (off size : Nat) (v : Option Nat) : Field :=
  ⟨off, size, v.getD (absentValue size)⟩

/-- The fields of an entry, moved to the entry's place in its block. -/
def atOffset (base : Nat) (fs : List Field) : List Field :=
  fs.map fun f => { f with off := base + f.off }

/-- A report block: every byte that no field occupies reads 00h (R178). -/
def reportBlock (fs : List Field) : Block :=
  BitVec.ofNat 8192 (fs.foldl (fun a f => a ||| ((f.value % 256 ^ f.size) <<< (8 * f.off))) 0)

/-- A flag as a byte. -/
def flagValue (b : Bool) : Nat := if b then 1 else 0

/-- A set of flags, bit `i` for number `i` (R178). -/
def flagSet (bs : List Bool) : Nat :=
  bs.foldr (fun b a => flagValue b + 2 * a) 0

/-- A list of entries as fields: entry `i` at `base + step * i` for each of `places` places, a place
past the list's end reading all FFh (R178). -/
def listFields {α : Type} (base step places : Nat) (fields : α → List Field) (l : List α) :
    List Field :=
  ((List.range places).map fun i =>
    match l[i]? with
    | some x => atOffset (base + step * i) (fields x)
    | none => [⟨base + step * i, step, absentValue step⟩]).flatten

end Sys2Proof.Machine
end

