-- ==== Sys2Proof/Machine/Flags.lean ====
section
/-! DEFINITION. The attention unit: the twelve causes, their pending and mask flags, the conditions of
the level causes, and the two values that follow from the flags (R174 to R176). -/

namespace Sys2Proof.Machine

/-- The attention causes 1..12 (R174). -/
inductive Cause where
  | pickerFault
  | driveFault
  | journalFull
  | journalNotice
  | mailSlot
  | windowTrap
  | foreignMedia
  | remapLow
  | depositLow
  | sideFull
  | retainedLost
  | clockUnset
  deriving DecidableEq, Repr

/-- The flag position of a cause: bit `c - 1` for cause `c` (R178). -/
def Cause.bit : Cause → Nat
  | .pickerFault => 0
  | .driveFault => 1
  | .journalFull => 2
  | .journalNotice => 3
  | .mailSlot => 4
  | .windowTrap => 5
  | .foreignMedia => 6
  | .remapLow => 7
  | .depositLow => 8
  | .sideFull => 9
  | .retainedLost => 10
  | .clockUnset => 11

/-- The flag set that holds one cause alone. -/
def Cause.flag (c : Cause) : BitVec 12 := 1#12 <<< c.bit

/-- The level causes, in ascending order (R174). -/
def levelCauses : List Cause := [.journalFull, .remapLow, .depositLow, .clockUnset]

/-- Is the cause pending? -/
def Attention.isPending (a : Attention) (c : Cause) : Bool := a.pending.getLsbD c.bit

/-- Is the cause masked? -/
def Attention.isMasked (a : Attention) (c : Cause) : Bool := a.masked.getLsbD c.bit

/-- The attention line: on while some cause is pending and unmasked (R174). -/
def Attention.line (a : Attention) : Bool := (a.pending &&& ~~~a.masked) != 0#12

/-- The first cause: the lowest-numbered cause pending and unmasked, or 0 (R174). -/
def Attention.firstCause (a : Attention) : Nat :=
  match (List.range 12).find? fun i => (a.pending &&& ~~~a.masked).getLsbD i with
  | some i => i + 1
  | none => 0

/-- Set a cause's pending flag (R174). -/
def State.raise (s : State) (c : Cause) : State :=
  { s with attention := { s.attention with pending := s.attention.pending ||| c.flag } }

/-- The condition of cause 3: the journal holds 128 records (R163). -/
def Ledger.isFull (l : Ledger) : Bool := Config.journalPlaces ≤ l.journal.length

/-- An INDEX side with a known pointer above 3840 (R125). -/
def SideRecord.isLow : SideRecord → Bool
  | .index (some p) _ => Config.spareLowPointer < p
  | _ => false

/-- The condition of cause 8 (R125). -/
def State.remapIsLow (s : State) : Bool :=
  Config.remapLowEntries ≤ s.remap.entries.length || s.lib.sides.toList.any SideRecord.isLow

/-- The uncommitted balance of an account (R155). -/
def DepositAccount.uncommitted (a : DepositAccount) : Nat := a.balance - a.committed

/-- The condition of cause 9 (R158). -/
def Ledger.depositIsLow (l : Ledger) : Bool :=
  l.accounts.toList.any fun a => a.uncommitted < a.lowMark

/-- The condition of a level cause, from the records as they stand (R176).  An edge cause has
none. -/
def State.levelHolds (s : State) : Cause → Bool
  | .journalFull => s.ledger.isFull
  | .remapLow => s.remapIsLow
  | .depositLow => s.ledger.depositIsLow
  | .clockUnset => s.clock.isNone
  | _ => false

/-- Recompute a level cause: pending is set where the condition holds, and left as it stands where
it does not (R174). -/
def State.recompute (s : State) (c : Cause) : State :=
  if s.levelHolds c then s.raise c else s

/-- The flags of the level causes whose condition holds. -/
def State.heldFlags (s : State) : BitVec 12 :=
  (levelCauses.filter fun c => s.levelHolds c).foldl (fun f c => f ||| c.flag) 0#12

/-- Clear the given causes, but for level causes whose condition holds (R176). -/
def State.clearCauses (s : State) (flags : BitVec 12) : State :=
  { s with attention :=
      { s.attention with
        pending := s.attention.pending &&& (~~~flags ||| s.heldFlags) } }

/-- Set or clear the mask flags of the given causes (R175). -/
def State.maskCauses (s : State) (flags : BitVec 12) (set : Bool) : State :=
  { s with attention :=
      { s.attention with
        masked := if set then s.attention.masked ||| flags
          else s.attention.masked &&& ~~~flags } }

end Sys2Proof.Machine
end

