-- ==== Sys2Proof/Machine/Ops.lean ====
section
/-! DEFINITION. The shared operations over the part's records: reading and replacing one record, staging
memory, the status ranking, the standing test and its refusals, side queues, and the completion of
pieces (R14 to R17, R45 to R48).  The part takes no exception: a fault of a drive or of the picker is
an event whose whole effect is on these records. -/

namespace Sys2Proof.Machine

/-! ### One record -/

def State.side (s : State) (x : Side) : SideRecord := s.lib.sides.at x
def State.cart (s : State) (n : Cart) : CartridgeRecord := s.lib.cartridges.at n
def State.queue (s : State) (x : Side) : List QEntry := s.queues.at x
def State.drive (s : State) (d : DriveNo) : Drive := s.mech.drives.at d
def State.request (s : State) (t : Tag) : Option Request := s.chan.requests.at t
def State.station (s : State) (t : Station) : StationEntry := s.stations.at t
def State.ticket (s : State) (t : Station) : Ticket := s.ledger.tickets.at t
def State.account (s : State) (a : Account) : DepositAccount := s.ledger.accounts.at a

def State.setSide (s : State) (x : Side) (r : SideRecord) : State :=
  { s with lib := { s.lib with sides := s.lib.sides.put x r } }
def State.setCart (s : State) (n : Cart) (r : CartridgeRecord) : State :=
  { s with lib := { s.lib with cartridges := s.lib.cartridges.put n r } }
def State.setQueue (s : State) (x : Side) (q : List QEntry) : State :=
  { s with queues := s.queues.put x q }
def State.setDrive (s : State) (d : DriveNo) (r : Drive) : State :=
  { s with mech := { s.mech with drives := s.mech.drives.put d r } }
def State.setPicker (s : State) (p : Picker) : State :=
  { s with mech := { s.mech with picker := p } }
def State.setMail (s : State) (m : MailSlot) : State :=
  { s with mech := { s.mech with mail := m } }
def State.setExport (s : State) (n : Option Cart) : State :=
  { s with mech := { s.mech with pendingExport := n } }
def State.setImport (s : State) (n : Option Cart) : State :=
  { s with mech := { s.mech with pendingImport := n } }
def State.setReturn (s : State) (d : DriveNo) (b : Bool) : State :=
  { s with mech := { s.mech with returns := s.mech.returns.put d b } }
def State.setStartup (s : State) (u : Startup) : State :=
  { s with mech := { s.mech with startup := u } }
def State.setAgeing (s : State) (a : Option Nat) : State :=
  { s with mech := { s.mech with ageing := a } }
def State.setRequest (s : State) (t : Tag) (r : Option Request) : State :=
  { s with chan := { s.chan with requests := s.chan.requests.put t r } }
def State.setRegion (s : State) (t : Tag) (r : Region) : State :=
  { s with chan := { s.chan with regions := s.chan.regions.put t r } }
def State.setStaging (s : State) (m : List (Nat × Block)) : State :=
  { s with chan := { s.chan with staging := m } }
def State.send (s : State) (a : Sent) : State :=
  { s with chan := { s.chan with sent := s.chan.sent ++ [a] } }
def State.setAssembly (s : State) (l : List Tag) : State :=
  { s with chan := { s.chan with assemblyOrder := l } }
def State.setHeld (s : State) (l : List Tag) : State :=
  { s with chan := { s.chan with heldList := l } }
def State.setTicket (s : State) (t : Station) (k : Ticket) : State :=
  { s with ledger := { s.ledger with tickets := s.ledger.tickets.put t k } }
def State.setAccount (s : State) (a : Account) (r : DepositAccount) : State :=
  { s with ledger := { s.ledger with accounts := s.ledger.accounts.put a r } }
def State.setTrap (s : State) (t : Station) (r : TrapRecord) : State :=
  { s with traps := s.traps.put t r }
def State.setStation (s : State) (t : Station) (e : StationEntry) : State :=
  { s with stations := s.stations.put t e }
def State.setRemap (s : State) (r : Remap) : State := { s with remap := r }

/-- The key line's level as an event samples it (R172). -/
def State.sampleKey (s : State) (key : Bool) : State := { s with keyLine := key }

/-- The registry clock as a stamp: whole seconds, or 0 while the clock is unset (R180). -/
def State.clockStamp (s : State) : Nat :=
  match s.clock with
  | some c => c.seconds
  | none => 0

/-- The time elapsed since a stamp, modulo 2^32 (R179). -/
def State.elapsed (s : State) (stamp : BitVec 32) : Nat := (s.tenths - stamp).toNat

/-- The lowest number in `0..n-1` that a test accepts. -/
def lowest (n : Nat) (p : Fin n → Bool) : Option (Fin n) := (List.finRange n).find? p

/-! ### Staging memory (R45) -/

/-- The address of a block of a region: region `k` belongs to tag `k` (R45). -/
def stagingAddress (t : Tag) (i : Nat) : Nat := t.val * Config.regionBlocks + i

/-- What a staging address reads as.  DESIGN CHOICE: an address that nothing has written since its
region was last free reads as a fill block (log entry 4). -/
def stagingRead : List (Nat × Block) → Nat → Block
  | [], _ => fillBlock
  | (k, v) :: m, a => if k = a then v else stagingRead m a

/-- Write one block, keeping the canonical form. -/
def stagingWrite : List (Nat × Block) → Nat → Block → List (Nat × Block)
  | [], a, b => if b = fillBlock then [] else [(a, b)]
  | (k, v) :: m, a, b =>
    if a < k then if b = fillBlock then (k, v) :: m else (a, b) :: (k, v) :: m
    else if k = a then if b = fillBlock then m else (a, b) :: m
    else (k, v) :: stagingWrite m a b

/-- Write consecutive blocks from an address. -/
def stagingWriteRun (m : List (Nat × Block)) (a : Nat) : List Block → List (Nat × Block)
  | [] => m
  | b :: bs => stagingWriteRun (stagingWrite m a b) (a + 1) bs

/-- Discard `n` blocks from an address. -/
def stagingDiscard (m : List (Nat × Block)) (a n : Nat) : List (Nat × Block) :=
  m.filter fun e => e.1 < a || a + n ≤ e.1

/-- The canonical form: addresses strictly rising, none listed that reads as an unlisted one. -/
def stagingWf : List (Nat × Block) → Bool
  | [] => true
  | (k, v) :: m => v != fillBlock && m.all (fun e => k < e.1) && stagingWf m

/-- Discard part of a tag's region (R43, R44). -/
def State.discardData (s : State) (t : Tag) (off n : Nat) : State :=
  s.setStaging (stagingDiscard s.chan.staging (stagingAddress t off) n)

/-- Free a tag's region (R45, R51). -/
def State.freeRegion (s : State) (t : Tag) : State :=
  (s.discardData t 0 Config.regionBlocks).setRegion t .free

/-- The blocks of a tag's region from an offset on. -/
def State.stagedRun (s : State) (t : Tag) (off n : Nat) : List Block :=
  (List.range n).map fun i => stagingRead s.chan.staging (stagingAddress t (off + i))

/-! ### Status ranking (R48) -/

/-- The rank of a status (R48). -/
def Status.rank : Status → Nat
  | .done => 1
  | .blank => 2
  | .windowTrap => 3
  | .beyondLibrary => 4
  | .shelfOut => 5
  | .foreignMedia => 6
  | .mediaUnavailable => 7
  | .mechanismFault => 8
  | .noDrive => 9
  | .mediaError => 10
  | .driveFault => 11
  | .depositShort => 12
  | .written => 13
  | .offFrontier => 13
  | .noHeader => 13
  | .imageOverrun => 13
  | .closed => 13
  | .spareArea => 13
  | .notWritableSide => 13
  | .sideUnresolved => 13
  | .remapFull => 13
  | .spareExhausted => 13
  | .badRequest => 14
  | .tagInUse => 14
  | .orderRefused => 14
  | .notWritableControl => 14

/-- The higher-ranked of two statuses; at equal rank the first stands (R48). -/
def Status.worse (a b : Status) : Status := if a.rank < b.rank then b else a

/-- The highest-ranked of a list of statuses, the earliest at equal rank; DONE for none (R48). -/
def Status.highest (l : List Status) : Status := l.foldl Status.worse .done

/-! ### Mounted sides and the standing test (R10, R14, R56) -/

/-- The mounted side a drive record names (R56). -/
def Drive.side? : Drive → Option Side
  | .absent => none
  | .empty _ => none
  | .loading x _ => some x
  | .verifying m _ => some m.side
  | .busy m _ => some m.side
  | .idle m _ _ => some m.side
  | .yielding m _ => some m.side
  | .unloading x => some x
  | .faulted => none

/-- A drive is in service while neither ABSENT nor FAULTED (R56). -/
def Drive.inService : Drive → Bool
  | .absent => false
  | .faulted => false
  | _ => true

/-- The drive that has a side mounted (R10). -/
def State.mountedIn (s : State) (x : Side) : Option DriveNo :=
  lowest 4 fun d => decide ((s.drive d).side? = some x)

/-- A side is mounted while some drive record names it (R10). -/
def State.isMounted (s : State) (x : Side) : Bool := (s.mountedIn x).isSome

/-- Is any drive in service? (R14, R56) -/
def State.anyDrive (s : State) : Bool := s.mech.drives.toList.any Drive.inService

/-- FOREIGN_BLANK or FOREIGN_WRONG (R11). -/
def Verification.isForeign : Verification → Bool
  | .foreignBlank => true
  | .foreignWrong => true
  | _ => false

/-- The standing test of a piece on a side (R14): the refusing status, or none where the piece is
available. -/
def State.standing (s : State) (x : Side) (isLabel : Bool) : Option Status :=
  let c := s.cart x.cart
  if c.location = .shelfOut ∨ c.exportPending then some .shelfOut
  else if (c.verification.isForeign ∨ c.labellingPending) ∧
      ¬ (isLabel ∧ c.labellingPending) then some .foreignMedia
  else
    match c.location with
    | .missing => some .mediaUnavailable
    | .stuck _ _ => some .mediaUnavailable
    | _ =>
      if s.isMounted x then none
      else if s.mech.picker = .faulted then some .mechanismFault
      else if ¬ s.anyDrive then some .noDrive
      else none

/-! ### Completion of pieces (R47, R48) -/

/-- Does the piece lie on this side? -/
def Piece.onSide (p : Piece) (x : Side) : Bool :=
  match p.place with
  | .side y _ => y = x
  | _ => false

/-- The piece of a request that lies on a side: there is at most one (R15). -/
def Request.pieceOn (r : Request) (x : Side) : Option Piece :=
  r.pieces.find? fun p => p.onSide x

/-- Change the piece of a request that lies on a side. -/
def Request.mapPiece (r : Request) (x : Side) (f : Piece → Piece) : Request :=
  { r with pieces := r.pieces.map fun p => if p.onSide x then f p else p }

/-- Complete a piece; a piece is completed once (R47). -/
def Piece.finish (st : Status) (p : Piece) : Piece :=
  match p.status with
  | none => { p with status := some st }
  | some _ => p

/-- A request's status at assembly (R48). -/
def Request.ranked (r : Request) : Status :=
  Status.highest ((if r.windowTrap then [.windowTrap] else []) ++ r.pieces.filterMap (·.status))

/-- The states in which a request still awaits a piece (R46). -/
def ReqState.isOpen : ReqState → Bool
  | .accepted => true
  | .inService => true
  | _ => false

/-- A request in ACCEPTED or IN_SERVICE whose every piece is DONE (R46, R47). -/
def Request.isComplete (r : Request) : Bool :=
  r.state.isOpen && r.pieces.all fun p => p.status.isSome

/-- A complete request becomes ASSEMBLED with its ranked status (R46, R47). -/
def Request.checkAssembled (r : Request) : Request :=
  if r.isComplete then { r with state := .assembled, status := some r.ranked } else r

/-- The request of a tag is the last to have become ASSEMBLED (R49). -/
def State.noteAssembled (s : State) (t : Tag) : State := s.setAssembly (s.chan.assemblyOrder ++ [t])

/-- A request checks its pieces, and takes its place in the order of assembly where it is complete (R47,
R49). -/
def State.checkRequest (s : State) (t : Tag) (r : Request) : State :=
  let s := s.setRequest t (some r.checkAssembled)
  if r.isComplete then s.noteAssembled t else s

/-- The piece of a request on a side completes with a status (R47). -/
def State.finishPiece (s : State) (t : Tag) (x : Side) (st : Status) : State :=
  match s.request t with
  | none => s
  | some r => s.checkRequest t (r.mapPiece x (Piece.finish st))

/-- The labelling of a cartridge fails (R76): nothing where no labelling is pending any more. -/
def State.failLabelling (s : State) (n : Cart) : State :=
  let c := s.cart n
  if c.labellingPending then
    (s.setCart n { c with verification := .foreignWrong, labellingPending := false }).raise
      .foreignMedia
  else s

/-! ### Refusal of queued pieces (R16) -/

def Owner.isLabel : Owner → Bool
  | .label => true
  | _ => false

/-- The refusal that a queue entry meets now: a RUNNING piece is never refused (R16). -/
def State.refusal (s : State) (x : Side) (e : QEntry) : Option Status :=
  if e.running then none else s.standing x e.owner.isLabel

/-- The entries of the tested sides that the standing test now refuses, by side and in queue order. -/
def State.refusals (s : State) (tested : Side → Bool) : List (Side × QEntry × Status) :=
  s.queues.entries.flatMap fun (x, q) =>
    if tested x then q.filterMap fun e => (s.refusal x e).map fun st => (x, e, st) else []

/-- One refused entry completes in place: a request's piece with the status, a label piece by
failing (R16, R76). -/
def State.refuseEntry (s : State) (h : Side × QEntry × Status) : State :=
  match h.2.1.owner with
  | .request t => s.finishPiece t h.1 h.2.2
  | .orphan _ _ => s
  | .label => s.failLabelling h.1.cart

/-- Every refused entry leaves its queue; the entries behind it keep their order (R16). -/
def State.dropRefused (s : State) (tested : Side → Bool) : State :=
  { s with queues := s.queues.mapNumbered fun x q =>
      if tested x then q.filter fun e => (s.refusal x e).isNone else q }

def State.sweepOnce (s : State) (tested : Side → Bool) : State :=
  (s.refusals tested).foldl State.refuseEntry (s.dropRefused tested)

/-- The standing of the tested sides is tested again (R16).  A labelling that fails in the first pass
leaves its other face's label piece to the second (R76). -/
def State.sweepOn (s : State) (tested : Side → Bool) : State :=
  (s.sweepOnce tested).sweepOnce tested

/-- The standing test after a change of the picker state or of the drives in service: every side is
tested (R16). -/
def State.sweep (s : State) : State := s.sweepOn fun _ => true

/-- The standing test after a change of one cartridge's location, verification or flags: both its
faces are tested (R16). -/
def State.sweepCart (s : State) (n : Cart) : State := s.sweepOn fun x => x.cart = n

/-! ### Joining a queue (R15) -/

/-- A piece joins the back of a side's queue as QUEUED (R15). -/
def State.join (s : State) (x : Side) (o : Owner) (stamp : BitVec 32) : State :=
  s.setQueue x (s.queue x ++ [⟨o, stamp, false⟩])

/-! ### The pending export (R12, R95) -/

/-- The pending export of a cartridge ends without a MAIL_OUT: the flag is cleared and the mail slot
returns to EMPTY (R12, R88, R91, R95). -/
def State.dropExport (s : State) (n : Cart) : State :=
  if (s.cart n).exportPending then
    (((s.setCart n { s.cart n with exportPending := false }).setExport none).setMail .empty)
  else s

/-- Change a cartridge's location. -/
def State.moveCart (s : State) (n : Cart) (l : Location) : State :=
  s.setCart n { s.cart n with location := l }

/-! ### Remap table (R115) -/

/-- The home VBA of a home block (R114). -/
def homeVba (x : Side) (sector : Nat) : Nat := x.val * Config.sectorsPerSide + sector

/-- The spare of a home block that has an entry (R115). -/
def Remap.lookup (r : Remap) (home : Nat) : Option Nat :=
  (r.entries.find? fun e => e.home = home).map (·.spare)

/-- Create or replace the entry of a home block, keeping ascending order of home VBA. -/
def remapInsert (home spare : Nat) : List RemapEntry → List RemapEntry
  | [] => [⟨home, spare⟩]
  | e :: l =>
    if home < e.home then ⟨home, spare⟩ :: e :: l
    else if e.home = home then ⟨home, spare⟩ :: l
    else e :: remapInsert home spare l

/-- The entry of the home block at a sector of a side: only home blocks have entries (R123). -/
def State.spareOf (s : State) (x : Side) (sector : Nat) : Option Nat :=
  if sector < Config.spareBase then s.remap.lookup (homeVba x sector) else none

/-! ### Frontiers and spare pointers -/

/-- The spare pointer of an INDEX side, where it is known (R8). -/
def SideRecord.pointer? : SideRecord → Option Nat
  | .index p _ => p
  | _ => none

/-- The next spare is issued: the pointer advances in the event of the issue (R8, R114). -/
def State.advancePointer (s : State) (x : Side) : State :=
  match s.side x with
  | .index (some p) c => (s.setSide x (.index (some (p + 1)) c)).recompute .remapLow
  | _ => s

end Sys2Proof.Machine
end

