-- ==== Sys2Proof/Machine/Fees.lean ====
section
/-! DEFINITION. The fee reckoner, the tickets, the journal and delivery: the settle function and
settlement (R149 to R151), the stages of a charge (R130 to R140), what a delivery returns and frees
(R49 to R51), held requests and the drain (R129, R160 to R162). -/

namespace Sys2Proof.Machine

/-! ### The settle function and settlement -/

/-- The base of the settle function: the greater of gross and minimum, 0 for a gross of 0 (R149). -/
def Tariff.base (T : Tariff) (x : Nat) : Nat := if x = 0 then 0 else max x T.minimum

/-- The settled total of a gross (R149). -/
def Tariff.settle (T : Tariff) (x : Nat) : Nat :=
  if x = 0 then 0 else (T.base x + T.settleStep / 2) / T.settleStep * T.settleStep

/-- The journal has a free place (R150). -/
def State.journalFree (s : State) : Bool := !s.ledger.isFull

/-- Enter a record at the back of the journal: the next sequence number and the notice countdown
move on, and causes 3 and 4 follow (R150, R159, R163, R164). -/
def State.enterJournal (s : State) (r : BitVec 16 → JournalRecord) : State :=
  let l := s.ledger
  let atZero := l.noticeLeft ≤ 1
  let s := { s with ledger :=
    { l with
      journal := l.journal ++ [r l.nextSeq]
      nextSeq := l.nextSeq + 1
      noticeLeft := if atZero then s.tariff.notice else l.noticeLeft - 1 } }
  (if atZero then s.raise .journalNotice else s).recompute .journalFull

/-- Debit a settlement from its account: balance and committed alike (R150). -/
def State.debit (s : State) (account : Option Account) (amount : Nat) : State :=
  match account with
  | none => s
  | some a =>
    let r := s.account a
    (s.setAccount a
      { r with balance := r.balance - amount, committed := r.committed - amount }).recompute
        .depositLow

/-- The journal record of a settlement (R150, R159). -/
def settlementRecord (T : Tariff) (t : Station) (b : TicketBody) (cause : SettleCause)
    (stamp : Nat) (seq : BitVec 16) : JournalRecord where
  seq := seq
  station := t
  account := b.account
  cause := cause
  pages := b.pages
  gross := b.gross
  minAdjust := T.base b.gross - b.gross
  roundAdjust := (T.settle b.gross : Int) - (T.base b.gross : Int)
  settled := T.settle b.gross
  openStamp := b.openStamp
  settleStamp := stamp

/-- The settlement of a ticket with a free journal place (R150): debit, journal entry, ticket IDLE
and off the due list. -/
def State.settleBody (s : State) (t : Station) (b : TicketBody) (cause : SettleCause)
    (stamp : Nat) : State :=
  let s := s.debit b.account (s.tariff.settle b.gross)
  let s := s.enterJournal (settlementRecord s.tariff t b cause stamp)
  { s with ledger :=
    { s.ledger with
      tickets := s.ledger.tickets.put t .idle
      dueList := s.ledger.dueList.filter fun u => u ≠ t } }

/-- A settling event reaches a ticket: an OPEN one settles (R150) or, on a full journal, becomes
SETTLE_DUE at the back of the due list (R151); an IDLE or due one is left as it is. -/
def State.settleEvent (s : State) (t : Station) (cause : SettleCause) : State :=
  match s.ticket t with
  | .opened b _ =>
    if s.journalFree then s.settleBody t b cause s.clockStamp
    else
      { s with ledger :=
        { s.ledger with
          tickets := s.ledger.tickets.put t (.due b cause s.clockStamp)
          dueList := s.ledger.dueList ++ [t] } }
  | _ => s

/-- A settling event that reaches every ticket, in ascending station order (R153, R154). -/
def State.settleAll (s : State) (cause : SettleCause) : State :=
  (List.finRange 32).foldl (fun s t => s.settleEvent t cause) s

/-! ### Reading a ticket -/

def Ticket.body? : Ticket → Option TicketBody
  | .idle => none
  | .opened b _ => some b
  | .due b _ _ => some b

/-- The gross of a ticket, 0 when IDLE (R136). -/
def Ticket.gross (k : Ticket) : Nat := (k.body?.map (·.gross)).getD 0

/-- Copies charged in the page list entry of (n, p), or 0 (R134). -/
def Ticket.copiesOf (k : Ticket) (n p : Nat) : Nat :=
  ((k.body?.bind fun b => b.pageList.find? fun e => e.instrument = n ∧ e.page = p).map
    (·.copies)).getD 0

/-- Charged total in the instrument list entry of n, or 0 (R135). -/
def Ticket.totalOf (k : Ticket) (n : Nat) : Nat :=
  ((k.body?.bind fun b => b.instruments.find? fun e => e.instrument = n).map (·.total)).getD 0

def Ticket.isDue : Ticket → Bool
  | .due _ _ _ => true
  | _ => false

/-- OPEN or SETTLE_DUE (R165). -/
def Ticket.isLive : Ticket → Bool
  | .idle => false
  | _ => true

/-! ### The two lists of a ticket (R139, R140) -/

/-- The entry of a key takes the newest place; where the key is new and the list is full, the oldest
entry is removed. -/
def newestEntry {α : Type} (same : α → Bool) (places : Nat) (e : α) (l : List α) : List α :=
  let kept := l.filter fun x => !same x
  (if kept.length = l.length ∧ places ≤ l.length then kept.tail else kept) ++ [e]

def pageTake (n p k : Nat) (l : List PageEntry) : List PageEntry :=
  newestEntry (fun e => e.instrument = n ∧ e.page = p) Config.pageListPlaces ⟨n, p, k⟩ l

def instrumentTake (n total : Nat) (l : List InstrumentEntry) : List InstrumentEntry :=
  newestEntry (fun e => e.instrument = n) Config.instrumentListPlaces ⟨n, total⟩ l

/-! ### The stages of a charge -/

/-- The unit price in cents (R134, stage 1). -/
def Tariff.unit (T : Tariff) (h : PageHeader) : Nat :=
  (T.rate.at h.book * T.factor.at h.sheet + 2) / 4

/-- Raw charge and instrument cap (R135, stages 3 and 4): `d` new copies of an instrument already
charged `ti` on the ticket. -/
def Tariff.charge (T : Tariff) (h : PageHeader) (d ti : Nat) : Nat :=
  if T.cap.at h.book = 0 then d * T.unit h else min (d * T.unit h) (T.cap.at h.book - ti)

/-- A page delivered free moves to the newest place of the page list (R134, R139). -/
def Ticket.touchPage (h : PageHeader) (k : Ticket) : Ticket :=
  match k with
  | .opened b c =>
    .opened
      { b with
        pageList := pageTake h.instrument h.page (k.copiesOf h.instrument h.page) b.pageList } c
  | k => k

/-- The account a charge draws on (R136): the ticket's when OPEN, the station entry's when IDLE. -/
def chargedAccount (e : StationEntry) (k : Ticket) : Option Account :=
  match e.fee with
  | .deposit a =>
    match k with
    | .opened b _ => some (b.account.getD a)
    | _ => some a
  | _ => none

/-- The body that an IDLE ticket opens with (R138). -/
def State.openingBody (s : State) (e : StationEntry) : TicketBody where
  account := chargedAccount e .idle
  openStamp := s.clockStamp
  pages := 0
  gross := 0
  pageList := []
  instruments := []

/-- The idle countdown an applied charge loads (R148): none under an idle limit of 0. -/
def idleLoad (e : StationEntry) : Option Nat :=
  if e.idleLimit = 0 then none else some (e.idleLimit * 10)

/-- Apply an allowed charge to the ticket (R138, steps 1 to 5 and 7). -/
def State.chargeTicket (s : State) (t : Station) (h : PageHeader) (copies charge : Nat) : State :=
  let e := s.station t
  let k := s.ticket t
  let b := (k.body?).getD (s.openingBody e)
  let b := { b with
    gross := b.gross + charge
    instruments := instrumentTake h.instrument (k.totalOf h.instrument + charge) b.instruments
    pageList := pageTake h.instrument h.page copies b.pageList
    pages := min (b.pages + 1) Config.pagesCeiling }
  s.setTicket t (.opened b (idleLoad e))

/-- Stage 6, the deposit check, and stage 7 (R136, R138).  The second component tells whether the
charge was refused (R137). -/
def State.depositStage (s : State) (t : Station) (h : PageHeader) (copies charge : Nat) :
    State × Bool :=
  let k := s.ticket t
  match chargedAccount (s.station t) k with
  | none => (s.chargeTicket t h copies charge, false)
  | some a =>
    let r := s.account a
    let P := r.committed + s.tariff.settle (k.gross + charge) - s.tariff.settle k.gross
    if P ≤ r.balance then
      (((s.chargeTicket t h copies charge).setAccount a { r with committed := P }).recompute
        .depositLow, false)
    else (s, true)

/-- The charge of one header under `copies` copies (R134 to R138).  The second component tells
whether the charge was refused. -/
def State.chargeHeader (s : State) (t : Station) (h : PageHeader) (copies : Nat) : State × Bool :=
  let k := s.ticket t
  let d := copies - k.copiesOf h.instrument h.page
  if d = 0 then (s.setTicket t (k.touchPage h), false)
  else
    let charge := s.tariff.charge h d (k.totalOf h.instrument)
    if k.gross + charge ≤ Config.centsLimit then s.depositStage t h copies charge
    else if s.journalFree then
      let s := s.settleEvent t .totalLimit
      s.depositStage t h copies (s.tariff.charge h copies 0)
    else (s, true)

/-! ### The walk (R130, R137) -/

/-- The side and condition of a block position that lies in a side piece. -/
def Request.position (r : Request) (o : Nat) : Option (Side × Cond) :=
  (r.pieces.find? fun p => decide (p.offset ≤ o ∧ o < p.offset + p.count)).bind fun p =>
    match p.place with
    | .side x _ => (p.conds[o - p.offset]?).map fun c => (x, c)
    | _ => none

def SideRecord.isDeed : SideRecord → Bool
  | .deed _ _ _ => true
  | _ => false

/-- A position read GOOD on a DEED side (R128, R130). -/
def State.goodDeed (s : State) (r : Request) (o : Nat) : Bool :=
  match r.position o with
  | some (x, .good) => (s.side x).isDeed
  | _ => false

/-- Fill the positions `lo .. hi - 1` of a request (R137). -/
def Request.suppress (r : Request) (lo hi : Nat) : Request :=
  { r with pieces := r.pieces.map fun p =>
      { p with conds := p.conds.mapIdx fun j c =>
          if lo ≤ p.offset + j ∧ p.offset + j < hi then .fill else c } }

/-- A refused charge: the image's positions become FILL and the status rises to DEPOSIT_SHORT where
it stood lower (R137). -/
def Request.withhold (r : Request) (lo hi : Nat) : Request :=
  let r := r.suppress lo hi
  { r with status := r.status.map fun st => if st.rank < 12 then .depositShort else st }

/-- One position of the walk.  The second component of the working value is the first position not
under suppression (R130). -/
def State.walkPosition (t : Tag) (w : State × Nat) (o : Nat) : State × Nat :=
  let s := w.1
  match s.request t with
  | none => w
  | some r =>
    if o < w.2 ∨ ¬ s.goodDeed r o then w
    else
      match validHeader (stagingRead s.chan.staging (stagingAddress t o)) with
      | none => w
      | some h =>
        let c := s.chargeHeader r.station h r.copies
        if c.2 then
          let hi := min (o + h.length) r.count
          (c.1.setRequest t (some (r.withhold o hi)), hi)
        else (c.1, w.2)

/-- A fee pass over a request's positions in offset order (R130). -/
def State.feePass (s : State) (t : Tag) : State :=
  match s.request t with
  | none => s
  | some r => ((List.range r.count).foldl (State.walkPosition t) (s, 0)).1

/-! ### Delivery -/

/-- A request that calls for a fee pass under the entry now in force (R49, R128). -/
def State.callsForPass (s : State) (r : Request) : Bool :=
  let e := s.station r.station
  r.kind = .read ∧ 1 ≤ r.copies ∧ e.fee ≠ .exempt ∧ e.cls ≠ .vacant ∧
    ((List.range r.count).any fun o => s.goodDeed r o)

/-- A pass can start: a free journal place, and the station's ticket not SETTLE_DUE (R129). -/
def State.passCanStart (s : State) (r : Request) : Bool :=
  s.journalFree ∧ ¬ (s.ticket r.station).isDue

/-- The condition of a block position, whatever its piece (R50). -/
def Request.condAt (r : Request) (o : Nat) : Cond :=
  ((r.pieces.find? fun p => decide (p.offset ≤ o ∧ o < p.offset + p.count)).bind fun p =>
    p.conds[o - p.offset]?).getD .fill

/-- What a delivery returns at one position: the staged block where GOOD, else fill (R50). -/
def State.deliveredBlock (s : State) (t : Tag) (r : Request) (o : Nat) : Block :=
  if r.condAt o = .good then stagingRead s.chan.staging (stagingAddress t o) else fillBlock

/-- The answer of a delivery (R50). -/
def State.answerOf (s : State) (t : Tag) (r : Request) : Sent :=
  .delivery t (r.status.getD .done)
    (match r.kind with
     | .read => (List.range r.count).map fun o => s.deliveredBlock t r o
     | .write => [])

/-- Return the answer and free the record, its tag and its region (R50, R51). -/
def State.deliver (s : State) (t : Tag) : State :=
  match s.request t with
  | none => s
  | some r =>
    (((s.send (s.answerOf t r)).setRequest t none).freeRegion t).setAssembly
      (s.chan.assemblyOrder.filter fun u => u ≠ t)

/-- Deliver with a fee pass where one is called for: one event (R128). -/
def State.deliverByTerms (s : State) (t : Tag) (r : Request) : State :=
  if s.callsForPass r then (s.feePass t).deliver t else s.deliver t

/-- A tag joins the held list in order of assembly: behind the held requests that were assembled before
it, ahead of those assembled after it (R49). -/
def heldInsert (order : List Tag) (t : Tag) (held : List Tag) : List Tag :=
  let later := order.dropWhile fun u => u ≠ t
  (held.filter fun u => u ∉ later) ++ t :: held.filter fun u => u ∈ later

/-- A request whose pass cannot start is held (R49, R129, R162). -/
def State.hold (s : State) (t : Tag) (r : Request) : State :=
  (s.setRequest t (some { r with state := .heldForJournal })).setHeld
    (heldInsert s.chan.assemblyOrder t s.chan.heldList)

/-- The delivery of an ASSEMBLED request is decided and made, or the request is held (R49). -/
def State.decideDelivery (s : State) (t : Tag) : State :=
  match s.request t with
  | none => s
  | some r =>
    if r.state = .assembled then
      if s.callsForPass r ∧ ¬ s.passCanStart r then s.hold t r else s.deliverByTerms t r
    else s

/-! ### The drain (R161, R162) -/

/-- Settle the due ticket of a station with its stored cause and due stamp (R161). -/
def State.settleDue (s : State) (t : Station) : State :=
  match s.ticket t with
  | .due b cause stamp => s.settleBody t b cause stamp
  | _ => { s with ledger := { s.ledger with dueList := s.ledger.dueList.filter fun u => u ≠ t } }

/-- Step 1 of the drain: due tickets from the front while the journal has a free place (R161). -/
def State.drainDue (s : State) : List Station → State
  | [] => s
  | t :: l => if s.journalFree then (s.settleDue t).drainDue l else s

/-- Step 2 of the drain: held requests from the front while the journal has a free place
(R161, R162). -/
def State.drainHeld (s : State) : List Tag → State
  | [] => s
  | t :: l =>
    if s.journalFree then
      match s.request t with
      | none => s
      | some r =>
        if s.callsForPass r ∧ ¬ s.passCanStart r then s
        else
          ((s.setHeld (s.chan.heldList.filter fun u => u ≠ t)).deliverByTerms t r).drainHeld l
    else s

/-- The drain of a JOURNAL_RELEASE (R161). -/
def State.drain (s : State) : State :=
  let s := s.drainDue s.ledger.dueList
  s.drainHeld s.chan.heldList

end Sys2Proof.Machine
end

