-- ==== Sys2Proof/Machine/Drives.lean ====
section
/-! DEFINITION. What a drive does: the commands it issues for a piece (R66, R110, R117, R119, R123), the
serving of its side's queue (R64, R65), mount verification (R61 to R63) and the drive fault
(R72). -/

namespace Sys2Proof.Machine

/-! ### Countdown loads -/

/-- A countdown loaded with a number of tenths; with 0 it is expired from its load (R69, R70). -/
def loadCountdown (n : Nat) : Countdown := if n = 0 then .expired else .running n

/-- A command just issued, its countdown loaded (R66). -/
def issueNow (c : DriveCommand) : Issued := ⟨c, Config.commandTenths⟩

/-- The command a drive has outstanding, with its mount. -/
def Drive.outstanding : Drive → Option (Mount × Issued)
  | .verifying m c => some (m, c)
  | .busy m c => some (m, c)
  | .yielding m (some c) => some (m, c)
  | _ => none

/-- Is any command outstanding on the drive, a start-up READ LABEL included? (R68) -/
def Drive.awaitsAnswer (r : Drive) : Bool :=
  match r with
  | .empty (some _) => true
  | r => r.outstanding.isSome

/-- Some drive is YIELDING (R84). -/
def Drive.isYielding : Drive → Bool
  | .yielding _ _ => true
  | _ => false

def Drive.isIdle : Drive → Bool
  | .idle _ _ _ => true
  | _ => false

/-! ### Issuing a command for a piece -/

/-- What comes of turning to a block of a piece: a command, or the piece's failing status. -/
inductive Issue where
  | command (c : DriveCommand)
  | fails (st : Status)
  deriving DecidableEq, Repr

/-- The length of a run of sectors that no entry redirects, of at most `n` (R123). -/
def State.plainRun (s : State) (x : Side) (sector : Nat) : Nat → Nat
  | 0 => 0
  | n + 1 => if (s.spareOf x sector).isNone then s.plainRun x (sector + 1) n + 1 else 0

/-- The READ SECTORS command of a read piece from its block `i` (R66, R123). -/
def State.readCommand (s : State) (x : Side) (sector count i : Nat) : DriveCommand :=
  match s.side x with
  | .index _ _ =>
    match s.spareOf x (sector + i) with
    | some spare => .readSectors i spare 1
    | none => .readSectors i (sector + i) (s.plainRun x (sector + i) (count - i))
  | _ => .readSectors i (sector + i) (count - i)

/-- An index write comes to block `i` of its piece (R117). -/
def State.indexWrite (s : State) (x : Side) (t : Tag) (p : Piece) (sector i : Nat) :
    State × Issue :=
  let h := sector + i
  let data := stagingRead s.chan.staging (stagingAddress t (p.offset + i))
  match s.spareOf x h with
  | none => (s, .command (.writeHome i h data))
  | some _ =>
    match (s.side x).pointer? with
    | none => (s, .fails .spareExhausted)
    | some ptr =>
      if ptr < Config.spares then
        (s.advancePointer x,
          .command (.writeSpare i (Config.spareBase + ptr) (homeVba x h) true data))
      else (s, .fails .spareExhausted)

/-- A home write answered WRITTEN redirects its block (R119). -/
def State.redirect (s : State) (x : Side) (i h : Nat) (data : Block) : State × Issue :=
  if Config.remapPlaces ≤ s.remap.entries.length + s.remap.held then (s, .fails .remapFull)
  else
    match (s.side x).pointer? with
    | none => (s, .fails .spareExhausted)
    | some ptr =>
      if ptr < Config.spares then
        ((s.setRemap { s.remap with held := s.remap.held + 1 }).advancePointer x,
          .command (.writeSpare i (Config.spareBase + ptr) (homeVba x h) false data))
      else (s, .fails .spareExhausted)

/-- The piece of a request on a side, with its first sector. -/
def State.sidePiece (s : State) (t : Tag) (x : Side) : Option (Request × Piece × Nat) :=
  match s.request t with
  | none => none
  | some r =>
    match r.pieceOn x with
    | none => none
    | some p =>
      match p.place with
      | .side _ sector => some (r, p, sector)
      | _ => none

/-- The first command of a piece taken from the front of a queue (R64, R66). -/
def State.firstIssue (s : State) (x : Side) (o : Owner) : State × Issue :=
  match o with
  | .label => (s, .command (.writeLabel s.lib.libraryId x.cart x.face))
  | .orphan _ _ => (s, .fails .done)
  | .request t =>
    match s.sidePiece t x with
    | none => (s, .fails .done)
    | some (r, p, sector) =>
      match r.kind with
      | .read => (s, .command (s.readCommand x sector p.count 0))
      | .write =>
        match s.side x with
        | .index _ _ => s.indexWrite x t p sector 0
        | _ => (s, .command (.writeDeed sector (s.stagedRun t p.offset p.count)))

/-! ### The end of a piece -/

/-- A label piece on a side ends (R76); `ok` where the drive answered DONE.  DESIGN CHOICE: a labelling
whose last label piece is RUNNING as its cartridge's EXPORT is taken goes on to that piece's answer,
since R76 lets a RUNNING piece fail by the drive alone (log entry 31).  DESIGN CHOICE: a label piece that
ends, in whatever way, after its labelling has ended changes no verification and raises no second cause
7, of which R76 says so for its DONE alone (log entry 32). -/
def State.finishLabel (s : State) (x : Side) (ok : Bool) : State :=
  let n := x.cart
  let c := s.cart n
  if ¬ c.labellingPending then s
  else if ¬ ok then s.failLabelling n
  else if (s.queue x.otherSide).any fun e => e.owner.isLabel then s
  else s.setCart n { c with verification := .verified, labellingPending := false }

/-- The front piece of a side's queue is DONE and leaves the queue (R16, R54, R65, R76). -/
def State.finishFront (s : State) (x : Side) (st : Status) : State :=
  match s.queue x with
  | [] => s
  | e :: q =>
    let s := s.setQueue x q
    match e.owner with
    | .request t => s.finishPiece t x st
    | .orphan _ _ => s
    | .label => (s.finishLabel x (st = .done)).sweepCart x.cart

/-! ### Serving the queue -/

/-- The drive becomes IDLE: idle stamp taken, linger loaded (R63, R65, R70). -/
def State.goIdle (s : State) (d : DriveNo) (m : Mount) : State :=
  s.setDrive d (.idle m s.tenths (loadCountdown (s.sched.linger * 10)))

/-- The front piece becomes RUNNING and its request IN_SERVICE (R64). -/
def State.startFront (s : State) (x : Side) : State :=
  match s.queue x with
  | [] => s
  | e :: q =>
    let s := s.setQueue x ({ e with running := true } :: q)
    match e.owner with
    | .request t =>
      match s.request t with
      | some r =>
        if r.state = .accepted then s.setRequest t (some { r with state := .inService }) else s
      | none => s
    | _ => s

/-- The drive takes pieces from the front until one has a command outstanding or none is left (R63,
R64, R65).  A piece whose first block fails without a command ends at once (R117, R121). -/
def State.serve (d : DriveNo) (m : Mount) : Nat → State → State
  | 0, s => s.goIdle d m
  | k + 1, s =>
    match s.queue m.side with
    | [] => s.goIdle d m
    | e :: _ =>
      match (s.startFront m.side).firstIssue m.side e.owner with
      | (s, .command c) => s.setDrive d (.busy m (issueNow c))
      | (s, .fails st) => (s.finishFront m.side st).serve d m k

/-- Serve the mounted side's queue (R64). -/
def State.serveQueue (s : State) (d : DriveNo) (m : Mount) : State :=
  s.serve d m (s.queue m.side).length

/-- The current piece of a drive ends with a status (R65). -/
def State.endPiece (s : State) (d : DriveNo) (st : Status) : State :=
  match s.drive d with
  | .busy m _ => (s.finishFront m.side st).serveQueue d m
  | .yielding m (some _) => (s.finishFront m.side st).setDrive d (.yielding m none)
  | _ => s

/-- The next command of the current piece is issued, or the piece ends (R66). -/
def State.goOn (w : State × Issue) (d : DriveNo) : State :=
  match w.2 with
  | .fails st => w.1.endPiece d st
  | .command c =>
    match w.1.drive d with
    | .busy m _ => w.1.setDrive d (.busy m (issueNow c))
    | .yielding m _ => w.1.setDrive d (.yielding m (some (issueNow c)))
    | _ => w.1

/-- A side with a QUEUED piece in an IDLE drive: the drive starts it in the joining event (R65). -/
def State.wake (s : State) (x : Side) : State :=
  match s.mountedIn x with
  | none => s
  | some d =>
    match s.drive d with
    | .idle m _ _ => s.serveQueue d m
    | _ => s

/-! ### Mount verification -/

/-- The frontier or spare pointer is UNKNOWN (R62). -/
def SideRecord.isUnresolved : SideRecord → Bool
  | .deed none _ _ => true
  | .index none _ => true
  | _ => false

/-- The start sector of a blank search (R62). -/
def SideRecord.searchStart : SideRecord → Nat
  | .index _ _ => Config.spareBase
  | _ => 0

/-- After the label step: a blank search where R62 asks for one, and none while a labelling is pending,
else the drive leaves VERIFYING (R63). -/
def State.afterLabel (s : State) (d : DriveNo) (m : Mount) : State :=
  if (s.cart m.side.cart).verification = .verified ∧ ¬ (s.cart m.side.cart).labellingPending ∧
      (s.side m.side).isUnresolved ∧ ¬ m.zoned then
    s.setDrive d (.verifying m (issueNow (.searchBlank (s.side m.side).searchStart)))
  else s.serveQueue d m

/-- The mount: the drive enters VERIFYING (R58, R61). -/
def State.enterVerifying (s : State) (d : DriveNo) (x : Side) (zoned : Bool) : State :=
  let m : Mount := ⟨x, s.tenths, loadCountdown (s.sched.minDwell * 10), zoned⟩
  if (s.cart x.cart).verification = .unverified then
    s.setDrive d (.verifying m (issueNow .readLabel))
  else s.afterLabel d m

/-! ### Drive faults -/

/-- A place held for a spare write is released when its drive faults or the write fails (R120). -/
def State.releasePlace (s : State) (c : DriveCommand) : State :=
  match c with
  | .writeSpare _ _ _ false _ => s.setRemap { s.remap with held := s.remap.held - 1 }
  | _ => s

/-- The cartridge, drive and attention effects of a drive fault, and the standing test that follows
(R72, R95). -/
def State.strand (s : State) (d : DriveNo) (x : Side) : State :=
  ((((s.moveCart x.cart (.stuck d x.face)).dropExport x.cart).setDrive d .faulted).raise
    .driveFault).sweep

/-- A drive fault (R72): nothing where no command is outstanding. -/
def State.faultDrive (s : State) (d : DriveNo) : State :=
  match s.drive d with
  | .verifying m _ => s.strand d m.side
  | .busy m c => ((s.releasePlace c.command).finishFront m.side .driveFault).strand d m.side
  | .yielding m (some c) =>
    ((s.releasePlace c.command).finishFront m.side .driveFault).strand d m.side
  | _ => s

end Sys2Proof.Machine
end

