-- ==== Sys2Proof/Machine/Scheduler.lean ====
section
/-! DEFINITION. The mount scheduler and picker control: candidates and their rank (R79, R80), the ageing
alarm (R81), the choice (R82 to R85), the start, completion and fault of a picker order
(R86 to R88). -/

namespace Sys2Proof.Machine

/-! ### Candidates -/

/-- A candidate side (R79): its age, the number of its QUEUED pieces, whether it is AGED, and the
drive that holds its cartridge's other face, if any. -/
structure Candidate where
  side : Side
  age : Nat
  count : Nat
  aged : Bool
  other : Option DriveNo
  deriving DecidableEq, Repr

/-- The QUEUED pieces of a queue (R79). -/
def queuedOf (q : List QEntry) : List QEntry := q.filter fun e => !e.running

/-- Where a candidate's cartridge may be: HOME, or MOUNTED with the other face in a drive (R79). -/
def Location.candidateDrive : Location → Option (Option DriveNo)
  | .home => some none
  | .mounted d _ => some (some d)
  | _ => none

/-- The candidate that a side is, if it is one (R79, R80). -/
def State.candidate? (s : State) (x : Side) (q : List QEntry) : Option Candidate :=
  match queuedOf q with
  | [] => none
  | e :: rest =>
    if s.isMounted x then none
    else
      (s.cart x.cart).location.candidateDrive.map fun other =>
        { side := x
          age := s.elapsed e.stamp
          count := rest.length + 1
          aged := s.sched.ageLimit * 10 ≤ s.elapsed e.stamp
          other := other }

/-- The candidates in ascending order of side number (R79). -/
def State.candidates (s : State) : List Candidate :=
  s.queues.entries.filterMap fun (x, q) => s.candidate? x q

/-- Does a candidate rank ahead of another, where the side numbers already ascend? (R80) -/
def Candidate.ahead (a b : Candidate) : Bool :=
  if a.aged then !b.aged || b.age ≤ a.age
  else if b.aged then false
  else b.count < a.count || (a.count = b.count && b.age ≤ a.age)

/-- Insert a candidate of lower side number into a ranked list. -/
def rankInsert (c : Candidate) : List Candidate → List Candidate
  | [] => [c]
  | e :: l => if c.ahead e then c :: e :: l else e :: rankInsert c l

/-- The candidates in rank order (R80). -/
def State.ranked (s : State) : List Candidate := s.candidates.foldr rankInsert []

/-! ### The ageing alarm -/

/-- The tenths to the earliest moment at which a candidate not yet AGED becomes AGED; none where
there is none (R81). -/
def State.nextAged (s : State) : Option Nat :=
  ((s.candidates.filter fun c => !c.aged).map fun c => s.sched.ageLimit * 10 - c.age).min?

/-- Re-arm the ageing alarm (R81). -/
def State.rearm (s : State) : State := s.setAgeing s.nextAged

/-- The candidates with the stamp of each one's front QUEUED piece: what a re-arming depends on
(R81). -/
def State.candidateFronts (s : State) : List (Side × BitVec 32) :=
  s.queues.entries.filterMap fun (x, q) =>
    match queuedOf q with
    | [] => none
    | e :: _ => if (s.candidate? x q).isSome then some (x, e.stamp) else none

/-- Re-arm the alarm at the end of an event that changed the candidates, a candidate's front piece
or the age limit, from the state before the event (R81). -/
def State.rearmFrom (s before : State) : State :=
  if s.candidateFronts = before.candidateFronts ∧ s.sched.ageLimit = before.sched.ageLimit then s
  else s.rearm

/-! ### Starting a picker order -/

/-- The picker's current order (R86). -/
def Picker.order? : Picker → Option PickerOrder
  | .moving o _ => some o
  | .homing o _ => some o
  | _ => none

/-- A drive that loads a side (R58). -/
def State.startLoading (s : State) (d : DriveNo) (x : Side) : State :=
  s.setDrive d (.loading x false)

/-- The records' part in the start of an order (R58, R59, R87). -/
def State.startEffects (s : State) (o : PickerOrder) : State :=
  match o with
  | .load n f d => (s.moveCart n .inPicker).startLoading d (n.side f)
  | .exchange d n =>
    match (s.drive d).side? with
    | some x => (s.moveCart n .inPicker).startLoading d x.otherSide
    | none => s
  | .unload d n .release =>
    match (s.drive d).side? with
    | some x => (s.moveCart n .inPicker).setDrive d (.unloading x)
    | none => s
  | .unload _ _ .driveReturn => s
  | .unload _ n .startup => s.moveCart n .inPicker
  | .mailOut n none => s.moveCart n .inPicker
  | .mailOut n (some d) =>
    match (s.drive d).side? with
    | some x => (s.moveCart n .inPicker).setDrive d (.unloading x)
    | none => s
  | .mailIn n =>
    (((s.setCart n { s.cart n with location := .inPicker, verification := .unverified }).setMail
      .empty).setImport none)
  | .home => s
  | .inventory => s

/-- Start an order: it is sent, the watchdog is loaded and the start effects take place (R86, R87). -/
def State.startOrder (s : State) (o : PickerOrder) : State :=
  ((s.startEffects o).setPicker (.moving o Config.watchdogTenths)).sweep

/-- Start an order of a PICKER_RESET or of start-up, in which the picker is HOMING (R90, R183). -/
def State.startHoming (s : State) (o : PickerOrder) : State :=
  ((s.startEffects o).setPicker (.homing o Config.watchdogTenths)).sweep

/-! ### The mount search -/

/-- The drive is past dwell (R69). -/
def Mount.pastDwell (m : Mount) : Bool := m.dwell = .expired

/-- An IDLE drive that may be released for a candidate, or a YIELDING one with no current piece
(R70, R83). -/
def Drive.releasable (aged : Bool) : Drive → Bool
  | .yielding _ none => true
  | .idle m _ linger => m.pastDwell && (linger = .expired || aged)
  | _ => false

/-- A BUSY drive past dwell (R83). -/
def Drive.mayYield : Drive → Bool
  | .busy m _ => m.pastDwell
  | _ => false

/-- A YIELDING drive with no current piece (R83). -/
def Drive.yielded : Drive → Bool
  | .yielding _ none => true
  | _ => false

def Drive.isEmpty : Drive → Bool
  | .empty _ => true
  | _ => false

/-- Some drive is YIELDING (R84). -/
def State.someYielding (s : State) : Bool := s.mech.drives.toList.any Drive.isYielding

/-- The first of a list of drives with the greatest age. -/
def oldest : List (DriveNo × Nat) → Option DriveNo
  | [] => none
  | (d, a) :: l =>
    match l.foldl (fun best e => if best.2 < e.2 then e else best) (d, a) with
    | (e, _) => some e

/-- The IDLE drives releasable for a candidate, with the time since their idle stamp (R83). -/
def State.idleReleasable (s : State) (aged : Bool) : List (DriveNo × Nat) :=
  s.mech.drives.entries.filterMap fun (d, r) =>
    match r with
    | .idle _ since _ => if r.releasable aged then some (d, s.elapsed since) else none
    | _ => none

/-- The BUSY drives past dwell, with the time since their mount (R83). -/
def State.busyPastDwell (s : State) : List (DriveNo × Nat) :=
  s.mech.drives.entries.filterMap fun (d, r) =>
    match r with
    | .busy m _ => if m.pastDwell then some (d, s.elapsed m.stamp) else none
    | _ => none

/-- The yield decision: a BUSY drive becomes YIELDING with its current piece (R71, R84). -/
def State.makeYield (s : State) (d : DriveNo) : State :=
  match s.drive d with
  | .busy m c => s.setDrive d (.yielding m (some c))
  | _ => s

/-- The release unload of a drive (R83). -/
def State.releaseOrder (s : State) (d : DriveNo) : Option PickerOrder :=
  (s.drive d).side?.map fun x => .unload d x.cart .release

/-- What the mount search finds for one candidate (R83): an order, a drive that shall yield, or
nothing. -/
inductive Found where
  | order (o : PickerOrder)
  | yield (d : DriveNo)
  | nothing
  deriving DecidableEq, Repr

/-- The search for an other-face candidate, whose only drive is `d` (R83). -/
def State.searchOther (s : State) (c : Candidate) (d : DriveNo) : Found :=
  if (s.drive d).releasable c.aged then .order (.exchange d c.side.cart)
  else if c.aged ∧ (s.drive d).mayYield ∧ ¬ s.someYielding then .yield d
  else .nothing

/-- The search for a home candidate (R83). -/
def State.searchHome (s : State) (c : Candidate) : Found :=
  match lowest 4 fun d => (s.drive d).isEmpty with
  | some d => .order (.load c.side.cart c.side.face d)
  | none =>
    match ((lowest 4 fun d => (s.drive d).yielded).or (oldest (s.idleReleasable c.aged))).bind
        s.releaseOrder with
    | some o => .order o
    | none =>
      if c.aged ∧ ¬ s.someYielding then
        match oldest s.busyPastDwell with
        | some d => .yield d
        | none => .nothing
      else .nothing

/-- The search for one candidate (R83). -/
def State.searchOne (s : State) (c : Candidate) : Found :=
  match c.other with
  | some d => s.searchOther c d
  | none => s.searchHome c

/-- The mount search over ranked candidates: the mount move with whether its candidate is AGED, and
the state with any drive made YIELDING (R83). -/
def State.mountSearch (s : State) : List Candidate → State × Option PickerOrder
  | [] => (s, (lowest 4 fun d => (s.drive d).yielded).bind s.releaseOrder)
  | c :: l =>
    match s.searchOne c with
    | .order o => (s, some o)
    | .yield d => (s.makeYield d).mountSearch l
    | .nothing => s.mountSearch l

/-! ### The arbiter -/

/-- The cartridge STUCK in a drive, if any (R10). -/
def State.stuckIn (s : State) (d : DriveNo) : Option Cart :=
  lowest 160 fun n =>
    match (s.cart n).location with
    | .stuck e _ => e = d
    | _ => false

/-- The MAIL_OUT of the pending export where it can start (R95). -/
def State.exportOrder (s : State) : Option PickerOrder :=
  match s.mech.pendingExport with
  | none => none
  | some n =>
    match (s.cart n).location with
    | .home => some (.mailOut n none)
    | .mounted d _ =>
      match s.drive d with
      | .idle _ _ _ => some (.mailOut n (some d))
      | .yielding _ none => some (.mailOut n (some d))
      | _ => none
    | _ => none

/-- The UNLOAD of a pending return (R92). -/
def State.returnOrder (s : State) (d : DriveNo) : Option PickerOrder :=
  if s.mech.returns.at d then (s.stuckIn d).map fun n => .unload d n .driveReturn else none

/-- The class 3 move that names a drive: the MAIL_OUT from it, or its pending return (R85). -/
def State.driveMove (s : State) (d : DriveNo) : Option PickerOrder :=
  match s.exportOrder with
  | some (.mailOut n (some e)) => if e = d then some (.mailOut n (some e)) else s.returnOrder d
  | _ => s.returnOrder d

/-- The first move of class 3: those that name a drive by ascending number, then the MAIL_OUT from a
home slot (R85). -/
def State.classThree (s : State) : Option PickerOrder :=
  ((List.finRange 4).findSome? fun d => s.driveMove d).or s.exportOrder

/-- The move of class 4: the MAIL_IN of the pending import (R85, R97).  DEDUCED: it starts for a
cartridge that is SHELF_OUT or MISSING, as its row of R87 reads (log entry 12). -/
def State.classFour (s : State) : Option PickerOrder :=
  match s.mech.pendingImport with
  | none => none
  | some n =>
    let l := (s.cart n).location
    if s.mech.mail = .heldIn ∧ (l = .shelfOut ∨ l = .missing) then some (.mailIn n) else none

/-- The arbiter: the mount move, which is of class 1 or 2, goes ahead of class 3 and class 4
(R85). -/
def State.arbiter (s : State) (mount : Option PickerOrder) : Option PickerOrder :=
  (mount.or s.classThree).or s.classFour

/-- The choice (R82): it runs while the picker is IDLE, and may make a drive YIELDING and start one
order. -/
def State.choose (s : State) : State :=
  if s.mech.picker = .idle then
    match s.mountSearch s.ranked with
    | (s, mount) =>
      match s.arbiter mount with
      | some o => s.startOrder o
      | none => s
  else s

/-- The choice where an event calls for it. -/
def State.chooseIf (s : State) (b : Bool) : State := if b then s.choose else s

/-! ### Completion of an order -/

/-- The cartridge of a LOAD or EXCHANGE is MOUNTED and its drive enters VERIFYING (R58, R87). -/
def State.seat (s : State) (d : DriveNo) (n : Cart) : State :=
  match s.drive d with
  | .loading x zoned => (s.moveCart n (.mounted d x.face)).enterVerifying d x zoned
  | _ => s

/-- A drive left EMPTY (R59, R60, R74). -/
def State.emptyDrive (s : State) (d : DriveNo) : State := s.setDrive d (.empty none)

/-- The records' part in the completion of an order (R87). -/
def State.completionEffects (s : State) (o : PickerOrder) : State :=
  match o with
  | .load n _ d => s.seat d n
  | .exchange d n => s.seat d n
  | .unload d n .release => (s.moveCart n .home).emptyDrive d
  | .unload d n .driveReturn =>
    (((s.setCart n { s.cart n with location := .home, verification := .unverified }).emptyDrive
      d).setReturn d false)
  | .unload d n .startup => (s.moveCart n .home).emptyDrive d
  | .mailOut n source =>
    let s := s.setCart n { s.cart n with location := .shelfOut, exportPending := false }
    let s := (s.setExport none).setMail .heldOut
    match source with
    | some d => s.emptyDrive d
    | none => s
  | .mailIn n => s.moveCart n .home
  | .home => s
  | .inventory => s

/-- The completion of an order that is not part of a reset or of start-up (R86, R87). -/
def State.completeOrder (s : State) (o : PickerOrder) : State :=
  (((s.completionEffects o).setPicker .idle).sweep).choose

/-! ### Picker faults -/

/-- The cartridge an order takes at its start (R88). -/
def PickerOrder.cart? : PickerOrder → Option Cart
  | .load n _ _ => some n
  | .exchange _ n => some n
  | .unload _ n _ => some n
  | .mailIn n => some n
  | .mailOut n _ => some n
  | .home => none
  | .inventory => none

/-- The drive an order involves (R60). -/
def PickerOrder.drive? : PickerOrder → Option DriveNo
  | .load _ _ d => some d
  | .exchange d _ => some d
  | .unload d _ _ => some d
  | .mailOut _ source => source
  | _ => none

/-- The drive record after a picker fault during an order that involves it (R60). -/
def Drive.afterPickerFault : Drive → Drive
  | .loading _ _ => .empty none
  | .unloading _ => .empty none
  | r => r

/-- The held cartridge becomes MISSING, and a pending export of it ends (R88). -/
def State.loseCart (s : State) (n : Option Cart) : State :=
  match n with
  | some n => (s.moveCart n .missing).dropExport n
  | none => s

/-- The involved drive's part in a picker fault (R60). -/
def State.faultedOrderDrive (s : State) (d : Option DriveNo) : State :=
  match d with
  | some d => s.setDrive d (s.drive d).afterPickerFault
  | none => s

/-- The mail slot's and the pending requests' part in a picker fault (R88). -/
def State.faultedOrderRequests (s : State) (o : PickerOrder) : State :=
  match o with
  | .mailOut _ _ => if s.mech.mail = .reservedOut then s.setMail .empty else s
  | .unload d _ .driveReturn => s.setReturn d false
  | _ => s

/-- A picker fault during an order (R88). -/
def State.pickerFault (s : State) (o : PickerOrder) : State :=
  (((((s.setPicker .faulted).loseCart o.cart?).faultedOrderDrive o.drive?).faultedOrderRequests
    o).raise .pickerFault).sweep

end Sys2Proof.Machine
end

