-- ==== Sys2Proof/Machine/Judge.lean ====
section
/-! DEFINITION. What acceptance judges: the window unit (R24, R25, R29), the cutting of a run into pieces
(R1, R2, R41), the filing checker with its image walk (R101, R103), the remap rules (R116) and the
joint judgement of a write's side pieces (R44). -/

namespace Sys2Proof.Machine

/-! ### The window unit -/

/-- What the window unit answers (R25): the whole request denied with a trap on its first SBA; a
control straddle; or a run of `n` blocks from a VBA, with the trap SBA where the request was cut. -/
inductive Judgement where
  | denied (kind : TrapKind)
  | straddle
  | pass (vba n : Nat) (cut : Option Nat)
  deriving DecidableEq, Repr

/-- The judgement of R25, step by step. -/
def judgeWindow (e : StationEntry) (k : ReqKind) (sba count : Nat) : Judgement :=
  let limit := e.length * Config.granule
  let n := min count (limit - sba)
  let v := e.base * Config.granule + sba
  if e.cls = .vacant then .denied .vacant
  else if k = .write ∧ e.cls = .search then .denied .writeDenied
  else if limit ≤ sba then .denied .outsideWindow
  else if v < Config.controlBase ∧ Config.controlBase < v + n then .straddle
  else if Config.controlBase ≤ v ∧ e.cls ≠ .clerk then .denied .controlDenied
  else .pass v n (if n < count then some limit else none)

/-- A trap is recorded: latest trap, count up to its ceiling, cause 6 (R29). -/
def State.recordTrap (s : State) (t : Station) (kind : TrapKind) (k : ReqKind) (sba : Nat) :
    State :=
  (s.setTrap t ⟨some ⟨kind, k, sba⟩, min ((s.traps.at t).count + 1) Config.trapCeiling⟩).raise
    .windowTrap

/-! ### Pieces -/

/-- A piece as formed: a read piece's condition list starts with every block FILL (R41, R42). -/
def formPiece (k : ReqKind) (place : Place) (count offset : Nat) : Piece where
  place := place
  count := count
  offset := offset
  conds := match k with
    | .read => List.replicate count .fill
    | .write => []
  status := none

/-- Cut a run that no control boundary divides into its one or two pieces (R1, R2, R41). -/
def cutPieces (k : ReqKind) (v n : Nat) : List Piece :=
  if Config.controlBase ≤ v then [formPiece k (.control (v - Config.controlBase)) n 0]
  else if h : v / Config.sectorsPerSide < 320 then
    let sector := v % Config.sectorsPerSide
    let first := min n (Config.sectorsPerSide - sector)
    formPiece k (.side ⟨v / Config.sectorsPerSide, h⟩ sector) first 0 ::
      (if n = first then []
       else if h2 : v / Config.sectorsPerSide + 1 < 320 then
         [formPiece k (.side ⟨v / Config.sectorsPerSide + 1, h2⟩ 0) (n - first) first]
       else [formPiece k .gap (n - first) first])
  else [formPiece k .gap n 0]

/-! ### The filing checker and the remap rules -/

/-- The verdict on a SIDE piece of a WRITE: a pass with the side record it proposes, or a refusal. -/
inductive Verdict where
  | pass (proposal : SideRecord)
  | refuse (st : Status)
  deriving DecidableEq, Repr

/-- The image walk from sector `x` with working remainder `r` (R103): the final remainder, or the
refusal of the first block that draws one. -/
def imageWalk (x r : Nat) : List Block → Except Status Nat
  | [] => .ok r
  | b :: bs =>
    if r = 0 then
      match validHeader b with
      | none => .error .noHeader
      | some h =>
        if x + h.length ≤ Config.sectorsPerSide then imageWalk (x + 1) (h.length - 1) bs
        else .error .imageOverrun
    else imageWalk (x + 1) (r - 1) bs

/-- The filing checker on a DEED side (R101, R103). -/
def filingCheck (frontier : Option Nat) (remainder closure sector : Nat) (data : List Block) :
    Verdict :=
  match frontier with
  | none => .refuse .sideUnresolved
  | some f =>
    if sector < f then .refuse .written
    else if f < sector then .refuse .offFrontier
    else if sector < closure then .refuse .closed
    else
      match imageWalk sector remainder data with
      | .error st => .refuse st
      | .ok r => .pass (.deed (some (sector + data.length)) r closure)

/-- The remap rules on an INDEX side (R116). -/
def remapCheck (pointer : Option Nat) (closure sector count : Nat) : Verdict :=
  if pointer = none then .refuse .sideUnresolved
  else if Config.spareBase < sector + count then .refuse .spareArea
  else if sector < closure then .refuse .closed
  else .pass (.index pointer closure)

/-- The judgement of a SIDE piece of a WRITE: the standing test, then the side's zone (R44). -/
def State.judgeSide (s : State) (x : Side) (sector : Nat) (data : List Block) : Verdict :=
  match s.standing x false with
  | some st => .refuse st
  | none =>
    match s.side x with
    | .unused => .refuse .notWritableSide
    | .deed f r c => filingCheck f r c sector data
    | .index p c => remapCheck p c sector data.length

/-- A side piece with its verdict. -/
structure Judged where
  side : Side
  verdict : Verdict
  deriving DecidableEq, Repr

/-- The verdicts on a write's side pieces, each against the records as they stand (R44). -/
def State.judgeSides (s : State) (data : List Block) (ps : List Piece) : List Judged :=
  ps.filterMap fun p =>
    match p.place with
    | .side x sector =>
      some ⟨x, s.judgeSide x sector ((data.drop p.offset).take p.count)⟩
    | _ => none

/-- The refusal that a side piece of a refused write takes: its own, else the other's (R44). -/
def refusalFor (js : List Judged) (x : Side) : Option Status :=
  let refusals := js.filterMap fun j =>
    match j.verdict with
    | .refuse st => some (j.side, st)
    | .pass _ => none
  match refusals.find? fun e => e.1 = x with
  | some e => some e.2
  | none => refusals.head?.map (·.2)

/-- Is a judgement's frontier the side's end? (R106) -/
def SideRecord.isFull : SideRecord → Bool
  | .deed (some f) _ _ => f = Config.sectorsPerSide
  | _ => false

/-- A passing judgement takes effect: the reservation of R104, with cause 10 where the frontier
becomes 262,144 (R106). -/
def State.reserve (s : State) (j : Judged) : State :=
  match j.verdict with
  | .refuse _ => s
  | .pass r =>
    let full := r.isFull && !(s.side j.side).isFull
    let s := s.setSide j.side r
    if full then s.raise .sideFull else s

end Sys2Proof.Machine
end

