-- ==== Sys2Proof/Machine/Startup.lean ====
section
/-! DEFINITION. Start-up (R182 to R184): the records at power-on, the chain of survey, identification,
unloads and inventory, the reconciliation of slots (R13, R91), and a fault that ends the chain. -/

namespace Sys2Proof.Machine

/-! ### Power-on -/

/-- A cartridge record at power-up: UNVERIFIED, flags cleared (R12, R13). -/
def CartridgeRecord.atPowerUp (c : CartridgeRecord) : CartridgeRecord :=
  { c with verification := .unverified, exportPending := false, labellingPending := false }

/-- The lock mode kept over a power-up: LOCKED becomes KEYED (R171). -/
def LockMode.atPowerUp : LockMode → LockMode
  | .locked => .keyed
  | m => m

/-- Every working-memory record at its starting value, the retained ones as kept (R182).  What the
part has sent is history and stays; the queue of waiting commands is not the part's. -/
def State.powerOn (s : State) : State :=
  { s with
    lib := { s.lib with
      cartridges := s.lib.cartridges.mapNumbered fun _ c => c.atPowerUp }
    traps := Vector.replicate 32 .cleared
    chan := { Channel.empty with sent := s.chan.sent }
    queues := Vector.replicate 320 []
    mech := .powered
    remap := { s.remap with held := 0 }
    orderResult := .powerUp
    lock := s.lock.atPowerUp
    attention := ⟨Cause.clockUnset.flag, 0#12⟩
    tenths := 0
    clock := none }

/-- Every retained record at its default, and cause 11 raised (R182). -/
def State.storeLost (s : State) : State :=
  ({ s with
    lib := .lost
    stations := lostStations
    remap := ⟨[], 0⟩
    tariff := .lost
    ledger := .lost
    sched := .lost
    lock := .unlocked }).raise .retainedLost

/-- What the battery-good line decides (R182). -/
def State.restoreStore (s : State) (good : Bool) : State :=
  if good then s.settleAll .powerRestore else s.storeLost

/-- Causes 3, 8 and 9 recomputed from the records (R182). -/
def State.recomputeLevels (s : State) : State :=
  ((s.recompute .journalFull).recompute .remapLow).recompute .depositLow

/-- The drive record after the survey (R77, R183). -/
def surveyedDrive : SurveyReading → Drive
  | .absent => .absent
  | .empty => .empty none
  | .loaded => .empty none

/-- The drives a survey reports loaded, in ascending order. -/
def loadedDrives (survey : Vector SurveyReading 4) : List DriveNo :=
  (List.finRange 4).filter fun d => survey[d.val] = .loaded

/-- Step 1 of start-up: the survey, the mail slot sensor, and HOME (R183). -/
def State.survey (s : State) (readings : Vector SurveyReading 4) (mailSensed : Bool) : State :=
  ({ s with mech := { s.mech with
      drives := Table.mapNumbered readings fun _ r => surveyedDrive r
      mail := if mailSensed then .heldIn else .empty
      startup := .homing
      surveyLoaded := loadedDrives readings } }).startHoming .home

/-! ### Unloads and inventory -/

/-- Step 3: the next UNLOAD starts, or INVENTORY where none is left (R183, step 4). -/
def State.nextUnload (s : State) (todo : List Ident) (unloaded : List Cart) : State :=
  match todo with
  | [] => (s.setStartup (.inventory unloaded)).startHoming .inventory
  | i :: rest =>
    (s.setStartup (.unloading rest unloaded)).startHoming (.unload i.drive i.cart .startup)

/-- The cartridge and face that the retained locations place in a drive (R183, step 2). -/
def State.retainedIn (s : State) (d : DriveNo) : Option (Cart × Face) :=
  (List.finRange 160).findSome? fun n =>
    match (s.cart n).location with
    | .mounted e f => if e = d then some (n, f) else none
    | .stuck e f => if e = d then some (n, f) else none
    | _ => none

/-- An identified drive's record becomes UNLOADING (R183, step 2). -/
def State.identify (s : State) (i : Ident) : State :=
  s.setDrive i.drive (.unloading (i.cart.side i.face))

/-- An unidentified drive's record becomes FAULTED, and cause 2 is raised (R183, R184). -/
def State.unidentified (s : State) (d : DriveNo) : State :=
  (s.setDrive d .faulted).raise .driveFault

/-- Step 2: identify the loaded drives in ascending order; the first that no retained location names
issues READ LABEL and the chain waits for its answer (R183). -/
def State.identifyFrom (s : State) (found : List Ident) : List DriveNo → State
  | [] => s.nextUnload found []
  | d :: rest =>
    match s.retainedIn d with
    | some (n, f) => (s.identify ⟨d, n, f⟩).identifyFrom (found ++ [⟨d, n, f⟩]) rest
    | none =>
      ((s.setDrive d (.empty (some Config.commandTenths))).setStartup
        (.identifying d rest found)).setPicker .homingWait

/-- The cartridge and face a label names, whatever its library id (R183, step 2). -/
def labelNames (l : Label) : Option (Cart × Face) :=
  if h : l.signature = Config.labelSignature ∧ l.cartridge.toNat < 160 ∧ l.face.toNat < 2 then
    some (⟨l.cartridge.toNat, h.2.1⟩, ⟨l.face.toNat, h.2.2⟩)
  else none

/-- A start-up READ LABEL ends, and identification goes on with the next drive (R183, R184). -/
def State.labelRead (s : State) (d : DriveNo) (rest : List DriveNo) (found : List Ident)
    (named : Option (Cart × Face)) : State :=
  match named with
  | some (n, f) => (s.identify ⟨d, n, f⟩).identifyFrom (found ++ [⟨d, n, f⟩]) rest
  | none => (s.unidentified d).identifyFrom found rest

/-! ### Reconciliation of the slots -/

/-- The location of a cartridge after the start-up inventory (R13). -/
def startupLocation (occupied unloaded : Bool) (l : Location) : Location :=
  if occupied || unloaded then .home
  else match l with
    | .shelfOut => .shelfOut
    | _ => .missing

/-- Steps 4 and 5: every location set by R13, every cartridge UNVERIFIED with flags cleared, the
picker IDLE and start-up complete (R183). -/
def State.startupReady (s : State) (occupied : BitVec 160) (unloaded : List Cart) : State :=
  let s := { s with lib := { s.lib with
    cartridges := s.lib.cartridges.mapNumbered fun n c =>
      { c.atPowerUp with
        location := startupLocation (occupied.getLsbD n.val) (unloaded.contains n) c.location } } }
  (((s.setPicker .idle).setStartup .complete).sweep).choose

/-- One home slot of a PICKER_RESET's INVENTORY (R91). -/
def State.reconcileSlot (occupied : BitVec 160) (s : State) (n : Cart) : State :=
  let c := s.cart n
  match c.location, occupied.getLsbD n.val with
  | .home, false => (s.moveCart n .missing).dropExport n
  | .missing, true => s.setCart n { c with location := .home, verification := .unverified }
  | _, _ => s

/-- The completion of a PICKER_RESET's INVENTORY (R90, R91). -/
def State.reconcile (s : State) (occupied : BitVec 160) : State :=
  ((((List.finRange 160).foldl (State.reconcileSlot occupied) s).setPicker .idle).sweep).choose

/-! ### A fault during start-up -/

/-- The cartridges identified and not yet unloaded. -/
def Startup.todo : Startup → List Ident
  | .identifying _ _ found => found
  | .unloading rest _ => rest
  | _ => []

/-- The location of a cartridge that the chain did not reach (R184). -/
def State.settledLocation (s : State) (held : Option Cart) (n : Cart) (l : Location) : Location :=
  if held = some n then .missing
  else
    match s.mech.startup.todo.find? fun i => i.cart = n with
    | some i => .stuck i.drive i.face
    | none =>
      match l with
      | .mounted _ _ => .missing
      | .inPicker => .missing
      | .stuck d f =>
        if d ∈ s.mech.surveyLoaded ∧ ¬ (s.mech.startup.todo.any fun i => i.drive = d) then
          .stuck d f
        else .missing
      | l => l

/-- The drives still loaded when the chain ends: all that the survey found before HOME completed,
then the identified ones whose unload had not started (R184). -/
def State.stillLoaded (s : State) : List DriveNo :=
  match s.mech.startup with
  | .homing => s.mech.surveyLoaded
  | u => u.todo.map (·.drive)

/-- The record of each drive that a start-up fault leaves loaded is FAULTED; the drive of the faulted
UNLOAD is EMPTY (R60, R184). -/
def State.settledDrive (s : State) (o : PickerOrder) (d : DriveNo) (r : Drive) : Drive :=
  if o.drive? = some d then .empty none
  else if d ∈ s.stillLoaded then .faulted
  else r

/-- A picker fault during start-up ends the chain (R184). -/
def State.startupFault (s : State) (o : PickerOrder) : State :=
  (({ s with
    lib := { s.lib with
      cartridges := s.lib.cartridges.mapNumbered fun n c =>
        { c.atPowerUp with location := s.settledLocation o.cart? n c.location } }
    mech := { s.mech with
      drives := s.mech.drives.mapNumbered fun d r => s.settledDrive o d r
      picker := .faulted
      startup := .complete } }).raise .pickerFault).sweep

/-- A picker fault, during start-up or after (R88, R184). -/
def State.orderFault (s : State) (o : PickerOrder) : State :=
  if s.mech.startup = .complete then s.pickerFault o else s.startupFault o

end Sys2Proof.Machine
end

