-- ==== Sys2Proof/Machine/Orders.lean ====
section
/-! DEFINITION. The orders (R169, R171, R173): one function per order, from its operands as the record
gives them to its result code and the state it leaves, and the commands that take one order record by
itself. -/

namespace Sys2Proof.Machine

/-! ### How an order is judged -/

/-- An order's result code and the state it leaves. -/
abbrev Ordered := ResultCode × State

/-- The result of the first check whose condition holds. -/
def firstCheck (checks : List (Bool × ResultCode)) : Option ResultCode :=
  (checks.find? (·.1)).map (·.2)

/-- An order that a check refuses changes nothing; otherwise it is DONE. -/
def judged (checks : List (Bool × ResultCode)) (s done : State) : Ordered :=
  match firstCheck checks with
  | some r => (r, s)
  | none => (.done, done)

/-- The settings lock gate (R171). -/
def State.gateOpen (s : State) : Bool :=
  match s.lock with
  | .unlocked => true
  | .keyed => s.keyLine
  | .locked => false

/-- A protected order: the gate runs before the order's own checks (R171). -/
def protectedOrder (s : State) (w : Ordered) : Ordered :=
  if s.gateOpen then w else (.locked, s)

/-- A number operand below `n`. -/
def numberOf (n v : Nat) : Option (Fin n) := if h : v < n then some ⟨v, h⟩ else none

/-- An order whose named record does not exist answers BAD_VALUE. -/
def withNumber {n : Nat} (s : State) (v : Nat) (f : Fin n → Ordered) : Ordered :=
  match numberOf n v with
  | some i => f i
  | none => (.badValue, s)

/-! ### Stations and traps -/

def classOf (c : BitVec 8) : Option StationClass :=
  match c.toNat with
  | 0 => some .vacant
  | 1 => some .search
  | 2 => some .filing
  | 3 => some .clerk
  | _ => none

/-- The fee mode of a STATION_SET record: the account is read for DEPOSIT alone (R32). -/
def feeOf (f account : BitVec 8) : Option FeeMode :=
  match f.toNat with
  | 0 => some .exempt
  | 1 => some .counter
  | 2 => (numberOf 16 account.toNat).map .deposit
  | _ => none

/-- The entry a STATION_SET record gives, or none where its values are refused (R23, R32). -/
def entryOf (cls : BitVec 8) (base : BitVec 16) (length : BitVec 32) (fee account : BitVec 8)
    (idle : BitVec 16) : Option StationEntry :=
  match classOf cls with
  | none => none
  | some .vacant => some vacantEntry
  | some c =>
    match feeOf fee account with
    | none => none
    | some f =>
      let b := base.toNat
      let n := length.toNat
      let i := idle.toNat
      if n = 0 ∨ Config.volumeGranules < n ∨ Config.volumeGranules < b + n ∨
          (1 ≤ i ∧ i ≤ 9) ∨ 3600 < i then none
      else some ⟨c, b, n, f, i⟩

/-- A CLERK entry whose window ends at the top of the volume (R32). -/
def StationEntry.reachesControl (e : StationEntry) : Bool :=
  e.cls = .clerk ∧ e.base + e.length = Config.volumeGranules

/-- Some station can reach the control region (R32). -/
def hasClerk (t : Table StationEntry 32) : Bool := t.toList.any StationEntry.reachesControl

/-- STATION_SET (R32, R33): the old ticket settles first, then the entry is replaced. -/
def orderStationSet (station cls : BitVec 8) (base : BitVec 16) (length : BitVec 32)
    (fee account : BitVec 8) (idle : BitVec 16) (s : State) : Ordered :=
  protectedOrder s <|
    withNumber s station.toNat fun t =>
      match entryOf cls base length fee account idle with
      | none => (.badValue, s)
      | some e =>
        judged [(!hasClerk (s.stations.put t e), .clerkRequired)] s
          ((s.settleEvent t .profile).setStation t e)

/-- TRAP_CLEAR (R30). -/
def orderTrapClear (flags : BitVec 32) (s : State) : Ordered :=
  (.done, { s with traps := s.traps.mapNumbered fun t r =>
    if flags.getLsbD t.val then .cleared else r })

/-! ### Sides and library -/

/-- The record a SIDE_ZONE_SET makes (R18): none for a zone other than DEED or INDEX. -/
def zonedRecord (zone : BitVec 8) : Option SideRecord :=
  match zone.toNat with
  | 1 => some (.deed none 0 0)
  | 2 => some (.index none 0)
  | _ => none

/-- A drive remembers that its mounted side was zoned in this mount (R62). -/
def Drive.noteZoned (x : Side) (r : Drive) : Drive :=
  let mark (m : Mount) : Mount := if m.side = x then { m with zoned := true } else m
  match r with
  | .loading y z => .loading y (z || y = x)
  | .verifying m c => .verifying (mark m) c
  | .busy m c => .busy (mark m) c
  | .idle m i l => .idle (mark m) i l
  | .yielding m c => .yielding (mark m) c
  | r => r

/-- SIDE_ZONE_SET (R18). -/
def orderSideZoneSet (side : BitVec 16) (zone : BitVec 8) (s : State) : Ordered :=
  protectedOrder s <|
    withNumber s side.toNat fun x =>
      match zonedRecord zone with
      | none => (.badValue, s)
      | some r =>
        let done := s.setSide x r
        judged [(decide (s.side x ≠ .unused), .zoned)] s
          { done with mech := { done.mech with
              drives := done.mech.drives.mapNumbered fun _ d => d.noteZoned x } }

/-- CLOSURE_SET on a DEED side with a known frontier (R19). -/
def State.closeDeed (s : State) (x : Side) (f r mark : Nat) : State :=
  if f < mark then
    let s := s.setSide x (.deed (some mark) 0 mark)
    if mark = Config.sectorsPerSide then s.raise .sideFull else s
  else s.setSide x (.deed (some f) r mark)

/-- CLOSURE_SET (R19). -/
def orderClosureSet (side : BitVec 16) (mark : BitVec 32) (s : State) : Ordered :=
  withNumber s side.toNat fun x =>
    if ¬ s.keyLine then (.noKey, s)
    else
      let m := mark.toNat
      match s.side x with
      | .unused => (.notZoned, s)
      | .deed f r c =>
        match f with
        | none =>
          judged [(decide (Config.sectorsPerSide < m), .badValue), (true, .sideUnresolved)] s s
        | some f =>
          judged [(decide (Config.sectorsPerSide < m), .badValue),
            (decide (m < c), .notMonotone)] s (s.closeDeed x f r m)
      | .index p c =>
        judged [(decide (Config.spareBase < m), .badValue), (decide (m < c), .notMonotone)] s
          (s.setSide x (.index p m))

/-- LIBRARY_ID_SET (R20). -/
def orderLibraryIdSet (libraryId : BitVec 32) (s : State) : Ordered :=
  protectedOrder s (.done, { s with lib := { s.lib with libraryId := libraryId } })

/-- LABEL_CARTRIDGE (R75): the flag is set, a label piece joins each face's queue, the standing of both
faces is tested again, and the choice runs (R82).  DESIGN CHOICE: the change of the flag has the new
pieces tested in the same event (R16), so that with the picker FAULTED or no drive in service they are
refused and the labelling fails at once (R76, R89; log entry 30). -/
def orderLabelCartridge (n : BitVec 16) (s : State) : Ordered :=
  withNumber s n.toNat fun n =>
    let c := s.cart n
    judged
      [(decide (c.location ≠ .home), .notHome), (c.exportPending, .exportPending),
       (c.labellingPending, .labelling), (decide (c.verification ≠ .foreignBlank), .notBlank)] s
      (((((s.setCart n { c with labellingPending := true }).join (Cart.side n 0) .label s.tenths).join
        (Cart.side n 1) .label s.tenths).sweepCart n).choose)

/-! ### Scheduling, export, import, recovery -/

/-- SCHED_PARAMS (R98). -/
def orderSchedParams (a d l : BitVec 16) (s : State) : Ordered :=
  protectedOrder s <|
    judged
      [(decide (a.toNat < 5 ∨ 600 < a.toNat ∨ 120 < d.toNat ∨ 600 < l.toNat), .badValue)] s
      (({ s with sched := ⟨a.toNat, d.toNat, l.toNat⟩ }).choose.rearm)

/-- EXPORT (R94). -/
def orderExport (n : BitVec 16) (s : State) : Ordered :=
  withNumber s n.toNat fun n =>
    let c := s.cart n
    let out : Bool := match c.location with
      | .missing => true
      | .stuck _ _ => true
      | .shelfOut => true
      | _ => false
    judged [(decide (s.mech.mail ≠ .empty), .mailOccupied), (out, .unavailable)] s
      (((((s.setMail .reservedOut).setExport (some n)).setCart n
        { c with exportPending := true }).sweepCart n).choose)

/-- IMPORT (R96). -/
def orderImport (n : BitVec 16) (s : State) : Ordered :=
  withNumber s n.toNat fun n =>
    let l := (s.cart n).location
    judged
      [(decide (s.mech.mail ≠ .heldIn), .mailEmpty),
       (s.mech.pendingImport.isSome, .importPending),
       (decide (l ≠ .shelfOut ∧ l ≠ .missing), .notOut)] s
      (s.setImport (some n)).choose

/-- PICKER_RESET (R90). -/
def orderPickerReset (s : State) : Ordered :=
  judged [(decide (s.mech.picker ≠ .faulted ∧ s.mech.picker ≠ .idle), .pickerBusy)] s
    (s.startHoming .home)

/-- DRIVE_RETURN (R92): a drive with no STUCK cartridge is cleared in the order's event; else its
return becomes pending. -/
def orderDriveReturn (d : BitVec 8) (s : State) : Ordered :=
  withNumber s d.toNat fun d =>
    judged
      [(decide (s.drive d ≠ .faulted), .notFaulted), (s.mech.returns.at d, .returnPending)] s
      (if (s.stuckIn d).isNone then (s.emptyDrive d).sweep.choose
       else (s.setReturn d true).choose)

/-! ### Tariff and fee parameters -/

/-- TARIFF_SET (R132). -/
def orderTariffSet (book : BitVec 8) (rate : BitVec 16) (cap : BitVec 32) (s : State) : Ordered :=
  protectedOrder s <|
    withNumber s book.toNat fun b =>
      judged [(decide (2000 < rate.toNat ∨ 999999 < cap.toNat), .badValue)] s
        { s with tariff := { s.tariff with
            rate := s.tariff.rate.put b rate.toNat
            cap := s.tariff.cap.put b cap.toNat } }

/-- SIZE_FACTOR_SET (R132). -/
def orderSizeFactorSet (sheet factor : BitVec 8) (s : State) : Ordered :=
  protectedOrder s <|
    withNumber s sheet.toNat fun z =>
      judged [(decide (factor.toNat = 0 ∨ 40 < factor.toNat), .badValue)] s
        { s with tariff := { s.tariff with factor := s.tariff.factor.put z factor.toNat } }

/-- Some ticket is OPEN or SETTLE_DUE (R165). -/
def State.someTicketLive (s : State) : Bool := s.ledger.tickets.toList.any Ticket.isLive

/-- FEE_PARAMS (R165). -/
def orderFeeParams (minimum : BitVec 16) (settleStep notice : BitVec 8) (s : State) : Ordered :=
  let st := settleStep.toNat
  protectedOrder s <|
    judged
      [(decide (9999 < minimum.toNat ∨ ¬ (st = 1 ∨ st = 5 ∨ st = 10 ∨ st = 25) ∨
          notice.toNat = 0 ∨ 16 < notice.toNat), .badValue),
       (s.someTicketLive, .ticketsOpen)] s
      { s with
        tariff := { s.tariff with
          minimum := minimum.toNat, settleStep := st, notice := notice.toNat }
        ledger := { s.ledger with noticeLeft := notice.toNat } }

/-! ### Tickets, accounts, journal -/

/-- TICKET_CLOSE (R152). -/
def orderTicketClose (station : BitVec 8) (s : State) : Ordered :=
  withNumber s station.toNat fun t =>
    match s.ticket t with
    | .idle => (.noTicket, s)
    | _ => (.done, s.settleEvent t .order)

/-- An amount that an account order refuses (R156, R157). -/
def badAmount (amount : Nat) : Bool := amount = 0 ∨ Config.centsLimit < amount

/-- ACCOUNT_CREDIT (R156): the balance saturates at its limit. -/
def orderAccountCredit (account : BitVec 8) (amount : BitVec 32) (s : State) : Ordered :=
  withNumber s account.toNat fun a =>
    let r := s.account a
    let sum := r.balance + amount.toNat
    if badAmount amount.toNat then (.badValue, s)
    else
      (if Config.centsLimit < sum then .capped else .done,
        (s.setAccount a { r with balance := min sum Config.centsLimit }).recompute .depositLow)

/-- ACCOUNT_WITHDRAW (R157). -/
def orderAccountWithdraw (account : BitVec 8) (amount : BitVec 32) (s : State) : Ordered :=
  withNumber s account.toNat fun a =>
    let r := s.account a
    judged
      [(badAmount amount.toNat, .badValue),
       (decide (r.balance < r.committed + amount.toNat), .belowCommitted)] s
      ((s.setAccount a { r with balance := r.balance - amount.toNat }).recompute .depositLow)

/-- ACCOUNT_LOW_MARK (R158). -/
def orderAccountLowMark (account : BitVec 8) (mark : BitVec 32) (s : State) : Ordered :=
  withNumber s account.toNat fun a =>
    judged [(decide (Config.centsLimit < mark.toNat), .badValue)] s
      ((s.setAccount a { s.account a with lowMark := mark.toNat }).recompute .depositLow)

/-- The oldest `n` records leave the journal, then the drain runs and cause 3 is recomputed
(R160, R163). -/
def State.releaseJournal (s : State) (n : Nat) : State :=
  (({ s with ledger := { s.ledger with journal := s.ledger.journal.drop n } }).drain).recompute
    .journalFull

/-- JOURNAL_RELEASE (R160). -/
def orderJournalRelease (n : BitVec 16) (s : State) : Ordered :=
  let n := n.toNat
  if n = 0 ∨ Config.journalPlaces < n then (.badValue, s)
  else (if s.ledger.journal.length < n then .trimmed else .done, s.releaseJournal n)

/-! ### Lock, attention, clock -/

def lockOf (m : BitVec 8) : Option LockMode :=
  match m.toNat with
  | 0 => some .unlocked
  | 1 => some .keyed
  | 2 => some .locked
  | _ => none

/-- The order of the lock modes: OPEN, KEYED, LOCKED (R172). -/
def LockMode.height : LockMode → Nat
  | .unlocked => 0
  | .keyed => 1
  | .locked => 2

/-- SETTINGS_LOCK (R172). -/
def orderSettingsLock (target : BitVec 8) (s : State) : Ordered :=
  match lockOf target with
  | none => (.badValue, s)
  | some m =>
    if m = s.lock then (.done, s)
    else
      judged
        [(decide (m.height < s.lock.height ∧ s.lock = .locked), .locked),
         (decide (m.height < s.lock.height) && !s.keyLine, .noKey)] s { s with lock := m }

/-- ATTENTION_MASK (R175). -/
def orderAttentionMask (flags : BitVec 16) (sense : BitVec 8) (s : State) : Ordered :=
  judged [(decide (4096 ≤ flags.toNat ∨ 1 < sense.toNat), .badValue)] s
    (s.maskCauses (flags.setWidth 12) (sense.toNat = 1))

/-- ATTENTION_CLEAR (R176). -/
def orderAttentionClear (flags : BitVec 16) (s : State) : Ordered :=
  judged [(decide (4096 ≤ flags.toNat), .badValue)] s (s.clearCauses (flags.setWidth 12))

/-- CLOCK_SET (R180). -/
def orderClockSet (seconds : BitVec 32) (s : State) : Ordered :=
  judged [(decide (seconds.toNat = 0 ∨ seconds.toNat = 4294967295), .badValue)] s
    (({ s with clock := some ⟨seconds.toNat, 0⟩ }).recompute .clockUnset)

/-! ### Taking one record of an order block -/

/-- Take one order record by the rule that owns its code; `none` for the END record (R169, R173). -/
def takeRecord (r : OrderRecord) (s : State) : Option Ordered :=
  match (operand r 0 1).toNat with
  | 0 => none
  | 1 => some (orderStationSet (operand r 1 1) (operand r 2 1) (operand r 3 2) (operand r 5 4)
      (operand r 9 1) (operand r 10 1) (operand r 11 2) s)
  | 2 => some (orderTrapClear (operand r 1 4) s)
  | 3 => some (orderSideZoneSet (operand r 1 2) (operand r 3 1) s)
  | 4 => some (orderClosureSet (operand r 1 2) (operand r 3 4) s)
  | 5 => some (orderLibraryIdSet (operand r 1 4) s)
  | 6 => some (orderLabelCartridge (operand r 1 2) s)
  | 7 => some (orderSchedParams (operand r 1 2) (operand r 3 2) (operand r 5 2) s)
  | 8 => some (orderExport (operand r 1 2) s)
  | 9 => some (orderImport (operand r 1 2) s)
  | 10 => some (orderPickerReset s)
  | 11 => some (orderDriveReturn (operand r 1 1) s)
  | 12 => some (orderTariffSet (operand r 1 1) (operand r 2 2) (operand r 4 4) s)
  | 13 => some (orderSizeFactorSet (operand r 1 1) (operand r 2 1) s)
  | 14 => some (orderFeeParams (operand r 1 2) (operand r 3 1) (operand r 4 1) s)
  | 15 => some (orderTicketClose (operand r 1 1) s)
  | 16 => some (orderAccountCredit (operand r 1 1) (operand r 2 4) s)
  | 17 => some (orderAccountWithdraw (operand r 1 1) (operand r 2 4) s)
  | 18 => some (orderAccountLowMark (operand r 1 1) (operand r 2 4) s)
  | 19 => some (orderJournalRelease (operand r 1 2) s)
  | 20 => some (orderSettingsLock (operand r 1 1) s)
  | 21 => some (orderAttentionMask (operand r 1 2) (operand r 3 1) s)
  | 22 => some (orderAttentionClear (operand r 1 2) s)
  | 23 => some (orderClockSet (operand r 1 4) s)
  | _ => some (.unknownOrder, s)

/-- An order is taken when its result is DONE, CAPPED or TRIMMED (R169). -/
def ResultCode.isTaken : ResultCode → Bool
  | .done => true
  | .capped => true
  | .trimmed => true
  | _ => false

/-- END and NONE are neither taken nor refused (R169). -/
def ResultCode.isRefused (c : ResultCode) : Bool :=
  !c.isTaken && c ≠ .endMark && c ≠ .noneMark

/-- Take records in order up to the END record: their results and the state they leave (R169).  The
ageing alarm follows each record that changes the candidates or the age limit (R81). -/
def takeRecords : List OrderRecord → State → List ResultCode × State
  | [], s => ([], s)
  | r :: rs, s =>
    match takeRecord r s with
    | none => ([], s)
    | some (c, t) =>
      match takeRecords rs (t.rearmFrom s) with
      | (cs, u) => (c :: cs, u)

/-- The result list of a block: the examined records' results, END where the block has one, and NONE
for the rest (R169). -/
def resultList (cs : List ResultCode) : List ResultCode :=
  if Config.orderRecords ≤ cs.length then cs
  else cs ++ .endMark :: List.replicate (Config.orderRecords - 1 - cs.length) .noneMark

/-- Take an order block written by a station under a tag: the records, then the order result block
(R169, R170).  The second component tells whether a record was refused. -/
def State.takeBlock (s : State) (b : Block) (t : Station) (tag : Tag) : State × Bool :=
  match takeRecords ((List.range Config.orderRecords).map (orderRecord b)) s with
  | (cs, s) =>
    let refused := cs.countP ResultCode.isRefused
    ({ s with orderResult :=
        { number := s.orderResult.number + 1
          station := some t
          tag := some tag
          examined := cs.length
          refused := refused
          blockRefused := refused ≠ 0
          results := resultList cs } }, refused ≠ 0)

/-! ### One order record by itself -/

/-- The outcome of an event. -/
abbrev Out := Host.Outcome State Fault Refusal

/-- An order that cannot change a candidate: its state, with the result code shown. -/
def answered (w : Ordered) : State := { w.2 with orderAnswer := some w.1 }

/-- An order that may change the candidates or the age limit: the ageing alarm follows (R81). -/
def answeredAndRearmed (before : State) (w : Ordered) : State := (answered w).rearmFrom before

def execStationSet (station cls : BitVec 8) (base : BitVec 16) (length : BitVec 32)
    (fee account : BitVec 8) (idle : BitVec 16) (key : Bool) (s : State) : Out :=
  .next (answered (orderStationSet station cls base length fee account idle (s.sampleKey key)))
def execTrapClear (flags : BitVec 32) (s : State) : Out :=
  .next (answered (orderTrapClear flags s))
def execSideZoneSet (side : BitVec 16) (zone : BitVec 8) (key : Bool) (s : State) : Out :=
  .next (answered (orderSideZoneSet side zone (s.sampleKey key)))
def execClosureSet (side : BitVec 16) (mark : BitVec 32) (key : Bool) (s : State) : Out :=
  .next (answered (orderClosureSet side mark (s.sampleKey key)))
def execLibraryIdSet (libraryId : BitVec 32) (key : Bool) (s : State) : Out :=
  .next (answered (orderLibraryIdSet libraryId (s.sampleKey key)))
def execLabelCartridge (n : BitVec 16) (s : State) : Out :=
  .next (answeredAndRearmed s (orderLabelCartridge n s))
def execSchedParams (a d l : BitVec 16) (key : Bool) (s : State) : Out :=
  .next (answeredAndRearmed s (orderSchedParams a d l (s.sampleKey key)))
def execExport (n : BitVec 16) (s : State) : Out :=
  .next (answeredAndRearmed s (orderExport n s))
def execImport (n : BitVec 16) (s : State) : Out :=
  .next (answeredAndRearmed s (orderImport n s))
def execPickerReset (s : State) : Out :=
  .next (answeredAndRearmed s (orderPickerReset s))
def execDriveReturn (d : BitVec 8) (s : State) : Out :=
  .next (answeredAndRearmed s (orderDriveReturn d s))
def execTariffSet (book : BitVec 8) (rate : BitVec 16) (cap : BitVec 32) (key : Bool)
    (s : State) : Out :=
  .next (answered (orderTariffSet book rate cap (s.sampleKey key)))
def execSizeFactorSet (sheet factor : BitVec 8) (key : Bool) (s : State) : Out :=
  .next (answered (orderSizeFactorSet sheet factor (s.sampleKey key)))
def execFeeParams (minimum : BitVec 16) (settleStep notice : BitVec 8) (key : Bool)
    (s : State) : Out :=
  .next (answered (orderFeeParams minimum settleStep notice (s.sampleKey key)))
def execTicketClose (station : BitVec 8) (s : State) : Out :=
  .next (answered (orderTicketClose station s))
def execAccountCredit (account : BitVec 8) (amount : BitVec 32) (s : State) : Out :=
  .next (answered (orderAccountCredit account amount s))
def execAccountWithdraw (account : BitVec 8) (amount : BitVec 32) (s : State) : Out :=
  .next (answered (orderAccountWithdraw account amount s))
def execAccountLowMark (account : BitVec 8) (mark : BitVec 32) (s : State) : Out :=
  .next (answered (orderAccountLowMark account mark s))
def execJournalRelease (n : BitVec 16) (s : State) : Out :=
  .next (answered (orderJournalRelease n s))
def execSettingsLock (target : BitVec 8) (key : Bool) (s : State) : Out :=
  .next (answered (orderSettingsLock target (s.sampleKey key)))
def execAttentionMask (flags : BitVec 16) (sense : BitVec 8) (s : State) : Out :=
  .next (answered (orderAttentionMask flags sense s))
def execAttentionClear (flags : BitVec 16) (s : State) : Out :=
  .next (answered (orderAttentionClear flags s))
def execClockSet (seconds : BitVec 32) (s : State) : Out :=
  .next (answered (orderClockSet seconds s))

/-- UNKNOWN_ORDER: an order record of the given code, its operand bytes 0, taken by R169.  A code outside
the order table answers UNKNOWN_ORDER and changes nothing; a code of the table is taken by the rule that
owns its order, and END is not taken. -/
def execUnknownOrder (code : BitVec 8) (s : State) : Out :=
  match takeRecord (code.setWidth 128) s with
  | none => .next { s with orderAnswer := some .endMark }
  | some w => .next (answeredAndRearmed s w)

end Sys2Proof.Machine
end

