-- ==== Sys2Proof/Machine/Reports.lean ====
section
/-! DEFINITION. The report blocks of the control region, 0..93, in the layouts of R178 (R21, R35, R78,
R100, R126, R144, R166, R167, R170). -/

namespace Sys2Proof.Machine

/-! ### Encodings (R178) -/

def SideRecord.zoneCode : SideRecord → Nat
  | .unused => 0
  | .deed _ _ _ => 1
  | .index _ _ => 2

def Location.code : Location → Nat
  | .home => 0
  | .mounted _ _ => 1
  | .inPicker => 2
  | .shelfOut => 3
  | .missing => 4
  | .stuck _ _ => 5

def Verification.code : Verification → Nat
  | .unverified => 0
  | .verified => 1
  | .foreignBlank => 2
  | .foreignWrong => 3

def Drive.code : Drive → Nat
  | .absent => 0
  | .empty _ => 1
  | .loading _ _ => 2
  | .verifying _ _ => 3
  | .busy _ _ => 4
  | .idle _ _ _ => 5
  | .yielding _ _ => 6
  | .unloading _ => 7
  | .faulted => 8

def Picker.code : Picker → Nat
  | .idle => 0
  | .moving _ _ => 1
  | .homing _ _ => 2
  | .homingWait => 2
  | .faulted => 3

def PickerOrder.code : PickerOrder → Nat
  | .load _ _ _ => 0
  | .exchange _ _ => 1
  | .unload _ _ _ => 2
  | .mailIn _ => 3
  | .mailOut _ _ => 4
  | .home => 5
  | .inventory => 6

def MailSlot.code : MailSlot → Nat
  | .empty => 0
  | .heldIn => 1
  | .reservedOut => 2
  | .heldOut => 3

def StationClass.code : StationClass → Nat
  | .vacant => 0
  | .search => 1
  | .filing => 2
  | .clerk => 3

def FeeMode.code : FeeMode → Nat
  | .exempt => 0
  | .counter => 1
  | .deposit _ => 2

def Ticket.code : Ticket → Nat
  | .idle => 0
  | .opened _ _ => 1
  | .due _ _ _ => 2

def SettleCause.code : SettleCause → Nat
  | .order => 0
  | .idle => 1
  | .profile => 2
  | .totalLimit => 3
  | .channelReset => 4
  | .powerRestore => 5

def TrapKind.code : TrapKind → Nat
  | .outsideWindow => 0
  | .writeDenied => 1
  | .controlDenied => 2
  | .vacant => 3

def ReqKind.code : ReqKind → Nat
  | .read => 0
  | .write => 1

def LockMode.code : LockMode → Nat
  | .unlocked => 0
  | .keyed => 1
  | .locked => 2

def ResultCode.code : ResultCode → Nat
  | .done => 0
  | .capped => 1
  | .trimmed => 2
  | .badValue => 3
  | .locked => 4
  | .noKey => 5
  | .unknownOrder => 6
  | .zoned => 7
  | .notZoned => 8
  | .sideUnresolved => 9
  | .notMonotone => 10
  | .clerkRequired => 11
  | .notHome => 12
  | .exportPending => 13
  | .labelling => 14
  | .notBlank => 15
  | .pickerBusy => 16
  | .notFaulted => 17
  | .returnPending => 18
  | .mailOccupied => 19
  | .unavailable => 20
  | .mailEmpty => 21
  | .importPending => 22
  | .notOut => 23
  | .ticketsOpen => 24
  | .noTicket => 25
  | .belowCommitted => 26
  | .endMark => 254
  | .noneMark => 255

/-! ### Drive entries of STATUS (R78) -/

def Countdown.value : Countdown → Nat
  | .running n => n
  | .expired => expiredValue

/-- The mount of a drive record, in the states that have one (R56). -/
def Drive.mount? : Drive → Option Mount
  | .verifying m _ => some m
  | .busy m _ => some m
  | .idle m _ _ => some m
  | .yielding m _ => some m
  | _ => none

def Drive.linger? : Drive → Option Countdown
  | .idle _ _ l => some l
  | _ => none

/-- The verification step, from the outstanding command (R56). -/
def Drive.step? : Drive → Option Nat
  | .verifying _ ⟨.readLabel, _⟩ => some 0
  | .verifying _ ⟨.searchBlank _, _⟩ => some 1
  | _ => none

/-- The command countdown, a start-up READ LABEL's included (R56, R183). -/
def Drive.commandLeft (r : Drive) : Option Nat :=
  match r with
  | .empty left => left
  | r => r.outstanding.map (·.2.left)

/-- The current piece of a drive: the front of its mounted side's queue, in BUSY and in YIELDING
until that piece ends (R56). -/
def State.currentPiece (s : State) (r : Drive) : Option (Side × Owner) :=
  let front (m : Mount) := ((s.queue m.side).head?).map fun e => (m.side, e.owner)
  match r with
  | .busy m _ => front m
  | .yielding m (some _) => front m
  | _ => none

/-- The offset of a current piece in its request (R78). -/
def State.ownerOffset (s : State) (x : Side) : Owner → Option Nat
  | .request t => ((s.request t).bind fun r => r.pieceOn x).map (·.offset)
  | .orphan _ p => some p.offset
  | .label => none

def Owner.code : Owner → Nat
  | .request _ => 0
  | .label => 1
  | .orphan _ _ => 2

/-- A drive entry of STATUS (R78, R178). -/
def State.driveEntry (s : State) (r : Drive) : List Field :=
  let cur := s.currentPiece r
  [⟨0, 1, r.code⟩, optField 1 1 r.step?, optField 2 2 (r.side?.map (·.val)),
   optField 4 4 (r.mount?.map fun m => s.elapsed m.stamp),
   optField 8 2 (r.mount?.map fun m => m.dwell.value),
   optField 10 2 (r.linger?.map Countdown.value),
   optField 12 2 (cur.map fun c => c.1.val),
   optField 14 1 (cur.bind fun c => s.ownerOffset c.1 c.2),
   optField 15 1 (cur.map fun c => c.2.code),
   optField 16 2 r.commandLeft]

/-! ### The picker order of STATUS (R100) -/

def PickerOrder.cartOperand : PickerOrder → Option Nat
  | .load n _ _ => some n.val
  | .mailIn n => some n.val
  | .mailOut n _ => some n.val
  | _ => none

def PickerOrder.faceOperand : PickerOrder → Option Nat
  | .load _ f _ => some f.val
  | _ => none

def Picker.watchdog? : Picker → Option Nat
  | .moving _ w => some w
  | .homing _ w => some w
  | _ => none

/-! ### STATUS -/

/-- The STATUS report, control block 0 (R178). -/
def State.statusReport (s : State) : Block :=
  let o := s.mech.picker.order?
  reportBlock <|
    [optField 0 4 (s.clock.map (·.seconds)), ⟨4, 4, s.tenths.toNat⟩, ⟨8, 1, s.lock.code⟩,
     ⟨9, 1, flagValue s.keyLine⟩, ⟨10, 2, s.attention.pending.toNat⟩,
     ⟨12, 2, s.attention.masked.toNat⟩, ⟨14, 1, s.attention.firstCause⟩,
     ⟨15, 1, flagValue s.attention.line⟩,
     ⟨16, 1, s.chan.requests.toList.countP Option.isSome⟩,
     ⟨18, 2, s.remap.entries.length⟩, ⟨20, 2, s.remap.held⟩,
     ⟨22, 1, s.ledger.journal.length⟩, ⟨23, 1, s.ledger.noticeLeft⟩,
     ⟨24, 2, s.ledger.nextSeq.toNat⟩, ⟨26, 1, s.ledger.dueList.length⟩,
     ⟨27, 1, s.chan.heldList.length⟩, ⟨28, 4, s.lib.libraryId.toNat⟩,
     ⟨32, 1, s.mech.picker.code⟩, optField 33 1 (o.map (·.code)),
     optField 34 1 (o.bind (·.cartOperand)), optField 35 1 (o.bind (·.faceOperand)),
     optField 36 1 ((o.bind (·.drive?)).map (·.val)), ⟨37, 1, s.mech.mail.code⟩,
     optField 38 2 s.mech.picker.watchdog?,
     optField 40 1 (s.mech.pendingExport.map (·.val)),
     optField 41 1 (s.mech.pendingImport.map (·.val)),
     ⟨42, 1, flagSet s.mech.returns.toList⟩, ⟨44, 2, s.candidates.length⟩,
     optField 46 2 s.mech.ageing, ⟨48, 2, s.sched.ageLimit⟩, ⟨50, 2, s.sched.minDwell⟩,
     ⟨52, 2, s.sched.linger⟩, ⟨54, 2, s.candidates.countP (·.aged)⟩] ++
    listFields 64 32 4 s.driveEntry s.mech.drives.toList ++
    listFields 192 1 32 (fun (t : Station) => [⟨0, 1, t.val⟩]) s.ledger.dueList ++
    listFields 224 1 32 (fun (t : Tag) => [⟨0, 1, t.val⟩]) s.chan.heldList

/-! ### The other reports -/

/-- The order result block, control block 1 (R170). -/
def OrderResult.report (r : OrderResult) : Block :=
  reportBlock <|
    [⟨0, 2, r.number.toNat⟩, optField 2 1 (r.station.map (·.val)),
     optField 3 1 (r.tag.map (·.val)), ⟨4, 1, r.examined⟩, ⟨5, 1, r.refused⟩,
     ⟨6, 1, flagValue r.blockRefused⟩] ++
    listFields 8 1 64 (fun (c : ResultCode) => [⟨0, 1, c.code⟩]) r.results

/-- A journal record (R178). -/
def JournalRecord.fields (r : JournalRecord) : List Field :=
  [⟨0, 2, r.seq.toNat⟩, ⟨2, 1, r.station.val⟩, optField 3 1 (r.account.map (·.val)),
   ⟨4, 1, r.cause.code⟩, ⟨6, 2, r.pages⟩, ⟨8, 4, r.gross⟩, ⟨12, 2, r.minAdjust⟩,
   ⟨14, 2, (BitVec.ofInt 16 r.roundAdjust).toNat⟩, ⟨16, 4, r.settled⟩, ⟨20, 4, r.openStamp⟩,
   ⟨24, 4, r.settleStamp⟩]

/-- A frontier or spare pointer, known or UNKNOWN (R178). -/
def knownValue (v : Option Nat) : Nat := v.getD unknownValue

/-- The fields of a side entry that the zone makes present (R6, R21). -/
def SideRecord.fields : SideRecord → List Field
  | .unused => [optField 4 4 none, optField 8 2 none, optField 12 4 none, optField 16 4 none]
  | .deed f r c => [⟨4, 4, knownValue f⟩, ⟨8, 2, r⟩, ⟨12, 4, c⟩, optField 16 4 none]
  | .index p c => [optField 4 4 none, optField 8 2 none, ⟨12, 4, c⟩, ⟨16, 4, knownValue p⟩]

/-- A side entry (R21, R178). -/
def State.sideEntry (s : State) (x : Side) : List Field :=
  let q := s.queue x
  [⟨0, 1, (s.side x).zoneCode⟩, optField 1 1 ((s.mountedIn x).map (·.val)), ⟨2, 1, q.length⟩] ++
    (s.side x).fields ++ [optField 20 4 (q.head?.map fun e => e.stamp.toNat)]

def Location.drive? : Location → Option Nat
  | .mounted d _ => some d.val
  | .stuck d _ => some d.val
  | _ => none

def Location.face? : Location → Option Nat
  | .mounted _ f => some f.val
  | .stuck _ f => some f.val
  | _ => none

/-- A cartridge entry (R21, R178). -/
def CartridgeRecord.fields (c : CartridgeRecord) : List Field :=
  [⟨0, 1, c.location.code⟩, optField 1 1 c.location.drive?, optField 2 1 c.location.face?,
   ⟨3, 1, c.verification.code⟩, ⟨4, 1, flagValue c.exportPending⟩,
   ⟨5, 1, flagValue c.labellingPending⟩]

def FeeMode.account? : FeeMode → Option Nat
  | .deposit a => some a.val
  | _ => none

/-- A station entry (R35, R178). -/
def State.stationFields (s : State) (t : Station) : List Field :=
  let e := s.station t
  [⟨0, 1, e.cls.code⟩, ⟨1, 1, e.fee.code⟩, optField 2 1 e.fee.account?,
   ⟨3, 1, (s.ticket t).code⟩, ⟨4, 2, e.base⟩, ⟨8, 4, e.length⟩, ⟨12, 2, e.idleLimit⟩]

/-- The tariff report, control block 27 (R131, R178). -/
def Tariff.report (T : Tariff) : Block :=
  reportBlock <|
    listFields 0 8 16 (fun (e : Nat × Nat) => [⟨0, 2, e.1⟩, ⟨2, 4, e.2⟩])
      (T.rate.toList.zip T.cap.toList) ++
    listFields 128 1 4 (fun (f : Nat) => [⟨0, 1, f⟩]) T.factor.toList ++
    [⟨132, 2, T.minimum⟩, ⟨134, 1, T.settleStep⟩, ⟨135, 1, T.notice⟩]

/-- An account entry (R166, R178). -/
def DepositAccount.fields (a : DepositAccount) : List Field :=
  [⟨0, 4, a.balance⟩, ⟨4, 4, a.committed⟩, ⟨8, 4, a.lowMark⟩, ⟨12, 4, a.uncommitted⟩]

/-- A trap entry (R35, R178). -/
def TrapRecord.fields (r : TrapRecord) : List Field :=
  [optField 0 1 (r.latest.map (·.kind.code)), optField 1 1 (r.latest.map (·.request.code)),
   ⟨2, 1, r.count⟩, optField 4 4 (r.latest.map (·.sba))]

def Ticket.countdown? : Ticket → Option Nat
  | .opened _ c => c
  | _ => none

def Ticket.cause? : Ticket → Option SettleCause
  | .due _ c _ => some c
  | _ => none

def Ticket.dueStamp? : Ticket → Option Nat
  | .due _ _ st => some st
  | _ => none

/-- Tenths as whole seconds, rounded up (R148). -/
def wholeSeconds (n : Nat) : Nat := (n + 9) / 10

/-- A ticket report, control blocks 30..61 (R166, R178). -/
def Ticket.report (k : Ticket) : Block :=
  let b := k.body?
  let pages := (b.map (·.pageList)).getD []
  let insts := (b.map (·.instruments)).getD []
  reportBlock <|
    [⟨0, 1, k.code⟩, optField 1 1 ((b.bind (·.account)).map (·.val)),
     optField 2 1 (k.cause?.map (·.code)), optField 4 4 (b.map (·.openStamp)),
     optField 8 4 k.dueStamp?, ⟨12, 4, k.gross⟩, ⟨16, 2, (b.map (·.pages)).getD 0⟩,
     optField 18 2 (k.countdown?.map wholeSeconds), ⟨20, 1, pages.length⟩,
     ⟨21, 1, insts.length⟩] ++
    listFields 32 8 24 (fun (e : PageEntry) => [⟨0, 4, e.instrument⟩, ⟨4, 2, e.page⟩, ⟨6, 1, e.copies⟩])
      pages ++
    listFields 224 8 8 (fun (e : InstrumentEntry) => [⟨0, 4, e.instrument⟩, ⟨4, 4, e.total⟩]) insts

/-- Part of a table's numbers, as a list: `count` numbers from `first`. -/
def numbersFrom (n first count : Nat) : List (Fin n) :=
  ((List.finRange n).drop first).take count

/-- The report of control block `c`, 0..93 (R167); past those, a fill block. -/
def State.reportOf (s : State) (c : Nat) : Block :=
  if c = 0 then s.statusReport
  else if c = 1 then s.orderResult.report
  else if c < 10 then
    reportBlock (listFields 0 64 16 JournalRecord.fields (s.ledger.journal.drop (16 * (c - 2))))
  else if c < 20 then
    reportBlock (listFields 0 32 32 s.sideEntry (numbersFrom 320 (32 * (c - 10)) 32))
  else if c < 25 then
    reportBlock (listFields 0 32 32 (fun n => (s.cart n).fields)
      (numbersFrom 160 (32 * (c - 20)) 32))
  else if c < 27 then
    reportBlock (listFields 0 64 16 s.stationFields (numbersFrom 32 (16 * (c - 25)) 16))
  else if c = 27 then s.tariff.report
  else if c = 28 then
    reportBlock (listFields 0 16 16 DepositAccount.fields s.ledger.accounts.toList)
  else if c = 29 then reportBlock (listFields 0 32 32 TrapRecord.fields s.traps.toList)
  else if c < 62 then
    match (numbersFrom 32 (c - 30) 1).head? with
    | some t => (s.ticket t).report
    | none => fillBlock
  else if c < 94 then
    reportBlock (listFields 0 8 128 (fun (e : RemapEntry) => [⟨0, 4, e.home⟩, ⟨4, 4, e.spare⟩])
      (s.remap.entries.drop (128 * (c - 62))))
  else fillBlock

/-- The condition of a control block in a read (R167). -/
def controlCond (c : Nat) : Cond := if c < 94 then .good else .fill

end Sys2Proof.Machine
end

