-- ==== Sys2Proof/Machine/Channel.lean ====
section
/-! DEFINITION. The channel port (R36 to R55): the port's checks, acceptance in its stages, withheld
requests, delivery, and the channel reset. -/

namespace Sys2Proof.Machine

/-! ### The port's checks (R36 to R38) -/

/-- The kind a request code stands for (R36). -/
def requestKind : KindCode → Option ReqKind
  | .read => some .read
  | .write => some .write
  | .other _ => none

/-- The form check of R38: count 1..64, a WRITE with exactly count blocks, a READ with none. -/
def goodForm (r : ChannelRequest) (k : ReqKind) : Bool :=
  decide (1 ≤ r.count.toNat ∧ r.count.toNat ≤ Config.maxBlocks) &&
    match k with
    | .read => r.data.isEmpty
    | .write => r.data.length = r.count.toNat

/-- The refusal of a presented request at the port, or its kind where it passes both checks (R38). -/
def State.portCheck (s : State) (r : ChannelRequest) : Except Status ReqKind :=
  match requestKind r.kind with
  | none => .error .badRequest
  | some k =>
    if ¬ goodForm r k then .error .badRequest
    else if (s.request r.tag).isSome then .error .tagInUse
    else .ok k

/-- Acceptance is withheld while 32 records are held, and until start-up is complete (R37). -/
def State.withholds (s : State) : Bool :=
  s.mech.startup ≠ .complete || s.chan.requests.toList.all Option.isSome

/-! ### Stage 1: binding (R39, R40, R45) -/

/-- The copies figure a record keeps (R36). -/
def keptCopies (k : ReqKind) (copies : BitVec 8) : Nat :=
  match k with
  | .read => min copies.toNat Config.maxCopies
  | .write => 0

/-- The record a request is bound to, before its window judgement (R40). -/
def newRequest (r : ChannelRequest) (k : ReqKind) (arrival : BitVec 32) : Request where
  kind := k
  station := r.station
  vba := none
  count := r.count.toNat
  copies := keptCopies k r.copies
  arrival := arrival
  windowTrap := false
  pieces := []
  state := .accepted
  status := none

/-- The condition a region enters at acceptance (R45). -/
def boundRegion : ReqKind → Region
  | .read => .gatheringRead
  | .write => .holdingWrite

/-- Record, tag and region are bound; a WRITE's data is placed in the region (R39, R45). -/
def State.bind (s : State) (r : ChannelRequest) (k : ReqKind) : State :=
  ((s.setRequest r.tag (some (newRequest r k s.tenths))).setRegion r.tag (boundRegion k)).setStaging
    (stagingWriteRun s.chan.staging (stagingAddress r.tag 0) r.data)

/-- Change the record of a tag. -/
def State.editRequest (s : State) (t : Tag) (f : Request → Request) : State :=
  s.setRequest t ((s.request t).map f)

/-! ### Stage 4: judgement of the pieces (R43, R44, R167, R168) -/

/-- Place the reports of control blocks in a tag's region (R167). -/
def State.placeReports (s : State) (t : Tag) (block count : Nat) : State :=
  s.setStaging (stagingWriteRun s.chan.staging (stagingAddress t 0)
    ((List.range count).map fun i => s.reportOf (block + i)))

/-- A read piece after its judgement (R43): refused by the standing test, a gap, or a control piece
served at once. -/
def State.judgedRead (s : State) (p : Piece) : Piece :=
  match p.place with
  | .side x _ =>
    match s.standing x false with
    | some st => p.finish st
    | none => p
  | .gap => p.finish .beyondLibrary
  | .control c =>
    { p with conds := (List.range p.count).map fun i => controlCond (c + i) }.finish .done

/-- A READ's pieces are judged independently; the reports of a control piece are placed (R43). -/
def State.judgeRead (s : State) (t : Tag) (ps : List Piece) : State :=
  let s := s.editRequest t fun r => { r with pieces := ps.map s.judgedRead }
  match ps with
  | [⟨.control c, n, _, _, _⟩] => s.placeReports t c n
  | _ => s

/-- Discard the staged data of the pieces that a test picks. -/
def State.discardPieces (s : State) (t : Tag) (pick : Piece → Bool) (ps : List Piece) : State :=
  (ps.filter pick).foldl (fun s p => s.discardData t p.offset p.count) s

def Piece.isGap (p : Piece) : Bool :=
  match p.place with
  | .gap => true
  | _ => false

def Verdict.passes : Verdict → Bool
  | .pass _ => true
  | .refuse _ => false

/-- A write piece after the joint judgement (R44). -/
def judgedWrite (js : List Judged) (p : Piece) : Piece :=
  match p.place with
  | .side x _ =>
    match refusalFor js x with
    | some st => p.finish st
    | none => p
  | .gap => p.finish .beyondLibrary
  | .control _ => p

/-- The side and gap pieces of a WRITE (R43, R44): both side pieces take effect, or none does. -/
def State.judgeSidesAndGap (s : State) (t : Tag) (data : List Block) (ps : List Piece) : State :=
  let js := s.judgeSides data ps
  let ok := js.all fun j => j.verdict.passes
  let s := if ok then js.foldl State.reserve s else s
  let s := s.discardPieces t (fun p => p.isGap || !ok) ps
  s.editRequest t fun r => { r with pieces := ps.map (judgedWrite js) }

/-- Is a control piece the one write that control block 1 takes (R168)? -/
def isOrderWrite (block count : Nat) : Bool := block = 1 && count = 1

/-- The control piece of a WRITE (R168): the orders of control block 1, or NOT_WRITABLE with the data
discarded. -/
def State.judgeControlWrite (s : State) (t : Tag) (station : Station) (data : List Block)
    (block count : Nat) (ps : List Piece) : State :=
  if isOrderWrite block count then
    match s.takeBlock (data.head?.getD fillBlock) station t with
    | (s, refused) =>
      s.editRequest t fun r =>
        { r with pieces := ps.map (Piece.finish (if refused then .orderRefused else .done)) }
  else
    (s.discardData t 0 count).editRequest t fun r =>
      { r with pieces := ps.map (Piece.finish .notWritableControl) }

/-- Stage 4 for a WRITE. -/
def State.judgeWrite (s : State) (t : Tag) (station : Station) (data : List Block)
    (ps : List Piece) : State :=
  match ps with
  | [⟨.control c, n, _, _, _⟩] => s.judgeControlWrite t station data c n ps
  | _ => s.judgeSidesAndGap t data ps

/-- Stage 4 (R39). -/
def State.judgePieces (s : State) (t : Tag) (r : ChannelRequest) (k : ReqKind) (ps : List Piece) :
    State :=
  match k with
  | .read => s.judgeRead t ps
  | .write => s.judgeWrite t r.station r.data ps

/-! ### Stages 5 and 6: dispatch and assembly (R39) -/

/-- The sides of the pieces of a request that are not DONE, in block order. -/
def Request.openSides (r : Request) : List Side :=
  r.pieces.filterMap fun p =>
    match p.status, p.place with
    | none, .side x _ => some x
    | _, _ => none

/-- The sides that a request's open pieces are to join. -/
def State.openSides (s : State) (t : Tag) : List Side :=
  ((s.request t).map Request.openSides).getD []

/-- A joined side calls for the choice where no drive names it, or where its drive has become IDLE
again (R82). -/
def State.joinCallsForChoice (s : State) (x : Side) : Bool :=
  match s.mountedIn x with
  | none => true
  | some d => (s.drive d).isIdle

/-- Open pieces join their queues in block order, idle drives start them, and the request is
assembled where every piece is DONE (R39, R47, R65). -/
def State.dispatch (s : State) (t : Tag) (stamp : BitVec 32) : State :=
  let xs := s.openSides t
  let s := xs.foldl (fun s x => s.join x (.request t) stamp) s
  let s := xs.foldl State.wake s
  let s := match s.request t with
    | none => s
    | some r => s.checkRequest t r
  s.chooseIf (xs.any s.joinCallsForChoice)

/-! ### The whole of acceptance -/

/-- A request denied whole (R25, R39): assembled with its status, no piece formed, its data
discarded. -/
def State.denied (s : State) (t : Tag) (windowTrap : Bool) (st : Status) : State :=
  ((s.discardData t 0 Config.regionBlocks).editRequest t fun r =>
    { r with windowTrap := windowTrap, state := .assembled, status := some st }).noteAssembled t

/-- A passed request takes its relocation and its pieces; the data past a cut is discarded (R26, R27,
R41). -/
def State.formPieces (s : State) (t : Tag) (k : ReqKind) (v n : Nat) (cut : Bool) : State :=
  let s := if cut then s.discardData t n (Config.regionBlocks - n) else s
  s.editRequest t fun r =>
    { r with vba := some v, windowTrap := cut, pieces := cutPieces k v n }

/-- Stages 2 to 6 of an acceptance (R39), after binding. -/
def State.judgeAndDispatch (s : State) (r : ChannelRequest) (k : ReqKind) : State :=
  match judgeWindow (s.station r.station) k r.sba.toNat r.count.toNat with
  | .denied kind => (s.recordTrap r.station kind k r.sba.toNat).denied r.tag true .windowTrap
  | .straddle => s.denied r.tag false .badRequest
  | .pass v n cut =>
    let s := match cut with
      | some sba => s.recordTrap r.station .outsideWindow k sba
      | none => s
    let s := s.formPieces r.tag k v n cut.isSome
    (s.judgePieces r.tag r k (cutPieces k v n)).dispatch r.tag s.tenths

/-- Acceptance of a request of a kind, as one event (R39). -/
def State.accept (s : State) (r : ChannelRequest) (k : ReqKind) : State :=
  ((s.bind r k).judgeAndDispatch r k).rearmFrom s

/-- The port takes a presented request: it is refused at the port or accepted (R37, R38). -/
def State.takeRequest (s : State) (r : ChannelRequest) : State :=
  match s.portCheck r with
  | .error st => s.send (.refusal r.tag st)
  | .ok k => s.accept r k

/-- ACCEPTANCE (R39): taken, or withheld on the channel behind those already there (R37). -/
def execAcceptance (r : ChannelRequest) (key : Bool) (s : State) : Out :=
  if s.withholds ∨ s.chan.withheld ≠ [] then
    .next { s with chan := { s.chan with withheld := s.chan.withheld ++ [r] } }
  else .next ((s.sampleKey key).takeRequest r)

/-- WITHHELD_REQUEST_TAKEN (R37): the front withheld request is judged as if newly presented.  It
does not occur while acceptance is withheld or nothing waits. -/
def execWithheldRequestTaken (key : Bool) (s : State) : Out :=
  match s.chan.withheld with
  | [] => .next s
  | r :: rest =>
    if s.withholds then .next s
    else
      .next ((({ s with chan := { s.chan with withheld := rest } }).sampleKey key).takeRequest r)

/-- DELIVERY (R49) of the request of a tag. -/
def execDelivery (t : Tag) (s : State) : Out := .next (s.decideDelivery t)

/-- CONTROL_WRITE_NOT_WRITABLE (R168): the channel presents such a write, and its acceptance is taken
by R39; a request that is no such write is judged by the same rule. -/
def execControlWriteNotWritable (r : ChannelRequest) (key : Bool) (s : State) : Out :=
  execAcceptance r key s

/-! ### Channel reset (R53, R54, R99, R153) -/

/-- What a channel reset makes of one queue entry: a queued piece of a request leaves, a running one
becomes an orphan, label pieces and orphans stay (R53, R54, R76). -/
def State.resetEntry (s : State) (x : Side) (e : QEntry) : Option QEntry :=
  match e.owner with
  | .request t =>
    if e.running then
      match s.request t with
      | none => none
      | some r => (r.pieceOn x).map fun p => { e with owner := .orphan r.kind p }
    else none
  | _ => some e

/-- The request table, queues and staging regions after a channel reset (R53, R54). -/
def State.discardRequests (s : State) : State :=
  { s with
    chan := { Channel.empty with sent := s.chan.sent }
    queues := s.queues.mapNumbered fun x q => q.filterMap (s.resetEntry x) }

/-- CHANNEL_RESET (R53): OPEN tickets settle, the alarm is re-armed and the choice runs (R99, R153). -/
def execChannelReset (s : State) : Out :=
  .next ((s.discardRequests.settleAll .channelReset).choose.rearm)

end Sys2Proof.Machine
end

