-- ==== Sys2Proof/Machine/DriveEvents.lean ====
section
/-! DEFINITION. The answers of the drive bus and the expiry of a command countdown (R61, R62, R66 to R68,
R72, R111, R118, R120, R123, R183). -/

namespace Sys2Proof.Machine

/-! ### What follows a drive's event -/

/-- A YIELDING drive with a current piece. -/
def Drive.yieldsPiece : Drive → Bool
  | .yielding _ (some _) => true
  | _ => false

/-- An event calls for the choice where its drive has become IDLE, or was YIELDING with a current piece
that has ended, by its answer or by a drive fault (R65, R72, R82). -/
def Drive.callsForChoice (before after : Drive) : Bool :=
  after.isIdle || (before.yieldsPiece && !after.yieldsPiece)

/-- The end of a drive's event: the choice where it is called for, and the ageing alarm (R81, R82). -/
def State.afterDriveEvent (s : State) (d : DriveNo) (before : State) : State :=
  (s.chooseIf ((before.drive d).callsForChoice (s.drive d))).rearmFrom before

/-- What a drive puts on the bus as its answer to a command (R66), whichever command it is; a write
answer names its sector where the command wrote a run. -/
inductive DriveAnswer where
  | sectors (conditions : List SectorAnswer)
  | done
  | written (sector : Option Nat)
  | mediaError (sector : Option Nat)
  | label (data : Block)
  | blank
  | unreadable
  | sector (x : Nat)
  | noneBlank
  | notReady
  deriving DecidableEq, Repr

/-- A sector that an answer names lies in the run its command wrote (R66). -/
def namesSectorOf (first count : Nat) (j : Option Nat) : Bool :=
  j.all fun j => first ≤ j && j < first + count

/-- The owner of the piece at the front of a side's queue. -/
def State.frontOwner (s : State) (x : Side) : Option Owner := (s.queue x).head?.map (·.owner)

/-! ### Reads (R67, R123) -/

def sectorCond : SectorAnswer → Cond
  | .good _ => .good
  | .blank => .blank
  | .unreadable => .unreadable

/-- What a block's condition contributes to its piece's status (R67). -/
def Cond.contributes : Cond → Status
  | .good => .done
  | .blank => .blank
  | .unreadable => .mediaError
  | .fill => .driveFault

/-- A read piece's status at its end (R67). -/
def Piece.readStatus (p : Piece) : Status := Status.highest (p.conds.map Cond.contributes)

/-- A piece's condition list with an answer entered from its block `i` on (R67). -/
def enterConds (conds : List Cond) (i : Nat) (l : List SectorAnswer) : List Cond :=
  conds.mapIdx fun j c =>
    if j < i then c
    else match l[j - i]? with
      | some a => sectorCond a
      | none => c

/-- Place the data of GOOD sectors from an address on (R67). -/
def placeSectors (m : List (Nat × Block)) (a : Nat) : List SectorAnswer → List (Nat × Block)
  | [] => m
  | .good b :: l => placeSectors (stagingWrite m a b) (a + 1) l
  | _ :: l => placeSectors m (a + 1) l

/-- An answer's conditions and data are entered for a request's piece (R67). -/
def State.enterSectors (s : State) (t : Tag) (x : Side) (r : Request) (p : Piece) (i : Nat)
    (l : List SectorAnswer) : State :=
  (s.setRequest t (some (r.mapPiece x fun p => { p with conds := enterConds p.conds i l }))).setStaging
    (placeSectors s.chan.staging (stagingAddress t (p.offset + i)) l)

/-- The answer to a READ SECTORS that began at block `i` of its piece is taken (R67, R123); an
orphan's is discarded and its piece ends (R54). -/
def State.takeSectors (s : State) (d : DriveNo) (x : Side) (i : Nat) (l : List SectorAnswer) :
    State :=
  match s.frontOwner x with
  | some (.request t) =>
    match s.sidePiece t x with
    | none => s.endPiece d .done
    | some (r, p, sector) =>
      let s := s.enterSectors t x r p i l
      if i + l.length < p.count then
        State.goOn (s, .command (s.readCommand x sector p.count (i + l.length))) d
      else s.endPiece d { p with conds := enterConds p.conds i l }.readStatus
  | _ => s.endPiece d .done

/-- The answer to a READ SECTORS command is taken (R66, R67). -/
def State.answerRead (s : State) (d : DriveNo) (x : Side) (i run : Nat) : DriveAnswer → Out
  | .sectors l =>
    if l.length = run then .next ((s.takeSectors d x i l).afterDriveEvent d s)
    else .fault .answerOutsideProtocol
  | _ => .fault .answerOutsideProtocol

/-! ### Deed writes (R111) -/

/-- The answer to a deed WRITE SECTORS is taken: it ends the piece (R66, R111). -/
def State.answerDeed (s : State) (d : DriveNo) (first count : Nat) : DriveAnswer → Out
  | .done => .next ((s.endPiece d .done).afterDriveEvent d s)
  | .written j =>
    if namesSectorOf first count j then .next ((s.endPiece d .written).afterDriveEvent d s)
    else .fault .answerOutsideProtocol
  | .mediaError j =>
    if namesSectorOf first count j then .next ((s.endPiece d .mediaError).afterDriveEvent d s)
    else .fault .answerOutsideProtocol
  | _ => .fault .answerOutsideProtocol

/-! ### Index writes (R117 to R122) -/

/-- Block `i` of an index write piece is written: the drive goes on to the next block, or the piece
ends (R118, R120, R121); an orphan issues nothing more (R54, R122). -/
def State.nextBlock (s : State) (d : DriveNo) (x : Side) (i : Nat) : State :=
  match s.frontOwner x with
  | some (.request t) =>
    match s.sidePiece t x with
    | none => s.endPiece d .done
    | some (_, p, sector) =>
      if i + 1 < p.count then State.goOn (s.indexWrite x t p sector (i + 1)) d
      else s.endPiece d .done
  | _ => s.endPiece d .done

/-- A home write answered WRITTEN: a request's block is redirected (R119); an orphan's is not
(R122). -/
def State.homeWritten (s : State) (d : DriveNo) (x : Side) (i h : Nat) (data : Block) : State :=
  match s.frontOwner x with
  | some (.request _) => State.goOn (s.redirect x i h data) d
  | _ => s.endPiece d .written

/-- The answer to a home write of block `i`, sector `h`, is taken (R118). -/
def State.answerHome (s : State) (d : DriveNo) (x : Side) (i h : Nat) (data : Block) :
    DriveAnswer → Out
  | .done => .next ((s.nextBlock d x i).afterDriveEvent d s)
  | .written j =>
    if namesSectorOf h 1 j then .next ((s.homeWritten d x i h data).afterDriveEvent d s)
    else .fault .answerOutsideProtocol
  | .mediaError j =>
    if namesSectorOf h 1 j then .next ((s.endPiece d .mediaError).afterDriveEvent d s)
    else .fault .answerOutsideProtocol
  | _ => .fault .answerOutsideProtocol

/-- A spare write answered DONE: the entry is created or updated, a held place becomes the entry, and
cause 8 follows (R120, R125). -/
def State.enterSpare (s : State) (home spare : Nat) (hadEntry : Bool) : State :=
  (s.setRemap
    { entries := remapInsert home spare s.remap.entries
      held := if hadEntry then s.remap.held else s.remap.held - 1 }).recompute .remapLow

/-- The answer to a spare write of block `i` is taken (R120). -/
def State.answerSpare (s : State) (d : DriveNo) (x : Side) (i spare home : Nat) (hadEntry : Bool)
    (data : Block) (a : DriveAnswer) : Out :=
  let released := s.releasePlace (.writeSpare i spare home hadEntry data)
  match a with
  | .done => .next (((s.enterSpare home spare hadEntry).nextBlock d x i).afterDriveEvent d s)
  | .written j =>
    if namesSectorOf spare 1 j then .next ((released.endPiece d .written).afterDriveEvent d s)
    else .fault .answerOutsideProtocol
  | .mediaError j =>
    if namesSectorOf spare 1 j then .next ((released.endPiece d .mediaError).afterDriveEvent d s)
    else .fault .answerOutsideProtocol
  | _ => .fault .answerOutsideProtocol

/-! ### Mount verification (R61, R62) -/

/-- A label matches a side under R5. -/
def labelMatches (l : Label) (libraryId : BitVec 32) (x : Side) : Bool :=
  l.signature = Config.labelSignature && l.libraryId = libraryId &&
    l.cartridge.toNat = x.cart.val && l.face.toNat = x.face.val

/-- The verification that a READ LABEL answer gives (R61); none for an answer that it does not have
(R66). -/
def labelVerdict (libraryId : BitVec 32) (x : Side) : DriveAnswer → Option Verification
  | .label b => some (if labelMatches (readLabel b) libraryId x then .verified else .foreignWrong)
  | .blank => some .foreignBlank
  | .unreadable => some .foreignWrong
  | _ => none

/-- A cartridge takes its verification from its label; a FOREIGN result raises cause 7 and runs the
standing test (R61). -/
def State.proveCart (s : State) (n : Cart) (v : Verification) : State :=
  let s := s.setCart n { s.cart n with verification := v }
  if v.isForeign then (s.raise .foreignMedia).sweepCart n else s

/-- The answer to a READ LABEL of a mount is taken (R61). -/
def State.answerLabel (s : State) (d : DriveNo) (m : Mount) (a : DriveAnswer) : Out :=
  match labelVerdict s.lib.libraryId m.side a with
  | none => .fault .answerOutsideProtocol
  | some v => .next (((s.proveCart m.side.cart v).afterLabel d m).afterDriveEvent d s)

/-- The side record that a blank search's answer resolves (R62): `x` is the first blank sector, the
side's end where there is none. -/
def SideRecord.resolve (x : Nat) : SideRecord → SideRecord
  | .deed none _ c => .deed (some x) 0 c
  | .index none c => .index (some (x - Config.spareBase)) c
  | r => r

/-- A blank search resolves its side; a full DEED side raises cause 10, and cause 8 is recomputed
(R62, R106, R125). -/
def State.resolveSide (s : State) (y : Side) (x : Nat) : State :=
  let full := (s.side y).isDeed && x = Config.sectorsPerSide
  let s := s.setSide y ((s.side y).resolve x)
  (if full then s.raise .sideFull else s).recompute .remapLow

/-- The answer to a SEARCH BLANK from a start sector is taken (R62). -/
def State.answerSearch (s : State) (d : DriveNo) (m : Mount) (start : Nat) : DriveAnswer → Out
  | .mediaError none => .next ((s.serveQueue d m).afterDriveEvent d s)
  | .noneBlank =>
    .next (((s.resolveSide m.side Config.sectorsPerSide).serveQueue d m).afterDriveEvent d s)
  | .sector x =>
    if start ≤ x ∧ x < Config.sectorsPerSide then
      .next (((s.resolveSide m.side x).serveQueue d m).afterDriveEvent d s)
    else .fault .answerOutsideProtocol
  | _ => .fault .answerOutsideProtocol

/-! ### Label writes and the start-up READ LABEL (R76, R183) -/

/-- The answer to a WRITE LABEL is taken: it ends the label piece (R76). -/
def State.answerWriteLabel (s : State) (d : DriveNo) : DriveAnswer → Out
  | .done => .next ((s.endPiece d .done).afterDriveEvent d s)
  | .written none => .next ((s.endPiece d .written).afterDriveEvent d s)
  | .mediaError none => .next ((s.endPiece d .mediaError).afterDriveEvent d s)
  | _ => .fault .answerOutsideProtocol

/-- The start-up READ LABEL that a drive has outstanding: the drives still to identify and those
found (R183). -/
def State.startupLabel (s : State) (d : DriveNo) : Option (List DriveNo × List Ident) :=
  match s.drive d, s.mech.startup with
  | .empty (some _), .identifying e rest found => if e = d then some (rest, found) else none
  | _, _ => none

/-- The answer to a start-up READ LABEL is taken (R183, R184). -/
def State.answerStartup (s : State) (d : DriveNo) (rest : List DriveNo) (found : List Ident) :
    DriveAnswer → Out
  | .label b => .next (s.labelRead d rest found (labelNames (readLabel b)))
  | .blank => .next (s.labelRead d rest found none)
  | .unreadable => .next (s.labelRead d rest found none)
  | .notReady => .next (s.labelRead d rest found none)
  | _ => .fault .answerOutsideProtocol

/-! ### One answer of a drive -/

/-- An answer other than NOT_READY to the command that a drive has outstanding. -/
def State.answerCommand (s : State) (d : DriveNo) (m : Mount) (c : DriveCommand) (a : DriveAnswer) :
    Out :=
  match c with
  | .readSectors i _ run => s.answerRead d m.side i run a
  | .writeDeed first data => s.answerDeed d first data.length a
  | .writeHome i h data => s.answerHome d m.side i h data a
  | .writeSpare i spare home had data => s.answerSpare d m.side i spare home had data a
  | .readLabel => s.answerLabel d m a
  | .writeLabel _ _ _ => s.answerWriteLabel d a
  | .searchBlank start => s.answerSearch d m start a

/-- A drive answers (R66): the answer is taken for the command that is outstanding on the drive, NOT_READY
faults the drive (R72), and an answer that comes while no command is outstanding is discarded (R68).
An answer that R66 does not list for the outstanding command is outside the protocol (log entry 8). -/
def State.takeAnswer (s : State) (d : DriveNo) (a : DriveAnswer) : Out :=
  match s.startupLabel d with
  | some (rest, found) => s.answerStartup d rest found a
  | none =>
    match (s.drive d).outstanding with
    | none => .next s
    | some (m, c) =>
      match a with
      | .notReady => .next ((s.faultDrive d).afterDriveEvent d s)
      | a => s.answerCommand d m c.command a

/-! ### What each row's answer says on the bus -/

def readOnBus : ReadAnswer → DriveAnswer
  | .sectors l => .sectors l
  | .notReady => .notReady

def runWriteOnBus : RunWriteAnswer → DriveAnswer
  | .done => .done
  | .written j => .written (some j)
  | .mediaError j => .mediaError (some j)
  | .notReady => .notReady

def writeOnBus : WriteAnswer → DriveAnswer
  | .done => .done
  | .written => .written none
  | .mediaError => .mediaError none
  | .notReady => .notReady

def labelOnBus : LabelAnswer → DriveAnswer
  | .good b => .label b
  | .blank => .blank
  | .unreadable => .unreadable
  | .notReady => .notReady

def searchOnBus : SearchAnswer → DriveAnswer
  | .sector x => .sector x
  | .noneBlank => .noneBlank
  | .mediaError => .mediaError none
  | .notReady => .notReady

/-- READ_SECTORS_ANSWER (R67). -/
def execReadSectorsAnswer (d : DriveNo) (a : ReadAnswer) (s : State) : Out := s.takeAnswer d (readOnBus a)

/-- DEED_WRITE_ANSWER (R111). -/
def execDeedWriteAnswer (d : DriveNo) (a : RunWriteAnswer) (s : State) : Out :=
  s.takeAnswer d (runWriteOnBus a)

/-- HOME_WRITE_ANSWER (R118). -/
def execHomeWriteAnswer (d : DriveNo) (a : WriteAnswer) (s : State) : Out := s.takeAnswer d (writeOnBus a)

/-- SPARE_WRITE_ANSWER (R120). -/
def execSpareWriteAnswer (d : DriveNo) (a : WriteAnswer) (s : State) : Out := s.takeAnswer d (writeOnBus a)

/-- READ_LABEL_ANSWER (R61). -/
def execReadLabelAnswer (d : DriveNo) (a : LabelAnswer) (s : State) : Out := s.takeAnswer d (labelOnBus a)

/-- SEARCH_BLANK_ANSWER (R62). -/
def execSearchBlankAnswer (d : DriveNo) (a : SearchAnswer) (s : State) : Out :=
  s.takeAnswer d (searchOnBus a)

/-- WRITE_LABEL_ANSWER (R76). -/
def execWriteLabelAnswer (d : DriveNo) (a : WriteAnswer) (s : State) : Out := s.takeAnswer d (writeOnBus a)

/-- STARTUP_LABEL_ANSWER (R183, R184). -/
def execStartupLabelAnswer (d : DriveNo) (a : LabelAnswer) (s : State) : Out :=
  s.takeAnswer d (labelOnBus a)

/-- LATE_DRIVE_ANSWER (R68): the answer to a command whose countdown has expired is discarded. -/
def execLateDriveAnswer (_d : DriveNo) (s : State) : Out := .next s

/-- COMMAND_COUNTDOWN_EXPIRY (R72, R184): the drive faults where its countdown has reached 0; an
expiry that is not due does not occur. -/
def execCommandCountdownExpiry (d : DriveNo) (s : State) : Out :=
  match s.startupLabel d with
  | some (rest, found) =>
    if s.drive d = .empty (some 0) then .next (s.labelRead d rest found none) else .next s
  | none =>
    match (s.drive d).outstanding with
    | some (_, ⟨_, 0⟩) => .next ((s.faultDrive d).afterDriveEvent d s)
    | _ => .next s

end Sys2Proof.Machine
end

