-- ==== Sys2Proof/Machine/PickerEvents.lean ====
section
/-! DEFINITION. The answers of the picker link, its watchdog, and the operator's events at the mail slot
(R86 to R93, R183, R184). -/

namespace Sys2Proof.Machine

/-- The completion of a start-up UNLOAD: the drive EMPTY, the cartridge HOME, and the next step of the
chain in the same event (R183). -/
def State.startupUnloaded (s : State) (o : PickerOrder) (n : Cart) (rest : List Ident)
    (unloaded : List Cart) : State :=
  (s.completionEffects o).nextUnload rest (unloaded ++ [n])

/-- The completion of a LOAD, EXCHANGE, UNLOAD, MAIL_OUT or MAIL_IN, at start-up or after (R87,
R183). -/
def State.orderDone (s : State) (o : PickerOrder) : State :=
  match o, s.mech.startup with
  | .unload _ n .startup, .unloading rest unloaded => s.startupUnloaded o n rest unloaded
  | _, _ => s.completeOrder o

/-- HOME ends: INVENTORY starts (R90), or at start-up the identification of the loaded drives
(R183). -/
def State.homeDone (s : State) : State :=
  match s.mech.startup with
  | .homing => s.identifyFrom [] s.mech.surveyLoaded
  | _ => s.startHoming .inventory

/-- INVENTORY ends: the slots are reconciled (R91), at start-up by R13 (R183). -/
def State.inventoryDone (s : State) (occupied : BitVec 160) : State :=
  match s.mech.startup with
  | .inventory unloaded => s.startupReady occupied unloaded
  | _ => s.reconcile occupied

/-- The picker answers its current order DONE (R86): the order completes, whichever it is; the slot
readings are read for INVENTORY alone.  With no order current the answer is discarded; an INVENTORY
answered DONE without readings is outside the protocol (log entry 8). -/
def State.takeDone (s : State) (readings : Option (BitVec 160)) : Out :=
  match s.mech.picker.order? with
  | none => .next s
  | some .home => .next (s.homeDone.rearmFrom s)
  | some .inventory =>
    match readings with
    | some occupied => .next ((s.inventoryDone occupied).rearmFrom s)
    | none => .fault .answerOutsideProtocol
  | some o => .next ((s.orderDone o).rearmFrom s)

/-- PICKER_ORDER_COMPLETION (R87). -/
def execPickerOrderCompletion (s : State) : Out := s.takeDone none

/-- HOME_COMPLETION (R90, R183). -/
def execHomeCompletion (s : State) : Out := s.takeDone none

/-- INVENTORY_COMPLETION (R91, R183). -/
def execInventoryCompletion (occupied : BitVec 160) (s : State) : Out := s.takeDone (some occupied)

/-- PICKER_JAMMED (R88, R184): discarded where no order is current (R86). -/
def execPickerJammed (s : State) : Out :=
  match s.mech.picker.order? with
  | none => .next s
  | some o => .next ((s.orderFault o).rearmFrom s)

/-- The order whose watchdog has reached 0 (R86). -/
def Picker.overdue? : Picker → Option PickerOrder
  | .moving o 0 => some o
  | .homing o 0 => some o
  | _ => none

/-- PICKER_WATCHDOG_EXPIRY (R88, R184): an expiry that is not due does not occur. -/
def execPickerWatchdogExpiry (s : State) : Out :=
  match s.mech.picker.overdue? with
  | none => .next s
  | some o => .next ((s.orderFault o).rearmFrom s)

/-- LATE_PICKER_ANSWER (R86): the answer to an order that has ended changes no record. -/
def execLatePickerAnswer (s : State) : Out := .next s

/-- The mail slot after a placed event (R93). -/
def MailSlot.placed : MailSlot → MailSlot
  | .empty => .heldIn
  | m => m

/-- The mail slot after a removed event (R93). -/
def MailSlot.removed : MailSlot → MailSlot
  | .heldIn => .empty
  | .heldOut => .empty
  | m => m

/-- MAIL_SLOT_PLACED (R93). -/
def execMailSlotPlaced (s : State) : Out :=
  .next ((s.setMail s.mech.mail.placed).raise .mailSlot)

/-- MAIL_SLOT_REMOVED (R93): removal of a cartridge HELD_IN ends a pending import. -/
def execMailSlotRemoved (s : State) : Out :=
  let held := s.mech.mail = .heldIn
  let s := s.setMail s.mech.mail.removed
  .next ((if held then s.setImport none else s).raise .mailSlot)

end Sys2Proof.Machine
end

