-- ==== Sys2Proof/Machine/TimeEvents.lean ====
section
/-! DEFINITION. The time base: the tenth, the expiries of the countdowns that the scheduler and the
tickets own, and power-up (R69, R70, R81, R148, R179, R180, R182). -/

namespace Sys2Proof.Machine

/-! ### Expiries at the scheduler -/

/-- A drive record with its mount changed. -/
def Drive.mapMount (f : Mount → Mount) : Drive → Drive
  | .verifying m c => .verifying (f m) c
  | .busy m c => .busy (f m) c
  | .idle m i l => .idle (f m) i l
  | .yielding m c => .yielding (f m) c
  | r => r

/-- The dwell countdown of a drive record, where it has one (R56). -/
def Drive.dwell? : Drive → Option Countdown
  | .verifying m _ => some m.dwell
  | .busy m _ => some m.dwell
  | .idle m _ _ => some m.dwell
  | .yielding m _ => some m.dwell
  | _ => none

/-- DWELL_EXPIRY (R69): the drive is past dwell, and the choice runs (R82).  An expiry that is not due
does not occur. -/
def execDwellExpiry (d : DriveNo) (s : State) : Out :=
  if (s.drive d).dwell? = some (.running 0) then
    .next (((s.setDrive d ((s.drive d).mapMount fun m => { m with dwell := .expired })).choose).rearmFrom s)
  else .next s

/-- LINGER_EXPIRY (R70): the linger is held as expired, and the choice runs (R82). -/
def execLingerExpiry (d : DriveNo) (s : State) : Out :=
  match s.drive d with
  | .idle m i (.running 0) => .next (((s.setDrive d (.idle m i .expired)).choose).rearmFrom s)
  | _ => .next s

/-- AGEING_ALARM_EXPIRY (R81): the choice runs and the alarm is re-armed. -/
def execAgeingAlarmExpiry (s : State) : Out :=
  if s.mech.ageing = some 0 then .next s.choose.rearm else .next s

/-- IDLE_COUNTDOWN_EXPIRY (R148): a settling event with cause IDLE. -/
def execIdleCountdownExpiry (t : Station) (s : State) : Out :=
  match s.ticket t with
  | .opened _ (some 0) => .next (s.settleEvent t .idle)
  | _ => .next s

/-! ### The tenth (R179) -/

def Countdown.tick : Countdown → Countdown
  | .running n => .running (n - 1)
  | .expired => .expired

def Mount.tick (m : Mount) : Mount := { m with dwell := m.dwell.tick }
def Issued.tick (c : Issued) : Issued := { c with left := c.left - 1 }

/-- Every countdown of a drive record is lowered (R179). -/
def Drive.tick : Drive → Drive
  | .empty left => .empty (left.map (· - 1))
  | .verifying m c => .verifying m.tick c.tick
  | .busy m c => .busy m.tick c.tick
  | .idle m i l => .idle m.tick i l.tick
  | .yielding m c => .yielding m.tick (c.map Issued.tick)
  | r => r

/-- The watchdog is lowered (R179). -/
def Picker.tick : Picker → Picker
  | .moving o w => .moving o (w - 1)
  | .homing o w => .homing o (w - 1)
  | p => p

/-- The idle countdown of a ticket is lowered (R148, R179). -/
def Ticket.tick : Ticket → Ticket
  | .opened b c => .opened b (c.map (· - 1))
  | k => k

/-- The registry clock advances at every tenth tenth and holds at its ceiling (R180). -/
def Clock.tick (c : Clock) : Clock :=
  if c.tenth = 9 then ⟨min (c.seconds + 1) Config.clockCeiling, 0⟩ else ⟨c.seconds, c.tenth + 1⟩

/-- TENTH (R179): the tenths count rises, every running countdown is lowered, and the clock counts. -/
def execTenth (s : State) : Out :=
  .next { s with
    tenths := s.tenths + 1
    clock := s.clock.map Clock.tick
    mech := { s.mech with
      drives := s.mech.drives.mapNumbered fun _ r => r.tick
      picker := s.mech.picker.tick
      ageing := s.mech.ageing.map (· - 1) }
    ledger := { s.ledger with tickets := s.ledger.tickets.mapNumbered fun _ k => k.tick } }

/-! ### Power-up (R182, R183) -/

/-- POWER_UP (R182): the records without the mechanism, then the survey and HOME (R183). -/
def execPowerUp (batteryGood : Bool) (survey : Vector SurveyReading 4) (mailSensed : Bool)
    (s : State) : Out :=
  .next (((s.powerOn.restoreStore batteryGood).recomputeLevels).survey survey mailSensed)

end Sys2Proof.Machine
end

