-- ==== Sys2Proof/Machine/Dispatch.lean ====
section
/-! DEFINITION. The meaning of every command, one arm per constructor of Instr. -/

namespace Sys2Proof.Machine

/-- The effect of a command on everything but the queue of waiting commands. -/
def exec (i : Instr) (s : State) : Host.Outcome State Fault Refusal :=
  match i with
  | .acceptance r key => Sys2Proof.Machine.execAcceptance r key s
  | .withheldRequestTaken key => Sys2Proof.Machine.execWithheldRequestTaken key s
  | .delivery t => Sys2Proof.Machine.execDelivery t s
  | .channelReset => Sys2Proof.Machine.execChannelReset s
  | .powerUp batteryGood survey mailSensed => Sys2Proof.Machine.execPowerUp batteryGood survey mailSensed s
  | .startupLabelAnswer d a => Sys2Proof.Machine.execStartupLabelAnswer d a s
  | .readSectorsAnswer d a => Sys2Proof.Machine.execReadSectorsAnswer d a s
  | .deedWriteAnswer d a => Sys2Proof.Machine.execDeedWriteAnswer d a s
  | .homeWriteAnswer d a => Sys2Proof.Machine.execHomeWriteAnswer d a s
  | .spareWriteAnswer d a => Sys2Proof.Machine.execSpareWriteAnswer d a s
  | .readLabelAnswer d a => Sys2Proof.Machine.execReadLabelAnswer d a s
  | .searchBlankAnswer d a => Sys2Proof.Machine.execSearchBlankAnswer d a s
  | .writeLabelAnswer d a => Sys2Proof.Machine.execWriteLabelAnswer d a s
  | .lateDriveAnswer d => Sys2Proof.Machine.execLateDriveAnswer d s
  | .commandCountdownExpiry d => Sys2Proof.Machine.execCommandCountdownExpiry d s
  | .dwellExpiry d => Sys2Proof.Machine.execDwellExpiry d s
  | .lingerExpiry d => Sys2Proof.Machine.execLingerExpiry d s
  | .ageingAlarmExpiry => Sys2Proof.Machine.execAgeingAlarmExpiry s
  | .pickerOrderCompletion => Sys2Proof.Machine.execPickerOrderCompletion s
  | .homeCompletion => Sys2Proof.Machine.execHomeCompletion s
  | .inventoryCompletion occupied => Sys2Proof.Machine.execInventoryCompletion occupied s
  | .pickerJammed => Sys2Proof.Machine.execPickerJammed s
  | .pickerWatchdogExpiry => Sys2Proof.Machine.execPickerWatchdogExpiry s
  | .latePickerAnswer => Sys2Proof.Machine.execLatePickerAnswer s
  | .mailSlotPlaced => Sys2Proof.Machine.execMailSlotPlaced s
  | .mailSlotRemoved => Sys2Proof.Machine.execMailSlotRemoved s
  | .idleCountdownExpiry t => Sys2Proof.Machine.execIdleCountdownExpiry t s
  | .stationSet station cls base length fee account idle key => Sys2Proof.Machine.execStationSet station cls base length fee account idle key s
  | .trapClear flags => Sys2Proof.Machine.execTrapClear flags s
  | .sideZoneSet side zone key => Sys2Proof.Machine.execSideZoneSet side zone key s
  | .closureSet side mark key => Sys2Proof.Machine.execClosureSet side mark key s
  | .libraryIdSet libraryId key => Sys2Proof.Machine.execLibraryIdSet libraryId key s
  | .labelCartridge n => Sys2Proof.Machine.execLabelCartridge n s
  | .schedParams a d l key => Sys2Proof.Machine.execSchedParams a d l key s
  | .exportCartridge n => Sys2Proof.Machine.execExport n s
  | .importCartridge n => Sys2Proof.Machine.execImport n s
  | .pickerReset => Sys2Proof.Machine.execPickerReset s
  | .driveReturn d => Sys2Proof.Machine.execDriveReturn d s
  | .tariffSet book rate cap key => Sys2Proof.Machine.execTariffSet book rate cap key s
  | .sizeFactorSet sheet factor key => Sys2Proof.Machine.execSizeFactorSet sheet factor key s
  | .feeParams minimum settleStep notice key => Sys2Proof.Machine.execFeeParams minimum settleStep notice key s
  | .ticketClose station => Sys2Proof.Machine.execTicketClose station s
  | .accountCredit account amount => Sys2Proof.Machine.execAccountCredit account amount s
  | .accountWithdraw account amount => Sys2Proof.Machine.execAccountWithdraw account amount s
  | .accountLowMark account mark => Sys2Proof.Machine.execAccountLowMark account mark s
  | .journalRelease n => Sys2Proof.Machine.execJournalRelease n s
  | .settingsLock target key => Sys2Proof.Machine.execSettingsLock target key s
  | .attentionMask flags sense => Sys2Proof.Machine.execAttentionMask flags sense s
  | .attentionClear flags => Sys2Proof.Machine.execAttentionClear flags s
  | .clockSet seconds => Sys2Proof.Machine.execClockSet seconds s
  | .unknownOrder code => Sys2Proof.Machine.execUnknownOrder code s
  | .controlWriteNotWritable r key => Sys2Proof.Machine.execControlWriteNotWritable r key s
  | .tenth => Sys2Proof.Machine.execTenth s

end Sys2Proof.Machine
end

