-- ==== Sys2Proof/Safety.lean ====
section
/-! DEFINITION. The laws of the part that claims are stated in: what a lawful side, station table,
journal, ledger, request table, remap table and staging memory are, how a side's record may move, and
when the protected settings are barred. -/

namespace Sys2Proof.Machine

/-! ### Sides (R6 to R8) -/

/-- A lawful side record (R7, R8, R103): a DEED side has closure mark ≤ frontier, no body block owed
past the side's end, and closure mark and remainder 0 while its frontier is UNKNOWN; an INDEX side has
its pointer and closure mark within the side's two areas. -/
def SideRecord.Lawful : SideRecord → Prop
  | .unused => True
  | .deed none r c => r = 0 ∧ c = 0
  | .deed (some f) r c => c ≤ f ∧ f + r ≤ 262144
  | .index none c => c ≤ 258048
  | .index (some p) c => p ≤ 4096 ∧ c ≤ 258048

/-- A value that, once known, stays known and does not fall. -/
def NeverFalls (a b : Option Nat) : Prop := ∀ n, a = some n → ∃ m, b = some m ∧ n ≤ m

/-- How a side record may move while the retained store is good: a zone is never given up, and
frontier, spare pointer and closure mark never fall (R6 to R8, R19, R112). -/
def SideRecord.Advances : SideRecord → SideRecord → Prop
  | .unused, _ => True
  | .deed f _ c, .deed g _ d => NeverFalls f g ∧ c ≤ d
  | .index p c, .index q d => NeverFalls p q ∧ c ≤ d
  | _, _ => False

/-- Every side record is lawful. -/
def State.SidesLawful (s : State) : Prop := ∀ x, (s.side x).Lawful

/-! ### Stations (R22, R23, R32) -/

/-- A lawful station entry: the window ends within the volume, the idle limit is one of R22's, and a
VACANT entry has its fixed values (R23). -/
def StationEntry.Lawful (e : StationEntry) : Prop :=
  1 ≤ e.length ∧ e.base + e.length ≤ 65536 ∧
    (e.idleLimit = 0 ∨ (10 ≤ e.idleLimit ∧ e.idleLimit ≤ 3600)) ∧
    (e.cls = .vacant → e = vacantEntry)

/-- Every entry is lawful, and some CLERK station reaches the top of the volume (R32). -/
def State.StationsLawful (s : State) : Prop :=
  (∀ t, (s.station t).Lawful) ∧
    ∃ t, (s.station t).cls = .clerk ∧ (s.station t).base + (s.station t).length = 65536

/-! ### Journal, tickets and accounts (R33, R146, R151, R155, R159) -/

/-- The journal law (R159): at most 128 records, with consecutive sequence numbers that end before
the next one. -/
def Ledger.JournalLawful (l : Ledger) : Prop :=
  l.journal.length ≤ 128 ∧
    ∀ i (h : i < l.journal.length),
      l.journal[i].seq = l.nextSeq - BitVec.ofNat 16 (l.journal.length - i)

/-- An OPEN ticket's terms are its station's terms in force (R33, R146): none under EXEMPT, no
account under COUNTER, the station's account under DEPOSIT. -/
def Ticket.AgreesWith (k : Ticket) (fee : FeeMode) : Prop :=
  match k with
  | .opened b _ =>
    match fee with
    | .exempt => False
    | .counter => b.account = none
    | .deposit a => b.account = some a
  | _ => True

/-- What a ticket holds committed on an account: the settled total of its gross (R155). -/
def Ticket.commits (T : Tariff) (a : Account) (k : Ticket) : Nat :=
  match k.body? with
  | some b => if b.account = some a then T.settle b.gross else 0
  | none => 0

/-- What all tickets together hold committed on an account (R155). -/
def State.committedSum (s : State) (a : Account) : Nat :=
  ((List.finRange 32).map fun t => (s.ticket t).commits s.tariff a).sum

/-- The laws of tickets and accounts (R33, R146, R151, R155): terms agree, the due list holds the due
tickets once each, and for every account committed is the sum over its tickets, within the balance,
within the limit. -/
structure State.FeesLawful (s : State) : Prop where
  terms : ∀ t, (s.ticket t).AgreesWith (s.station t).fee
  due : ∀ t, t ∈ s.ledger.dueList ↔ (s.ticket t).isDue = true
  dueOnce : s.ledger.dueList.Nodup
  committed : ∀ a, (s.account a).committed = s.committedSum a
  within : ∀ a, (s.account a).committed ≤ (s.account a).balance
  limit : ∀ a, (s.account a).balance ≤ 99999999

/-- A lawful tariff with its fee parameters (R131, R132, R165). -/
structure Tariff.Lawful (T : Tariff) : Prop where
  rates : ∀ b, T.rate.at b ≤ 2000
  caps : ∀ b, T.cap.at b ≤ 999999
  factors : ∀ z, 1 ≤ T.factor.at z ∧ T.factor.at z ≤ 40
  minimum : T.minimum ≤ 9999
  settleStep : T.settleStep = 1 ∨ T.settleStep = 5 ∨ T.settleStep = 10 ∨ T.settleStep = 25
  notice : 1 ≤ T.notice ∧ T.notice ≤ 16

/-- The tariff is lawful, every request keeps at most 99 copies, and every gross is within its limit
(R36, R131, R135, R138). -/
structure State.GrossLawful (s : State) : Prop where
  tariff : s.tariff.Lawful
  copies : ∀ t r, s.request t = some r → r.copies ≤ 99
  gross : ∀ t, (s.ticket t).gross ≤ 99999999

/-- The ledger after the settlement of a ticket with body `b` (R150): the debit, the record at the
back of the journal, the ticket IDLE and off the due list. -/
def Ledger.settledBy (l : Ledger) (T : Tariff) (t : Station) (b : TicketBody) (cause : SettleCause)
    (stamp : Nat) : Ledger where
  tickets := l.tickets.put t .idle
  dueList := l.dueList.filter fun u => u ≠ t
  accounts :=
    match b.account with
    | none => l.accounts
    | some a => l.accounts.put a
      { l.accounts.at a with
        balance := (l.accounts.at a).balance - T.settle b.gross
        committed := (l.accounts.at a).committed - T.settle b.gross }
  journal := l.journal ++ [settlementRecord T t b cause stamp l.nextSeq]
  nextSeq := l.nextSeq + 1
  noticeLeft := if l.noticeLeft ≤ 1 then T.notice else l.noticeLeft - 1

/-- The ledger after a settling event has reached the ticket of a station: an OPEN ticket is settled
where the journal has a free place (R150), else SETTLE_DUE at the back of the due list (R151); an IDLE
or due ticket is left as it is. -/
def Ledger.reached (l : Ledger) (T : Tariff) (t : Station) (cause : SettleCause) (stamp : Nat) :
    Ledger :=
  match l.tickets.at t with
  | .opened b _ =>
    if l.journal.length < 128 then l.settledBy T t b cause stamp
    else
      { l with
        tickets := l.tickets.put t (.due b cause stamp)
        dueList := l.dueList ++ [t] }
  | _ => l

/-- The ledger after a settling event of this moment has reached the ticket of a station. -/
def State.settledLedger (s : State) (t : Station) (cause : SettleCause) : Ledger :=
  s.ledger.reached s.tariff t cause s.clockStamp

/-- The ledger after a settling event has reached every ticket, in ascending station order
(R153, R154). -/
def State.settledAllLedger (s : State) (cause : SettleCause) (stamp : Nat) : Ledger :=
  (List.finRange 32).foldl (fun l t => l.reached s.tariff t cause stamp) s.ledger

/-- What a settling event does to the attention unit (R163, R164): the causes of the journal and the
deposits alone may be raised, cause 3 where the journal has filled, cause 4 where the notice
countdown has reached 0. -/
structure State.SettleAttention (s u : State) : Prop where
  masked : u.attention.masked = s.attention.masked
  keeps : ∀ c, s.attention.isPending c = true → u.attention.isPending c = true
  others : ∀ c, c ≠ .journalFull → c ≠ .journalNotice → c ≠ .depositLow →
    u.attention.isPending c = s.attention.isPending c
  full : s.ledger.journal.length < u.ledger.journal.length → u.ledger.journal.length = 128 →
    u.attention.isPending .journalFull = true
  notice : s.ledger.journal.length < u.ledger.journal.length → s.ledger.noticeLeft ≤ 1 →
    u.attention.isPending .journalNotice = true

/-- A list of a ticket after the entry `e` of a key has taken its newest place (R139, R140): the other entries
keep their order, and where the key is new and the list holds `places` entries the oldest is removed. -/
structure TakesNewest {α : Type} (key : α → Prop) (places : Nat) (e : α) (before after : List α) : Prop where
  present : ∀ l x r, before = l ++ x :: r → key x → (∀ y ∈ l ++ r, ¬ key y) → after = l ++ r ++ [e]
  room : (∀ x ∈ before, ¬ key x) → before.length < places → after = before ++ [e]
  full : (∀ x ∈ before, ¬ key x) → places ≤ before.length → after = before.tail ++ [e]

/-- A page list after a page has taken its newest place with `copies` charged: up to 24 entries (R139). -/
def TakesPage (h : PageHeader) (copies : Nat) : List PageEntry → List PageEntry → Prop :=
  TakesNewest (fun e => e.instrument = h.instrument ∧ e.page = h.page) 24 ⟨h.instrument, h.page, copies⟩

/-- An instrument list after an instrument has taken its newest place with a total: up to 8 entries
(R140). -/
def TakesInstrument (h : PageHeader) (total : Nat) : List InstrumentEntry → List InstrumentEntry → Prop :=
  TakesNewest (fun e => e.instrument = h.instrument) 8 ⟨h.instrument, total⟩

/-- A ticket as an allowed charge leaves the ticket `k` of a station (R138): opened where it was IDLE, with
the account `o`, the gross and both lists taken on, one page more, and the idle countdown loaded afresh. -/
structure State.ChargedTo (s : State) (t : Station) (h : PageHeader) (copies charge : Nat)
    (o : Option Account) (b : TicketBody) (c : Option Nat) : Prop where
  account : b.account = ((s.ticket t).body?.map (·.account)).getD o
  openStamp : b.openStamp = ((s.ticket t).body?.map (·.openStamp)).getD s.clockStamp
  pages : b.pages = min (((s.ticket t).body?.map (·.pages)).getD 0 + 1) 65535
  gross : b.gross = (s.ticket t).gross + charge
  pageList : TakesPage h copies (((s.ticket t).body?.map (·.pageList)).getD []) b.pageList
  instruments : TakesInstrument h ((s.ticket t).totalOf h.instrument + charge)
    (((s.ticket t).body?.map (·.instruments)).getD []) b.instruments
  countdown : c = if (s.station t).idleLimit = 0 then none else some ((s.station t).idleLimit * 10)

/-- A read whose delivery calls for a fee pass under the entry now in force (R49, R128). -/
def State.IsCharged (s : State) (r : Request) : Prop :=
  r.kind = .read ∧ 1 ≤ r.copies ∧ (s.station r.station).fee ≠ .exempt ∧
    (s.station r.station).cls ≠ .vacant ∧ ∃ o, o < r.count ∧ s.goodDeed r o = true

/-! ### Held requests (R129, R162) -/

/-- The held list holds the tags of the requests HELD_FOR_JOURNAL, each once, and no others. -/
def State.HeldLawful (s : State) : Prop :=
  s.chan.heldList.Nodup ∧
    ∀ t, t ∈ s.chan.heldList ↔ ∃ r, s.request t = some r ∧ r.state = .heldForJournal

/-- The law of the order of assembly (R47, R49): it holds the tags of the requests that are ASSEMBLED or
HELD_FOR_JOURNAL, each once, and the held list, which is lawful, keeps that order. -/
structure State.AssemblyLawful (s : State) : Prop where
  held : s.HeldLawful
  once : s.chan.assemblyOrder.Nodup
  all : ∀ t, t ∈ s.chan.assemblyOrder ↔
    ∃ r, s.request t = some r ∧ (r.state = .assembled ∨ r.state = .heldForJournal)
  order : s.chan.heldList.Sublist s.chan.assemblyOrder

/-- How the order of assembly grows in an event that delivers nothing: the tags of the requests that have
become ASSEMBLED in it join at the back (R47, R49). -/
def State.Assembles (s u : State) : Prop :=
  ∃ new, u.chan.assemblyOrder = s.chan.assemblyOrder ++ new ∧ new.Nodup ∧
    ∀ t, t ∈ new ↔ (∃ r, s.request t = some r ∧ r.state.isOpen = true) ∧
      ∃ r, u.request t = some r ∧ r.state = .assembled

/-! ### Drives, cartridges and side queues (R10, R15, R16, R56, R64) -/

/-- The side of the cartridge in a drive (R10): named by the record from the mount on. -/
def Drive.seats? (r : Drive) : Option Side := r.mount?.map (·.side)

/-- The side on which a drive has a piece running, with its command: BUSY, or YIELDING with a current
piece (R56). -/
def Drive.runs? : Drive → Option (Side × DriveCommand)
  | .busy m c => some (m.side, c.command)
  | .yielding m (some c) => some (m.side, c.command)
  | _ => none

/-- The side and the command of a drive in VERIFYING (R61, R62). -/
def Drive.verifies? : Drive → Option (Side × DriveCommand)
  | .verifying m c => some (m.side, c.command)
  | _ => none

/-- The side that a picker order brings to a drive or takes from it (R58, R59). -/
def Drive.moves? : Drive → Option Side
  | .loading x _ => some x
  | .unloading x => some x
  | _ => none

/-- A start-up READ LABEL is outstanding (R183). -/
def Drive.awaitsLabel : Drive → Bool
  | .empty (some _) => true
  | _ => false

/-- A drive as start-up has it: it holds no side but one that is to be unloaded (R183). -/
def Drive.inStartup : Drive → Bool
  | .absent => true
  | .empty _ => true
  | .unloading _ => true
  | .faulted => true
  | _ => false

/-- The drive that a location names: MOUNTED or STUCK there (R10). -/
def Location.inDrive? : Location → Option DriveNo
  | .mounted d _ => some d
  | .stuck d _ => some d
  | _ => none

/-- The kind of piece that a command serves; none for label and search commands (R66). -/
def DriveCommand.kind? : DriveCommand → Option ReqKind
  | .readSectors _ _ _ => some .read
  | .writeDeed _ _ => some .write
  | .writeHome _ _ _ => some .write
  | .writeSpare _ _ _ _ _ => some .write
  | _ => none

/-- The label that a WRITE LABEL puts on the media: cartridge and face (R76). -/
def DriveCommand.labels? : DriveCommand → Option (Cart × Face)
  | .writeLabel _ n f => some (n, f)
  | _ => none

/-- A command is one that a piece of an owner on a side calls for (R66, R76). -/
def State.callsFor (s : State) (x : Side) (c : DriveCommand) : Owner → Bool
  | .request t => c.kind? = (s.request t).map (·.kind)
  | .orphan k _ => c.kind? = some k
  | .label => c.labels? = some (x.cart, x.face)

/-- The running piece of a request that a channel reset discarded (R54). -/
def Owner.isOrphan : Owner → Bool
  | .orphan _ _ => true
  | _ => false

/-- The records of the cartridge and the drive of a picker order under way (R58, R59, R74, R87). -/
def State.UnderWay (s : State) : PickerOrder → Prop
  | .load n f d => (s.cart n).location = .inPicker ∧ ∃ z, s.drive d = .loading (n.side f) z
  | .exchange d n => (s.cart n).location = .inPicker ∧ ∃ f z, s.drive d = .loading (n.side f) z
  | .unload d n .release => (s.cart n).location = .inPicker ∧ ∃ f, s.drive d = .unloading (n.side f)
  | .unload d n .driveReturn => (∃ f, (s.cart n).location = .stuck d f) ∧ s.drive d = .faulted ∧
      s.mech.returns.at d = true
  | .unload d n .startup => (s.cart n).location = .inPicker ∧ ∃ f, s.drive d = .unloading (n.side f)
  | .mailIn n => (s.cart n).location = .inPicker
  | .mailOut n none => (s.cart n).location = .inPicker
  | .mailOut n (some d) => (s.cart n).location = .inPicker ∧ ∃ f, s.drive d = .unloading (n.side f)
  | .home => True
  | .inventory => True

/-- The law of drives and cartridges once start-up is complete (R10, R56, R58 to R60, R84, R87): each side
is mounted in at most one drive, and never both faces of a cartridge; a cartridge is MOUNTED (d, f) exactly
where drive d holds its face f, from VERIFYING to YIELDING; a drive is LOADING or UNLOADING, and a cartridge
IN_PICKER, only for the order under way, whose records stand as its start left them; STUCK (d) means drive d
FAULTED; and at most one drive is YIELDING. -/
structure State.DrivesLawful (s : State) : Prop where
  one : ∀ d e, ∀ x ∈ (s.drive d).side?, ∀ y ∈ (s.drive e).side?, Side.cart x = Side.cart y → d = e
  mounted : ∀ n d f, (s.cart n).location = .mounted d f ↔ (s.drive d).seats? = some (Cart.side n f)
  moved : ∀ d, ∀ x ∈ (s.drive d).moves?, ∃ o ∈ s.mech.picker.order?, o.drive? = some d
  held : ∀ n, (s.cart n).location = .inPicker → ∃ o ∈ s.mech.picker.order?, o.cart? = some n
  order : ∀ o ∈ s.mech.picker.order?, s.UnderWay o ∧ ∀ d n, o ≠ .unload d n .startup
  homing : s.mech.picker ≠ .homingWait
  stuck : ∀ n d f, (s.cart n).location = .stuck d f → s.drive d = .faulted
  yields : ∀ d e, (s.drive d).isYielding = true → (s.drive e).isYielding = true → d = e
  verifies : ∀ d, ∀ w ∈ (s.drive d).verifies?, w.2.kind? = none ∧ w.2.labels? = none ∧
    (w.2 = .readLabel → (s.cart w.1.cart).verification = .unverified)

/-- The law of the side queues (R15, R16, R46, R47, R54, R64, R65, R76): only the front entry of a queue is
RUNNING, and it runs on the BUSY or YIELDING drive that has the side mounted, under a command of its own
kind; no two entries have one owner; an orphan is RUNNING; a request's entry is its piece on the side, not
DONE, and its request is IN_SERVICE where it runs; a piece that is not DONE stands in its side's queue, and
a request that has not assembled has one; a QUEUED label piece is of a pending labelling, and a pending
labelling, of a FOREIGN_BLANK cartridge, has a label piece left; the standing test refuses no QUEUED piece;
and the queue of an IDLE drive's side is empty. -/
structure State.QueuesLawful (s : State) : Prop where
  behind : ∀ x, ∀ e ∈ (s.queue x).tail, e.running = false
  running : ∀ x, ∀ e ∈ s.queue x, e.running = true → ∃ d, ((s.drive d).runs?.map (·.1)) = some x
  serving : ∀ d, ∀ w ∈ (s.drive d).runs?, ∃ e ∈ (s.queue w.1).head?, e.running = true ∧
    s.callsFor w.1 w.2 e.owner = true
  owners : ∀ x, ((s.queue x).map (·.owner)).Nodup
  orphans : ∀ x, ∀ e ∈ s.queue x, e.owner.isOrphan = true → e.running = true
  requests : ∀ x, ∀ e ∈ s.queue x, ∀ t, e.owner = .request t → ∃ r ∈ s.request t,
    r.state.isOpen = true ∧ (∃ p ∈ r.pieceOn x, p.status = none) ∧
    (e.running = true → r.state = .inService)
  pieces : ∀ t, ∀ r ∈ s.request t, r.state.isOpen = true →
    (∃ p ∈ r.pieces, p.status = none) ∧ ∀ p ∈ r.pieces, p.status = none →
      ∃ x, p.onSide x = true ∧ ∃ e ∈ s.queue x, e.owner = .request t
  labels : ∀ x, ∀ e ∈ s.queue x, e.owner = .label → e.running = false →
    (s.cart x.cart).labellingPending = true
  labelling : ∀ n, (s.cart n).labellingPending = true → (s.cart n).verification = .foreignBlank ∧
    ∃ f, ∃ e ∈ s.queue (Cart.side n f), e.owner = .label
  standing : ∀ x, ∀ e ∈ s.queue x, e.running = false → s.standing x e.owner.isLabel = none
  idle : ∀ d, (s.drive d).isIdle = true → ∀ x ∈ (s.drive d).side?, s.queue x = []

/-- How far each phase of start-up has brought the picker and the drives (R183): the drives still to be
unloaded, each once, have their records UNLOADING, and a cartridge that the retained store has STUCK in a
drive found loaded is still to be identified or to be unloaded. -/
def State.PhaseLawful (s : State) : Prop :=
  let todo := s.mech.startup.todo
  let found (f : DriveNo → Cart → Prop) : Prop := ∀ n d g, (s.cart n).location = .stuck d g →
    d ∈ s.mech.surveyLoaded → f d n
  match s.mech.startup with
  | .powered => s.mech.picker = .homingWait ∧ s.mech.surveyLoaded = []
  | .homing => s.mech.picker.order? = some .home
  | .identifying d rest _ => s.mech.picker = .homingWait ∧
      (todo.map (·.drive) ++ d :: rest).Nodup ∧ (s.drive d).awaitsLabel = true ∧
      found fun e n => e ∈ rest ∨ ∃ i ∈ todo, i.cart = n
  | .unloading _ _ => ∃ d n, s.mech.picker.order? = some (.unload d n .startup) ∧
      s.UnderWay (.unload d n .startup) ∧ (d :: todo.map (·.drive)).Nodup ∧
      found fun _ m => ∃ i ∈ todo, i.cart = m
  | .inventory _ => s.mech.picker.order? = some .inventory ∧ found fun _ _ => False
  | .complete => True

/-- The law of the mechanism while start-up runs (R182 to R184): no request, no queued piece, no proved
cartridge, and no drive that holds a side but those whose UNLOAD is under way or to come. -/
structure State.StartupLawful (s : State) : Prop where
  queues : ∀ x, s.queue x = []
  requests : ∀ t, s.request t = none
  carts : ∀ n, (s.cart n).verification = .unverified ∧ (s.cart n).labellingPending = false
  drives : ∀ d, (s.drive d).inStartup = true
  unloading : ∀ d, ∀ x ∈ (s.drive d).moves?,
    (∃ i ∈ s.mech.startup.todo, i.drive = d ∧ i.cart.side i.face = x) ∨
      ∃ n, s.mech.picker.order? = some (.unload d n .startup)
  todo : ∀ i ∈ s.mech.startup.todo, s.drive i.drive = .unloading (i.cart.side i.face)
  phase : s.PhaseLawful

/-- The law of the mechanism: at most one cartridge is MOUNTED or STUCK in a drive; the survey names a
drive once; a drive awaits a start-up label only where start-up identifies it; and the laws above hold, those
of drives and queues from the completion of start-up on.  While start-up runs two drives may hold side-records
of one cartridge, since the spec does not treat a library with two equal labels (log entry 20). -/
structure State.MechanismLawful (s : State) : Prop where
  alone : ∀ n m, ∀ d ∈ (s.cart n).location.inDrive?, d ∈ (s.cart m).location.inDrive? → n = m
  surveyed : s.mech.surveyLoaded.Nodup
  awaited : ∀ d, (s.drive d).awaitsLabel = true → ∃ rest found,
    s.mech.startup = .identifying d rest found
  starting : s.mech.startup ≠ .complete → s.StartupLawful
  drives : s.mech.startup = .complete → s.DrivesLawful
  queues : s.mech.startup = .complete → s.QueuesLawful

/-- The order of the start-up chain (R183): the drives found loaded stand in ascending order of number, and so
do those identified with those still to identify, and the drive whose UNLOAD is under way with those still to
be unloaded. -/
def State.ChainAscends (s : State) : Prop :=
  s.mech.surveyLoaded.Pairwise (· < ·) ∧
  match s.mech.startup with
  | .identifying d rest found => (found.map (·.drive) ++ d :: rest).Pairwise (· < ·)
  | .unloading rest _ => ∀ d n, s.mech.picker.order? = some (.unload d n .startup) →
      (d :: rest.map (·.drive)).Pairwise (· < ·)
  | _ => True

/-- An entry of a queue as a command leaves it: with its stamp and its owner, but for the running piece of
a request that a channel reset makes an orphan, and RUNNING once it is (R15, R54). -/
structure QEntry.Becomes (a b : QEntry) : Prop where
  stamp : b.stamp = a.stamp
  owner : b.owner = a.owner ∨
    (a.running = true ∧ (∃ t, a.owner = .request t) ∧ b.owner.isOrphan = true)
  running : a.running = true → b.running = true

/-- The law of joining and starting (R15, R16, R64): what is left of a side's queue keeps its order, the
pieces that join stand behind it, QUEUED and with the event's stamp, and none is started but the piece that
is then at the front. -/
def KeepsOrder (stamp : BitVec 32) (before after : List QEntry) : Prop :=
  ∃ kept left joined : List QEntry, kept.Sublist before ∧ after = left ++ joined ∧
    left.length = kept.length ∧
    (∀ i a b, kept[i]? = some a → left[i]? = some b →
      a.Becomes b ∧ (a.running = false → b.running = true → i = 0)) ∧
    (∀ e ∈ joined, e.stamp = stamp ∧ e.owner.isOrphan = false) ∧
    ∀ i e, joined[i]? = some e → e.running = true → left = [] ∧ i = 0

/-! ### Canonical forms -/

/-- The remap entries in strictly ascending order of home VBA: each home block has one (R115). -/
def remapRising : List RemapEntry → Prop
  | [] => True
  | e :: l => (∀ f ∈ l, e.home < f.home) ∧ remapRising l

/-- Staging memory and remap table are in their canonical forms. -/
def State.Canonical (s : State) : Prop :=
  stagingWf s.chan.staging = true ∧ remapRising s.remap.entries

/-! ### The remap table (R115, R117, R119) -/

/-- The home block of a volume block address lies on an INDEX side, and the spare is one of that side's,
among those that its pointer counts (R114, R115). -/
def State.CountedSpare (s : State) (home spare : Nat) : Prop :=
  ∃ (x : Side) (p c : Nat), home / 262144 = x.val ∧ s.side x = .index (some p) c ∧
    258048 ≤ spare ∧ spare < 258048 + p ∧ spare < 262144

/-- A drive's outstanding spare write: the home VBA of its block, its spare, and whether the block had an
entry when it was issued (R117, R119). -/
def Drive.spareWrite? (r : Drive) : Option (Nat × Nat × Bool) :=
  match r.outstanding with
  | some (_, ⟨.writeSpare _ spare home had _, _⟩) => some (home, spare, had)
  | _ => none

/-- A spare write that will make an entry, and so holds a place (R119). -/
def Drive.holdsPlace (r : Drive) : Bool := r.spareWrite?.any fun w => !w.2.2

/-- The law of the remap table (R115), with what keeps it: at most 4096 entries and held places
together, one entry a home, no two entries of a side with one spare, and every spare of an entry counted
by its home side's pointer.  A spare write outstanding is of the mounted side, on a spare that is counted
there and that no entry and no other drive's write has; it holds a place unless its block has an entry
(R117, R119).  A home write outstanding and every piece lie on their side (R41, R118). -/
structure State.RemapLawful (s : State) : Prop where
  places : s.remap.entries.length + s.remap.held ≤ 4096
  homes : remapRising s.remap.entries
  counted : ∀ e ∈ s.remap.entries, s.CountedSpare e.home e.spare
  distinct : ∀ e ∈ s.remap.entries, ∀ f ∈ s.remap.entries, e.home / 262144 = f.home / 262144 →
    e.spare = f.spare → e = f
  held : (List.finRange 4).countP (fun d => (s.drive d).holdsPlace) ≤ s.remap.held
  verifies : ∀ d m c, s.drive d = .verifying m c → (s.drive d).spareWrite? = none
  spareWrites : ∀ d home spare had, (s.drive d).spareWrite? = some (home, spare, had) →
    s.CountedSpare home spare ∧
    (∀ x, (s.drive d).side? = some x → home / 262144 = x.val) ∧
    (had = true → ∃ e ∈ s.remap.entries, e.home = home) ∧
    (∀ e ∈ s.remap.entries, e.home / 262144 = home / 262144 → e.spare ≠ spare) ∧
    ∀ d' home' had', d' ≠ d → (s.drive d').spareWrite? = some (home', spare, had') →
      home' / 262144 ≠ home / 262144
  homeWrites : ∀ d m i h data left, (s.drive d).outstanding = some (m, ⟨.writeHome i h data, left⟩) →
    h < 262144
  pieces : ∀ t r p x sector, s.request t = some r → p ∈ r.pieces → p.place = .side x sector →
    1 ≤ p.count ∧ sector + p.count ≤ 262144

/-! ### The settings lock (R171) -/

/-- The level of the key line by which a command in a state judges its orders: the level it samples; for
UNKNOWN_ORDER, whose row carries none, the level last sampled, by which a code of the table is judged
(log entries 7 and 10); off for a command that takes no protected order. -/
def State.keyOn (s : State) : Instr → Bool
  | .unknownOrder _ => s.keyLine
  | .acceptance _ key => key
  | .withheldRequestTaken key => key
  | .controlWriteNotWritable _ key => key
  | .stationSet _ _ _ _ _ _ _ key => key
  | .sideZoneSet _ _ key => key
  | .closureSet _ _ key => key
  | .libraryIdSet _ key => key
  | .schedParams _ _ _ key => key
  | .tariffSet _ _ _ key => key
  | .sizeFactorSet _ _ key => key
  | .feeParams _ _ _ key => key
  | .settingsLock _ key => key
  | _ => false

/-- The gate is closed to a key level (R171). -/
def LockMode.barredTo (m : LockMode) (key : Bool) : Prop :=
  m = .locked ∨ (m = .keyed ∧ key = false)

/-- Two records of one side with the same zone (R6). -/
def SideRecord.SameZone : SideRecord → SideRecord → Prop
  | .unused, .unused => True
  | .deed _ _ _, .deed _ _ _ => True
  | .index _ _, .index _ _ => True
  | _, _ => False

/-- What protected orders set and nothing else does: stations, tariff and fee parameters, scheduling
parameters, library id, and the zone of each side (R171). -/
def State.sameSettings (s t : State) : Prop :=
  t.stations = s.stations ∧ t.tariff = s.tariff ∧ t.sched = s.sched ∧
    t.lib.libraryId = s.lib.libraryId ∧ ∀ x, (s.side x).SameZone (t.side x)

/-- Power-up, which alone may replace retained records by their defaults (R182). -/
def isPowerUp : Instr → Bool
  | .powerUp _ _ _ => true
  | _ => false

/-- The commands that can take an ATTENTION_CLEAR (R176), a write of the control region under either of
its rows among them (log entry 7), and power-up. -/
def mayClearCauses : Instr → Bool
  | .attentionClear _ => true
  | .powerUp _ _ _ => true
  | .withheldRequestTaken _ => true
  | .acceptance r _ => r.kind = .write
  | .controlWriteNotWritable r _ => r.kind = .write
  | _ => false

/-! ### Orders -/

/-- The outcome of an order that changes nothing but the result it shows. -/
def State.shows (s : State) (r : ResultCode) : Out := .next { s with orderAnswer := some r }

/-- STATION_SET operands that pass the first two checks of R32. -/
def StationOperandsGood (cls : BitVec 8) (base : BitVec 16) (length : BitVec 32)
    (fee account : BitVec 8) (idle : BitVec 16) : Prop :=
  cls.toNat ≤ 3 ∧
    (cls.toNat ≠ 0 →
      1 ≤ length.toNat ∧ length.toNat ≤ 65536 ∧ base.toNat + length.toNat ≤ 65536 ∧
      fee.toNat ≤ 2 ∧ (fee.toNat = 2 → account.toNat ≤ 15) ∧
      (idle.toNat = 0 ∨ (10 ≤ idle.toNat ∧ idle.toNat ≤ 3600)))

/-- The entry that STATION_SET operands spell: R23's fixed values for VACANT; the account is read for
DEPOSIT alone (R23, R32). -/
structure StationEntry.Spells (e : StationEntry) (cls : BitVec 8) (base : BitVec 16)
    (length : BitVec 32) (fee account : BitVec 8) (idle : BitVec 16) : Prop where
  code : e.cls.code = cls.toNat
  vacant : cls.toNat = 0 → e = ⟨.vacant, 0, 1, .exempt, 0⟩
  window : cls.toNat ≠ 0 → e.base = base.toNat ∧ e.length = length.toNat
  idle : cls.toNat ≠ 0 → e.idleLimit = idle.toNat
  exempt : cls.toNat ≠ 0 → fee.toNat = 0 → e.fee = .exempt
  counter : cls.toNat ≠ 0 → fee.toNat = 1 → e.fee = .counter
  deposit : cls.toNat ≠ 0 → fee.toNat = 2 → ∃ a, e.fee = .deposit a ∧ a.val = account.toNat

/-- After station `t` takes class `cls` and this window, some CLERK station still reaches the top of
the volume (R32). -/
def State.KeepsClerk (s : State) (t : Station) (cls : BitVec 8) (base : BitVec 16)
    (length : BitVec 32) : Prop :=
  (cls.toNat = 3 ∧ base.toNat + length.toNat = 65536) ∨
    ∃ v, v ≠ t ∧ (s.station v).cls = .clerk ∧ (s.station v).base + (s.station v).length = 65536

/-! ### Events of the mechanism -/

/-- An attention unit that keeps its masks and every pending cause. -/
structure Attention.Grows (a b : Attention) : Prop where
  masked : b.masked = a.masked
  keeps : ∀ c, a.isPending c = true → b.isPending c = true

/-- The frame of an event of the mechanism: the library's records, the request table, staging memory,
queues, mechanism records, remap table and pending causes may change, and nothing else does. -/
structure State.MechanismMoves (s u : State) : Prop where
  frame : u = { s with
    lib := u.lib, chan := u.chan, queues := u.queues, mech := u.mech, remap := u.remap
    attention := u.attention }
  port : u.chan = { s.chan with
    requests := u.chan.requests, assemblyOrder := u.chan.assemblyOrder, staging := u.chan.staging }
  assembly : s.Assembles u
  libraryId : u.lib.libraryId = s.lib.libraryId
  attention : s.attention.Grows u.attention

/-- A drive record as SIDE_ZONE_SET of a side leaves it: where the drive has the side mounted, or loads
it, it has been zoned in this mount (R62). -/
structure Drive.ZonedTo (x : Side) (a b : Drive) : Prop where
  loading : ∀ z, a = .loading x z → b = .loading x true
  verifying : ∀ m c, a = .verifying m c → m.side = x → b = .verifying { m with zoned := true } c
  busy : ∀ m c, a = .busy m c → m.side = x → b = .busy { m with zoned := true } c
  idle : ∀ m i l, a = .idle m i l → m.side = x → b = .idle { m with zoned := true } i l
  yielding : ∀ m c, a = .yielding m c → m.side = x → b = .yielding { m with zoned := true } c
  others : (∀ z, a ≠ .loading x z) → (a.side? ≠ some x ∨ a = .unloading x) → b = a

/-- A drive, BUSY or YIELDING, has a command outstanding for the piece `p` of request `r`, tag `t`, which
lies on the drive's mounted side from `sector` on, runs at the front of that side's queue and is not
done. -/
structure State.Serves (s : State) (d : DriveNo) (m : Mount) (c : DriveCommand) (t : Tag)
    (r : Request) (p : Piece) (sector : Nat) : Prop where
  drive : ∃ left, s.drive d = .busy m ⟨c, left⟩ ∨ s.drive d = .yielding m (some ⟨c, left⟩)
  front : ∃ stamp rest, s.queue m.side = ⟨.request t, stamp, true⟩ :: rest
  request : s.request t = some r
  piece : r.pieceOn m.side = some p
  place : p.place = .side m.side sector
  running : p.status = none

/-- The piece of tag `t` on side `x` has ended with a status; only records of the mechanism and the
channel have moved. -/
structure State.PieceEnded (s v : State) (t : Tag) (x : Side) (st : Status) : Prop where
  moves : s.MechanismMoves v
  ended : ∃ r p, v.request t = some r ∧ r.pieceOn x = some p ∧ p.status = some st

/-- A drive has issued the next command of its piece, its countdown loaded, and stays BUSY or YIELDING;
beside it only side records, the remap table and pending causes may have moved (R66, R71). -/
structure State.NextIssued (s v : State) (d : DriveNo) (m : Mount) (c : DriveCommand) : Prop where
  frame : v = { s with
    lib := { s.lib with sides := v.lib.sides }
    mech := { s.mech with drives := v.mech.drives }
    remap := v.remap
    attention := v.attention }
  busy : ∀ c', s.drive d = .busy m c' → v.drive d = .busy m ⟨c, 250⟩
  yielding : ∀ c', s.drive d = .yielding m (some c') → v.drive d = .yielding m (some ⟨c, 250⟩)
  others : ∀ e, e ≠ d → v.drive e = s.drive e

/-- The drive fault of R72 at drive `d` with mount `m`. -/
structure State.DriveFaulted (s u : State) (d : DriveNo) (m : Mount) : Prop where
  moves : s.MechanismMoves u
  drive : u.drive d = .faulted
  others : ∀ e, e ≠ d → u.drive e = s.drive e
  picker : u.mech.picker = s.mech.picker
  cart : (u.cart m.side.cart).location = .stuck d m.side.face
  exported : (u.cart m.side.cart).exportPending = false
  cause : u.attention.isPending .driveFault = true
  sides : u.lib.sides = s.lib.sides
  entries : u.remap.entries = s.remap.entries

/-- The port takes a presented request now, of a kind it knows and in good form, under a free tag
(R37, R38). -/
structure State.PortTakes (s : State) (r : ChannelRequest) (k : ReqKind) : Prop where
  started : s.mech.startup = .complete
  waiting : s.chan.withheld = []
  free : s.request r.tag = none
  count : 1 ≤ r.count.toNat ∧ r.count.toNat ≤ 64
  read : k = .read → r.kind = .read ∧ r.data = []
  write : k = .write → r.kind = .write ∧ r.data.length = r.count.toNat

/-- The size in blocks of a station's window (R22). -/
def State.windowEnd (s : State) (t : Station) : Nat := (s.station t).length * 4096

/-- The state with the trap recorded that a request takes when its window cuts it to `n` blocks
(R25, R29); the state itself where nothing is cut. -/
def State.cutTrap (s : State) (r : ChannelRequest) (k : ReqKind) (n : Nat) : State :=
  if n < r.count.toNat then s.recordTrap r.station .outsideWindow k (s.windowEnd r.station) else s

/-- The port takes the request, its window passes its first `n` blocks, and their run lies on one side,
which the standing test finds available (R14, R25 to R27). -/
structure State.TakesRun (s : State) (r : ChannelRequest) (k : ReqKind) (x : Side) (sector n : Nat) :
    Prop where
  port : s.PortTakes r k
  rights : (s.station r.station).cls ≠ .vacant ∧
    (k = .write → (s.station r.station).cls ≠ .search)
  inside : r.sba.toNat < s.windowEnd r.station
  cut : n = min r.count.toNat (s.windowEnd r.station - r.sba.toNat)
  run : (s.station r.station).base * 4096 + r.sba.toNat = x.val * 262144 + sector
  oneSide : sector + n ≤ 262144
  available : s.standing x false = none

/-- The port takes a request of a CLERK station, whose run in the window is `n` blocks of the control
region from control block `c` on (R25, R28). -/
structure State.TakesControl (s : State) (r : ChannelRequest) (k : ReqKind) (c n : Nat) : Prop where
  port : s.PortTakes r k
  clerk : (s.station r.station).cls = .clerk
  inside : r.sba.toNat < s.windowEnd r.station
  cut : n = min r.count.toNat (s.windowEnd r.station - r.sba.toNat)
  run : (s.station r.station).base * 4096 + r.sba.toNat = 268435200 + c

/-- No IDLE drive has the side mounted, so that a piece that joins its queue waits there (R65). -/
def State.NotIdleOn (s : State) (x : Side) : Prop :=
  ∀ d, s.mountedIn x = some d → (s.drive d).isIdle = false

/-- An accepted write that the joint judgement refused: its record ASSEMBLED with the status, its data
discarded, and no side record, queue or remap entry touched (R44). -/
structure State.WriteRefused (s u : State) (r : ChannelRequest) (key : Bool) (n : Nat) (st : Status) :
    Prop where
  frame : u = { s.cutTrap r .write n with keyLine := key, chan := u.chan }
  port : ∃ q, q.kind = .write ∧ q.state = .assembled ∧ q.status = some st ∧
    u.chan = { s.chan with
      requests := s.chan.requests.put r.tag (some q)
      assemblyOrder := s.chan.assemblyOrder ++ [r.tag]
      regions := s.chan.regions.put r.tag .holdingWrite
      staging := stagingDiscard s.chan.staging (r.tag.val * 64)
        (if n < r.count.toNat then 64 else n) }

/-- The record of an accepted write of `n` blocks whose one piece, on a side, has joined its queue
(R40 to R42). -/
def writeRecord (r : ChannelRequest) (tenths : BitVec 32) (x : Side) (sector n : Nat) : Request :=
  { kind := .write, station := r.station, vba := some (x.val * 262144 + sector)
    count := r.count.toNat, copies := 0, arrival := tenths, windowTrap := decide (n < r.count.toNat)
    pieces := [⟨.side x sector, n, 0, [], none⟩], state := .accepted, status := none }

/-- An accepted write that passed: its record and its staged data stand, and its piece has joined its
side's queue (R39, R44, R45). -/
structure State.WriteQueued (s v : State) (r : ChannelRequest) (key : Bool) (x : Side) (sector n : Nat)
    (rec : SideRecord) : Prop where
  frame : v = { s.cutTrap r .write n with
    keyLine := key
    lib := { s.lib with sides := s.lib.sides.put x rec }
    chan := v.chan
    queues := s.queues.put x (s.queue x ++ [⟨.request r.tag, s.tenths, false⟩])
    attention := v.attention }
  port : v.chan = { s.chan with
    requests := s.chan.requests.put r.tag (some (writeRecord r s.tenths x sector n))
    regions := s.chan.regions.put r.tag .holdingWrite
    staging := v.chan.staging }
  staged : ∀ i, i < n → stagingRead v.chan.staging (r.tag.val * 64 + i) = (r.data[i]?).getD fillBlock
  unstaged : ∀ a, a < r.tag.val * 64 ∨ r.tag.val * 64 + 64 ≤ a →
    stagingRead v.chan.staging a = stagingRead s.chan.staging a
  full : ∀ c, v.attention.isPending c = true ↔
    (s.cutTrap r .write n).attention.isPending c = true ∨
      (c = .sideFull ∧ ∃ q m, rec = .deed (some 262144) q m)
  masked : v.attention.masked = s.attention.masked

/-! ### Runs of the library, of one piece or two -/

/-- The port takes a request, and its window passes its first `n` blocks, a run of sides and gap from
VBA `v` on (R25 to R27). -/
structure State.TakesLibrary (s : State) (r : ChannelRequest) (k : ReqKind) (v n : Nat) : Prop where
  port : s.PortTakes r k
  rights : (s.station r.station).cls ≠ .vacant ∧
    (k = .write → (s.station r.station).cls ≠ .search)
  inside : r.sba.toNat < s.windowEnd r.station
  cut : n = min r.count.toNat (s.windowEnd r.station - r.sba.toNat)
  run : (s.station r.station).base * 4096 + r.sba.toNat = v
  library : v + n ≤ 268435200

/-- The places and counts of the pieces that a run of `n` blocks from VBA `v` is cut into (R1 to R3,
R41): one on a side, one on each of two sides that meet, one on side 319 and one in the gap, or one in
the gap. -/
inductive CutInto (v n : Nat) : List (Place × Nat) → Prop where
  | side (x : Side) (sector : Nat) : v = x.val * 262144 + sector → sector + n ≤ 262144 →
      CutInto v n [(.side x sector, n)]
  | sides (x y : Side) (sector a b : Nat) : v = x.val * 262144 + sector → y.val = x.val + 1 →
      sector + a = 262144 → a + b = n → 0 < a → 0 < b →
      CutInto v n [(.side x sector, a), (.side y 0, b)]
  | lastSide (x : Side) (sector a b : Nat) : v = x.val * 262144 + sector → x.val = 319 →
      sector + a = 262144 → a + b = n → 0 < a → 0 < b →
      CutInto v n [(.side x sector, a), (.gap, b)]
  | gap : 83886080 ≤ v → CutInto v n [(.gap, n)]

/-- The pieces of a run in block order, from block `o` of their request on, each with the status that
its judgement gave it (R41, R42). -/
def judgedPieces (k : ReqKind) (st : Place → Option Status) : Nat → List (Place × Nat) → List Piece
  | _, [] => []
  | o, (p, n) :: l =>
    { place := p, count := n, offset := o
      conds := match k with
        | .read => List.replicate n .fill
        | .write => []
      status := st p } :: judgedPieces k st (o + n) l

/-- The record of an accepted request whose run is `n` blocks from VBA `v`, once its pieces are judged:
ASSEMBLED with the highest of its statuses where every piece is DONE (R40, R46 to R48). -/
def judgedRecord (r : ChannelRequest) (k : ReqKind) (tenths : BitVec 32) (v n : Nat)
    (ps : List Piece) : Request :=
  let ended := ps.all fun p => p.status.isSome
  { kind := k, station := r.station, vba := some v, count := r.count.toNat
    copies := match k with
      | .read => min r.copies.toNat 99
      | .write => 0
    arrival := tenths, windowTrap := decide (n < r.count.toNat), pieces := ps
    state := if ended then .assembled else .accepted
    status := if ended then
        some (Status.highest ((if n < r.count.toNat then [.windowTrap] else []) ++
          ps.filterMap (·.status)))
      else none }

/-- The judgement of a read piece: the standing test on a side, BEYOND_LIBRARY in the gap (R43). -/
def State.readJudgement (s : State) : Place → Option Status
  | .side x _ => s.standing x false
  | .gap => some .beyondLibrary
  | .control _ => none

/-- The state with a request bound to its tag, last in the order of assembly where it is ASSEMBLED at once,
and the piece of each of the given sides at the back of that side's queue (R39, R40, R45, R49). -/
def State.boundAndJoined (s : State) (r : ChannelRequest) (k : ReqKind) (key : Bool) (n : Nat)
    (q : Request) (sides : List Side) (staging : List (Nat × Block)) : State :=
  { s.cutTrap r k n with
    keyLine := key
    chan := { s.chan with
      requests := s.chan.requests.put r.tag (some q)
      assemblyOrder := s.chan.assemblyOrder ++ if q.state = .assembled then [r.tag] else []
      regions := s.chan.regions.put r.tag (match k with
        | .read => .gatheringRead
        | .write => .holdingWrite)
      staging := staging }
    queues := sides.foldl (fun t x => t.put x (t.at x ++ [⟨.request r.tag, s.tenths, false⟩]))
      s.queues }

/-- Staging memory with the blocks of a region past a cut discarded (R27). -/
def State.cutStaging (s : State) (r : ChannelRequest) (n : Nat) : List (Nat × Block) :=
  if n < r.count.toNat then stagingDiscard s.chan.staging (r.tag.val * 64 + n) (64 - n)
  else s.chan.staging

/-- The verdicts on the side pieces of a write, in block order, each against the records as they stand
before any takes effect (R44). -/
def State.verdicts (s : State) (data : List Block) : Nat → List (Place × Nat) → List (Side × Verdict)
  | _, [] => []
  | o, (.side x sector, n) :: l =>
    (x, s.judgeSide x sector ((data.drop o).take n)) :: s.verdicts data (o + n) l
  | o, (_, n) :: l => s.verdicts data (o + n) l

/-- The refusal of a verdict. -/
def Verdict.refusal? : Verdict → Option Status
  | .refuse st => some st
  | .pass _ => none

/-- The judgement of a piece of a refused write: its own refusal, else the other piece's (R44). -/
def refusedJudgement (vs : List (Side × Verdict)) : Place → Option Status
  | .side x _ =>
    (vs.findSome? fun e => if e.1 = x then e.2.refusal? else none).or
      (vs.findSome? fun e => e.2.refusal?)
  | .gap => some .beyondLibrary
  | .control _ => none

/-- The judgement of a piece of a write that passed: the gap takes no data (R3, R43, R44). -/
def passedJudgement : Place → Option Status
  | .gap => some .beyondLibrary
  | _ => none

/-- An IDLE drive has the side mounted, and nothing waits there. -/
structure State.IdleOn (s : State) (x : Side) (d : DriveNo) (m : Mount) : Prop where
  mounted : s.mountedIn x = some d
  idle : ∃ since linger, s.drive d = .idle m since linger
  side : m.side = x
  empty : s.queue x = []

/-- The state in which drive `d` has started the piece that a request has just brought to the queue of
its side: the piece RUNNING, its request IN_SERVICE, its first command issued (R64 to R66). -/
def State.startedBy (v : State) (d : DriveNo) (m : Mount) (t : Tag) (q : Request)
    (c : DriveCommand) : State :=
  { v with
    chan := { v.chan with requests := v.chan.requests.put t (some { q with state := .inService }) }
    queues := v.queues.put m.side [⟨.request t, v.tenths, true⟩]
    mech := { v.mech with drives := v.mech.drives.put d (.busy m ⟨c, 250⟩) } }

/-- The first READ SECTORS of a read piece: the whole run, but on an INDEX side one spare, or the run up
to the next block with an entry (R66, R123). -/
structure State.FirstRead (s : State) (x : Side) (sector n : Nat) (c : DriveCommand) : Prop where
  plain : (∀ p m, s.side x ≠ .index p m) → c = .readSectors 0 sector n
  entry : ∀ p m spare, s.side x = .index p m → s.spareOf x sector = some spare →
    c = .readSectors 0 spare 1
  run : ∀ p m, s.side x = .index p m → s.spareOf x sector = none →
    ∃ j, c = .readSectors 0 sector j ∧ 1 ≤ j ∧ j ≤ n ∧
      (∀ i, i < j → s.spareOf x (sector + i) = none) ∧
      (j < n → s.spareOf x (sector + j) ≠ none)

/-! ### What joining pieces meet -/

/-- What a piece meets at the side whose queue it joins (R64, R65, R121): it waits, or an IDLE drive that has
the side mounted turns to it, and starts it with a first command or ends it without one. -/
inductive Meeting where
  | waits
  | starts (d : DriveNo) (m : Mount) (c : DriveCommand)
  | fails (d : DriveNo) (m : Mount) (st : Status)

/-- The queue of the side after the meeting: an IDLE drive's was empty. -/
def Meeting.queued (t : Tag) (stamp : BitVec 32) (q : List QEntry) : Meeting → List QEntry
  | .waits => q ++ [⟨.request t, stamp, false⟩]
  | .starts _ _ _ => [⟨.request t, stamp, true⟩]
  | .fails _ _ _ => []

/-- The drive table after the meeting: the drive BUSY with the command, or IDLE afresh (R65, R70). -/
def Meeting.driven (tenths : BitVec 32) (linger : Nat) (T : Table Drive 4) : Meeting → Table Drive 4
  | .waits => T
  | .starts d m c => T.put d (.busy m ⟨c, 250⟩)
  | .fails d m _ => T.put d (.idle m tenths (if linger = 0 then .expired else .running (linger * 10)))

/-- The meeting ends the piece with a status. -/
def Meeting.ends? : Meeting → Option Status
  | .fails _ _ st => some st
  | _ => none

/-- A drive turned to the piece. -/
def Meeting.turned : Meeting → Bool
  | .waits => false
  | _ => true

/-- The meeting calls for the choice (R82): the piece waits on a side that no drive names, or the drive has
become IDLE again. -/
def State.calls (s : State) (e : Side × Meeting) : Bool :=
  match e.2 with
  | .waits => !s.isMounted e.1
  | .starts _ _ _ => false
  | .fails _ _ _ => true

/-- The queues and drives of a state after the meetings of a request's pieces, in block order. -/
def State.meets (v : State) (t : Tag) (met : List (Side × Meeting)) : State :=
  { v with
    queues := met.foldl (fun T e => T.put e.1 (e.2.queued t v.tenths (T.at e.1))) v.queues
    mech := { v.mech with
      drives := met.foldl (fun T e => e.2.driven v.tenths v.sched.linger T) v.mech.drives } }

/-- A judgement of places with the statuses of the meetings that ended their pieces. -/
def metJudgement (base : Place → Option Status) (met : List (Side × Meeting)) (p : Place) : Option Status :=
  (base p).or <|
    match p with
    | .side x _ => met.findSome? fun e => if e.1 = x then e.2.ends? else none
    | _ => none

/-- The record of an accepted request after the meetings of its pieces: IN_SERVICE where a drive turned to
one and the request has not assembled (R46, R64). -/
def metRecord (r : ChannelRequest) (k : ReqKind) (tenths : BitVec 32) (first n : Nat)
    (l : List (Place × Nat)) (base : Place → Option Status) (met : List (Side × Meeting)) : Request :=
  let q := judgedRecord r k tenths first n (judgedPieces k (metJudgement base met) 0 l)
  { q with state := if q.state = .accepted ∧ (met.any fun e => e.2.turned) = true then .inService
      else q.state }

/-- What a read piece of `n` blocks from a sector of a side on meets there. -/
inductive State.MeetsRead (s : State) (x : Side) (sector n : Nat) : Meeting → Prop where
  | waits : s.NotIdleOn x → MeetsRead s x sector n .waits
  | starts (d : DriveNo) (m : Mount) (c : DriveCommand) : s.IdleOn x d m → s.FirstRead x sector n c →
      MeetsRead s x sector n (.starts d m c)

/-- What a write piece of the given data from a sector of a side on meets there, whose record is the first
one named when its judgement has taken effect and the second one after the meeting (R64, R66, R110, R117,
R121). -/
inductive State.MeetsWrite (s : State) (x : Side) (sector : Nat) (data : List Block) :
    SideRecord → Meeting → SideRecord → Prop where
  | waits (rec : SideRecord) : s.NotIdleOn x → MeetsWrite s x sector data rec .waits rec
  | deed (d : DriveNo) (m : Mount) (f : Option Nat) (q c : Nat) : s.IdleOn x d m →
      MeetsWrite s x sector data (.deed f q c) (.starts d m (.writeDeed sector data)) (.deed f q c)
  | home (d : DriveNo) (m : Mount) (p c : Nat) : s.IdleOn x d m → s.spareOf x sector = none →
      MeetsWrite s x sector data (.index (some p) c)
        (.starts d m (.writeHome 0 sector ((data[0]?).getD fillBlock))) (.index (some p) c)
  | spare (d : DriveNo) (m : Mount) (p c : Nat) : s.IdleOn x d m → s.spareOf x sector ≠ none →
      p < 4096 → MeetsWrite s x sector data (.index (some p) c)
        (.starts d m (.writeSpare 0 (258048 + p) (x.val * 262144 + sector) true
          ((data[0]?).getD fillBlock))) (.index (some (p + 1)) c)
  | exhausted (d : DriveNo) (m : Mount) (p c : Nat) : s.IdleOn x d m → s.spareOf x sector ≠ none →
      4096 ≤ p →
      MeetsWrite s x sector data (.index (some p) c) (.fails d m .spareExhausted) (.index (some p) c)

/-- A write that passed, of any pieces: the side records it proposed are in force, each of its side pieces
has met its side, and its region holds the data of its side pieces; a spare issued at once may raise cause 8
(R39, R43 to R45, R64, R104, R106, R114, R125). -/
structure State.WritePassed (s u : State) (r : ChannelRequest) (key : Bool) (first n : Nat)
    (l : List (Place × Nat)) (taken : List (Side × SideRecord)) (met : List (Side × Meeting))
    (after : List (Side × SideRecord)) : Prop where
  frame : u = { (s.boundAndJoined r .write key n
      (metRecord r .write s.tenths first n l passedJudgement met) [] u.chan.staging).meets r.tag met with
    lib := { s.lib with sides := after.foldl (fun t e => t.put e.1 e.2) s.lib.sides }
    attention := u.attention }
  sides : met.map (·.1) = taken.map (·.1) ∧ after.map (·.1) = taken.map (·.1)
  meetings : ∀ (i : Nat) (x : Side) (rec rec' : SideRecord) (e : Meeting), taken[i]? = some (x, rec) →
    met[i]? = some (x, e) → after[i]? = some (x, rec') →
    ∀ p ∈ judgedPieces .write passedJudgement 0 l, ∀ sector, p.place = .side x sector →
      s.MeetsWrite x sector ((r.data.drop p.offset).take p.count) rec e rec'
  staged : ∀ i, i < n → stagingRead u.chan.staging (r.tag.val * 64 + i) =
    if i < ((l.filter fun p => p.1 ≠ .gap).map (·.2)).sum then (r.data[i]?).getD fillBlock
    else fillBlock
  unstaged : ∀ a, a < r.tag.val * 64 ∨ r.tag.val * 64 + 64 ≤ a →
    stagingRead u.chan.staging a = stagingRead s.chan.staging a
  full : ∀ c, c ≠ .remapLow ∨ after = taken → (u.attention.isPending c = true ↔
    (s.cutTrap r .write n).attention.isPending c = true ∨
      (c = .sideFull ∧ ∃ e ∈ taken, ∃ q m, e.2 = .deed (some 262144) q m))
  low : (s.cutTrap r .write n).attention.isPending .remapLow = true →
    u.attention.isPending .remapLow = true
  masked : u.attention.masked = s.attention.masked

/-- The record of an accepted write whose one piece has ended in the acceptance event, with a status that
a drive gave it before it issued a command (R46 to R48, R121). -/
def writeFailed (r : ChannelRequest) (tenths : BitVec 32) (x : Side) (sector n : Nat) (st : Status) :
    Request :=
  { writeRecord r tenths x sector n with
    pieces := [⟨.side x sector, n, 0, [], some st⟩], state := .assembled, status := some st }

/-- The state in which drive `d` has ended the only piece of its side's queue, which a request with the
record `q` had just brought there, and is IDLE afresh (R65, R70). -/
def State.endedBy (v : State) (d : DriveNo) (m : Mount) (t : Tag) (q : Request) : State :=
  { v with
    chan := { v.chan with
      requests := v.chan.requests.put t (some q), assemblyOrder := v.chan.assemblyOrder ++ [t] }
    queues := v.queues.put m.side []
    mech := { v.mech with drives := v.mech.drives.put d (.idle m v.tenths
      (if v.sched.linger = 0 then .expired else .running (v.sched.linger * 10))) } }

/-! ### The next piece, and orphans -/

/-- A BUSY drive whose piece has ended takes the next piece of its side's queue: RUNNING, its request
IN_SERVICE, its first command issued (R64, R65). -/
structure State.NextPieceStarted (s v : State) (d : DriveNo) (m : Mount) (t : Tag) (r : Request)
    (stamp : BitVec 32) (rest : List QEntry) (c : DriveCommand) : Prop where
  moves : s.MechanismMoves v
  drive : v.drive d = .busy m ⟨c, 250⟩
  queue : v.queue m.side = ⟨.request t, stamp, true⟩ :: rest
  request : v.request t = some { r with
    state := if r.state = .accepted then .inService else r.state }

/-- A request has a piece on a side, of one block at least: its record, its kind, the piece and its first
sector (R40 to R42). -/
structure State.HoldsPiece (s : State) (t : Tag) (x : Side) (r : Request) (k : ReqKind) (p : Piece)
    (sector : Nat) : Prop where
  request : s.request t = some r
  kind : r.kind = k
  piece : r.pieceOn x = some p
  place : p.place = .side x sector
  count : 1 ≤ p.count

/-- The staged data of block `i` of a piece (R45). -/
def State.staged (s : State) (t : Tag) (p : Piece) (i : Nat) : Block :=
  stagingRead s.chan.staging (t.val * 64 + (p.offset + i))

/-- The first command that a drive issues for the piece of an owner at the front of a side's queue, with the
record of the side after the issue (R64, R66, R76, R110, R117, R123). -/
inductive State.FirstCommand (s : State) (x : Side) : Owner → DriveCommand → SideRecord → Prop where
  | read (t : Tag) (r : Request) (p : Piece) (sector : Nat) (c : DriveCommand) :
      s.HoldsPiece t x r .read p sector → s.FirstRead x sector p.count c →
      FirstCommand s x (.request t) c (s.side x)
  | deed (t : Tag) (r : Request) (p : Piece) (sector : Nat) : s.HoldsPiece t x r .write p sector →
      (s.side x).isDeed = true →
      FirstCommand s x (.request t) (.writeDeed sector ((List.range p.count).map (s.staged t p))) (s.side x)
  | home (t : Tag) (r : Request) (p : Piece) (sector : Nat) (q : Option Nat) (c : Nat) :
      s.HoldsPiece t x r .write p sector → s.side x = .index q c → s.spareOf x sector = none →
      FirstCommand s x (.request t) (.writeHome 0 sector (s.staged t p 0)) (.index q c)
  | spare (t : Tag) (r : Request) (p : Piece) (sector q c : Nat) : s.HoldsPiece t x r .write p sector →
      s.side x = .index (some q) c → s.spareOf x sector ≠ none → q < 4096 →
      FirstCommand s x (.request t)
        (.writeSpare 0 (258048 + q) (x.val * 262144 + sector) true (s.staged t p 0)) (.index (some (q + 1)) c)
  | label : FirstCommand s x .label (.writeLabel s.lib.libraryId x.cart x.face) (s.side x)

/-- The piece of an owner on an INDEX side ends SPARE_EXHAUSTED as its drive turns to it: a write whose first
block has an entry, with no spare left (R117, R121). -/
def State.EndsUnissued (s : State) (x : Side) (o : Owner) : Prop :=
  ∃ t r p sector q c, o = .request t ∧ s.HoldsPiece t x r .write p sector ∧
    s.side x = .index (some q) c ∧ s.spareOf x sector ≠ none ∧ 4096 ≤ q

/-- How a drive leaves VERIFYING for the queue of its side (R63 to R65): with none left but pieces that end
without a command it is IDLE, its idle stamp taken and its linger loaded; else it is BUSY with the first piece
that has a command, whose issue alone may move a side record. -/
structure State.LeavesVerifying (s v : State) (d : DriveNo) (m : Mount) : Prop where
  idle : (∀ e ∈ s.queue m.side, s.EndsUnissued m.side e.owner) → v.lib.sides = s.lib.sides ∧
    v.drive d = .idle m s.tenths
      (if s.sched.linger = 0 then .expired else .running (s.sched.linger * 10))
  busy : ∀ ended e rest c rec, s.queue m.side = ended ++ e :: rest →
    (∀ o ∈ ended, s.EndsUnissued m.side o.owner) → s.FirstCommand m.side e.owner c rec →
    v.lib.sides = s.lib.sides.put m.side rec ∧ v.drive d = .busy m ⟨c, 250⟩

/-- The queue of a mount's side and its requests after a drive has turned to the queue (R16, R64, R65, R121):
pieces that end without a command are DONE and gone, SPARE_EXHAUSTED; the piece then at the front is RUNNING,
its request IN_SERVICE; and no other queue has moved. -/
structure State.FrontServed (s v : State) (m : Mount) : Prop where
  emptied : (∀ e ∈ s.queue m.side, s.EndsUnissued m.side e.owner) → v.queue m.side = []
  started : ∀ ended e rest c rec, s.queue m.side = ended ++ e :: rest →
    (∀ o ∈ ended, s.EndsUnissued m.side o.owner) → s.FirstCommand m.side e.owner c rec →
    v.queue m.side = { e with running := true } :: rest ∧
    ∀ t r, e.owner = .request t → s.request t = some r → (∀ o ∈ ended, o.owner ≠ .request t) →
      v.request t = some { r with state := if r.state = .accepted then .inService else r.state }
  ended : ∀ ended rest, s.queue m.side = ended ++ rest →
    (∀ o ∈ ended, s.EndsUnissued m.side o.owner) → ∀ o ∈ ended, ∀ t r p, o.owner = .request t →
    s.request t = some r → r.pieceOn m.side = some p → p.status = none →
    ∃ r' p', v.request t = some r' ∧ r'.pieceOn m.side = some p' ∧ p'.status = some .spareExhausted
  others : ∀ y, y ≠ m.side → v.queue y = s.queue y

/-! ### The start-up chain -/

/-- A retained location places a cartridge in a drive, the face toward its head (R10, R183). -/
def State.Retains (s : State) (d : DriveNo) (n : Cart) (f : Face) : Prop :=
  (s.cart n).location = .mounted d f ∨ (s.cart n).location = .stuck d f

/-- A loaded drive is identified from the retained locations (R183, step 2); of several cartridges placed in
it the lowest-numbered is taken (log entry 20). -/
structure State.IdentifiedAs (s : State) (i : Ident) : Prop where
  retained : s.Retains i.drive i.cart i.face
  lowest : ∀ n f, n < i.cart → ¬ s.Retains i.drive n f

/-- The drives of an identification: each identified one UNLOADING with its side, and no drive else changed
but those excepted (R183, step 2). -/
structure State.DrivesIdentified (s u : State) (known : List Ident) (except : Option DriveNo) : Prop where
  identified : ∀ i ∈ known, u.drive i.drive = .unloading (i.cart.side i.face)
  others : ∀ e, (∀ i ∈ known, i.drive ≠ e) → except ≠ some e → u.drive e = s.drive e

/-- The mechanism's records but for the drives and the alarm, as a step of the start-up chain leaves them. -/
def State.ChainAt (s u : State) (p : Picker) (k : Startup) : Prop :=
  u.mech = { s.mech with drives := u.mech.drives, picker := p, startup := k, ageing := u.mech.ageing }

/-- How the start-up chain goes on, in one event, with some drives identified and others still to identify, in
that order (R183, steps 2 to 4): each next drive that a retained location names is identified; the first that
none names issues READ LABEL, and the chain waits for its answer; where all are identified the UNLOAD of the
first starts, or INVENTORY where there is none. -/
structure State.ChainGoesOn (s u : State) (found : List Ident) (todo : List DriveNo) : Prop where
  awaits : ∀ known d rest, todo = known.map (·.drive) ++ d :: rest →
    (∀ i ∈ known, s.IdentifiedAs i) → (∀ n f, ¬ s.Retains d n f) →
    s.ChainAt u .homingWait (.identifying d rest (found ++ known)) ∧
    s.DrivesIdentified u known (some d) ∧ u.drive d = .empty (some 250) ∧
    ∀ n, (u.cart n).location = (s.cart n).location
  inventory : todo = [] → found = [] → s.ChainAt u (.homing .inventory 400) (.inventory []) ∧
    s.DrivesIdentified u [] none ∧ ∀ n, (u.cart n).location = (s.cart n).location
  unloads : ∀ known i rest, todo = known.map (·.drive) → (∀ i ∈ known, s.IdentifiedAs i) →
    found ++ known = i :: rest →
    s.ChainAt u (.homing (.unload i.drive i.cart .startup) 400) (.unloading rest []) ∧
    s.DrivesIdentified u known none ∧
    ∀ n, (u.cart n).location = if n = i.cart then .inPicker else (s.cart n).location

/-- A drive, BUSY or YIELDING, has a command outstanding for an orphan at the front of its side's
queue (R54). -/
structure State.ServesOrphan (s : State) (d : DriveNo) (m : Mount) (c : DriveCommand)
    (rest : List QEntry) : Prop where
  drive : ∃ left, s.drive d = .busy m ⟨c, left⟩ ∨ s.drive d = .yielding m (some ⟨c, left⟩)
  front : ∃ k p stamp, s.queue m.side = ⟨.orphan k p, stamp, true⟩ :: rest

/-- The state in which the orphan that drive `d` served has left its queue, no request, staged block or
side record touched: a YIELDING drive has no piece, a BUSY one serves what is left (R54, R65). -/
def State.orphanGone (s : State) (d : DriveNo) (m : Mount) (rest : List QEntry) : State :=
  let left : State := { s with queues := s.queues.put m.side rest }
  match s.drive d with
  | .yielding _ _ =>
    { left with mech := { s.mech with drives := s.mech.drives.put d (.yielding m none) } }
  | _ => left.serveQueue d m

/-- A settling event has reached every ticket, in ascending station order (R153, R154): so no ticket is
OPEN, an IDLE or due one is as it was, an OPEN one has settled or, on a journal then full, become due,
and the journal has only grown, by records of the cause and stamp. -/
structure State.SettledAll (s u : State) (cause : SettleCause) (stamp : Nat) : Prop where
  ledger : u.ledger = s.settledAllLedger cause stamp
  closed : ∀ t b c, u.ticket t ≠ .opened b c
  kept : ∀ t, s.ticket t = .idle ∨ (s.ticket t).isDue = true → u.ticket t = s.ticket t
  settled : ∀ t b c, s.ticket t = .opened b c →
    u.ticket t = .idle ∨ (u.ticket t = .due b cause stamp ∧ 128 ≤ u.ledger.journal.length)
  journal : ∃ records, u.ledger.journal = s.ledger.journal ++ records ∧
    ∀ j ∈ records, j.cause = cause ∧ j.settleStamp = stamp

/-! ### What the choice may start -/

/-- A drive that the mount search may empty (R83): YIELDING with no current piece, or IDLE past dwell
with its linger expired, or with its linger running where some candidate is AGED. -/
def State.MayRelease (s : State) (r : Drive) : Prop :=
  (∃ m, r = .yielding m none) ∨
    ∃ m i l, r = .idle m i l ∧ m.dwell = .expired ∧
      (l = .expired ∨ ∃ c ∈ s.candidates, c.aged = true)

/-- The picker orders that a choice may start in a state (R83, R85, R92, R95, R97). -/
def State.MayStart (s : State) : PickerOrder → Prop
  | .load n f d => (s.cart n).location = .home ∧ (s.drive d).isEmpty = true ∧
      ∃ e ∈ s.queue (n.side f), e.running = false
  | .exchange d n => (∃ f, (s.cart n).location = .mounted d f) ∧ s.MayRelease (s.drive d) ∧
      ∃ f, ∃ e ∈ s.queue (n.side f), e.running = false
  | .unload d n .release => (∃ x, (s.drive d).side? = some x ∧ Side.cart x = n) ∧
      s.MayRelease (s.drive d)
  | .unload d n .driveReturn => s.mech.returns.at d = true ∧ ∃ f, (s.cart n).location = .stuck d f
  | .unload _ _ .startup => False
  | .mailOut n none => s.mech.pendingExport = some n ∧ (s.cart n).location = .home
  | .mailOut n (some d) => s.mech.pendingExport = some n ∧
      (∃ f, (s.cart n).location = .mounted d f) ∧
      ((∃ m i l, s.drive d = .idle m i l) ∨ ∃ m, s.drive d = .yielding m none)
  | .mailIn n => s.mech.pendingImport = some n ∧ s.mech.mail = .heldIn ∧
      ((s.cart n).location = .shelfOut ∨ (s.cart n).location = .missing)
  | .home => False
  | .inventory => False

/-! ### Which order a choice starts -/

/-- A candidate ranks ahead of another (R80): the AGED first, by age and then by side number; the
others by count, then age, then side number. -/
def Candidate.RanksBefore (a b : Candidate) : Prop :=
  (a.aged = true ∧ b.aged = false) ∨
  (a.aged = true ∧ b.aged = true ∧ (b.age < a.age ∨ (a.age = b.age ∧ a.side < b.side))) ∨
  (a.aged = false ∧ b.aged = false ∧ (b.count < a.count ∨ (a.count = b.count ∧
    (b.age < a.age ∨ (a.age = b.age ∧ a.side < b.side)))))

/-- A side is a candidate (R79, R80): no drive names it, its cartridge is HOME or mounted by its other
face, and a piece is QUEUED there; its age runs from the first of those, and its count is theirs. -/
structure State.IsCandidate (s : State) (c : Candidate) : Prop where
  unmounted : s.isMounted c.side = false
  place : ((s.cart c.side.cart).location = .home ∧ c.other = none) ∨
    ∃ d f, (s.cart c.side.cart).location = .mounted d f ∧ c.other = some d
  pieces : ∃ e rest, (s.queue c.side).filter (fun e => !e.running) = e :: rest ∧
    c.age = (s.tenths - e.stamp).toNat ∧ c.count = rest.length + 1
  aged : c.aged = decide (s.sched.ageLimit * 10 ≤ c.age)

/-- A drive is YIELDING with no current piece. -/
def State.Yielded (s : State) (d : DriveNo) : Prop := ∃ m, s.drive d = .yielding m none

/-- An IDLE drive past dwell that may be released for a candidate, idle for `t` tenths (R83). -/
def State.IdleFree (s : State) (aged : Bool) (d : DriveNo) (t : Nat) : Prop :=
  ∃ m i l, s.drive d = .idle m i l ∧ m.dwell = .expired ∧ (l = .expired ∨ aged = true) ∧
    t = (s.tenths - i).toNat

/-- A BUSY drive past dwell, mounted for `t` tenths (R83). -/
def State.BusyPastDwell (s : State) (d : DriveNo) (t : Nat) : Prop :=
  ∃ m c, s.drive d = .busy m c ∧ m.dwell = .expired ∧ t = (s.tenths - m.stamp).toNat

/-- The drive with a property that has the lowest number. -/
def LowestDrive (p : DriveNo → Prop) (d : DriveNo) : Prop := p d ∧ ∀ e, e < d → ¬ p e

/-- The drive that has had a property longest, the lower number at equal times. -/
def LongestDrive (p : DriveNo → Nat → Prop) (d : DriveNo) : Prop :=
  ∃ t, p d t ∧ ∀ e u, p e u → u < t ∨ (u = t ∧ d ≤ e)

/-- Some drive is YIELDING, with a current piece or without (R84). -/
def State.SomeYielding (s : State) : Prop := ∃ d m c, s.drive d = .yielding m c

/-- The mount search as R83 gives it: its outcome over a list of candidates in rank order is the state
with the drives that it made YIELDING, and the mount move. -/
structure State.SearchesMounts (s : State) : Prop where
  untaken : ∀ d x, LowestDrive s.Yielded d → (s.drive d).side? = some x →
    s.mountSearch [] = (s, some (.unload d x.cart .release))
  nothing : (∀ d, ¬ s.Yielded d) → s.mountSearch [] = (s, none)
  otherFace : ∀ c l d, c.other = some d →
    (s.Yielded d ∨ (∃ t, s.IdleFree c.aged d t) →
      s.mountSearch (c :: l) = (s, some (.exchange d c.side.cart))) ∧
    (∀ m i, s.drive d = .busy m i → m.dwell = .expired → c.aged = true → ¬ s.SomeYielding →
      s.mountSearch (c :: l) = State.mountSearch { s with
        mech := { s.mech with drives := s.mech.drives.put d (.yielding m (some i)) } } l) ∧
    (¬ s.Yielded d → (∀ t, ¬ s.IdleFree c.aged d t) →
      ((∀ t, ¬ s.BusyPastDwell d t) ∨ c.aged = false ∨ s.SomeYielding) →
      s.mountSearch (c :: l) = s.mountSearch l)
  homeEmpty : ∀ c l d, c.other = none → LowestDrive (fun e => ∃ k, s.drive e = .empty k) d →
    s.mountSearch (c :: l) = (s, some (.load c.side.cart c.side.face d))
  homeRelease : ∀ c l, c.other = none → (∀ d k, s.drive d ≠ .empty k) →
    (∀ d x, LowestDrive s.Yielded d → (s.drive d).side? = some x →
      s.mountSearch (c :: l) = (s, some (.unload d x.cart .release))) ∧
    ((∀ d, ¬ s.Yielded d) → ∀ d x, LongestDrive (s.IdleFree c.aged) d →
      (s.drive d).side? = some x →
      s.mountSearch (c :: l) = (s, some (.unload d x.cart .release)))
  homeYield : ∀ c l, c.other = none → (∀ d k, s.drive d ≠ .empty k) → (∀ d, ¬ s.Yielded d) →
    (∀ d t, ¬ s.IdleFree c.aged d t) →
    (c.aged = true → ¬ s.SomeYielding → ∀ d m i, s.drive d = .busy m i →
      LongestDrive s.BusyPastDwell d →
      s.mountSearch (c :: l) = State.mountSearch { s with
        mech := { s.mech with drives := s.mech.drives.put d (.yielding m (some i)) } } l) ∧
    (((∀ d t, ¬ s.BusyPastDwell d t) ∨ c.aged = false ∨ s.SomeYielding) →
      s.mountSearch (c :: l) = s.mountSearch l)

/-- The class 3 move that names drive `d` (R85): the MAIL_OUT of the pending export from it where it is
IDLE or YIELDING with no current piece, or else its pending return, of the cartridge STUCK in it. -/
def State.MovesFrom (s : State) (d : DriveNo) (o : PickerOrder) : Prop :=
  let leaves (n : Cart) : Prop := s.mech.pendingExport = some n ∧
    (∃ f, (s.cart n).location = .mounted d f) ∧
    ((∃ m i l, s.drive d = .idle m i l) ∨ s.Yielded d)
  (∃ n, leaves n ∧ o = .mailOut n (some d)) ∨
  ((∀ n, ¬ leaves n) ∧ s.mech.returns.at d = true ∧ ∃ n f,
    (s.cart n).location = .stuck d f ∧ (∀ n' f', n' < n → (s.cart n').location ≠ .stuck d f') ∧
    o = .unload d n .driveReturn)

/-- The arbiter as R85 gives it: the mount move first, then class 3 by drive number with the MAIL_OUT
from a home slot last, then the MAIL_IN. -/
structure State.Arbitrates (s : State) : Prop where
  mount : ∀ o, s.arbiter (some o) = some o
  drive : ∀ d o, s.MovesFrom d o → (∀ e o', e < d → ¬ s.MovesFrom e o') → s.arbiter none = some o
  slot : (∀ d o, ¬ s.MovesFrom d o) → ∀ n, s.mech.pendingExport = some n →
    (s.cart n).location = .home → s.arbiter none = some (.mailOut n none)
  importing : (∀ d o, ¬ s.MovesFrom d o) →
    (∀ n, s.mech.pendingExport = some n → (s.cart n).location ≠ .home) →
    ∀ n, s.mech.pendingImport = some n → s.mech.mail = .heldIn →
    (s.cart n).location = .shelfOut ∨ (s.cart n).location = .missing →
    s.arbiter none = some (.mailIn n)
  none : (∀ d o, ¬ s.MovesFrom d o) →
    (∀ n, s.mech.pendingExport = some n → (s.cart n).location ≠ .home) →
    (∀ n, s.mech.pendingImport = some n → s.mech.mail = .heldIn →
      (s.cart n).location ≠ .shelfOut ∧ (s.cart n).location ≠ .missing) →
    s.arbiter none = Option.none

/-! ### What the report blocks show (R167, R178) -/

/-- The `width` bytes of a block from `base` on hold fields, each an offset, a size and a value, and 00h
where no field lies. -/
def EntryShows (b : Block) (base width : Nat) (fields : List (Nat × Nat × Nat)) : Prop :=
  (∀ f ∈ fields, blockField b (base + f.1) f.2.1 = f.2.2 % 256 ^ f.2.1) ∧
  ∀ i, i < width → (∀ f ∈ fields, i < f.1 ∨ f.1 + f.2.1 ≤ i) → blockField b (base + i) 1 = 0

/-- A block holds a list of entries from `base` on, in `places` places of `width` bytes, FFh past the
end of the list. -/
def ListShows {α : Type} (b : Block) (base width places : Nat)
    (fields : α → List (Nat × Nat × Nat)) (l : List α) : Prop :=
  ∀ i, i < places →
    (∀ e, l[i]? = some e → EntryShows b (base + width * i) width (fields e)) ∧
    (l[i]? = none → blockField b (base + width * i) width = 256 ^ width - 1)

/-- A field of `size` bytes that may be absent, none or disarmed: all bytes FFh then. -/
def orAbsent (size : Nat) (v : Option Nat) : Nat := v.getD (256 ^ size - 1)

/-- The codes of the encoding table, counted from 0 in the table's order. -/
structure CodesAsTabled : Prop where
  zone : SideRecord.unused.zoneCode = 0 ∧ (∀ f r c, (SideRecord.deed f r c).zoneCode = 1) ∧
    ∀ p c, (SideRecord.index p c).zoneCode = 2
  location : Location.home.code = 0 ∧ (∀ d f, (Location.mounted d f).code = 1) ∧
    Location.inPicker.code = 2 ∧ Location.shelfOut.code = 3 ∧ Location.missing.code = 4 ∧
    ∀ d f, (Location.stuck d f).code = 5
  verification : [Verification.unverified, .verified, .foreignBlank, .foreignWrong].map
    Verification.code = [0, 1, 2, 3]
  drive : Drive.absent.code = 0 ∧ (∀ l, (Drive.empty l).code = 1) ∧
    (∀ x z, (Drive.loading x z).code = 2) ∧ (∀ m c, (Drive.verifying m c).code = 3) ∧
    (∀ m c, (Drive.busy m c).code = 4) ∧ (∀ m i l, (Drive.idle m i l).code = 5) ∧
    (∀ m c, (Drive.yielding m c).code = 6) ∧ (∀ x, (Drive.unloading x).code = 7) ∧
    Drive.faulted.code = 8
  step : (∀ m l, (Drive.verifying m ⟨.readLabel, l⟩).step? = some 0) ∧
    (∀ m x l, (Drive.verifying m ⟨.searchBlank x, l⟩).step? = some 1)
  picker : Picker.idle.code = 0 ∧ (∀ o w, (Picker.moving o w).code = 1) ∧
    (∀ o w, (Picker.homing o w).code = 2) ∧ Picker.homingWait.code = 2 ∧ Picker.faulted.code = 3
  order : (∀ n f d, (PickerOrder.load n f d).code = 0) ∧
    (∀ d n, (PickerOrder.exchange d n).code = 1) ∧
    (∀ d n why, (PickerOrder.unload d n why).code = 2) ∧ (∀ n, (PickerOrder.mailIn n).code = 3) ∧
    (∀ n source, (PickerOrder.mailOut n source).code = 4) ∧ PickerOrder.home.code = 5 ∧
    PickerOrder.inventory.code = 6
  mail : [MailSlot.empty, .heldIn, .reservedOut, .heldOut].map MailSlot.code = [0, 1, 2, 3]
  cls : [StationClass.vacant, .search, .filing, .clerk].map StationClass.code = [0, 1, 2, 3]
  fee : FeeMode.exempt.code = 0 ∧ FeeMode.counter.code = 1 ∧ ∀ a, (FeeMode.deposit a).code = 2
  ticket : Ticket.idle.code = 0 ∧ (∀ b c, (Ticket.opened b c).code = 1) ∧
    ∀ b c t, (Ticket.due b c t).code = 2
  cause : [SettleCause.order, .idle, .profile, .totalLimit, .channelReset, .powerRestore].map
    SettleCause.code = [0, 1, 2, 3, 4, 5]
  trap : [TrapKind.outsideWindow, .writeDenied, .controlDenied, .vacant].map TrapKind.code =
    [0, 1, 2, 3]
  kind : [ReqKind.read, .write].map ReqKind.code = [0, 1]
  lock : [LockMode.unlocked, .keyed, .locked].map LockMode.code = [0, 1, 2]
  piece : (∀ t, (Owner.request t).code = 0) ∧ Owner.label.code = 1 ∧
    ∀ k p, (Owner.orphan k p).code = 2
  results : [ResultCode.done, .capped, .trimmed, .badValue, .locked, .noKey, .unknownOrder, .zoned,
      .notZoned, .sideUnresolved, .notMonotone, .clerkRequired, .notHome, .exportPending, .labelling,
      .notBlank, .pickerBusy, .notFaulted, .returnPending, .mailOccupied, .unavailable, .mailEmpty,
      .importPending, .notOut, .ticketsOpen, .noTicket, .belowCommitted].map ResultCode.code =
    List.range 27
  marks : ResultCode.endMark.code = 254 ∧ ResultCode.noneMark.code = 255

/-- The fields of a drive entry of STATUS (R78). -/
def State.driveShown (s : State) (r : Drive) : List (Nat × Nat × Nat) :=
  let piece := s.currentPiece r
  [(0, 1, r.code), (1, 1, orAbsent 1 r.step?), (2, 2, orAbsent 2 (r.side?.map (·.val))),
   (4, 4, orAbsent 4 (r.mount?.map fun m => (s.tenths - m.stamp).toNat)),
   (8, 2, orAbsent 2 (r.mount?.map fun m => m.dwell.value)),
   (10, 2, orAbsent 2 (r.linger?.map Countdown.value)),
   (12, 2, orAbsent 2 (piece.map fun c => c.1.val)),
   (14, 1, orAbsent 1 (piece.bind fun c => s.ownerOffset c.1 c.2)),
   (15, 1, orAbsent 1 (piece.map fun c => c.2.code)), (16, 2, orAbsent 2 r.commandLeft)]

/-- The STATUS report, control block 0. -/
structure State.StatusShown (s : State) (b : Block) : Prop where
  head : EntryShows b 0 64
    [(0, 4, orAbsent 4 (s.clock.map (·.seconds))), (4, 4, s.tenths.toNat), (8, 1, s.lock.code),
     (9, 1, if s.keyLine then 1 else 0), (10, 2, s.attention.pending.toNat),
     (12, 2, s.attention.masked.toNat), (14, 1, s.attention.firstCause),
     (15, 1, if s.attention.line then 1 else 0),
     (16, 1, s.chan.requests.toList.countP Option.isSome), (18, 2, s.remap.entries.length),
     (20, 2, s.remap.held), (22, 1, s.ledger.journal.length), (23, 1, s.ledger.noticeLeft),
     (24, 2, s.ledger.nextSeq.toNat), (26, 1, s.ledger.dueList.length),
     (27, 1, s.chan.heldList.length), (28, 4, s.lib.libraryId.toNat),
     (32, 1, s.mech.picker.code), (33, 1, orAbsent 1 (s.mech.picker.order?.map (·.code))),
     (34, 1, orAbsent 1 (s.mech.picker.order?.bind (·.cartOperand))),
     (35, 1, orAbsent 1 (s.mech.picker.order?.bind (·.faceOperand))),
     (36, 1, orAbsent 1 ((s.mech.picker.order?.bind (·.drive?)).map (·.val))),
     (37, 1, s.mech.mail.code), (38, 2, orAbsent 2 s.mech.picker.watchdog?),
     (40, 1, orAbsent 1 (s.mech.pendingExport.map (·.val))),
     (41, 1, orAbsent 1 (s.mech.pendingImport.map (·.val))),
     (42, 1, ((List.finRange 4).map fun d => if s.mech.returns.at d then 2 ^ d.val else 0).sum),
     (44, 2, s.candidates.length), (46, 2, orAbsent 2 s.mech.ageing),
     (48, 2, s.sched.ageLimit), (50, 2, s.sched.minDwell), (52, 2, s.sched.linger),
     (54, 2, s.candidates.countP (·.aged))]
  drives : ListShows b 64 32 4 s.driveShown s.mech.drives.toList
  due : ListShows b 192 1 32 (fun (t : Station) => [(0, 1, t.val)]) s.ledger.dueList
  held : ListShows b 224 1 32 (fun (t : Tag) => [(0, 1, t.val)]) s.chan.heldList
  rest : EntryShows b 256 768 []

/-- The fields of a side entry: those of its zone, FFh for the others, FFFFFFFEh where UNKNOWN (R6,
R21). -/
def State.sideShown (s : State) (x : Side) : List (Nat × Nat × Nat) :=
  let known (v : Option Nat) : Nat := v.getD 0xFFFFFFFE
  [(0, 1, (s.side x).zoneCode), (1, 1, orAbsent 1 ((s.mountedIn x).map (·.val))),
   (2, 1, (s.queue x).length), (20, 4, orAbsent 4 ((s.queue x).head?.map fun e => e.stamp.toNat))] ++
  match s.side x with
  | .unused => [(4, 4, 0xFFFFFFFF), (8, 2, 0xFFFF), (12, 4, 0xFFFFFFFF), (16, 4, 0xFFFFFFFF)]
  | .deed f r c => [(4, 4, known f), (8, 2, r), (12, 4, c), (16, 4, 0xFFFFFFFF)]
  | .index p c => [(4, 4, 0xFFFFFFFF), (8, 2, 0xFFFF), (12, 4, c), (16, 4, known p)]

/-- A ticket report (R166). -/
structure TicketShown (k : Ticket) (b : Block) : Prop where
  head : EntryShows b 0 32
    [(0, 1, k.code), (1, 1, orAbsent 1 ((k.body?.bind (·.account)).map (·.val))),
     (2, 1, orAbsent 1 (k.cause?.map (·.code))), (4, 4, orAbsent 4 (k.body?.map (·.openStamp))),
     (8, 4, orAbsent 4 k.dueStamp?), (12, 4, k.gross),
     (16, 2, (k.body?.map (·.pages)).getD 0),
     (18, 2, orAbsent 2 (k.countdown?.map fun n => (n + 9) / 10)),
     (20, 1, ((k.body?.map (·.pageList)).getD []).length),
     (21, 1, ((k.body?.map (·.instruments)).getD []).length)]
  pages : ListShows b 32 8 24
    (fun (e : PageEntry) => [(0, 4, e.instrument), (4, 2, e.page), (6, 1, e.copies)])
    ((k.body?.map (·.pageList)).getD [])
  instruments : ListShows b 224 8 8
    (fun (e : InstrumentEntry) => [(0, 4, e.instrument), (4, 4, e.total)])
    ((k.body?.map (·.instruments)).getD [])
  rest : EntryShows b 288 736 []

/-- Every control block reports its records in the layout that R167 and R178 give it. -/
structure State.ReportsShown (s : State) : Prop where
  status : s.StatusShown (s.reportOf 0)
  result : EntryShows (s.reportOf 1) 0 8
      [(0, 2, s.orderResult.number.toNat), (2, 1, orAbsent 1 (s.orderResult.station.map (·.val))),
       (3, 1, orAbsent 1 (s.orderResult.tag.map (·.val))), (4, 1, s.orderResult.examined),
       (5, 1, s.orderResult.refused), (6, 1, if s.orderResult.blockRefused then 1 else 0)] ∧
    ListShows (s.reportOf 1) 8 1 64 (fun (c : ResultCode) => [(0, 1, c.code)])
      s.orderResult.results ∧
    EntryShows (s.reportOf 1) 72 952 []
  journal : ∀ c, 2 ≤ c → c < 10 → ListShows (s.reportOf c) 0 64 16
    (fun (j : JournalRecord) =>
      [(0, 2, j.seq.toNat), (2, 1, j.station.val), (3, 1, orAbsent 1 (j.account.map (·.val))),
       (4, 1, j.cause.code), (6, 2, j.pages), (8, 4, j.gross), (12, 2, j.minAdjust),
       (14, 2, (j.roundAdjust % 65536).toNat), (16, 4, j.settled), (20, 4, j.openStamp),
       (24, 4, j.settleStamp)]) (s.ledger.journal.drop (16 * (c - 2)))
  sides : ∀ c i, ∀ x : Side, 10 ≤ c → c < 20 → i < 32 → x.val = 32 * (c - 10) + i →
    EntryShows (s.reportOf c) (32 * i) 32 (s.sideShown x)
  cartridges : ∀ c i, ∀ n : Cart, 20 ≤ c → c < 25 → i < 32 → n.val = 32 * (c - 20) + i →
    EntryShows (s.reportOf c) (32 * i) 32
      [(0, 1, (s.cart n).location.code), (1, 1, orAbsent 1 (s.cart n).location.drive?),
       (2, 1, orAbsent 1 (s.cart n).location.face?), (3, 1, (s.cart n).verification.code),
       (4, 1, if (s.cart n).exportPending then 1 else 0),
       (5, 1, if (s.cart n).labellingPending then 1 else 0)]
  stations : ∀ c i, ∀ t : Station, c = 25 ∨ c = 26 → i < 16 → t.val = 16 * (c - 25) + i →
    EntryShows (s.reportOf c) (64 * i) 64
      [(0, 1, (s.station t).cls.code), (1, 1, (s.station t).fee.code),
       (2, 1, orAbsent 1 (s.station t).fee.account?), (3, 1, (s.ticket t).code),
       (4, 2, (s.station t).base), (8, 4, (s.station t).length), (12, 2, (s.station t).idleLimit)]
  rates : ∀ b : Fin 16, EntryShows (s.reportOf 27) (8 * b.val) 8
    [(0, 2, s.tariff.rate.at b), (2, 4, s.tariff.cap.at b)]
  factors : EntryShows (s.reportOf 27) 128 896
    [(0, 1, s.tariff.factor.at 0), (1, 1, s.tariff.factor.at 1), (2, 1, s.tariff.factor.at 2),
     (3, 1, s.tariff.factor.at 3), (4, 2, s.tariff.minimum), (6, 1, s.tariff.settleStep),
     (7, 1, s.tariff.notice)]
  accounts : ∀ a : Account, EntryShows (s.reportOf 28) (16 * a.val) 16
    [(0, 4, (s.account a).balance), (4, 4, (s.account a).committed), (8, 4, (s.account a).lowMark),
     (12, 4, (s.account a).balance - (s.account a).committed)]
  accountsRest : EntryShows (s.reportOf 28) 256 768 []
  traps : ∀ t : Station, EntryShows (s.reportOf 29) (32 * t.val) 32
    [(0, 1, orAbsent 1 ((s.traps.at t).latest.map (·.kind.code))),
     (1, 1, orAbsent 1 ((s.traps.at t).latest.map (·.request.code))),
     (2, 1, (s.traps.at t).count), (4, 4, orAbsent 4 ((s.traps.at t).latest.map (·.sba)))]
  tickets : ∀ t : Station, TicketShown (s.ticket t) (s.reportOf (30 + t.val))
  remap : ∀ c, 62 ≤ c → c < 94 → ListShows (s.reportOf c) 0 8 128
    (fun (e : RemapEntry) => [(0, 4, e.home), (4, 4, e.spare)])
    (s.remap.entries.drop (128 * (c - 62)))
  fill : ∀ c, 94 ≤ c → s.reportOf c = fillBlock

/-- An answer of a drive that it is not ready, to each kind of command (R66, R72). -/
def notReadyAnswer (d : DriveNo) : DriveCommand → Instr
  | .readSectors _ _ _ => .readSectorsAnswer d .notReady
  | .writeDeed _ _ => .deedWriteAnswer d .notReady
  | .writeHome _ _ _ => .homeWriteAnswer d .notReady
  | .writeSpare _ _ _ _ _ => .spareWriteAnswer d .notReady
  | .readLabel => .readLabelAnswer d .notReady
  | .writeLabel _ _ _ => .writeLabelAnswer d .notReady
  | .searchBlank _ => .searchBlankAnswer d .notReady

/-- The command that an order record spells, by the order table of R173, with the key line as read for
the block; none for END and for a code outside the table. -/
def orderCommand (r : OrderRecord) (key : Bool) : Option Instr :=
  match (operand r 0 1).toNat with
  | 1 => some (.stationSet (operand r 1 1) (operand r 2 1) (operand r 3 2) (operand r 5 4)
      (operand r 9 1) (operand r 10 1) (operand r 11 2) key)
  | 2 => some (.trapClear (operand r 1 4))
  | 3 => some (.sideZoneSet (operand r 1 2) (operand r 3 1) key)
  | 4 => some (.closureSet (operand r 1 2) (operand r 3 4) key)
  | 5 => some (.libraryIdSet (operand r 1 4) key)
  | 6 => some (.labelCartridge (operand r 1 2))
  | 7 => some (.schedParams (operand r 1 2) (operand r 3 2) (operand r 5 2) key)
  | 8 => some (.exportCartridge (operand r 1 2))
  | 9 => some (.importCartridge (operand r 1 2))
  | 10 => some .pickerReset
  | 11 => some (.driveReturn (operand r 1 1))
  | 12 => some (.tariffSet (operand r 1 1) (operand r 2 2) (operand r 4 4) key)
  | 13 => some (.sizeFactorSet (operand r 1 1) (operand r 2 1) key)
  | 14 => some (.feeParams (operand r 1 2) (operand r 3 1) (operand r 4 1) key)
  | 15 => some (.ticketClose (operand r 1 1))
  | 16 => some (.accountCredit (operand r 1 1) (operand r 2 4))
  | 17 => some (.accountWithdraw (operand r 1 1) (operand r 2 4))
  | 18 => some (.accountLowMark (operand r 1 1) (operand r 2 4))
  | 19 => some (.journalRelease (operand r 1 2))
  | 20 => some (.settingsLock (operand r 1 1) key)
  | 21 => some (.attentionMask (operand r 1 2) (operand r 3 1))
  | 22 => some (.attentionClear (operand r 1 2))
  | 23 => some (.clockSet (operand r 1 4))
  | _ => none

/-- A countdown one tenth later (R179). -/
def Countdown.lowered : Countdown → Countdown
  | .running n => .running (n - 1)
  | .expired => .expired

end Sys2Proof.Machine
end

