-- ==== Sys2Proof/Certificates/Slice0/Obligations.lean ====
section
/-! DEFINITION. The statements about the part that are left to be proved. -/

open Sys2Proof Sys2Proof.Machine

/-! ### The queue of commands, reset and power-up -/

/-- A step takes the command at the front of the queue and is `exec` of it on the state with the
queue's rest; with nothing waiting the part idles.  The model's choice: the queue is a sender's, not the
part's (log entry 5), and an empty queue idles (log entry 2). -/
def Obligations.StepRunsFrontCommand : Prop :=
  (∀ (c : Instr) (rest : List Instr) (s : State),
    step { s with pending := c :: rest } = exec c { s with pending := rest }) ∧
  ∀ s : State, s.pending = [] → step s = .next s

/-- No command, POWER_UP and CHANNEL_RESET included, changes the queue of waiting commands.  The model's
choice: the spec has no such queue, which is a sender's (log entry 5), and every command keeps it (log
entry 22). -/
def Obligations.ExecKeepsTheQueue : Prop :=
  ∀ (c : Instr) (s t : State), exec c s = .next t → t.pending = s.pending

/-- The state after reset: the part powered on with a lost retained store, every record at the value
its rule gives (that reset is this moment is the model's choice, log entry 1). -/
def Obligations.ResetHoldsDefaults : Prop :=
  let s := State.reset
  (∀ x, s.side x = .unused ∧ s.queue x = []) ∧
  (∀ n, s.cart n = ⟨.home, .unverified, false, false⟩) ∧ s.lib.libraryId = 0 ∧
  s.station 0 = ⟨.clerk, 0, 65536, .exempt, 0⟩ ∧
  (∀ t, t ≠ 0 → s.station t = ⟨.vacant, 0, 1, .exempt, 0⟩) ∧
  (∀ t, s.traps.at t = ⟨none, 0⟩ ∧ s.ticket t = .idle) ∧
  (∀ t, s.request t = none ∧ s.chan.regions.at t = .free) ∧
  s.chan.assemblyOrder = [] ∧ s.chan.heldList = [] ∧ s.chan.withheld = [] ∧ s.chan.sent = [] ∧
  (∀ a, s.account a = ⟨0, 0, 0⟩) ∧ s.ledger.dueList = [] ∧ s.ledger.journal = [] ∧
  s.ledger.nextSeq = 0 ∧ s.ledger.noticeLeft = 1 ∧
  (∀ b, s.tariff.rate.at b = 0 ∧ s.tariff.cap.at b = 0) ∧ (∀ z, s.tariff.factor.at z = 4) ∧
  s.tariff.minimum = 0 ∧ s.tariff.settleStep = 1 ∧ s.tariff.notice = 1 ∧
  s.sched = ⟨45, 8, 20⟩ ∧ s.remap = ⟨[], 0⟩ ∧
  s.orderResult = ⟨0, none, none, 0, 0, false, List.replicate 64 .noneMark⟩ ∧
  s.lock = .unlocked ∧ s.mech.ageing = none ∧ s.mech.pendingExport = none ∧
  s.mech.pendingImport = none ∧ (∀ d, s.mech.returns.at d = false) ∧ s.tenths = 0 ∧
  s.clock = none ∧ s.attention.masked = 0 ∧
  ∀ c, s.attention.isPending c = true ↔ c = .retainedLost ∨ c = .clockUnset

/-- POWER_UP with the battery-good line off, from any state: every retained record at its default,
causes 11 and 12 alone pending, every drive as surveyed, the drives found loaded listed in ascending order,
and HOME under way (R182, R183). -/
def Obligations.PowerUpLosesStore : Prop :=
  ∀ (survey : Vector SurveyReading 4) (mail : Bool) (s : State), ∃ u : State,
    exec (.powerUp false survey mail) s = .next u ∧
    u = { State.reset with
      chan := { Channel.empty with sent := s.chan.sent }
      mech := u.mech, keyLine := s.keyLine, orderAnswer := s.orderAnswer, pending := s.pending } ∧
    u.mech = { Mechanism.powered with
      drives := u.mech.drives
      picker := .homing .home 400
      mail := if mail then .heldIn else .empty
      startup := .homing
      surveyLoaded := u.mech.surveyLoaded } ∧
    (∀ d, u.drive d = if Table.at survey d = .absent then .absent else .empty none) ∧
    u.mech.surveyLoaded.Pairwise (· < ·) ∧
    ∀ d, d ∈ u.mech.surveyLoaded ↔ Table.at survey d = .loaded

/-- POWER_UP with the battery-good line on: the retained records are kept but for the OPEN tickets,
which settle with cause POWER_RESTORE or become due, LOCKED becomes KEYED, every cartridge is
UNVERIFIED with flags cleared, and every record in working memory is at its start: no request, queue,
held place or countdown, the mail slot as its sensor reads, every drive as surveyed, the drives found loaded
listed in ascending order, and HOME under way (R183); the ledger is that of one settling event to each station's ticket, in ascending order (R182,
R154). -/
def Obligations.PowerUpKeepsStore : Prop :=
  ∀ (survey : Vector SurveyReading 4) (mail : Bool) (s : State), ∃ u : State,
    exec (.powerUp true survey mail) s = .next u ∧
    u = { s with
      lib := u.lib
      traps := Vector.replicate 32 ⟨none, 0⟩
      chan := { Channel.empty with sent := s.chan.sent }
      queues := Vector.replicate 320 []
      mech := u.mech
      remap := { s.remap with held := 0 }
      ledger := u.ledger
      orderResult := State.reset.orderResult
      lock := if s.lock = .locked then .keyed else s.lock
      attention := u.attention
      tenths := 0
      clock := none } ∧
    u.lib = { s.lib with cartridges := u.lib.cartridges } ∧
    (∀ n, u.cart n = ⟨(s.cart n).location, .unverified, false, false⟩) ∧
    s.SettledAll u .powerRestore 0 ∧
    u.attention.masked = 0 ∧ u.attention.isPending .clockUnset = true ∧
    (∀ c, u.levelHolds c = true → u.attention.isPending c = true) ∧
    (∀ c, u.attention.isPending c = true →
      c = .journalFull ∨ c = .journalNotice ∨ c = .remapLow ∨ c = .depositLow ∨
        c = .clockUnset) ∧
    u.mech = { Mechanism.powered with
      drives := u.mech.drives
      picker := .homing .home 400
      mail := if mail then .heldIn else .empty
      startup := .homing
      surveyLoaded := u.mech.surveyLoaded } ∧
    (∀ d, u.drive d = if Table.at survey d = .absent then .absent else .empty none) ∧
    u.mech.surveyLoaded.Pairwise (· < ·) ∧
    ∀ d, d ∈ u.mech.surveyLoaded ↔ Table.at survey d = .loaded

/-! ### Stations, traps, sides and library -/

/-- STATION_SET: the gate, then the checks of R32 in order; DONE replaces the entry after a settling
event with cause PROFILE has reached the station's ticket, and changes nothing else. -/
def Obligations.StationSetJudgedAndTaken : Prop :=
  ∀ (station cls : BitVec 8) (base : BitVec 16) (length : BitVec 32) (fee account : BitVec 8)
    (idle : BitVec 16) (key : Bool) (s : State),
    let k := s.sampleKey key
    let out := exec (.stationSet station cls base length fee account idle key) s
    (s.lock.barredTo key → out = k.shows .locked) ∧
    (¬ s.lock.barredTo key →
      (31 < station.toNat ∨ ¬ StationOperandsGood cls base length fee account idle →
        out = k.shows .badValue) ∧
      ∀ t : Station, station.toNat = t.val →
        StationOperandsGood cls base length fee account idle →
        (¬ s.KeepsClerk t cls base length → out = k.shows .clerkRequired) ∧
        (s.KeepsClerk t cls base length → ∃ (e : StationEntry) (u : State), out = .next u ∧
          e.Spells cls base length fee account idle ∧
          u = { k with
            stations := s.stations.put t e
            ledger := s.settledLedger t .profile
            attention := u.attention
            orderAnswer := some .done } ∧
          s.SettleAttention u))

/-- TRAP_CLEAR clears exactly the flagged stations' trap records and answers DONE; a trap recorded
afterwards for such a station stands with count 1 (R30). -/
def Obligations.TrapClearClearsFlagged : Prop :=
  ∀ (flags : BitVec 32) (s : State), ∃ u : State,
    exec (.trapClear flags) s = .next u ∧
    u = { s with traps := u.traps, orderAnswer := some .done } ∧
    (∀ t : Station, u.traps.at t = if flags.getLsbD t.val then ⟨none, 0⟩ else s.traps.at t) ∧
    ∀ (t : Station) (kind : TrapKind) (k : ReqKind) (sba : Nat), flags.getLsbD t.val = true →
      (u.recordTrap t kind k sba).traps.at t = ⟨some ⟨kind, k, sba⟩, 1⟩

/-- SIDE_ZONE_SET: the gate, then the checks of R18; DONE makes an UNUSED side DEED or INDEX with its
frontier or pointer UNKNOWN, and a drive that has the side mounted notes it (R62).  DEDUCED: that note in
the drive record (log entry 11). -/
def Obligations.SideZoneSetJudgedAndTaken : Prop :=
  ∀ (side : BitVec 16) (zone : BitVec 8) (key : Bool) (s : State),
    let k := s.sampleKey key
    let out := exec (.sideZoneSet side zone key) s
    (s.lock.barredTo key → out = k.shows .locked) ∧
    (¬ s.lock.barredTo key →
      (319 < side.toNat ∨ (zone.toNat ≠ 1 ∧ zone.toNat ≠ 2) → out = k.shows .badValue) ∧
      ∀ x : Side, side.toNat = x.val → zone.toNat = 1 ∨ zone.toNat = 2 →
        (s.side x ≠ .unused → out = k.shows .zoned) ∧
        (s.side x = .unused → ∃ u : State, out = .next u ∧
          u = { k with
            lib := { s.lib with sides := u.lib.sides }
            mech := { s.mech with drives := u.mech.drives }
            orderAnswer := some .done } ∧
          (∀ y, u.side y =
            if y = x then (if zone.toNat = 1 then .deed none 0 0 else .index none 0)
            else s.side y) ∧
          ∀ d, (s.drive d).ZonedTo x (u.drive d)))

/-- CLOSURE_SET: the checks of R19 in order; DONE raises the closure mark, and on a DEED side with its
frontier below the mark also the frontier, with cause 10 where it reaches the side's end (R106). -/
def Obligations.ClosureSetJudgedAndTaken : Prop :=
  ∀ (side : BitVec 16) (mark : BitVec 32) (key : Bool) (s : State),
    let k := s.sampleKey key
    let m := mark.toNat
    let out := exec (.closureSet side mark key) s
    (319 < side.toNat → out = k.shows .badValue) ∧
    ∀ x : Side, side.toNat = x.val →
      (key = false → out = k.shows .noKey) ∧
      (key = true →
        (s.side x = .unused → out = k.shows .notZoned) ∧
        (∀ f r c, s.side x = .deed f r c → 262144 < m → out = k.shows .badValue) ∧
        (∀ r c, s.side x = .deed none r c → m ≤ 262144 → out = k.shows .sideUnresolved) ∧
        (∀ f r c, s.side x = .deed (some f) r c → m ≤ 262144 →
          (m < c → out = k.shows .notMonotone) ∧
          (c ≤ m → m ≤ f → out = .next { k with
            lib := { s.lib with sides := s.lib.sides.put x (.deed (some f) r m) }
            orderAnswer := some .done }) ∧
          (c ≤ m → f < m → ∃ u : State, out = .next u ∧
            u = { k with
              lib := { s.lib with sides := s.lib.sides.put x (.deed (some m) 0 m) }
              attention := u.attention
              orderAnswer := some .done } ∧
            u.attention.masked = s.attention.masked ∧
            ∀ a, u.attention.isPending a =
              (s.attention.isPending a || decide (a = .sideFull ∧ m = 262144)))) ∧
        (∀ p c, s.side x = .index p c →
          (258048 < m → out = k.shows .badValue) ∧
          (m ≤ 258048 → m < c → out = k.shows .notMonotone) ∧
          (m ≤ 258048 → c ≤ m → out = .next { k with
            lib := { s.lib with sides := s.lib.sides.put x (.index p m) }
            orderAnswer := some .done })))

/-- LABEL_CARTRIDGE: the checks of R75 in order; DONE sets the flag and joins one label piece to each
face's queue, before the choice runs (R82).  That the new pieces are tested in the same event is the
model's choice (log entry 30): a queued request piece there is refused FOREIGN_MEDIA, and where a face
is in no drive and the picker is FAULTED or no drive is in service the labelling fails at once. -/
def Obligations.LabelCartridgeJudgedAndTaken : Prop :=
  ∀ (number : BitVec 16) (s : State),
    let out := exec (.labelCartridge number) s
    (159 < number.toNat → out = s.shows .badValue) ∧
    ∀ n : Cart, number.toNat = n.val →
      ((s.cart n).location ≠ .home → out = s.shows .notHome) ∧
      ((s.cart n).location = .home → (s.cart n).exportPending = true →
        out = s.shows .exportPending) ∧
      ((s.cart n).location = .home → (s.cart n).exportPending = false →
        (s.cart n).labellingPending = true → out = s.shows .labelling) ∧
      ((s.cart n).location = .home → (s.cart n).exportPending = false →
        (s.cart n).labellingPending = false →
        ((s.cart n).verification ≠ .foreignBlank → out = s.shows .notBlank) ∧
        ((s.cart n).verification = .foreignBlank → ∃ v : State,
          out = .next ({ v.choose with orderAnswer := some .done }.rearmFrom s) ∧
          v = { s with
            lib := { s.lib with cartridges := v.lib.cartridges }
            chan := { s.chan with
              requests := v.chan.requests, assemblyOrder := v.chan.assemblyOrder }
            queues := v.queues
            attention := v.attention } ∧
          (∀ i, i ≠ n → v.cart i = s.cart i) ∧
          (∀ x, Side.cart x ≠ n → v.queue x = s.queue x) ∧
          ((∀ x, Side.cart x = n → ∀ e ∈ s.queue x, e.running = true ∨ e.owner = .label) →
            v.chan = s.chan) ∧
          s.Assembles v ∧
          (∀ x, Side.cart x = n → ∀ e ∈ s.queue x, e.running = false → ∀ t r p,
            e.owner = .request t → s.request t = some r → r.pieceOn x = some p → p.status = none →
            ∃ r' p', v.request t = some r' ∧ r'.pieceOn x = some p' ∧
              p'.status = some .foreignMedia) ∧
          let stranded := (∃ x, Side.cart x = n ∧ s.isMounted x = false) ∧
            (s.mech.picker = .faulted ∨ ∀ d, (s.drive d).inService = false)
          (¬ stranded → v.attention = s.attention ∧
            v.cart n = { s.cart n with labellingPending := true } ∧
            ∀ x, Side.cart x = n → v.queue x =
              ((s.queue x).filter fun e => e.running || e.owner.isLabel) ++
                [⟨.label, s.tenths, false⟩]) ∧
          (stranded →
            v.attention = { s.attention with
              pending := s.attention.pending ||| Cause.foreignMedia.flag } ∧
            v.cart n = { s.cart n with verification := .foreignWrong } ∧
            ∀ x, Side.cart x = n → v.queue x = (s.queue x).filter fun e => e.running)))

/-! ### Scheduling, export, import and recovery -/

/-- SCHED_PARAMS: the gate, the range check, then the three values are taken, the ageing alarm is
re-armed under the new age limit, and the choice on the new values is the whole of the rest (R98, R81,
R82).  LIBRARY_ID_SET: the gate, then the id takes the value and nothing else changes (R20). -/
def Obligations.SchedParamsAndLibraryIdTaken : Prop :=
  (∀ (a d l : BitVec 16) (key : Bool) (s : State),
    let k := s.sampleKey key
    let out := exec (.schedParams a d l key) s
    let good := 5 ≤ a.toNat ∧ a.toNat ≤ 600 ∧ d.toNat ≤ 120 ∧ l.toNat ≤ 600
    (s.lock.barredTo key → out = k.shows .locked) ∧
    (¬ s.lock.barredTo key →
      (¬ good → out = k.shows .badValue) ∧
      (good → out = .next
        { ({ k with sched := ⟨a.toNat, d.toNat, l.toNat⟩ } : State).choose.rearm with
          orderAnswer := some .done }) ∧
      (good → ∃ u : State, out = .next u ∧ u.mech.ageing = u.nextAged ∧
        ({ k with sched := ⟨a.toNat, d.toNat, l.toNat⟩, orderAnswer := some .done } :
          State).MechanismMoves u ∧
        (s.mech.picker ≠ .idle → u = { k with
          sched := ⟨a.toNat, d.toNat, l.toNat⟩
          mech := { s.mech with ageing := u.nextAged }
          orderAnswer := some .done })))) ∧
  ∀ (id : BitVec 32) (key : Bool) (s : State),
    (s.lock.barredTo key → exec (.libraryIdSet id key) s = (s.sampleKey key).shows .locked) ∧
    (¬ s.lock.barredTo key → exec (.libraryIdSet id key) s =
      .next { s with
        lib := { s.lib with libraryId := id }, keyLine := key, orderAnswer := some .done })

/-- EXPORT: the checks of R94 in order; DONE reserves the mail slot, sets the export pending, and
refuses every queued piece of both faces, a request's SHELF_OUT, before the choice runs; a label piece so
refused ends the labelling FOREIGN_WRONG with cause 7 (R16, R76, R94), and no other cartridge's record or
queue changes.  That a labelling whose last piece is RUNNING goes on is the model's choice (log entry 31).
IMPORT: the checks of R96 in order; DONE makes the cartridge the pending import, before the choice runs. -/
def Obligations.ExportAndImportJudgedAndTaken : Prop :=
  (∀ (number : BitVec 16) (s : State),
    let out := exec (.exportCartridge number) s
    (159 < number.toNat → out = s.shows .badValue) ∧
    ∀ n : Cart, number.toNat = n.val →
      let l := (s.cart n).location
      let gone := l = .missing ∨ l = .shelfOut ∨ ∃ d f, l = .stuck d f
      let fails := (s.cart n).labellingPending = true ∧
        ∃ x, Side.cart x = n ∧ ∃ e ∈ s.queue x, e.running = false ∧ e.owner = .label
      (s.mech.mail ≠ .empty → out = s.shows .mailOccupied) ∧
      (s.mech.mail = .empty → gone → out = s.shows .unavailable) ∧
      (s.mech.mail = .empty → ¬ gone → ∃ v : State,
        out = .next ({ v.choose with orderAnswer := some .done }.rearmFrom s) ∧
        s.MechanismMoves v ∧ v.lib.sides = s.lib.sides ∧ v.remap = s.remap ∧
        v.mech = { s.mech with mail := .reservedOut, pendingExport := some n } ∧
        (∀ k, k ≠ n → v.cart k = s.cart k) ∧
        (¬ fails → v.cart n = { s.cart n with exportPending := true } ∧ v.attention = s.attention) ∧
        (fails → v.cart n = { s.cart n with
            exportPending := true, verification := .foreignWrong, labellingPending := false } ∧
          v.attention = { s.attention with
            pending := s.attention.pending ||| Cause.foreignMedia.flag }) ∧
        (∀ x, Side.cart x = n → v.queue x = (s.queue x).filter fun e => e.running) ∧
        (∀ x, Side.cart x ≠ n → v.queue x = s.queue x) ∧
        ∀ x, Side.cart x = n → ∀ e ∈ s.queue x, e.running = false → ∀ t r p,
          e.owner = .request t → s.request t = some r → r.pieceOn x = some p → p.status = none →
          ∃ r' p', v.request t = some r' ∧ r'.pieceOn x = some p' ∧ p'.status = some .shelfOut)) ∧
  ∀ (number : BitVec 16) (s : State),
    let out := exec (.importCartridge number) s
    (159 < number.toNat → out = s.shows .badValue) ∧
    ∀ n : Cart, number.toNat = n.val →
      let outside := (s.cart n).location = .shelfOut ∨ (s.cart n).location = .missing
      (s.mech.mail ≠ .heldIn → out = s.shows .mailEmpty) ∧
      (s.mech.mail = .heldIn → s.mech.pendingImport ≠ none → out = s.shows .importPending) ∧
      (s.mech.mail = .heldIn → s.mech.pendingImport = none →
        (¬ outside → out = s.shows .notOut) ∧
        (outside → ∃ v : State,
          out = .next ({ v.choose with orderAnswer := some .done }.rearmFrom s) ∧
          v = { s with mech := { s.mech with pendingImport := some n } }))

/-- PICKER_RESET: from FAULTED or IDLE the picker becomes HOMING with HOME started; in any other state
PICKER_BUSY changes nothing (R90).  DRIVE_RETURN: the checks of R92 in order; a FAULTED drive with no
STUCK cartridge becomes EMPTY, any other gets a pending return, before the choice runs.  Under the law of the
mechanism neither moves anything else: every side queue, request, flag and pending cause stands (R17, R90). -/
def Obligations.PickerResetAndDriveReturnTaken : Prop :=
  (∀ s : State,
    (s.mech.picker = .faulted ∨ s.mech.picker = .idle → ∃ u : State,
      exec .pickerReset s = .next u ∧
      ({ s with orderAnswer := some .done } : State).MechanismMoves u ∧
      u.mech = { s.mech with picker := .homing .home 400, ageing := u.mech.ageing } ∧
      u.lib.sides = s.lib.sides ∧ u.remap = s.remap ∧
      (∀ n, (u.cart n).location = (s.cart n).location) ∧
      (s.MechanismLawful → u = { s with
        mech := { s.mech with picker := .homing .home 400 }, orderAnswer := some .done })) ∧
    (s.mech.picker ≠ .faulted → s.mech.picker ≠ .idle →
      exec .pickerReset s = s.shows .pickerBusy)) ∧
  ∀ (number : BitVec 8) (s : State),
    let out := exec (.driveReturn number) s
    (3 < number.toNat → out = s.shows .badValue) ∧
    ∀ d : DriveNo, number.toNat = d.val →
      (s.drive d ≠ .faulted → out = s.shows .notFaulted) ∧
      (s.drive d = .faulted → s.mech.returns.at d = true → out = s.shows .returnPending) ∧
      (s.drive d = .faulted → s.mech.returns.at d = false →
        ((∃ n f, (s.cart n).location = .stuck d f) → ∃ v : State,
          out = .next ({ v.choose with orderAnswer := some .done }.rearmFrom s) ∧
          v = { s with mech := { s.mech with returns := s.mech.returns.put d true } }) ∧
        ((∀ n f, (s.cart n).location ≠ .stuck d f) → ∃ v : State,
          out = .next ({ v.choose with orderAnswer := some .done }.rearmFrom s) ∧
          s.MechanismMoves v ∧ v.lib.sides = s.lib.sides ∧ v.remap = s.remap ∧
          v.mech = { s.mech with drives := s.mech.drives.put d (.empty none) } ∧
          (s.MechanismLawful → v = { s with mech := v.mech })))

/-! ### Tariff and fee parameters -/

/-- TARIFF_SET and SIZE_FACTOR_SET: the gate, the range checks, then the named class's rate and cap, or
the named code's factor, take the values; no ticket, list or account changes, and a power-up with a good
store keeps the tariff (R132). -/
def Obligations.TariffOrdersJudgedAndTaken : Prop :=
  (∀ (survey : Vector SurveyReading 4) (mail : Bool) (s t : State),
    exec (.powerUp true survey mail) s = .next t → t.tariff = s.tariff) ∧
  (∀ (book : BitVec 8) (rate : BitVec 16) (cap : BitVec 32) (key : Bool) (s : State),
    let k := s.sampleKey key
    let out := exec (.tariffSet book rate cap key) s
    (s.lock.barredTo key → out = k.shows .locked) ∧
    (¬ s.lock.barredTo key →
      (15 < book.toNat ∨ 2000 < rate.toNat ∨ 999999 < cap.toNat → out = k.shows .badValue) ∧
      ∀ b : Fin 16, book.toNat = b.val → rate.toNat ≤ 2000 → cap.toNat ≤ 999999 →
        out = .next { k with
          tariff := { s.tariff with
            rate := s.tariff.rate.put b rate.toNat, cap := s.tariff.cap.put b cap.toNat }
          orderAnswer := some .done })) ∧
  ∀ (sheet factor : BitVec 8) (key : Bool) (s : State),
    let k := s.sampleKey key
    let out := exec (.sizeFactorSet sheet factor key) s
    (s.lock.barredTo key → out = k.shows .locked) ∧
    (¬ s.lock.barredTo key →
      (3 < sheet.toNat ∨ factor.toNat = 0 ∨ 40 < factor.toNat → out = k.shows .badValue) ∧
      ∀ z : Fin 4, sheet.toNat = z.val → 1 ≤ factor.toNat → factor.toNat ≤ 40 →
        out = .next { k with
          tariff := { s.tariff with factor := s.tariff.factor.put z factor.toNat }
          orderAnswer := some .done })

/-- FEE_PARAMS: the gate, the range check, TICKETS_OPEN while some ticket is OPEN or SETTLE_DUE, then
the three values are taken and the notice countdown is reloaded (R165, R164). -/
def Obligations.FeeParamsJudgedAndTaken : Prop :=
  ∀ (m : BitVec 16) (st n : BitVec 8) (key : Bool) (s : State),
    let k := s.sampleKey key
    let out := exec (.feeParams m st n key) s
    let good := m.toNat ≤ 9999 ∧
      (st.toNat = 1 ∨ st.toNat = 5 ∨ st.toNat = 10 ∨ st.toNat = 25) ∧
      1 ≤ n.toNat ∧ n.toNat ≤ 16
    (s.lock.barredTo key → out = k.shows .locked) ∧
    (¬ s.lock.barredTo key →
      (¬ good → out = k.shows .badValue) ∧
      (good → (∃ t, s.ticket t ≠ .idle) → out = k.shows .ticketsOpen) ∧
      (good → (∀ t, s.ticket t = .idle) → out = .next { k with
        tariff := { s.tariff with minimum := m.toNat, settleStep := st.toNat, notice := n.toNat }
        ledger := { s.ledger with noticeLeft := n.toNat }
        orderAnswer := some .done }))

/-! ### Tickets, accounts and journal -/

/-- TICKET_CLOSE answers by the ticket's state, and on an OPEN ticket makes a settling event with cause
ORDER; the expiry of an idle countdown makes one with cause IDLE (R152, R148).  An expiry that is not due
does not occur (the model's choice, log entry 6). -/
def Obligations.TicketCloseAndIdleExpirySettle : Prop :=
  (∀ (number : BitVec 8) (s : State),
    let out := exec (.ticketClose number) s
    (31 < number.toNat → out = s.shows .badValue) ∧
    ∀ t : Station, number.toNat = t.val →
      (s.ticket t = .idle → out = s.shows .noTicket) ∧
      ((s.ticket t).isDue = true → out = s.shows .done) ∧
      (∀ b c, s.ticket t = .opened b c → ∃ u : State, out = .next u ∧
        u = { s with
          ledger := s.settledLedger t .order
          attention := u.attention
          orderAnswer := some .done } ∧
        s.SettleAttention u)) ∧
  ∀ (t : Station) (s : State),
    (∀ b, s.ticket t = .opened b (some 0) → ∃ u : State, exec (.idleCountdownExpiry t) s = .next u ∧
      u = { s with ledger := s.settledLedger t .idle, attention := u.attention } ∧
      s.SettleAttention u) ∧
    ((∀ b, s.ticket t ≠ .opened b (some 0)) → exec (.idleCountdownExpiry t) s = .next s)

/-- ACCOUNT_CREDIT, ACCOUNT_WITHDRAW and ACCOUNT_LOW_MARK change one field of one account as their
tables give, and raise cause 9 where some uncommitted balance is then below its low mark
(R156 to R158). -/
def Obligations.AccountOrdersJudgedAndTaken : Prop :=
  ∀ (number : BitVec 8) (amount : BitVec 32) (s : State),
    let n := amount.toNat
    let takes (out : Out) (a : Account) (r : DepositAccount) (code : ResultCode) : Prop :=
      ∃ u : State, out = .next u ∧
        u = { s with
          ledger := { s.ledger with accounts := s.ledger.accounts.put a r }
          attention := u.attention
          orderAnswer := some code } ∧
        u.attention.masked = s.attention.masked ∧
        ∀ c, u.attention.isPending c = (s.attention.isPending c ||
          decide (c = .depositLow ∧
            ∃ i, (u.account i).balance - (u.account i).committed < (u.account i).lowMark))
    (15 < number.toNat ∨ n = 0 ∨ 99999999 < n →
      exec (.accountCredit number amount) s = s.shows .badValue ∧
      exec (.accountWithdraw number amount) s = s.shows .badValue) ∧
    (15 < number.toNat ∨ 99999999 < n →
      exec (.accountLowMark number amount) s = s.shows .badValue) ∧
    ∀ a : Account, number.toNat = a.val → n ≤ 99999999 →
      let r := s.account a
      takes (exec (.accountLowMark number amount) s) a { r with lowMark := n } .done ∧
      (1 ≤ n →
        (99999999 < r.balance + n → takes (exec (.accountCredit number amount) s) a
          { r with balance := 99999999 } .capped) ∧
        (r.balance + n ≤ 99999999 → takes (exec (.accountCredit number amount) s) a
          { r with balance := r.balance + n } .done) ∧
        (r.balance < r.committed + n →
          exec (.accountWithdraw number amount) s = s.shows .belowCommitted) ∧
        (r.committed + n ≤ r.balance → takes (exec (.accountWithdraw number amount) s) a
          { r with balance := r.balance - n } .done))

/-- JOURNAL_RELEASE: its answers, the removal of the oldest records, and the drain (R160 to R162).  While
the journal has a free place the ticket at the front of the due list settles, with its stored cause and
due stamp; then the request at the front of the held list is delivered as DELIVERY delivers it, with its
pass where one is called for, or stays first while its ticket is due. -/
def Obligations.JournalReleaseRemovesOldest : Prop :=
  ∀ (count : BitVec 16) (s : State),
    let n := count.toNat
    let out := exec (.journalRelease count) s
    let code : ResultCode := if s.ledger.journal.length < n then .trimmed else .done
    let left := s.ledger.journal.drop n
    (n = 0 ∨ 128 < n → out = s.shows .badValue) ∧
    (1 ≤ n → n ≤ 128 →
      (∃ u : State, out = .next u ∧ u.orderAnswer = some code ∧
        u.attention.masked = s.attention.masked ∧
        (128 ≤ u.ledger.journal.length → u.attention.isPending .journalFull = true)) ∧
      (s.ledger.dueList = [] → s.chan.heldList = [] → s.ledger.journal.length ≤ 128 →
        out = .next { s with
          ledger := { s.ledger with journal := left }, orderAnswer := some code }) ∧
      ∀ t rest b cause stamp, s.ledger.dueList = t :: rest → s.ticket t = .due b cause stamp →
        left.length < 128 → ∃ (u : State) (more : List JournalRecord), out = .next u ∧
          u.ledger.journal =
            left ++ settlementRecord s.tariff t b cause stamp s.ledger.nextSeq :: more) ∧
    (1 ≤ n → n ≤ 128 → ∃ u : State, out = .next u ∧
      let k := State.drain { s with ledger := { s.ledger with journal := left } }
      u = { k with attention := u.attention, orderAnswer := some code } ∧
      u.attention.masked = k.attention.masked ∧
      ∀ c, u.attention.isPending c = (k.attention.isPending c ||
        decide (c = .journalFull ∧ 128 ≤ k.ledger.journal.length))) ∧
    ∀ k : State,
      (128 ≤ k.ledger.journal.length → k.drain = k) ∧
      (k.ledger.dueList = [] → k.chan.heldList = [] → k.drain = k) ∧
      (k.ledger.journal.length < 128 →
        (∀ t rest b cause stamp, k.ledger.dueList = t :: rest → t ∉ rest →
          k.ticket t = .due b cause stamp → ∃ u : State, k.drain = u.drain ∧
            u = { k with
              ledger := k.ledger.settledBy k.tariff t b cause stamp
              attention := u.attention } ∧
            u.ledger.dueList = rest ∧ k.SettleAttention u) ∧
        ∀ t rest r, k.ledger.dueList = [] → k.chan.heldList = t :: rest → t ∉ rest →
          k.request t = some r →
          (k.IsCharged r → (k.ticket r.station).isDue = true → k.drain = k) ∧
          (¬ k.IsCharged r ∨ (k.ticket r.station).isDue = false → ∃ u : State,
            exec (.delivery t) { k with chan := { k.chan with
              heldList := rest
              requests := k.chan.requests.put t (some { r with state := .assembled }) } } =
                .next u ∧ k.drain = u.drain ∧ u.chan.heldList = rest ∧ u.request t = none))

/-- After a JOURNAL_RELEASE, a due list or a held list that is not empty means a full journal
(R161). -/
def Obligations.DrainLeavesListsOnlyOnFullJournal : Prop :=
  ∀ (count : BitVec 16) (s u : State), s.FeesLawful → s.HeldLawful →
    1 ≤ count.toNat → count.toNat ≤ 128 → exec (.journalRelease count) s = .next u →
    u.ledger.dueList ≠ [] ∨ u.chan.heldList ≠ [] → 128 ≤ u.ledger.journal.length

/-- The settle function: 0 for a gross of 0, else the multiple of the step nearest to the greater of
gross and minimum, half rounding up; it does not fall as the gross rises, both adjustments are as its
table gives and keep their ranges, and FEE_PARAMS changes nothing while a ticket is not IDLE (R149). -/
def Obligations.SettleRoundsToNearestStep : Prop :=
  ∀ T : Tariff, T.Lawful →
    T.settle 0 = 0 ∧
    (∀ x, 0 < x →
      let base := max x T.minimum
      T.settle x = (base + T.settleStep / 2) / T.settleStep * T.settleStep ∧
      2 * (T.settle x - base) ≤ T.settleStep ∧ 2 * (base - T.settle x) ≤ T.settleStep ∧
      (2 * (base % T.settleStep) = T.settleStep → T.settleStep = 10 ∧ base < T.settle x) ∧
      base - x ≤ 9999 ∧
      (T.settleStep = 1 → T.settle x = base) ∧
      (T.settleStep = 5 → T.settle x ≤ base + 2 ∧ base ≤ T.settle x + 2) ∧
      (T.settleStep = 10 → T.settle x ≤ base + 5 ∧ base ≤ T.settle x + 4) ∧
      (T.settleStep = 25 → T.settle x ≤ base + 12 ∧ base ≤ T.settle x + 12)) ∧
    (∀ x y, x ≤ y → T.settle x ≤ T.settle y) ∧
    (∀ (t : Station) (b : TicketBody) (cause : SettleCause) (stamp : Nat) (seq : BitVec 16),
      let r := settlementRecord T t b cause stamp seq
      r.settled = T.settle b.gross ∧
      (b.gross = 0 → r.minAdjust = 0 ∧ r.roundAdjust = 0) ∧
      (0 < b.gross → r.minAdjust = max b.gross T.minimum - b.gross ∧
        r.roundAdjust = (T.settle b.gross : Int) - ((max b.gross T.minimum : Nat) : Int))) ∧
    (∀ (m : BitVec 16) (st n : BitVec 8) (key : Bool) (s u : State),
      (∃ t, s.ticket t ≠ .idle) → exec (.feeParams m st n key) s = .next u →
        u.tariff = s.tariff) ∧
    (∀ x, x ≤ 99999999 → T.settle x ≤ 100000000) ∧
    (T.settleStep ≠ 1 → T.settle 99999999 = 100000000) ∧
    ∀ (s : State) (t : Station) (b : TicketBody) (a : Account), s.FeesLawful → s.tariff = T →
      (s.ticket t).body? = some b → b.account = some a → T.settle b.gross ≤ 99999999

/-! ### Lock, attention and clock -/

/-- SETTINGS_LOCK answers by the checks of R172 in order, and changes the mode alone, which a power-up
with a good store keeps, LOCKED as KEYED (R171); one value of the key line serves a whole order block.
That STATUS reports the level the line had when it was last sampled is the model's choice (log
entry 10). -/
def Obligations.SettingsLockJudgedAndTaken : Prop :=
  (∀ (survey : Vector SurveyReading 4) (mail : Bool) (s t : State),
    exec (.powerUp true survey mail) s = .next t →
      t.lock = if s.lock = .locked then .keyed else s.lock) ∧
  (∀ (records : List OrderRecord) (s : State), (takeRecords records s).2.keyLine = s.keyLine) ∧
  (∀ s : State, blockField (s.reportOf 0) 9 1 = if s.keyLine then 1 else 0) ∧
  ∀ (target : BitVec 8) (key : Bool) (s : State),
    let k := s.sampleKey key
    let out := exec (.settingsLock target key) s
    (2 < target.toNat → out = k.shows .badValue) ∧
    ∀ m : LockMode, m.height = target.toNat →
      (m = s.lock → out = k.shows .done) ∧
      (s.lock.height < m.height → out = .next { k with lock := m, orderAnswer := some .done }) ∧
      (m.height < s.lock.height →
        (s.lock = .locked → out = k.shows .locked) ∧
        (s.lock = .keyed → key = false → out = k.shows .noKey) ∧
        (s.lock = .keyed → key = true →
          out = .next { k with lock := .unlocked, orderAnswer := some .done }))

/-- ATTENTION_MASK refuses a flag beyond cause 12 and a sense above 1; otherwise it sets or clears the
given causes' mask flags and no other flag, and the line and first cause follow (R175).
ATTENTION_CLEAR refuses a flag beyond cause 12; otherwise it clears the given causes' pending flags, but
for a level cause whose condition holds, and no mask flag (R176). -/
def Obligations.AttentionOrdersJudgedAndTaken : Prop :=
  (∀ (flags : BitVec 16) (sense : BitVec 8) (s : State),
    let out := exec (.attentionMask flags sense) s
    (4096 ≤ flags.toNat ∨ 1 < sense.toNat → out = s.shows .badValue) ∧
    (flags.toNat < 4096 → sense.toNat ≤ 1 → ∃ u : State, out = .next u ∧
      u = { s with attention := u.attention, orderAnswer := some .done } ∧
      u.attention.pending = s.attention.pending ∧
      (∀ c : Cause, u.attention.isMasked c =
        if flags.getLsbD c.bit then decide (sense.toNat = 1) else s.attention.isMasked c) ∧
      (u.attention.line = true ↔
        ∃ c, u.attention.isPending c = true ∧ u.attention.isMasked c = false) ∧
      (∀ c : Cause, u.attention.firstCause = c.bit + 1 ↔
        (u.attention.isPending c = true ∧ u.attention.isMasked c = false ∧
          ∀ e : Cause, e.bit < c.bit →
            u.attention.isPending e = false ∨ u.attention.isMasked e = true)) ∧
      (u.attention.firstCause = 0 ↔ u.attention.line = false))) ∧
  ∀ (flags : BitVec 16) (s : State),
    let out := exec (.attentionClear flags) s
    (4096 ≤ flags.toNat → out = s.shows .badValue) ∧
    (flags.toNat < 4096 → ∃ u : State, out = .next u ∧
      u = { s with attention := u.attention, orderAnswer := some .done } ∧
      u.attention.masked = s.attention.masked ∧
      ∀ c : Cause, u.attention.isPending c = true ↔
        (s.attention.isPending c = true ∧ (flags.getLsbD c.bit = false ∨
          (c = .journalFull ∧ 128 ≤ s.ledger.journal.length) ∨
          (c = .remapLow ∧ (3840 ≤ s.remap.entries.length ∨
            ∃ x p m, s.side x = .index (some p) m ∧ 3840 < p)) ∨
          (c = .depositLow ∧ ∃ a, (s.account a).balance - (s.account a).committed <
            (s.account a).lowMark) ∨
          (c = .clockUnset ∧ s.clock = none))))

/-- TENTH: the tenths count rises by one modulo 2^32, the clock's seconds at every tenth tenth up to
their ceiling, every running countdown falls by one, and nothing else changes (R179, R180).  DEDUCED: a
countdown at 0 stays at 0, and a dwell or linger that reaches 0 is expired only when its expiry is taken
(log entry 9).  CLOCK_SET refuses 0 and the all-ones value; otherwise the clock takes the value, its count
of tenths starting afresh, and nothing else changes (R180). -/
def Obligations.TenthCountsAndClockSet : Prop :=
  (∀ s : State, ∃ u : State, exec .tenth s = .next u ∧
    u = { s with
      tenths := s.tenths + 1
      clock := u.clock
      mech := { s.mech with
        drives := u.mech.drives, picker := u.mech.picker, ageing := s.mech.ageing.map (· - 1) }
      ledger := { s.ledger with tickets := u.ledger.tickets } } ∧
    (s.clock = none → u.clock = none) ∧
    (∀ c, s.clock = some c → c.tenth < 9 → u.clock = some ⟨c.seconds, c.tenth + 1⟩) ∧
    (∀ c, s.clock = some c → c.tenth = 9 →
      u.clock = some ⟨min (c.seconds + 1) 4294967294, 0⟩) ∧
    (∀ o w, (s.mech.picker = .moving o w → u.mech.picker = .moving o (w - 1)) ∧
      (s.mech.picker = .homing o w → u.mech.picker = .homing o (w - 1))) ∧
    (s.mech.picker.order? = none → u.mech.picker = s.mech.picker) ∧
    (∀ t b n, s.ticket t = .opened b (some n) → u.ticket t = .opened b (some (n - 1))) ∧
    (∀ t, (∀ b n, s.ticket t ≠ .opened b (some n)) → u.ticket t = s.ticket t) ∧
    ∀ d,
      (∀ n, s.drive d = .empty (some n) → u.drive d = .empty (some (n - 1))) ∧
      (∀ m c, s.drive d = .verifying m c →
        u.drive d = .verifying { m with dwell := m.dwell.lowered } ⟨c.command, c.left - 1⟩) ∧
      (∀ m c, s.drive d = .busy m c →
        u.drive d = .busy { m with dwell := m.dwell.lowered } ⟨c.command, c.left - 1⟩) ∧
      (∀ m i l, s.drive d = .idle m i l →
        u.drive d = .idle { m with dwell := m.dwell.lowered } i l.lowered) ∧
      (∀ m c, s.drive d = .yielding m (some c) →
        u.drive d = .yielding { m with dwell := m.dwell.lowered } (some ⟨c.command, c.left - 1⟩)) ∧
      (∀ m, s.drive d = .yielding m none →
        u.drive d = .yielding { m with dwell := m.dwell.lowered } none) ∧
      (s.drive d = .absent ∨ s.drive d = .empty none ∨ s.drive d = .faulted ∨
        (∃ x z, s.drive d = .loading x z) ∨ (∃ x, s.drive d = .unloading x) →
        u.drive d = s.drive d)) ∧
  ∀ (v : BitVec 32) (s : State),
    (v.toNat = 0 ∨ v.toNat = 4294967295 → exec (.clockSet v) s = s.shows .badValue) ∧
    (v.toNat ≠ 0 → v.toNat ≠ 4294967295 → exec (.clockSet v) s =
      .next { s with clock := some ⟨v.toNat, 0⟩, orderAnswer := some .done })

/-! ### Commands that change no record -/

/-- A late drive answer, a late picker answer and a record of an unknown code change no record, and
neither does an answer of a drive with no command outstanding (R68, R86, R169).  That the late rows are
discarded whatever the drive or the picker has current is the model's choice (log entry 7). -/
def Obligations.LateAnswersAndUnknownOrdersChangeNothing : Prop :=
  (∀ (d : DriveNo) (s : State), exec (.lateDriveAnswer d) s = .next s) ∧
  (∀ s : State, exec .latePickerAnswer s = .next s) ∧
  (∀ (d : DriveNo) (s : State), (s.drive d).awaitsAnswer = false →
    (∀ a, exec (.readSectorsAnswer d a) s = .next s) ∧
    (∀ a, exec (.deedWriteAnswer d a) s = .next s) ∧
    (∀ a, exec (.homeWriteAnswer d a) s = .next s) ∧
    (∀ a, exec (.spareWriteAnswer d a) s = .next s) ∧
    (∀ a, exec (.readLabelAnswer d a) s = .next s) ∧
    (∀ a, exec (.searchBlankAnswer d a) s = .next s) ∧
    (∀ a, exec (.writeLabelAnswer d a) s = .next s) ∧
    (∀ a, exec (.startupLabelAnswer d a) s = .next s)) ∧
  ∀ (code : BitVec 8) (s : State), 24 ≤ code.toNat →
    exec (.unknownOrder code) s = s.shows .unknownOrder

/-! ### Order blocks and the control region -/

/-- The records of an order block are taken in order: END ends it, an unknown code answers
UNKNOWN_ORDER and changes nothing, and a record of the order table does exactly what its command does,
the ageing alarm with it (R169, R173).  That a record taken by itself is a command is the model's choice
(log entry 3), and so is the alarm's following each record (log entry 17). -/
def Obligations.RecordsTakenInOrder : Prop :=
  ∀ (r : OrderRecord) (rest : List OrderRecord) (s : State),
    let code := (operand r 0 1).toNat
    (code = 0 → takeRecords (r :: rest) s = ([], s)) ∧
    (24 ≤ code → takeRecords (r :: rest) s =
      (.unknownOrder :: (takeRecords rest s).1, (takeRecords rest s).2)) ∧
    (1 ≤ code → code ≤ 23 → ∃ (c : Instr) (result : ResultCode) (t u : State),
      orderCommand r s.keyLine = some c ∧
      takeRecords (r :: rest) s = (result :: (takeRecords rest t).1, (takeRecords rest t).2) ∧
      exec c s = .next u ∧
      u = { t with orderAnswer := some result })

/-- A write of control block 1 alone by a CLERK station takes its block in the acceptance event, from the
state in which its request is bound: the order result block is replaced whole, and the request is
ASSEMBLED with ORDER_REFUSED where a record was refused, else DONE (R168 to R170). -/
def Obligations.ControlWriteTakesOrderBlock : Prop :=
  ∀ (r : ChannelRequest) (key : Bool) (s : State) (b : Block), s.TakesControl r .write 1 1 →
    r.data = [b] → ∃ k u : State,
      let q : Request := {
        kind := .write, station := r.station, vba := some 268435201, count := 1, copies := 0
        arrival := s.tenths, windowTrap := false, pieces := [⟨.control 1, 1, 0, [], none⟩]
        state := .accepted, status := none }
      k = { s with
        keyLine := key
        chan := { s.chan with
          requests := s.chan.requests.put r.tag (some q)
          regions := s.chan.regions.put r.tag .holdingWrite
          staging := stagingWrite s.chan.staging (r.tag.val * 64) b } } ∧
      exec (.acceptance r key) s = .next u ∧
      let w := takeRecords ((List.range 64).map (orderRecord b)) k
      let refused := w.1.countP ResultCode.isRefused
      u = { w.2 with chan := u.chan, orderResult := u.orderResult } ∧
      u.chan = { w.2.chan with
        requests := u.chan.requests, assemblyOrder := u.chan.assemblyOrder } ∧
      (r.tag ∉ s.chan.heldList →
        let st : Status := if refused = 0 then .done else .orderRefused
        u.chan.requests = w.2.chan.requests.put r.tag (some { q with
          pieces := [⟨.control 1, 1, 0, [], some st⟩], state := .assembled, status := some st }) ∧
        u.chan.assemblyOrder = w.2.chan.assemblyOrder ++ [r.tag]) ∧
      w.1.length ≤ 64 ∧
      u.orderResult = {
        number := s.orderResult.number + 1, station := some r.station, tag := some r.tag
        examined := w.1.length, refused := refused, blockRefused := decide (refused ≠ 0)
        results := u.orderResult.results } ∧
      u.orderResult.results.length = 64 ∧
      (∀ i, i < w.1.length → u.orderResult.results[i]? = w.1[i]?) ∧
      (w.1.length < 64 → u.orderResult.results[w.1.length]? = some .endMark) ∧
      (∀ i, w.1.length < i → i < 64 → u.orderResult.results[i]? = some .noneMark) ∧
      (r.tag ∉ s.chan.heldList → ∃ q, u.request r.tag = some q ∧ q.state = .assembled ∧
        q.status = some (if refused = 0 then .done else .orderRefused))

/-- Any other write of the control region answers NOT_WRITABLE: its data is discarded, no order is
taken, and the order result block is unchanged; the row of its own and ACCEPTANCE do the same
(R168). -/
def Obligations.OtherControlWritesNotWritable : Prop :=
  ∀ (r : ChannelRequest) (key : Bool) (s : State) (c n : Nat), s.TakesControl r .write c n →
    ¬ (c = 1 ∧ n = 1) → ∃ (u : State) (q : Request),
      exec (.acceptance r key) s = .next u ∧
      exec (.controlWriteNotWritable r key) s = .next u ∧
      u = { s.cutTrap r .write n with keyLine := key, chan := u.chan } ∧
      u.chan = { s.chan with
        requests := s.chan.requests.put r.tag (some q)
        assemblyOrder := s.chan.assemblyOrder ++ [r.tag]
        regions := s.chan.regions.put r.tag .holdingWrite
        staging := stagingDiscard s.chan.staging (r.tag.val * 64)
          (if n < r.count.toNat then 64 else n) } ∧
      q.state = .assembled ∧ q.status = some .notWritableControl

/-- A read of the control region by a CLERK station is served in its acceptance event: the reports of
its blocks as the records stand then are in the request's region, GOOD but for blocks 94 on (R167); and
every block holds its records' fields in R178's layout and codes, 00h elsewhere.  DEDUCED: the records
reported include the binding of the reading request (log entry 14), and bytes 34 to 36 of STATUS hold the
operands that R87 writes with the picker's order (log entry 13).  The model's choice: byte 9 of STATUS is
the key level that this acceptance samples (log entry 10). -/
def Obligations.ControlReadShowsReports : Prop :=
  (∀ (r : ChannelRequest) (key : Bool) (s : State) (c n : Nat), s.TakesControl r .read c n →
    s.Canonical → ∃ (k u : State) (q : Request),
      let record (conds : List Cond) (st : Option Status) : Request :=
        judgedRecord r .read s.tenths (268435200 + c) n [⟨.control c, n, 0, conds, st⟩]
      exec (.acceptance r key) s = .next u ∧
      k = s.boundAndJoined r .read key n (record (List.replicate n .fill) none) []
        (s.cutStaging r n) ∧
      u = { k with chan := { k.chan with
        requests := s.chan.requests.put r.tag (some q)
        assemblyOrder := s.chan.assemblyOrder ++ [r.tag]
        staging := stagingWriteRun k.chan.staging (r.tag.val * 64)
          ((List.range n).map fun i => k.reportOf (c + i)) } } ∧
      q = record ((List.range n).map fun i => if c + i < 94 then .good else .fill) (some .done) ∧
      u.request r.tag = some q ∧ q.state = .assembled ∧
      q.status = some (if n < r.count.toNat then .windowTrap else .done) ∧
      (∀ i, q.condAt i = if i < n ∧ c + i < 94 then .good else .fill) ∧
      ∀ i, i < n → stagingRead u.chan.staging (r.tag.val * 64 + i) = k.reportOf (c + i)) ∧
  (∀ s : State, s.ReportsShown) ∧ CodesAsTabled ∧
  ∀ fs : List Field,
    fs.Pairwise (fun f g => f.off + f.size ≤ g.off ∨ g.off + g.size ≤ f.off) →
    (∀ f ∈ fs, f.off + f.size ≤ 1024) →
    (∀ f ∈ fs, blockField (reportBlock fs) f.off f.size = f.value % 256 ^ f.size) ∧
    ∀ i, i < 1024 → (∀ f ∈ fs, i < f.off ∨ f.off + f.size ≤ i) →
      blockField (reportBlock fs) i 1 = 0

/-! ### The channel port -/

/-- A presented request waits on the channel while 32 records are held, start-up runs or others wait;
else a malformed one is refused BAD_REQUEST and one whose tag is bound TAG_IN_USE, with no other record
touched.  A withheld request is taken from the front in the same way once the port is free (R37,
R38).  WITHHELD_REQUEST_TAKEN with nothing waiting, or while the port is closed, does not occur (the
model's choice, log entry 6). -/
def Obligations.PortWithholdsOrRefuses : Prop :=
  ∀ (r : ChannelRequest) (key : Bool) (s : State) (rest : List ChannelRequest),
    let closed := s.mech.startup ≠ .complete ∨ ∀ t, s.request t ≠ none
    let malformed := (r.kind ≠ .read ∧ r.kind ≠ .write) ∨ r.count.toNat = 0 ∨ 64 < r.count.toNat ∨
      (r.kind = .write ∧ r.data.length ≠ r.count.toNat) ∨ (r.kind = .read ∧ r.data ≠ [])
    let queued : State := { s with chan := { s.chan with withheld := r :: rest } }
    let refused (w : List ChannelRequest) (st : Status) : Out := .next { s with
      keyLine := key
      chan := { s.chan with withheld := w, sent := s.chan.sent ++ [.refusal r.tag st] } }
    (closed ∨ s.chan.withheld ≠ [] → exec (.acceptance r key) s =
      .next { s with chan := { s.chan with withheld := s.chan.withheld ++ [r] } }) ∧
    (s.chan.withheld = [] → exec (.withheldRequestTaken key) s = .next s) ∧
    (closed → exec (.withheldRequestTaken key) queued = .next queued) ∧
    (¬ closed →
      (malformed →
        (s.chan.withheld = [] → exec (.acceptance r key) s = refused [] .badRequest) ∧
        exec (.withheldRequestTaken key) queued = refused rest .badRequest) ∧
      (¬ malformed → s.request r.tag ≠ none →
        (s.chan.withheld = [] → exec (.acceptance r key) s = refused [] .tagInUse) ∧
        exec (.withheldRequestTaken key) queued = refused rest .tagInUse))

/-- A request that the window unit denies whole is ASSEMBLED with WINDOW_TRAP, forms no piece and
changes no other record, and its trap is recorded with its kind and first SBA; one that straddles the
control region is ASSEMBLED with BAD_REQUEST and records none (R25, R29). -/
def Obligations.WindowUnitDeniesWhole : Prop :=
  ∀ (r : ChannelRequest) (k : ReqKind) (key : Bool) (s : State), s.PortTakes r k →
    let e := s.station r.station
    let sba := r.sba.toNat
    let v := e.base * 4096 + sba
    let n := min r.count.toNat (s.windowEnd r.station - sba)
    let record (trap : Bool) (st : Status) : Request :=
      { kind := k, station := r.station, vba := none, count := r.count.toNat
        copies := match k with
          | .read => min r.copies.toNat 99
          | .write => 0
        arrival := s.tenths, windowTrap := trap, pieces := [], state := .assembled
        status := some st }
    let bound (trap : Bool) (st : Status) : State := { s with
      keyLine := key
      chan := { s.chan with
        requests := s.chan.requests.put r.tag (some (record trap st))
        assemblyOrder := s.chan.assemblyOrder ++ [r.tag]
        regions := s.chan.regions.put r.tag (match k with
          | .read => .gatheringRead
          | .write => .holdingWrite)
        staging := stagingDiscard s.chan.staging (r.tag.val * 64) 64 } }
    let trapped (kind : TrapKind) : Out := .next { bound true .windowTrap with
      traps := s.traps.put r.station
        ⟨some ⟨kind, k, sba⟩, min ((s.traps.at r.station).count + 1) 255⟩
      attention := { s.attention with
        pending := s.attention.pending ||| Cause.windowTrap.flag } }
    let out := exec (.acceptance r key) s
    (e.cls = .vacant → out = trapped .vacant) ∧
    (e.cls = .search → k = .write → out = trapped .writeDenied) ∧
    (e.cls ≠ .vacant → ¬ (e.cls = .search ∧ k = .write) →
      (s.windowEnd r.station ≤ sba → out = trapped .outsideWindow) ∧
      (sba < s.windowEnd r.station →
        (v < 268435200 → 268435200 < v + n → out = .next (bound false .badRequest)) ∧
        (268435200 ≤ v → e.cls ≠ .clerk → out = trapped .controlDenied)))

/-- A read whose run lies on one available side is bound with its copies, relocation and one piece of
FILL blocks, which joins the back of the side's queue; a trap is recorded where the window cut it, the
choice runs where the side is not mounted, and nothing else moves.  A withheld request is taken alike
(R24 to R26, R36, R37, R39 to R42, R82).  In general a run is one piece or two, on sides or in the gap,
each judged by itself: a refused one and the gap's are DONE at once, the others join in block order, and
with none left the request is ASSEMBLED with its highest status (R1 to R3, R14, R41, R43, R47, R48).  An
IDLE drive starts the piece that joins its side in the same event, be it one of two (R64 to R66, R123). -/
def Obligations.AcceptedReadJoinsQueue : Prop :=
  (∀ (r : ChannelRequest) (key : Bool) (s : State) (v n : Nat) (l : List (Place × Nat)),
    s.TakesLibrary r .read v n → CutInto v n l →
    let pieces := judgedPieces .read s.readJudgement 0 l
    let waiting := (judgedRecord r .read s.tenths v n pieces).openSides
    (∀ x ∈ waiting, s.NotIdleOn x ∨ ∃ d m, s.IdleOn x d m) →
    ∃ met : List (Side × Meeting), met.map (·.1) = waiting ∧
      (∀ e ∈ met, ∀ p ∈ pieces, ∀ sector, p.place = .side e.1 sector →
        s.MeetsRead e.1 sector p.count e.2) ∧
      let q := metRecord r .read s.tenths v n l s.readJudgement met
      let u := (s.boundAndJoined r .read key n q [] (s.cutStaging r n)).meets r.tag met
      exec (.acceptance r key) s = .next ((if met.any s.calls then u.choose else u).rearmFrom s)) ∧
  (∀ (r : ChannelRequest) (key : Bool) (s : State) (x : Side) (sector n : Nat) (d : DriveNo)
    (m : Mount), s.TakesRun r .read x sector n → s.IdleOn x d m →
    let q := judgedRecord r .read s.tenths (x.val * 262144 + sector) n
      [⟨.side x sector, n, 0, List.replicate n .fill, none⟩]
    let bound := s.boundAndJoined r .read key n q [] (s.cutStaging r n)
    ∃ c, s.FirstRead x sector n c ∧
      exec (.acceptance r key) s = .next (bound.startedBy d m r.tag q c)) ∧
  ∀ (r : ChannelRequest) (key : Bool) (s : State) (x : Side) (sector n : Nat),
    s.TakesRun r .read x sector n → s.NotIdleOn x →
    let record : Request :=
      { kind := .read, station := r.station, vba := some (x.val * 262144 + sector)
        count := r.count.toNat, copies := min r.copies.toNat 99, arrival := s.tenths
        windowTrap := decide (n < r.count.toNat)
        pieces := [⟨.side x sector, n, 0, List.replicate n .fill, none⟩]
        state := .accepted, status := none }
    let joined (rest : List ChannelRequest) : State := { s.cutTrap r .read n with
      keyLine := key
      chan := { s.chan with
        withheld := rest
        requests := s.chan.requests.put r.tag (some record)
        regions := s.chan.regions.put r.tag .gatheringRead
        staging := if n < r.count.toNat
          then stagingDiscard s.chan.staging (r.tag.val * 64 + n) (64 - n) else s.chan.staging }
      queues := s.queues.put x (s.queue x ++ [⟨.request r.tag, s.tenths, false⟩]) }
    let taken (rest : List ChannelRequest) : State :=
      (if s.isMounted x then joined rest else (joined rest).choose).rearmFrom s
    exec (.acceptance r key) s = .next (taken []) ∧
    ∀ rest, exec (.withheldRequestTaken key)
        { s with chan := { s.chan with withheld := r :: rest } } = .next (taken rest)

/-- A write on a DEED side is judged by the frontier, the closure mark and the image walk: refused, it
completes at once, whole, with the first row's status; passed, its sectors are reserved in the same
event and its piece joins the queue (R44, R101, R103, R104, R106).  With the side in an IDLE drive, the
drive starts the piece in the same event, as one WRITE SECTORS of the staged data (R64 to R66, R110). -/
def Obligations.DeedWriteReservesOrIsRefused : Prop :=
  (∀ (r : ChannelRequest) (key : Bool) (s : State) (x : Side) (sector n rem c rem' : Nat)
    (d : DriveNo) (m : Mount), s.TakesRun r .write x sector n → s.IdleOn x d m → s.Canonical →
    s.side x = .deed (some sector) rem c → c ≤ sector →
    imageWalk sector rem (r.data.take n) = .ok rem' → ∃ v : State,
      s.WriteQueued v r key x sector n (.deed (some (sector + n)) rem' c) ∧
      exec (.acceptance r key) s = .next (v.startedBy d m r.tag
        (writeRecord r s.tenths x sector n) (.writeDeed sector (r.data.take n)))) ∧
  ∀ (r : ChannelRequest) (key : Bool) (s : State) (x : Side) (sector n : Nat)
    (f : Option Nat) (rem c : Nat), s.TakesRun r .write x sector n → s.NotIdleOn x → s.Canonical →
    s.side x = .deed f rem c →
    let out := exec (.acceptance r key) s
    let refused (st : Status) : Prop := ∃ u, out = .next u ∧ s.WriteRefused u r key n st
    (f = none → refused .sideUnresolved) ∧
    ∀ frontier, f = some frontier →
      (sector < frontier → refused .written) ∧
      (frontier < sector → refused .offFrontier) ∧
      (sector = frontier → sector < c → refused .closed) ∧
      (sector = frontier → c ≤ sector →
        (∀ st, imageWalk sector rem (r.data.take n) = .error st → refused st) ∧
        ∀ rem', imageWalk sector rem (r.data.take n) = .ok rem' → ∃ v : State,
          out = .next ((if s.isMounted x then v else v.choose).rearmFrom s) ∧
          s.WriteQueued v r key x sector n (.deed (some (sector + n)) rem' c))

/-- The image walk: a block owed by the last image is not examined; with none owed a block must be a
valid header whose image ends on the side, and then owes the rest of its image (R102, R103). -/
def Obligations.ImageWalkFollowsHeaders : Prop :=
  ∀ (x rem : Nat) (b : Block) (rest : List Block),
    imageWalk x rem [] = .ok rem ∧
    (0 < rem → imageWalk x rem (b :: rest) = imageWalk (x + 1) (rem - 1) rest) ∧
    (validHeader b = none → imageWalk x 0 (b :: rest) = .error .noHeader) ∧
    (∀ h, validHeader b = some h →
      (262144 < x + h.length → imageWalk x 0 (b :: rest) = .error .imageOverrun) ∧
      (x + h.length ≤ 262144 →
        imageWalk x 0 (b :: rest) = imageWalk (x + 1) (h.length - 1) rest) ∧
      2 ≤ h.length ∧ h.length ≤ 2048 ∧ h.length = blockField b 14 2 ∧
      h.instrument = blockField b 4 4 ∧ h.page = blockField b 8 2 ∧
      h.book.val = blockField b 12 1 ∧ h.sheet.val = blockField b 13 1) ∧
    ((validHeader b).isSome = true ↔
      blockField b 0 1 = 0x50 ∧ blockField b 1 1 = 0x4A ∧ blockField b 2 1 = 0x48 ∧
      blockField b 3 1 = 0x01 ∧ blockField b 12 1 ≤ 15 ∧ blockField b 13 1 ≤ 3 ∧
      2 ≤ blockField b 14 2 ∧ blockField b 14 2 ≤ 2048 ∧
      ((List.range 16).map fun i => blockField b (2 * i) 2).sum % 65536 = 0)

/-- A write on an INDEX side is refused SIDE_UNRESOLVED, SPARE_AREA or CLOSED in this order, else
queued with no side record changed; one on an UNUSED side is refused NOT_WRITABLE (R44, R116).  An IDLE
drive starts a piece that joins its side at once, and where its first block has an entry and no spare is
left the piece ends SPARE_EXHAUSTED and the drive is IDLE again, which runs the choice (R64, R65, R82,
R117, R121).  In general a write's pieces are judged
together, each by the standing test and then its side's zone: all its side pieces take effect or none
does, a piece that passed takes the other's refusal, and the gap takes no data (R3, R14, R44, R109); each
then waits on its side or meets the IDLE drive there, of whatever zone (R65, R110). -/
def Obligations.IndexAndUnusedWritesJudged : Prop :=
  (∀ (s : State) (x : Side) (sector : Nat) (data : List Block),
    let out := s.judgeSide x sector data
    (∀ st, s.standing x false = some st → out = .refuse st) ∧
    (s.standing x false = none →
      (s.side x = .unused → out = .refuse .notWritableSide) ∧
      (∀ rem c, s.side x = .deed none rem c → out = .refuse .sideUnresolved) ∧
      (∀ f rem c, s.side x = .deed (some f) rem c →
        (sector < f → out = .refuse .written) ∧ (f < sector → out = .refuse .offFrontier) ∧
        (sector = f → sector < c → out = .refuse .closed) ∧
        (sector = f → c ≤ sector →
          (∀ st, imageWalk sector rem data = .error st → out = .refuse st) ∧
          ∀ rem', imageWalk sector rem data = .ok rem' →
            out = .pass (.deed (some (sector + data.length)) rem' c))) ∧
      (∀ c, s.side x = .index none c → out = .refuse .sideUnresolved) ∧
      ∀ p c, s.side x = .index (some p) c →
        (258048 < sector + data.length → out = .refuse .spareArea) ∧
        (sector + data.length ≤ 258048 →
          (sector < c → out = .refuse .closed) ∧
          (c ≤ sector → out = .pass (.index (some p) c))))) ∧
  (∀ (r : ChannelRequest) (key : Bool) (s : State) (v n : Nat) (l : List (Place × Nat)),
    s.TakesLibrary r .write v n → CutInto v n l → s.Canonical →
    let out := exec (.acceptance r key) s
    let vs := s.verdicts r.data 0 l
    ((∃ e ∈ vs, e.2.refusal?.isSome = true) → out = .next
      (s.boundAndJoined r .write key n
        (judgedRecord r .write s.tenths v n (judgedPieces .write (refusedJudgement vs) 0 l)) []
        (stagingDiscard s.chan.staging (r.tag.val * 64)
          (if n < r.count.toNat then 64 else n)))) ∧
    ∀ taken, vs = taken.map (fun e => (e.1, Verdict.pass e.2)) →
      (∀ e ∈ taken, s.NotIdleOn e.1 ∨ ∃ d m, s.IdleOn e.1 d m) →
      ∃ (u : State) (met : List (Side × Meeting)) (after : List (Side × SideRecord)),
        s.WritePassed u r key v n l taken met after ∧
        out = .next ((if met.any s.calls then u.choose else u).rearmFrom s)) ∧
  (∀ (r : ChannelRequest) (key : Bool) (s : State) (x : Side) (sector n p c : Nat) (d : DriveNo)
    (m : Mount), s.TakesRun r .write x sector n → s.IdleOn x d m → s.Canonical →
    s.side x = .index (some p) c → sector + n ≤ 258048 → c ≤ sector →
    let out := exec (.acceptance r key) s
    let data := (r.data[0]?).getD fillBlock
    let q := writeRecord r s.tenths x sector n
    ∃ v : State, s.WriteQueued v r key x sector n (.index (some p) c) ∧
      (s.spareOf x sector = none →
        out = .next (v.startedBy d m r.tag q (.writeHome 0 sector data))) ∧
      (s.spareOf x sector ≠ none → p < 4096 → ∃ u : State, out = .next u ∧
        u = { v.startedBy d m r.tag q
            (.writeSpare 0 (258048 + p) (x.val * 262144 + sector) true data) with
          lib := { s.lib with sides := s.lib.sides.put x (.index (some (p + 1)) c) }
          attention := u.attention } ∧
        v.attention.Grows u.attention) ∧
      (s.spareOf x sector ≠ none → 4096 ≤ p → out = .next
        ((v.endedBy d m r.tag (writeFailed r s.tenths x sector n .spareExhausted)).choose.rearmFrom
          s))) ∧
  ∀ (r : ChannelRequest) (key : Bool) (s : State) (x : Side) (sector n : Nat),
    s.TakesRun r .write x sector n → s.NotIdleOn x → s.Canonical →
    let out := exec (.acceptance r key) s
    let refused (st : Status) : Prop := ∃ u, out = .next u ∧ s.WriteRefused u r key n st
    (s.side x = .unused → refused .notWritableSide) ∧
    ∀ p c, s.side x = .index p c →
      (p = none → refused .sideUnresolved) ∧
      (p ≠ none → 258048 < sector + n → refused .spareArea) ∧
      (p ≠ none → sector + n ≤ 258048 → sector < c → refused .closed) ∧
      (p ≠ none → sector + n ≤ 258048 → c ≤ sector → ∃ v : State,
        out = .next ((if s.isMounted x then v else v.choose).rearmFrom s) ∧
        s.WriteQueued v r key x sector n (.index p c))

/-! ### Delivery and the fee pass -/

/-- DELIVERY of an ASSEMBLED request: with no fee pass called for, its status and (a READ) its
blocks, fill where not GOOD, are sent and its record, tag and region freed; with one called for that
cannot start, it is held, behind the held requests that were assembled before it and ahead of those
assembled after it; with one that can, it is delivered in the same event (R49 to R51, R128, R129).
DEDUCED: the decision falls when the DELIVERY is taken, and held requests stand in order of assembly
whatever order the sender puts them in (log entry 25). The pass walks the positions in offset order:
one under suppression, not GOOD on a DEED side, or with no valid header is passed over; a refused
header suppresses its image's positions and raises the status to DEPOSIT_SHORT (R130, R137).
DELIVERY of a tag not bound, or of a request not ASSEMBLED, does not occur (the model's choice, log
entry 6). -/
def Obligations.DeliveryReturnsOrHolds : Prop :=
  (∀ (t : Tag) (s : State) (r : Request) (next o : Nat), s.request t = some r →
    let walk := State.walkPosition t (s, next) o
    let examined := next ≤ o ∧ ∃ x, r.position o = some (x, .good) ∧ (s.side x).isDeed = true
    let header := validHeader (stagingRead s.chan.staging (t.val * 64 + o))
    (¬ examined ∨ header = none → walk = (s, next)) ∧
    ∀ h, examined → header = some h →
      let charged := s.chargeHeader r.station h r.copies
      let past := min (o + h.length) r.count
      (charged.2 = false → walk = (charged.1, next)) ∧
      (charged.2 = true → ∃ q : Request, walk.2 = past ∧
        walk.1 = { charged.1 with chan := { s.chan with
          requests := s.chan.requests.put t (some q) } } ∧
        q = { r with pieces := q.pieces, status := q.status } ∧
        q.status = r.status.map (fun st => if st.rank < 12 then .depositShort else st) ∧
        q.pieces.map (fun p => { p with conds := [] }) =
          r.pieces.map (fun p => { p with conds := [] }) ∧
        ∀ i, q.condAt i = if o ≤ i ∧ i < past then .fill else r.condAt i)) ∧
  ∀ (t : Tag) (s : State),
    let out := exec (.delivery t) s
    (s.request t = none → out = .next s) ∧
    ∀ r, s.request t = some r →
      let block (o : Nat) : Block :=
        if r.condAt o = .good then stagingRead s.chan.staging (t.val * 64 + o) else fillBlock
      let blocks := if r.kind = .read then (List.range r.count).map block else []
      let startable := s.ledger.journal.length < 128 ∧ (s.ticket r.station).isDue = false
      (r.state ≠ .assembled → out = .next s) ∧
      (r.state = .assembled →
        (¬ s.IsCharged r → out = .next { s with chan := { s.chan with
          requests := s.chan.requests.put t none
          assemblyOrder := s.chan.assemblyOrder.filter fun u => u ≠ t
          regions := s.chan.regions.put t .free
          staging := stagingDiscard s.chan.staging (t.val * 64) 64
          sent := s.chan.sent ++ [.delivery t (r.status.getD .done) blocks] } }) ∧
        (s.IsCharged r → ¬ startable →
          (∃ u : State, out = .next u ∧
            u = { s with chan := { s.chan with
              requests := s.chan.requests.put t (some { r with state := .heldForJournal })
              heldList := u.chan.heldList } } ∧
            (s.AssemblyLawful → u.chan.heldList.Sublist s.chan.assemblyOrder ∧
              ∀ i, i ∈ u.chan.heldList ↔ i = t ∨ i ∈ s.chan.heldList)) ∧
          ∀ before after, s.chan.assemblyOrder = before ++ t :: after → t ∉ before →
            ∀ l m, s.chan.heldList = l ++ m → (∀ i ∈ l, i ∈ before) → (∀ i ∈ m, i ∈ after) →
              (∀ i ∈ l, i ∉ after) →
              out = .next { s with chan := { s.chan with
                requests := s.chan.requests.put t (some { r with state := .heldForJournal })
                heldList := l ++ t :: m } }) ∧
        (s.IsCharged r → startable → ∃ q : Request,
          let w := ((List.range r.count).foldl (State.walkPosition t) (s, 0)).1
          w.request t = some q ∧ q.count = r.count ∧ q.kind = r.kind ∧
          out = .next { w with chan := { s.chan with
            requests := s.chan.requests.put t none
            assemblyOrder := s.chan.assemblyOrder.filter fun u => u ≠ t
            regions := s.chan.regions.put t .free
            staging := stagingDiscard s.chan.staging (t.val * 64) 64
            sent := s.chan.sent ++ [.delivery t (q.status.getD .done)
              ((List.range r.count).map fun o =>
                if q.condAt o = .good then stagingRead s.chan.staging (t.val * 64 + o)
                else fillBlock)] } }) ∧
        (s.IsCharged r → startable → ∃ (u : State) (st : Status) (bs : List Block),
          out = .next u ∧
          u = { s with chan := u.chan, ledger := u.ledger, attention := u.attention } ∧
          u.chan = { s.chan with
            requests := s.chan.requests.put t none
            assemblyOrder := s.chan.assemblyOrder.filter fun u => u ≠ t
            regions := s.chan.regions.put t .free
            staging := stagingDiscard s.chan.staging (t.val * 64) 64
            sent := s.chan.sent ++ [.delivery t st bs] } ∧
          bs.length = r.count ∧ (∀ o, o < r.count → bs[o]? = some (block o) ∨
            bs[o]? = some fillBlock) ∧
          (st = r.status.getD .done ∨ st = .depositShort) ∧
          u.attention.masked = s.attention.masked))

/-- The charge of one header: the price by tariff, copies already charged and cap; COUNTER charges the
ticket, DEPOSIT also commits the projection, or where the balance does not allow it the charge is refused
and no record changes (R134 to R138).  A page with no new copies moves to the newest place of the page list
alone; a charged page and its instrument take the newest places of their lists, the oldest of 24 pages or 8
instruments leaving for a new one (R134, R139, R140).  Where the charge would take the gross past its limit
the ticket settles first with cause TOTAL_LIMIT and the page is charged afresh, or on a full journal the
charge is refused (R135).  The same is shown on the DELIVERY of one GOOD deed block that is a valid header:
a refused charge delivers fill with DEPOSIT_SHORT (R137).  DEDUCED: a settlement stands though the deposit
check then refuses (log entry 18). -/
def Obligations.HeaderChargedOrDepositShort : Prop :=
  (∀ (s : State) (t : Station) (h : PageHeader) (copies : Nat), 1 ≤ copies →
    let e := s.station t
    let k := s.ticket t
    let d := copies - k.copiesOf h.instrument h.page
    let unit := (s.tariff.rate.at h.book * s.tariff.factor.at h.sheet + 2) / 4
    let capped (copies room : Nat) : Nat :=
      if s.tariff.cap.at h.book = 0 then copies * unit else min (copies * unit) room
    let charge := capped d (s.tariff.cap.at h.book - k.totalOf h.instrument)
    let again := capped copies (s.tariff.cap.at h.book)
    let out := s.chargeHeader t h copies
    let chargedTo (o : Option Account) (accounts : Table DepositAccount 16) : Prop :=
      ∃ (b : TicketBody) (c : Option Nat) (u : State), out = (u, false) ∧
        s.ChargedTo t h copies charge o b c ∧
        u = { s with
          ledger := { s.ledger with
            tickets := s.ledger.tickets.put t (.opened b c), accounts := accounts }
          attention := u.attention } ∧
        u.attention.masked = s.attention.masked ∧
        ∀ a, a ≠ .depositLow → u.attention.isPending a = s.attention.isPending a
    (d = 0 → ∀ b c, k = .opened b c → ∃ l,
      TakesPage h (k.copiesOf h.instrument h.page) b.pageList l ∧
      out = ({ s with ledger := { s.ledger with
        tickets := s.ledger.tickets.put t (.opened { b with pageList := l } c) } }, false)) ∧
    (0 < d → k.isDue = false → k.gross + charge ≤ 99999999 →
      (e.fee = .counter → (∀ b, k.body? = some b → b.account = none) →
        chargedTo none s.ledger.accounts) ∧
      ∀ a, e.fee = .deposit a → (∀ b, k.body? = some b → b.account = some a) →
        let proj := (s.account a).committed + s.tariff.settle (k.gross + charge) -
          s.tariff.settle k.gross
        (proj ≤ (s.account a).balance → chargedTo (some a)
          (s.ledger.accounts.put a { s.account a with committed := proj })) ∧
        ((s.account a).balance < proj → out = (s, true))) ∧
    (0 < d → 99999999 < k.gross + charge →
      (128 ≤ s.ledger.journal.length → out = (s, true)) ∧
      ∀ b c, k = .opened b c → s.ledger.journal.length < 128 → again ≤ 99999999 →
        out = (s.settleEvent t .totalLimit).chargeHeader t h copies)) ∧
  ∀ (t : Tag) (s : State) (r : Request) (p : Piece) (x : Side) (sector : Nat) (h : PageHeader)
    (st : Status),
    s.request t = some r → r.state = .assembled → r.kind = .read → r.count = 1 → 1 ≤ r.copies →
    r.status = some st → r.pieces = [p] → p.place = .side x sector → p.count = 1 → p.offset = 0 →
    p.conds = [.good] → (s.side x).isDeed = true →
    validHeader (stagingRead s.chan.staging (t.val * 64)) = some h →
    (s.station r.station).cls ≠ .vacant → s.ledger.journal.length < 128 →
    (s.ticket r.station).isDue = false →
    let e := s.station r.station
    let k := s.ticket r.station
    let d := r.copies - k.copiesOf h.instrument h.page
    let unit := (s.tariff.rate.at h.book * s.tariff.factor.at h.sheet + 2) / 4
    let charge := if s.tariff.cap.at h.book = 0 then d * unit
      else min (d * unit) (s.tariff.cap.at h.book - k.totalOf h.instrument)
    let out := exec (.delivery t) s
    let sends (u : State) (st : Status) (b : Block) : Prop :=
      u.chan.sent = s.chan.sent ++ [.delivery t st [b]]
    let good := stagingRead s.chan.staging (t.val * 64)
    let chargedTo (u : State) (o : Option Account) : Prop :=
      sends u st good ∧ u.ledger.journal = s.ledger.journal ∧
      (∀ i, i ≠ r.station → u.ticket i = s.ticket i) ∧
      (u.ticket r.station).totalOf h.instrument = k.totalOf h.instrument + charge ∧
      (u.ticket r.station).copiesOf h.instrument h.page = r.copies ∧
      ∃ b, u.ticket r.station = .opened b
          (if e.idleLimit = 0 then none else some (e.idleLimit * 10)) ∧
        b.gross = k.gross + charge ∧
        b.account = o ∧
        b.pages = min ((k.body?.map (·.pages)).getD 0 + 1) 65535 ∧
        b.openStamp = (k.body?.map (·.openStamp)).getD s.clockStamp ∧
        b.pageList.getLast? = some ⟨h.instrument, h.page, r.copies⟩ ∧
        b.instruments.getLast? = some ⟨h.instrument, k.totalOf h.instrument + charge⟩
    (d = 0 → e.fee ≠ .exempt → ∃ u, out = .next u ∧ sends u st good ∧
      u.ledger.accounts = s.ledger.accounts ∧ u.ledger.journal = s.ledger.journal ∧
      (u.ticket r.station).gross = k.gross ∧ ∀ i, i ≠ r.station → u.ticket i = s.ticket i) ∧
    (0 < d → k.gross + charge ≤ 99999999 →
      (e.fee = .counter → (∀ b, k.body? = some b → b.account = none) → ∃ u,
        out = .next u ∧ chargedTo u none ∧ u.ledger.accounts = s.ledger.accounts) ∧
      ∀ a, e.fee = .deposit a → (∀ b, k.body? = some b → b.account = some a) →
        let proj := (s.account a).committed + s.tariff.settle (k.gross + charge) -
          s.tariff.settle k.gross
        (proj ≤ (s.account a).balance → ∃ u, out = .next u ∧ chargedTo u (some a) ∧
          u.ledger.accounts = s.ledger.accounts.put a { s.account a with committed := proj }) ∧
        ((s.account a).balance < proj → ∃ u, out = .next u ∧ u.ledger = s.ledger ∧
          u.attention = s.attention ∧
          sends u (if st.rank < 12 then .depositShort else st) fillBlock)) ∧
    ∀ b c, k = .opened b c → 0 < d → 99999999 < k.gross + charge →
      let L := s.settledLedger r.station .totalLimit
      let again := if s.tariff.cap.at h.book = 0 then r.copies * unit
        else min (r.copies * unit) (s.tariff.cap.at h.book)
      let fresh (o : Option Account) : Ticket := .opened
        { account := o, openStamp := s.clockStamp, pages := 1, gross := again
          pageList := [⟨h.instrument, h.page, r.copies⟩]
          instruments := [⟨h.instrument, again⟩] }
        (if e.idleLimit = 0 then none else some (e.idleLimit * 10))
      (e.fee = .counter → ∃ u, out = .next u ∧ sends u st good ∧
        u.ledger = { L with tickets := L.tickets.put r.station (fresh none) }) ∧
      ∀ a, e.fee = .deposit a →
        let proj := (L.accounts.at a).committed + s.tariff.settle again
        (proj ≤ (L.accounts.at a).balance → ∃ u, out = .next u ∧ sends u st good ∧
          u.ledger = { L with
            tickets := L.tickets.put r.station (fresh (some a))
            accounts := L.accounts.put a { L.accounts.at a with committed := proj } }) ∧
        ((L.accounts.at a).balance < proj → ∃ u, out = .next u ∧ u.ledger = L ∧
          sends u (if st.rank < 12 then .depositShort else st) fillBlock)

/-! ### Channel reset -/

/-- CHANNEL_RESET: every request is discarded and its region freed, held and withheld ones too; queued
pieces leave, running ones become orphans, label pieces and orphans stay, each queue keeping its order;
one settling event reaches each station's ticket, in ascending order; then the choice runs and the alarm
is re-armed (R53, R54, R99, R153). -/
def Obligations.ChannelResetDiscardsRequests : Prop :=
  ∀ s : State, ∃ v : State,
    exec .channelReset s = .next (v.choose.rearm) ∧
    v = { s with
      chan := { Channel.empty with sent := s.chan.sent }
      queues := v.queues
      ledger := v.ledger
      attention := v.attention } ∧
    s.SettledAll v .channelReset s.clockStamp ∧ s.attention.Grows v.attention ∧
    ∀ x,
      v.queue x = (s.queue x).filterMap (s.resetEntry x) ∧
      (∀ e ∈ v.queue x, (e ∈ s.queue x ∧ ∀ t, e.owner ≠ .request t) ∨
        ∃ o ∈ s.queue x, ∃ t r p, o.owner = .request t ∧ o.running = true ∧
          s.request t = some r ∧ r.pieceOn x = some p ∧ e = { o with owner := .orphan r.kind p }) ∧
      (∀ e ∈ v.queue x, ∀ t, e.owner ≠ .request t) ∧
      (∀ e, (∀ t, e.owner ≠ .request t) → e ∈ s.queue x → e ∈ v.queue x) ∧
      (∀ e ∈ s.queue x, ∀ t r p, e.owner = .request t → e.running = true →
        s.request t = some r → r.pieceOn x = some p →
        { e with owner := .orphan r.kind p } ∈ v.queue x) ∧
      (v.queue x).length ≤ (s.queue x).length ∧
      ((v.queue x).filter fun e => e.owner.isLabel) =
        (s.queue x).filter fun e => e.owner.isLabel

/-! ### Answers of a drive -/

/-- READ_SECTORS_ANSWER enters a condition for each sector the command covered and stages the data of
GOOD ones, touching no other block; the last block's answer ends the piece with the status its
conditions rank, an earlier one issues the next command, around entries on an INDEX side (R67,
R123).  The answer to an orphan's command is discarded and the orphan leaves (R54).  That an answer of
another length stops the run is the model's choice (log entry 8). -/
def Obligations.ReadAnswerEntersConditions : Prop :=
  (∀ (d : DriveNo) (m : Mount) (i first run : Nat) (rest : List QEntry) (l : List SectorAnswer)
    (s : State), s.ServesOrphan d m (.readSectors i first run) rest → l.length = run →
    exec (.readSectorsAnswer d (.sectors l)) s =
      .next ((s.orphanGone d m rest).afterDriveEvent d s)) ∧
  ∀ (d : DriveNo) (m : Mount) (i first run : Nat) (t : Tag) (r : Request) (p : Piece)
    (sector : Nat) (l : List SectorAnswer) (s : State),
    s.Serves d m (.readSectors i first run) t r p sector →
    let out := exec (.readSectorsAnswer d (.sectors l)) s
    let base := t.val * 64 + p.offset + i
    (l.length ≠ run → out = .fault .answerOutsideProtocol) ∧
    (l.length = run → r.kind = .read → p.conds.length = p.count → i + run ≤ p.count →
      s.Canonical → ∃ (v : State) (r' : Request) (p' : Piece),
      out = .next (v.afterDriveEvent d s) ∧ s.MechanismMoves v ∧
      v.request t = some r' ∧ r'.pieceOn m.side = some p' ∧ p'.conds.length = p.count ∧
      (∀ j, j < p.count → p'.conds[j]? =
        if i ≤ j ∧ j < i + run then (l[j - i]?).map sectorCond else p.conds[j]?) ∧
      (∀ j b, l[j]? = some (.good b) → stagingRead v.chan.staging (base + j) = b) ∧
      (∀ a, a < base ∨ base + run ≤ a →
        stagingRead v.chan.staging a = stagingRead s.chan.staging a) ∧
      (i + run = p.count →
        p'.status = some (Status.highest (p'.conds.map Cond.contributes))) ∧
      (i + run < p.count → p'.status = none ∧ ∃ f n,
        (∀ c, s.drive d = .busy m c → v.drive d = .busy m ⟨.readSectors (i + run) f n, 250⟩) ∧
        (∀ c, s.drive d = .yielding m (some c) →
          v.drive d = .yielding m (some ⟨.readSectors (i + run) f n, 250⟩)) ∧
        ((∀ q c, s.side m.side ≠ .index q c) →
          f = sector + (i + run) ∧ n = p.count - (i + run)) ∧
        ((∃ q c, s.side m.side = .index q c) →
          (∀ spare, s.spareOf m.side (sector + (i + run)) = some spare → f = spare ∧ n = 1) ∧
          (s.spareOf m.side (sector + (i + run)) = none →
            f = sector + (i + run) ∧ 1 ≤ n ∧ n ≤ p.count - (i + run) ∧
            (∀ j, j < n → s.spareOf m.side (f + j) = none) ∧
            (n < p.count - (i + run) → s.spareOf m.side (f + n) ≠ none)))))

/-- DEED_WRITE_ANSWER ends the piece, whatever the answer: DONE, or WRITTEN or MEDIA_ERROR at a sector
of the run; no side record changes, so the reservation stands (R111).  A BUSY drive then starts the next
piece of its side's queue, by the command of its kind, and one with an orphan likewise lets it go (R54,
R64 to R66, R110).  That an answer with a sector outside the run stops the run is the model's choice (log
entry 8). -/
def Obligations.DeedWriteAnswerEndsPiece : Prop :=
  (∀ (d : DriveNo) (m : Mount) (first : Nat) (data : List Block) (rest : List QEntry) (s : State),
    s.ServesOrphan d m (.writeDeed first data) rest →
    let gone : Out := .next ((s.orphanGone d m rest).afterDriveEvent d s)
    exec (.deedWriteAnswer d .done) s = gone ∧
    ∀ j, first ≤ j → j < first + data.length →
      exec (.deedWriteAnswer d (.written j)) s = gone ∧
      exec (.deedWriteAnswer d (.mediaError j)) s = gone) ∧
  (∀ (d : DriveNo) (m : Mount) (first left : Nat) (data : List Block) (t t' : Tag)
    (r r' : Request) (p p' : Piece) (stamp stamp' : BitVec 32) (rest : List QEntry)
    (sector sector' : Nat) (s : State),
    s.Serves d m (.writeDeed first data) t r p sector →
    s.drive d = .busy m ⟨.writeDeed first data, left⟩ → (s.side m.side).isDeed = true →
    s.queue m.side = ⟨.request t, stamp, true⟩ :: ⟨.request t', stamp', false⟩ :: rest → t' ≠ t →
    s.request t' = some r' → r'.pieceOn m.side = some p' → p'.place = .side m.side sector' →
    let starts (c : DriveCommand) : Prop := ∃ v : State,
      exec (.deedWriteAnswer d .done) s = .next (v.afterDriveEvent d s) ∧
      s.NextPieceStarted v d m t' r' stamp' rest c
    (r'.kind = .read → starts (.readSectors 0 sector' p'.count)) ∧
    (r'.kind = .write → starts (.writeDeed sector' ((List.range p'.count).map fun i =>
      stagingRead s.chan.staging (t'.val * 64 + (p'.offset + i)))))) ∧
  ∀ (d : DriveNo) (m : Mount) (first : Nat) (data : List Block) (t : Tag) (r : Request) (p : Piece)
    (sector : Nat) (s : State), s.Serves d m (.writeDeed first data) t r p sector →
    (s.side m.side).isDeed = true →
    let ends (a : RunWriteAnswer) (st : Status) : Prop := ∃ v,
      exec (.deedWriteAnswer d a) s = .next (v.afterDriveEvent d s) ∧
      s.PieceEnded v t m.side st ∧ v.lib.sides = s.lib.sides ∧ v.remap = s.remap ∧
      (∀ c, s.drive d = .yielding m (some c) → v.drive d = .yielding m none) ∧
      ∀ c e, s.drive d = .busy m c → s.queue m.side = [e] →
        v.drive d = .idle m s.tenths
          (if s.sched.linger = 0 then .expired else .running (s.sched.linger * 10))
    ends .done .done ∧
    ∀ j,
      (first ≤ j → j < first + data.length →
        ends (.written j) .written ∧ ends (.mediaError j) .mediaError) ∧
      (j < first ∨ first + data.length ≤ j →
        exec (.deedWriteAnswer d (.written j)) s = .fault .answerOutsideProtocol ∧
        exec (.deedWriteAnswer d (.mediaError j)) s = .fault .answerOutsideProtocol)

/-- HOME_WRITE_ANSWER: DONE goes on to the next block, at home or, where it has an entry, to the next
spare; WRITTEN redirects to the next spare under a held place, or fails REMAP_FULL or SPARE_EXHAUSTED;
MEDIA_ERROR ends the piece (R117 to R119, R121).  An orphan issues nothing more and is not redirected:
whatever the answer, it leaves (R54, R122). -/
def Obligations.HomeWriteAnswerRedirects : Prop :=
  (∀ (d : DriveNo) (m : Mount) (i h : Nat) (data : Block) (rest : List QEntry) (a : WriteAnswer)
    (s : State), s.ServesOrphan d m (.writeHome i h data) rest → a ≠ .notReady →
    exec (.homeWriteAnswer d a) s = .next ((s.orphanGone d m rest).afterDriveEvent d s)) ∧
  ∀ (d : DriveNo) (m : Mount) (i h : Nat) (data : Block) (t : Tag) (r : Request) (p : Piece)
    (sector ptr c : Nat) (s : State), s.Serves d m (.writeHome i h data) t r p sector →
    s.side m.side = .index (some ptr) c →
    let answered (a : WriteAnswer) (v : State) : Prop :=
      exec (.homeWriteAnswer d a) s = .next (v.afterDriveEvent d s)
    let advanced (v : State) : Prop :=
      v.side m.side = .index (some (ptr + 1)) c ∧ ∀ y, y ≠ m.side → v.side y = s.side y
    let next := sector + (i + 1)
    let nextData := stagingRead s.chan.staging (t.val * 64 + (p.offset + (i + 1)))
    (∃ v, answered .mediaError v ∧ s.PieceEnded v t m.side .mediaError ∧ v.remap = s.remap) ∧
    (p.count ≤ i + 1 → ∃ v, answered .done v ∧ s.PieceEnded v t m.side .done ∧
      v.remap = s.remap) ∧
    (i + 1 < p.count →
      (s.spareOf m.side next = none → ∃ v, answered .done v ∧
        s.NextIssued v d m (.writeHome (i + 1) next nextData) ∧ v.lib = s.lib ∧
        v.remap = s.remap ∧ v.attention = s.attention) ∧
      (s.spareOf m.side next ≠ none → ptr < 4096 → ∃ v, answered .done v ∧
        s.NextIssued v d m
          (.writeSpare (i + 1) (258048 + ptr) (m.side.val * 262144 + next) true nextData) ∧
        advanced v ∧ v.remap = s.remap) ∧
      (s.spareOf m.side next ≠ none → 4096 ≤ ptr → ∃ v, answered .done v ∧
        s.PieceEnded v t m.side .spareExhausted ∧ v.remap = s.remap)) ∧
    (4096 ≤ s.remap.entries.length + s.remap.held → ∃ v, answered .written v ∧
      s.PieceEnded v t m.side .remapFull ∧ v.remap = s.remap) ∧
    (s.remap.entries.length + s.remap.held < 4096 →
      (4096 ≤ ptr → ∃ v, answered .written v ∧
        s.PieceEnded v t m.side .spareExhausted ∧ v.remap = s.remap) ∧
      (ptr < 4096 → ∃ v, answered .written v ∧
        s.NextIssued v d m
          (.writeSpare i (258048 + ptr) (m.side.val * 262144 + h) false data) ∧
        advanced v ∧ v.remap = { s.remap with held := s.remap.held + 1 }))

/-- SPARE_WRITE_ANSWER: DONE makes or moves the block's entry, the held place of a new one becoming it,
and the drive goes on with the next block, at home or, where it has an entry, to the next spare, or the
piece ends; WRITTEN and MEDIA_ERROR release the held place, change no entry, and end the piece (R117,
R120, R121, R125).  An orphan's write makes its entry or releases its place alike, and then leaves (R54,
R122). -/
def Obligations.SpareWriteAnswerMakesEntry : Prop :=
  (∀ (d : DriveNo) (m : Mount) (i spare home : Nat) (had : Bool) (data : Block)
    (rest : List QEntry) (s : State), s.ServesOrphan d m (.writeSpare i spare home had data) rest →
    let held := if had then s.remap.held else s.remap.held - 1
    let released : State := { s with remap := { s.remap with held := held } }
    let gone (a : WriteAnswer) (k : State) : Prop :=
      exec (.spareWriteAnswer d a) s = .next ((k.orphanGone d m rest).afterDriveEvent d s)
    gone .written released ∧ gone .mediaError released ∧
    ∃ k, gone .done k ∧
      k = { s with remap := k.remap, attention := k.attention } ∧ s.attention.Grows k.attention ∧
      k.remap.held = held ∧ k.remap.lookup home = some spare ∧
      (∀ other, other ≠ home → k.remap.lookup other = s.remap.lookup other) ∧
      (3840 ≤ k.remap.entries.length → k.attention.isPending .remapLow = true)) ∧
  ∀ (d : DriveNo) (m : Mount) (i spare home : Nat) (had : Bool) (data : Block) (t : Tag)
    (r : Request) (p : Piece) (sector : Nat) (s : State),
    s.Serves d m (.writeSpare i spare home had data) t r p sector →
    let held := if had then s.remap.held else s.remap.held - 1
    let answered (a : WriteAnswer) (v : State) : Prop :=
      exec (.spareWriteAnswer d a) s = .next (v.afterDriveEvent d s)
    (∃ v, answered .written v ∧ s.PieceEnded v t m.side .written ∧
      v.remap = { s.remap with held := held }) ∧
    (∃ v, answered .mediaError v ∧ s.PieceEnded v t m.side .mediaError ∧
      v.remap = { s.remap with held := held }) ∧
    ∃ v, answered .done v ∧ s.MechanismMoves v ∧ v.remap.held = held ∧
      v.remap.lookup home = some spare ∧
      (∀ other, other ≠ home → v.remap.lookup other = s.remap.lookup other) ∧
      (3840 ≤ v.remap.entries.length → v.attention.isPending .remapLow = true) ∧
      (p.count ≤ i + 1 → s.PieceEnded v t m.side .done) ∧
      (i + 1 < p.count → s.PieceEnded v t m.side .spareExhausted ∨ ∃ c, s.NextIssued v d m c) ∧
      ∀ ptr c, i + 1 < p.count → s.side m.side = .index (some ptr) c →
        let next := sector + (i + 1)
        let nextData := stagingRead s.chan.staging (t.val * 64 + (p.offset + (i + 1)))
        (v.spareOf m.side next = none →
          s.NextIssued v d m (.writeHome (i + 1) next nextData) ∧ v.lib = s.lib) ∧
        (v.spareOf m.side next ≠ none → ptr < 4096 →
          s.NextIssued v d m
            (.writeSpare (i + 1) (258048 + ptr) (m.side.val * 262144 + next) true nextData) ∧
          v.side m.side = .index (some (ptr + 1)) c ∧ ∀ y, y ≠ m.side → v.side y = s.side y) ∧
        (v.spareOf m.side next ≠ none → 4096 ≤ ptr → s.PieceEnded v t m.side .spareExhausted)

/-- READ_LABEL_ANSWER proves the cartridge: VERIFIED for its own label, FOREIGN_BLANK for a blank one,
FOREIGN_WRONG otherwise; a FOREIGN result raises cause 7 and completes every queued request piece of
both faces FOREIGN_MEDIA, or SHELF_OUT where its export is pending (R14); a blank search follows where R62
asks for one, and none while a labelling is pending (R61, R62).  With none the drive leaves VERIFYING: BUSY
with the front piece of its queue started, IDLE on an empty one, as a FOREIGN result leaves it but for the
label pieces of a labelling that goes on (R63 to R66).  A label piece that the standing test then
refuses fails its labelling (R16, R76).  The label fields lie where R178 puts them, and the label sector that
WRITE LABEL writes holds them and 00h after them (R5, R178). -/
def Obligations.ReadLabelAnswerProvesCartridge : Prop :=
  (∀ (id : BitVec 32) (n : Cart) (f : Face), EntryShows (labelSector id n f) 0 1024
    [(0, 1, 0x4C), (1, 1, 0x42), (2, 1, 0x4C), (3, 1, 0x01), (4, 4, id.toNat), (8, 2, n.val),
     (10, 1, f.val)]) ∧
  ∀ (d : DriveNo) (m : Mount) (left : Nat) (s : State), s.drive d = .verifying m ⟨.readLabel, left⟩ →
    (s.cart m.side.cart).location = .mounted d m.side.face →
    let n := m.side.cart
    let matching (b : Block) : Prop := blockField b 0 4 = 0x014C424C ∧
      blockField b 4 4 = s.lib.libraryId.toNat ∧ blockField b 8 2 = n.val ∧
      blockField b 10 1 = m.side.face.val
    let refusesLabel : Prop := (s.cart n).labellingPending = true ∧ ∃ x, Side.cart x = n ∧
      ∃ e ∈ s.queue x, e.running = false ∧ e.owner = .label ∧
        ((s.cart n).exportPending = true ∨ (s.mech.picker = .faulted ∧ s.isMounted x = false))
    let proves (a : LabelAnswer) (verdict : Verification) : Prop := ∃ v : State,
      exec (.readLabelAnswer d a) s = .next (v.afterDriveEvent d s) ∧ s.MechanismMoves v ∧
      (verdict = .verified ∨ ¬ refusesLabel →
        v.cart n = { s.cart n with verification := verdict }) ∧
      (verdict ≠ .verified → refusesLabel → v.cart n = { s.cart n with
        verification := .foreignWrong, labellingPending := false }) ∧
      (verdict = .verified → ∀ e, v.attention.isPending e = s.attention.isPending e ∨
        e = .remapLow) ∧
      (verdict ≠ .verified → v.attention.isPending .foreignMedia = true ∧
        ∀ x, Side.cart x = n → ∀ e ∈ s.queue x, e.running = false → ∀ t r p,
          e.owner = .request t → s.request t = some r → r.pieceOn x = some p → p.status = none →
          ∃ r' p', v.request t = some r' ∧ r'.pieceOn x = some p' ∧
            p'.status = some (if (s.cart n).exportPending then .shelfOut else .foreignMedia)) ∧
      let searches : Prop := verdict = .verified ∧ (s.cart n).labellingPending = false ∧
        (s.side m.side).isUnresolved = true ∧ m.zoned = false
      (searches → v.drive d = .verifying m ⟨.searchBlank (match s.side m.side with
          | .index _ _ => 258048
          | _ => 0), 250⟩) ∧
      (¬ searches → ∀ m' c, v.drive d ≠ .verifying m' c) ∧
      (verdict = .verified → ¬ searches → s.LeavesVerifying v d m ∧ s.FrontServed v m) ∧
      (verdict ≠ .verified → (∀ e ∈ s.queue m.side, e.running = false) →
        let labels := (s.queue m.side).filter fun e => e.owner.isLabel
        let goesOn : Prop := (s.cart n).labellingPending = true ∧ ¬ refusesLabel
        (labels = [] ∨ ¬ goesOn → v.queue m.side = [] ∧ v.drive d = .idle m s.tenths
          (if s.sched.linger = 0 then .expired else .running (s.sched.linger * 10))) ∧
        ∀ e rest, labels = e :: rest → goesOn →
          v.queue m.side = { e with running := true } :: rest ∧
          v.drive d = .busy m ⟨.writeLabel s.lib.libraryId n m.side.face, 250⟩)
    (∀ b, matching b → proves (.good b) .verified) ∧
    proves (.good (labelSector s.lib.libraryId n m.side.face)) .verified ∧
    (∀ b, ¬ matching b → proves (.good b) .foreignWrong) ∧
    proves .blank .foreignBlank ∧ proves .unreadable .foreignWrong

/-- SEARCH_BLANK_ANSWER resolves an UNKNOWN frontier or spare pointer from the first blank sector, or to the
side's end for NONE, where a DEED side raises cause 10; MEDIA_ERROR leaves it UNKNOWN; the drive leaves
VERIFYING for IDLE on an empty queue, or for BUSY with a read at the front of the queue started (R62 to R64,
R106, R123).  An INDEX side's queue holds no write meanwhile (R116).  That an answer with a sector below the
start or past the side stops the run is the model's choice (log entry 8). -/
def Obligations.SearchBlankAnswerResolvesSide : Prop :=
  ∀ (d : DriveNo) (m : Mount) (start left : Nat) (s : State),
    s.drive d = .verifying m ⟨.searchBlank start, left⟩ → (s.side m.side).isUnresolved = true →
    let out (a : SearchAnswer) := exec (.searchBlankAnswer d a) s
    let gives (a : SearchAnswer) (rec : SideRecord) (v : State) : Prop :=
      out a = .next (v.afterDriveEvent d s) ∧ s.MechanismMoves v ∧ v.side m.side = rec ∧
      (∀ y, y ≠ m.side → v.side y = s.side y) ∧ (∀ m' c, v.drive d ≠ .verifying m' c) ∧
      (s.queue m.side = [] → v.drive d = .idle m s.tenths
        (if s.sched.linger = 0 then .expired else .running (s.sched.linger * 10))) ∧
      ∀ t r p sector stamp rest, s.queue m.side = ⟨.request t, stamp, false⟩ :: rest →
        s.request t = some r → r.kind = .read → r.pieceOn m.side = some p →
        p.place = .side m.side sector → 1 ≤ p.count →
        ∃ c, s.FirstRead m.side sector p.count c ∧ s.NextPieceStarted v d m t r stamp rest c
    (∃ v, gives .mediaError (s.side m.side) v) ∧
    (∀ x, x < start ∨ 262144 ≤ x → out (.sector x) = .fault .answerOutsideProtocol) ∧
    (∀ rem c, s.side m.side = .deed none rem c →
      (∀ x, start ≤ x → x < 262144 → ∃ v, gives (.sector x) (.deed (some x) 0 c) v) ∧
      ∃ v, gives .noneBlank (.deed (some 262144) 0 c) v ∧
        v.attention.isPending .sideFull = true) ∧
    (∀ c, s.side m.side = .index none c →
      (∀ e ∈ s.queue m.side, ∀ t r, e.owner = .request t → s.request t = some r → r.kind = .read) →
      (∀ x, start ≤ x → x < 262144 → ∃ v, gives (.sector x) (.index (some (x - 258048)) c) v) ∧
      ∃ v, gives .noneBlank (.index (some 4096) c) v ∧
        v.attention.isPending .remapLow = true)

/-- WRITE_LABEL_ANSWER, with an export pending or the picker FAULTED as without: DONE with the other face's
label still to come leaves the cartridge as it is, DONE of the second face verifies it; WRITTEN or
MEDIA_ERROR ends the labelling FOREIGN_WRONG with cause 7, and with it the other face's QUEUED label piece,
which raises nothing more (R76).  The model's choice: a labelling whose last piece is RUNNING outlives the
EXPORT of its cartridge (log entry 31), and the end of a label piece whose labelling has ended changes no
cartridge and raises nothing, whatever the answer (log entry 32). -/
def Obligations.WriteLabelAnswerEndsLabelling : Prop :=
  ∀ (d : DriveNo) (m : Mount) (id : BitVec 32) (n' : Cart) (f' : Face) (left : Nat)
    (e : QEntry) (rest : List QEntry) (s : State),
    (s.drive d = .busy m ⟨.writeLabel id n' f', left⟩ ∨
      s.drive d = .yielding m (some ⟨.writeLabel id n' f', left⟩)) →
    s.queue m.side = e :: rest → e.owner = .label → (∀ o ∈ rest, o.owner ≠ .label) →
    let n := m.side.cart
    let other := m.side.otherSide
    let otherWaits := ∃ o ∈ s.queue other, o.owner = .label
    let gives (a : WriteAnswer) (rec : CartridgeRecord) (v : State) : Prop :=
      exec (.writeLabelAnswer d a) s = .next (v.afterDriveEvent d s) ∧ s.MechanismMoves v ∧
      v.cart n = rec ∧ ∀ k, k ≠ n → v.cart k = s.cart k
    let raisesNothing (v : State) : Prop :=
      ∀ c, c ≠ .remapLow → v.attention.isPending c = s.attention.isPending c
    ((s.cart n).labellingPending = false → ∀ a, a ≠ .notReady →
      ∃ v, gives a (s.cart n) v ∧ raisesNothing v) ∧
    ((s.cart n).labellingPending = true →
      (otherWaits →
        (∀ o ∈ s.queue other, o.owner = .label → o.running = false → s.standing other true = none) →
        ∃ v, gives .done (s.cart n) v ∧ raisesNothing v) ∧
      (¬ otherWaits → ∃ v, gives .done
        { s.cart n with verification := .verified, labellingPending := false } v ∧ raisesNothing v) ∧
      ∀ a, a = .written ∨ a = .mediaError → ∃ v, gives a
        { s.cart n with verification := .foreignWrong, labellingPending := false } v ∧
        v.attention.isPending .foreignMedia = true ∧
        (∀ c, c ≠ .foreignMedia → c ≠ .remapLow →
          v.attention.isPending c = s.attention.isPending c) ∧
        v.queue other = (s.queue other).filter (fun o => o.running) ∧
        ((∀ o ∈ rest, o.running = false) → v.queue m.side = [] ∧
          (∀ c, s.drive d = .busy m c → v.drive d = .idle m s.tenths
            (if s.sched.linger = 0 then .expired else .running (s.sched.linger * 10))) ∧
          ∀ c, s.drive d = .yielding m c → v.drive d = .yielding m none))

/-- A drive fault: a NOT_READY answer to the outstanding command, or its countdown's expiry, makes the
drive FAULTED and its cartridge STUCK with its face, ends an export of it with the mail slot EMPTY, raises
cause 2, releases a place held for a spare write, and ends the current piece DRIVE_FAULT; with the piece of a
YIELDING drive so ended the choice runs (R72, R82, R95, R120).  Under the law of the mechanism every QUEUED
piece of both faces leaves its queue, a request's MEDIA_UNAVAILABLE, and a pending labelling fails with cause
7; with no drive left in service every other queue empties alike, NO_DRIVE, and else none changes (R14, R16,
R76).  An expiry that is not due does not occur (the model's choice, log entry 6). -/
def Obligations.NotReadyOrExpiryFaultsDrive : Prop :=
  ∀ (d : DriveNo) (m : Mount) (c : DriveCommand) (left : Nat) (s : State),
    (s.drive d = .verifying m ⟨c, left⟩ ∨ s.drive d = .busy m ⟨c, left⟩ ∨
      s.drive d = .yielding m (some ⟨c, left⟩)) →
    let n := m.side.cart
    ∃ u v : State, exec (notReadyAnswer d c) s = .next u ∧ s.DriveFaulted v d m ∧
      ((∀ c', s.drive d ≠ .yielding m c') → u = v.rearmFrom s) ∧
      (∀ c', s.drive d = .yielding m c' → u = v.choose.rearmFrom s) ∧
      (left = 0 → exec (.commandCountdownExpiry d) s = .next u) ∧
      (left ≠ 0 → exec (.commandCountdownExpiry d) s = .next s) ∧
      (∀ t r p sector, s.Serves d m c t r p sector →
        ∃ r' p', v.request t = some r' ∧ r'.pieceOn m.side = some p' ∧
          p'.status = some .driveFault ∧ p'.conds = p.conds) ∧
      ((s.cart n).exportPending = true → v.mech.mail = .empty ∧ v.mech.pendingExport = none) ∧
      ((s.cart n).exportPending = false →
        v.mech.mail = s.mech.mail ∧ v.mech.pendingExport = s.mech.pendingExport) ∧
      ((∀ c', s.drive d ≠ .verifying m c') → v.remap = { s.remap with
        held := if (s.drive d).holdsPlace then s.remap.held - 1 else s.remap.held }) ∧
      (s.MechanismLawful →
        let lost (x : Side) (st : Status) : Prop := v.queue x = [] ∧
          ∀ e ∈ s.queue x, e.running = false → ∀ t, e.owner = .request t →
            ∃ r p, v.request t = some r ∧ r.pieceOn x = some p ∧ p.status = some st
        let failed (r : CartridgeRecord) : CartridgeRecord :=
          if r.labellingPending then { r with verification := .foreignWrong, labellingPending := false }
          else r
        let last : Prop := ∀ e, e ≠ d → (s.drive e).inService = false
        v.cart n = { failed (s.cart n) with location := .stuck d m.side.face, exportPending := false } ∧
        ((s.cart n).labellingPending = true → v.attention.isPending .foreignMedia = true) ∧
        (∀ x, Side.cart x = n → lost x .mediaUnavailable) ∧
        (¬ last → (∀ x, Side.cart x ≠ n → v.queue x = s.queue x) ∧
          ∀ k, k ≠ n → v.cart k = s.cart k) ∧
        (last → (∀ x, Side.cart x ≠ n → lost x .noDrive) ∧
          ∀ k, k ≠ n → v.cart k = failed (s.cart k) ∧
            ((s.cart k).labellingPending = true → v.attention.isPending .foreignMedia = true)))

/-- STARTUP_LABEL_ANSWER: a label that names a cartridge and a face, in the fields of R178, identifies the
drive, whatever its library id, and its record becomes UNLOADING; any other answer, or the countdown's
expiry, leaves it FAULTED with cause 2.  Identification goes on in the same event with the next drive, from its
retained location or by its READ LABEL; with no drive left, the first UNLOAD or INVENTORY starts (R183, R184).
The model's choice: of several cartridges retained in one drive the lowest is taken (log entry 20). -/
def Obligations.StartupLabelIdentifiesDrive : Prop :=
  ∀ (d : DriveNo) (left : Nat) (rest : List DriveNo) (found : List Ident) (s : State),
    s.drive d = .empty (some left) → s.mech.startup = .identifying d rest found → d ∉ rest →
    let follows (u : State) (r : Drive) (all : List Ident) : Prop :=
      u.drive d = r ∧ s.MechanismMoves u ∧
      State.ChainGoesOn { s with mech := { s.mech with drives := s.mech.drives.put d r } } u all rest
    let unknown (u : State) : Prop :=
      u.attention.isPending .driveFault = true ∧ follows u .faulted found
    let named (b : Block) (n : Cart) (f : Face) : Prop := blockField b 0 4 = 0x014C424C ∧
      blockField b 8 2 = n.val ∧ blockField b 10 1 = f.val
    (∀ b n f, named b n f → ∃ u, exec (.startupLabelAnswer d (.good b)) s = .next u ∧
      follows u (.unloading (n.side f)) (found ++ [⟨d, n, f⟩])) ∧
    (∀ a, (∀ b n f, a = .good b → ¬ named b n f) →
      ∃ u, exec (.startupLabelAnswer d a) s = .next u ∧ unknown u) ∧
    (left = 0 → ∃ u, exec (.commandCountdownExpiry d) s = .next u ∧ unknown u)

/-! ### The scheduler, the picker and the mail slot -/

/-- DWELL_EXPIRY and LINGER_EXPIRY hold the countdown as expired and run the choice, where it has
reached 0 (R69, R70, R82); an expiry that is not due does not occur (the model's choice, log
entry 6). -/
def Obligations.DwellAndLingerExpire : Prop :=
  ∀ (d : DriveNo) (s : State),
    let becomes (c : Instr) (r : Drive) : Prop := exec c s = .next
      ({ s with mech := { s.mech with drives := s.mech.drives.put d r } }.choose.rearmFrom s)
    (∀ m : Mount, m.dwell = .running 0 →
      (∀ c, s.drive d = .verifying m c →
        becomes (.dwellExpiry d) (.verifying { m with dwell := .expired } c)) ∧
      (∀ c, s.drive d = .busy m c →
        becomes (.dwellExpiry d) (.busy { m with dwell := .expired } c)) ∧
      (∀ i l, s.drive d = .idle m i l →
        becomes (.dwellExpiry d) (.idle { m with dwell := .expired } i l)) ∧
      ∀ c, s.drive d = .yielding m c →
        becomes (.dwellExpiry d) (.yielding { m with dwell := .expired } c)) ∧
    ((s.drive d).dwell? ≠ some (.running 0) → exec (.dwellExpiry d) s = .next s) ∧
    (∀ m i, s.drive d = .idle m i (.running 0) →
      becomes (.lingerExpiry d) (.idle m i .expired)) ∧
    ((∀ m i, s.drive d ≠ .idle m i (.running 0)) → exec (.lingerExpiry d) s = .next s)

/-- AGEING_ALARM_EXPIRY runs the choice and re-arms the alarm.  A choice ranks the candidates, searches a
mount move for them, and starts the move that the arbiter puts first, if there is one; it makes drives
YIELDING only past dwell and BUSY, and with the picker not IDLE it does nothing (R79 to R85, R87, R89).
An expiry that is not due does not occur (the model's choice, log entry 6).  DEDUCED: a MAIL_IN starts for
a cartridge that is SHELF_OUT or MISSING (log entry 12). -/
def Obligations.ChoiceStartsAllowedOrder : Prop :=
  (∀ s : State,
    (∀ c, c ∈ s.ranked ↔ s.IsCandidate c) ∧ s.ranked.Pairwise Candidate.RanksBefore ∧
    s.SearchesMounts ∧ s.Arbitrates ∧
    (s.mech.picker ≠ .idle → s.choose = s) ∧
    (s.mech.picker = .idle → ∀ k mount, s.mountSearch s.ranked = (k, mount) →
      (k.arbiter mount = none → s.choose = k) ∧
      ∀ o, k.arbiter mount = some o → k.MayStart o ∧ s.choose = k.startOrder o ∧
        s.choose.mech.picker = .moving o 400)) ∧
  ∀ s : State,
    (s.mech.ageing ≠ some 0 → exec .ageingAlarmExpiry s = .next s) ∧
    (s.mech.ageing = some 0 → ∃ u : State, exec .ageingAlarmExpiry s = .next u ∧
      u.mech.ageing = u.nextAged ∧ s.MechanismMoves u ∧ u.lib.sides = s.lib.sides ∧
      u.remap = s.remap ∧
      (s.mech.picker ≠ .idle →
        u = { s with mech := { s.mech with ageing := u.nextAged } }) ∧
      (s.mech.picker = .idle →
        (u.mech.picker = .idle ∧ ∀ e, u.drive e = s.drive e ∨ ∃ m c, s.drive e = .busy m c ∧
          m.dwell = .expired ∧ u.drive e = .yielding m (some c)) ∨
        ∃ o : PickerOrder, u.mech.picker = .moving o 400 ∧ s.MayStart o ∧
          (∀ n, o.cart? = some n → (∀ d, o ≠ .unload d n .driveReturn) →
            (u.cart n).location = .inPicker) ∧
          (∀ n f d, o = .load n f d → u.drive d = .loading (n.side f) false) ∧
          (∀ d n, o = .exchange d n → ∃ x, (s.drive d).side? = some x ∧
            u.drive d = .loading x.otherSide false) ∧
          (∀ d n, o = .unload d n .release → ∃ x, (s.drive d).side? = some x ∧
            u.drive d = .unloading x) ∧
          (∀ n, o = .mailIn n → u.mech.mail = .empty ∧ u.mech.pendingImport = none) ∧
          ∀ e, o.drive? ≠ some e → u.drive e = s.drive e ∨ ∃ m c, s.drive e = .busy m c ∧
            m.dwell = .expired ∧ u.drive e = .yielding m (some c)))

/-- PICKER_ORDER_COMPLETION puts the order's completion into the records and makes the picker IDLE
before the choice runs: a LOAD or EXCHANGE mounts the cartridge and the drive begins its mount, an
UNLOAD brings it HOME and empties the drive, a MAIL_OUT makes it SHELF_OUT, a MAIL_IN HOME; at start-up
the next UNLOAD or INVENTORY starts (R58 to R61, R86, R87, R92, R95, R97, R183).  The mount of an UNVERIFIED
cartridge reads its label; that of another searches for a blank sector where R62 asks for it, else it turns to
the side's queue: BUSY with the front piece started, IDLE on an empty one (R61 to R66).  Under the law of the
mechanism an UNLOAD or MAIL_IN moves no queue, request or cause, and a mount no piece but those that it turns
to. -/
def Obligations.PickerOrderCompletes : Prop :=
  ∀ (o : PickerOrder) (w : Nat) (s : State),
    (s.mech.picker.order? = none → exec .pickerOrderCompletion s = .next s) ∧
    (s.mech.picker = .moving o w → s.mech.startup = .complete → o ≠ .home → o ≠ .inventory →
      ∃ v : State, exec .pickerOrderCompletion s = .next (v.choose.rearmFrom s) ∧
        v.mech.picker = .idle ∧ s.MechanismMoves v ∧
        (∀ n d, ((∃ f, o = .load n f d) ∨ o = .exchange d n) → ∀ x z, s.drive d = .loading x z →
          let k := s.cart x.cart
          let searches : Prop := k.verification = .verified ∧ k.labellingPending = false ∧
            (s.side x).isUnresolved = true ∧ z = false
          let waits : Prop := k.verification = .unverified ∨ searches
          (v.cart n).location = .mounted d x.face ∧ ∃ m : Mount, m.side = x ∧ m.stamp = s.tenths ∧
            m.dwell = (if s.sched.minDwell = 0 then .expired
              else .running (s.sched.minDwell * 10)) ∧ m.zoned = z ∧
            ((∃ c, v.drive d = .verifying m c) ∨ (∃ c, v.drive d = .busy m c) ∨
              ∃ i l, v.drive d = .idle m i l) ∧
            (k.verification = .unverified → v.drive d = .verifying m ⟨.readLabel, 250⟩) ∧
            (searches → v.drive d = .verifying m ⟨.searchBlank (match s.side x with
              | .index _ _ => 258048
              | _ => 0), 250⟩) ∧
            (¬ waits → s.LeavesVerifying v d m) ∧
            (s.MechanismLawful → (waits → v.queues = s.queues ∧ v.chan = s.chan) ∧
              (¬ waits → s.FrontServed v m))) ∧
        (s.MechanismLawful → (∀ n source, o ≠ .mailOut n source) → (∀ n f d, o ≠ .load n f d) →
          (∀ d n, o ≠ .exchange d n) →
          v = { s with lib := v.lib, mech := v.mech } ∧ v.lib.sides = s.lib.sides) ∧
        (∀ d n why, o = .unload d n why →
          (v.cart n).location = .home ∧ v.drive d = .empty none ∧
          (why = .driveReturn → v.mech.returns.at d = false ∧
            ((s.cart n).labellingPending = false → (v.cart n).verification = .unverified))) ∧
        (∀ n source, o = .mailOut n source →
          (v.cart n).location = .shelfOut ∧ (v.cart n).exportPending = false ∧
          v.mech.mail = .heldOut ∧ v.mech.pendingExport = none ∧
          ∀ d, source = some d → v.drive d = .empty none) ∧
        ∀ n, o = .mailIn n → (v.cart n).location = .home) ∧
    ∀ d n todo unloaded, s.mech.picker = .homing (.unload d n .startup) w →
      s.mech.startup = .unloading todo unloaded → ∃ u : State,
        exec .pickerOrderCompletion s = .next u ∧ u.drive d = .empty none ∧ s.MechanismMoves u ∧
        (todo = [] → u.mech.picker = .homing .inventory 400 ∧ (u.cart n).location = .home ∧
          u.mech.startup = .inventory (unloaded ++ [n])) ∧
        ∀ i more, todo = i :: more →
          u.mech.picker = .homing (.unload i.drive i.cart .startup) 400 ∧
          (u.cart i.cart).location = .inPicker ∧
          (n ≠ i.cart → (u.cart n).location = .home) ∧
          u.mech.startup = .unloading more (unloaded ++ [n])

/-- A picker fault, by JAMMED or by the watchdog's expiry: the picker FAULTED with cause 1, the held
cartridge MISSING with its export ended, its drive as R60 gives, no candidate left.  Under the law of the
mechanism every QUEUED piece of an unmounted side leaves its queue: of the held cartridge MEDIA_UNAVAILABLE,
of another MECHANISM_FAULT, a label piece by failing its labelling with cause 7, and a mounted side's queue
stands (R14, R16, R76).  During start-up the chain ends and the records it did not reach are settled (R60,
R88, R184).  With no order current JAMMED changes nothing (R86), and an expiry that is not due does not
occur (the model's choice, log entry 6).  DEDUCED: a STUCK cartridge keeps its record in a drive the survey
found loaded and the chain had not identified, and is MISSING else (log entry 21). -/
def Obligations.PickerFaultLosesCartridge : Prop :=
  ∀ s : State,
    (s.mech.picker.order? = none → exec .pickerJammed s = .next s) ∧
    (∀ o, s.mech.picker = .moving o 0 ∨ s.mech.picker = .homing o 0 →
      exec .pickerWatchdogExpiry s = exec .pickerJammed s) ∧
    ((∀ o, s.mech.picker ≠ .moving o 0 ∧ s.mech.picker ≠ .homing o 0) →
      exec .pickerWatchdogExpiry s = .next s) ∧
    ∀ o, s.mech.picker.order? = some o → ∃ u : State,
      exec .pickerJammed s = .next u ∧ s.MechanismMoves u ∧ u.mech.picker = .faulted ∧
      u.attention.isPending .pickerFault = true ∧ u.lib.sides = s.lib.sides ∧
      u.remap = s.remap ∧
      (∀ n, o.cart? = some n → (u.cart n).location = .missing ∧
        (u.cart n).exportPending = false) ∧
      (s.mech.startup = .complete →
        u.candidates = [] ∧
        (∀ n, o.cart? ≠ some n → (u.cart n).location = (s.cart n).location ∧
          (u.cart n).exportPending = (s.cart n).exportPending) ∧
        (∀ d, o.drive? = some d →
          ((∃ x z, s.drive d = .loading x z) ∨ (∃ x, s.drive d = .unloading x) →
            u.drive d = .empty none) ∧
          (s.drive d = .faulted → u.drive d = .faulted)) ∧
        (∀ d, o.drive? ≠ some d → u.drive d = s.drive d) ∧
        (∀ n source, o = .mailOut n source → s.mech.mail = .reservedOut →
          u.mech.mail = .empty) ∧
        (∀ d n, o = .unload d n .driveReturn → u.mech.returns.at d = false) ∧
        (s.MechanismLawful →
          (∀ x, u.isMounted x = false → u.queue x = []) ∧
          (∀ x, u.isMounted x = true → (s.cart x.cart).labellingPending = false →
            u.queue x = s.queue x) ∧
          ∀ x, ∀ e ∈ s.queue x, e.running = false →
            let lost (st : Status) : Prop := ∀ t, e.owner = .request t →
              ∃ r p, u.request t = some r ∧ r.pieceOn x = some p ∧ p.status = some st
            (o.cart? = some x.cart → u.isMounted x = false ∧ lost .mediaUnavailable) ∧
            (o.cart? ≠ some x.cart → u.isMounted x = false → lost .mechanismFault) ∧
            (e.owner = .label → u.isMounted x = false →
              (u.cart x.cart).verification = .foreignWrong ∧
              (u.cart x.cart).labellingPending = false ∧
              u.attention.isPending .foreignMedia = true))) ∧
      (s.mech.startup ≠ .complete →
        u.mech.startup = .complete ∧
        (∀ n, (u.cart n).verification = .unverified ∧ (u.cart n).labellingPending = false) ∧
        (∀ d, o.drive? = some d → u.drive d = .empty none) ∧
        (∀ d, o.drive? ≠ some d →
          u.drive d = if d ∈ s.stillLoaded then .faulted else s.drive d) ∧
        ∀ n, o.cart? ≠ some n →
          (∀ i, (s.mech.startup.todo.find? fun j => j.cart = n) = some i →
            (u.cart n).location = .stuck i.drive i.face) ∧
          ((∀ i ∈ s.mech.startup.todo, i.cart ≠ n) →
            ((s.cart n).location = .home ∨ (s.cart n).location = .shelfOut ∨
                (s.cart n).location = .missing →
              (u.cart n).location = (s.cart n).location) ∧
            ((s.cart n).location = .inPicker ∨ (∃ d f, (s.cart n).location = .mounted d f) →
              (u.cart n).location = .missing) ∧
            ∀ d f, (s.cart n).location = .stuck d f →
              ((d ∈ s.mech.surveyLoaded ∧ ∀ i ∈ s.mech.startup.todo, i.drive ≠ d) →
                (u.cart n).location = .stuck d f) ∧
              ((d ∉ s.mech.surveyLoaded ∨ ∃ i ∈ s.mech.startup.todo, i.drive = d) →
                (u.cart n).location = .missing)))

/-- HOME_COMPLETION starts INVENTORY, and under the law of the mechanism moves nothing else; or at start-up it
identifies the loaded drives in their order, each from its retained location in the same event until one has to
read its label, and with all identified starts the first UNLOAD, its cartridge IN_PICKER, or with none loaded
INVENTORY.  INVENTORY_COMPLETION reconciles every slot, by R91 after a PICKER_RESET and by R13 at start-up, and
makes the picker IDLE before the choice runs; under the law of the mechanism a HOME cartridge made MISSING
empties both its queues, a request's piece MEDIA_UNAVAILABLE, a pending labelling failing with cause 7, and no
other queue changes (R90, R91, R183).  The model's choice: of several cartridges retained in one drive the
lowest is taken (log entry 20). -/
def Obligations.HomeAndInventoryComplete : Prop :=
  ∀ (s : State) (w : Nat) (slots : BitVec 160),
    (s.mech.picker.order? = none →
      exec .homeCompletion s = .next s ∧ exec (.inventoryCompletion slots) s = .next s) ∧
    (s.mech.picker = .homing .home w → ∃ u : State, exec .homeCompletion s = .next u ∧
      s.MechanismMoves u ∧ u.lib.sides = s.lib.sides ∧
      (s.mech.startup = .complete → u.mech.picker = .homing .inventory 400 ∧
        (s.MechanismLawful → u = { s with mech := { s.mech with picker := .homing .inventory 400 } })) ∧
      (s.mech.startup = .homing → s.ChainGoesOn u [] s.mech.surveyLoaded)) ∧
    (s.mech.picker = .homing .inventory w → s.mech.startup = .complete → ∃ v : State,
      exec (.inventoryCompletion slots) s = .next (v.choose.rearmFrom s) ∧
      v.mech.picker = .idle ∧ s.MechanismMoves v ∧ v.lib.sides = s.lib.sides ∧
      ∀ n, let l := (s.cart n).location
        let full := slots.getLsbD n.val
        (l = .home → full = true → (v.cart n).location = .home) ∧
        (l = .home → full = false → (v.cart n).location = .missing ∧
          (v.cart n).exportPending = false) ∧
        (l = .missing → full = true → (v.cart n).location = .home ∧
          ((s.cart n).labellingPending = false → (v.cart n).verification = .unverified)) ∧
        (l = .missing → full = false → (v.cart n).location = .missing) ∧
        (l ≠ .home → l ≠ .missing → (v.cart n).location = l) ∧
        (l = .home → full = false → (s.cart n).exportPending = true →
          v.mech.mail = .empty ∧ v.mech.pendingExport = none) ∧
        (s.MechanismLawful → ∀ x, Side.cart x = n →
          (¬ (l = .home ∧ full = false) → v.queue x = s.queue x) ∧
          (l = .home → full = false → v.queue x = [] ∧
            (∀ e ∈ s.queue x, ∀ t, e.owner = .request t → ∃ r p, v.request t = some r ∧
              r.pieceOn x = some p ∧ p.status = some .mediaUnavailable) ∧
            ((s.cart n).labellingPending = true → (v.cart n).verification = .foreignWrong ∧
              (v.cart n).labellingPending = false ∧
              v.attention.isPending .foreignMedia = true)))) ∧
    ∀ unloaded, s.mech.picker = .homing .inventory w → s.mech.startup = .inventory unloaded →
      ∃ v : State, exec (.inventoryCompletion slots) s = .next (v.choose.rearmFrom s) ∧
        v.mech.picker = .idle ∧ v.mech.startup = .complete ∧ s.MechanismMoves v ∧
        v.lib.sides = s.lib.sides ∧
        ∀ n, v.cart n = ⟨if slots.getLsbD n.val = true ∨ n ∈ unloaded then .home
          else if (s.cart n).location = .shelfOut then .shelfOut else .missing,
          .unverified, false, false⟩

/-- MAIL_SLOT_PLACED and MAIL_SLOT_REMOVED move the mail slot record by the table of R93, raise
cause 5 in every state, and the removal of a cartridge HELD_IN ends a pending import; nothing else
changes. -/
def Obligations.OperatorEventsMoveMailSlot : Prop :=
  ∀ s : State,
    let m := s.mech.mail
    let moved (m : MailSlot) (i : Option Cart) : Out := .next { s with
      mech := { s.mech with mail := m, pendingImport := i }
      attention := { s.attention with
        pending := s.attention.pending ||| Cause.mailSlot.flag } }
    (m = .empty → exec .mailSlotPlaced s = moved .heldIn s.mech.pendingImport) ∧
    (m ≠ .empty → exec .mailSlotPlaced s = moved m s.mech.pendingImport) ∧
    (m = .heldIn → exec .mailSlotRemoved s = moved .empty none) ∧
    (m = .heldOut → exec .mailSlotRemoved s = moved .empty s.mech.pendingImport) ∧
    (m = .empty ∨ m = .reservedOut → exec .mailSlotRemoved s = moved m s.mech.pendingImport)

/-! ### Laws that every command keeps -/

/-- The journal law is kept by every command, from any state that has it (R159).  So are the laws of
tickets and accounts (R33, R146, R151, R155), and a lawful tariff with the copies limit and the gross limit
(R36, R131, R135, R165). -/
def Obligations.JournalAndFeeLawsKept : Prop :=
  (∀ (c : Instr) (s t : State), s.ledger.JournalLawful → exec c s = .next t →
    t.ledger.JournalLawful) ∧
  (∀ (c : Instr) (s t : State), s.FeesLawful → exec c s = .next t → t.FeesLawful) ∧
  ∀ (c : Instr) (s t : State), s.GrossLawful → exec c s = .next t → t.GrossLawful

/-- Every side record stays lawful: closure mark at most the frontier, no body block owed past the
side's end (R7, R8, R103).  No command but power-up takes back a zone, or lowers a known frontier, a known
spare pointer or a closure mark (R6 to R8, R19, R112).  Every station entry stays lawful, and some CLERK
station keeps reaching the control region (R22, R23, R32). -/
def Obligations.SideAndStationLawsKept : Prop :=
  (∀ (c : Instr) (s t : State), s.SidesLawful → exec c s = .next t → t.SidesLawful) ∧
  (∀ (c : Instr) (s t : State), s.SidesLawful → isPowerUp c = false → exec c s = .next t →
    ∀ x, (s.side x).Advances (t.side x)) ∧
  ∀ (c : Instr) (s t : State), s.StationsLawful → exec c s = .next t → t.StationsLawful

/-- Under a lock that bars the key level by which a command judges its orders, no command but power-up
changes a station, the tariff or fee parameters, the scheduling parameters, the library id or a side's zone,
and none lowers the lock (R171, R172).  The model's choice: UNKNOWN_ORDER is judged by the level last
sampled where its code is one of the table (log entries 7 and 10). -/
def Obligations.LockBarsProtectedSettings : Prop :=
  ∀ (c : Instr) (s t : State), s.lock.barredTo (s.keyOn c) → isPowerUp c = false →
    exec c s = .next t → s.sameSettings t ∧ s.lock.height ≤ t.lock.height

/-- A pending cause stays pending under every command that cannot take an ATTENTION_CLEAR, power-up
apart (R174, R176).  A write request may take one, whichever of the two acceptance rows brings it (the
model's choice, log entry 7). -/
def Obligations.PendingCausesPersist : Prop :=
  ∀ (c : Instr) (s t : State), mayClearCauses c = false → exec c s = .next t →
    ∀ a, s.attention.isPending a = true → t.attention.isPending a = true

/-- Under every command the remap table keeps its law: at most 4096 entries and held places together, no
two entries with one home or, on a side, one spare, and every spare counted by its home side's pointer
(R115).  The held list keeps holding the requests HELD_FOR_JOURNAL, each once and no others (R162), and
keeps the order in which the requests were assembled (R49).  The forms that staging memory and the remap
table keep are the model's own: no fill block listed, addresses rising (log entry 4), and entries in
ascending order of home VBA (log entry 26). -/
def Obligations.CanonicalAndHeldFormsKept : Prop :=
  (∀ (c : Instr) (s t : State), s.Canonical → exec c s = .next t → t.Canonical) ∧
  (∀ (c : Instr) (s t : State), s.HeldLawful → exec c s = .next t → t.HeldLawful) ∧
  (∀ (c : Instr) (s t : State), s.AssemblyLawful → exec c s = .next t → t.AssemblyLawful) ∧
  ∀ (c : Instr) (s t : State), s.RemapLawful → exec c s = .next t → t.RemapLawful

/-- Every command keeps the law of the mechanism.  Each side is mounted in at most one drive, and never both
faces of a cartridge; a cartridge is MOUNTED in a drive exactly where the drive holds that face, IN_PICKER for
the order under way alone, and at most one is STUCK in a drive, which is FAULTED (R10, R56, R58 to R60, R87).
Only the front piece of a side queue is RUNNING, on the BUSY or YIELDING drive that has the side mounted, and
the standing test refuses no QUEUED piece (R15, R16, R64, R65, R76).  While start-up runs, the queues are
empty and only a drive to be unloaded holds a side (R182 to R184; two equal labels: log entry 20), and the
drives found loaded, those identified and those to be unloaded stand in ascending order (R183). -/
def Obligations.MechanismLawKept : Prop :=
  (∀ (c : Instr) (s t : State), s.MechanismLawful → exec c s = .next t → t.MechanismLawful) ∧
  ∀ (c : Instr) (s t : State), s.ChainAscends → exec c s = .next t → t.ChainAscends

/-- Under every command the pieces of a side keep their order of joining: what is left of its queue keeps its
order and its stamps, the pieces that join stand behind it, and none is started but the one that is then at
the front (R15, R16, R64).  A channel reset alone makes a RUNNING piece an orphan (R54). -/
def Obligations.PiecesKeepOrderOfJoining : Prop :=
  ∀ (c : Instr) (s t : State), exec c s = .next t →
    ∀ x, KeepsOrder s.tenths (s.queue x) (t.queue x) ∧
      (c ≠ .channelReset → ∀ e ∈ t.queue x, e.owner.isOrphan = true → e ∈ s.queue x)

/-- Every law holds in the state after reset. -/
def Obligations.LawsHoldAtReset : Prop :=
  State.reset.ledger.JournalLawful ∧ State.reset.FeesLawful ∧ State.reset.GrossLawful ∧
  State.reset.SidesLawful ∧ State.reset.StationsLawful ∧ State.reset.Canonical ∧
  State.reset.HeldLawful ∧ State.reset.AssemblyLawful ∧ State.reset.RemapLawful ∧
  State.reset.MechanismLawful ∧ State.reset.ChainAscends
end

