-- ==== Sys2Proof/Laws/State.lean ====
section
/-! SUPPORT. What each named update of the state leaves as it was and what it sets, one lemma per field,
true by unfolding. -/

namespace Sys2Proof.Machine
variable (s : State)

/-! ### setSide -/

@[simp] theorem State.setSide_stations (x : Side) (r : SideRecord) : (s.setSide x r).stations = s.stations := rfl
@[simp] theorem State.setSide_traps (x : Side) (r : SideRecord) : (s.setSide x r).traps = s.traps := rfl
@[simp] theorem State.setSide_chan (x : Side) (r : SideRecord) : (s.setSide x r).chan = s.chan := rfl
@[simp] theorem State.setSide_queues (x : Side) (r : SideRecord) : (s.setSide x r).queues = s.queues := rfl
@[simp] theorem State.setSide_mech (x : Side) (r : SideRecord) : (s.setSide x r).mech = s.mech := rfl
@[simp] theorem State.setSide_sched (x : Side) (r : SideRecord) : (s.setSide x r).sched = s.sched := rfl
@[simp] theorem State.setSide_remap (x : Side) (r : SideRecord) : (s.setSide x r).remap = s.remap := rfl
@[simp] theorem State.setSide_tariff (x : Side) (r : SideRecord) : (s.setSide x r).tariff = s.tariff := rfl
@[simp] theorem State.setSide_ledger (x : Side) (r : SideRecord) : (s.setSide x r).ledger = s.ledger := rfl
@[simp] theorem State.setSide_orderResult (x : Side) (r : SideRecord) : (s.setSide x r).orderResult = s.orderResult := rfl
@[simp] theorem State.setSide_lock (x : Side) (r : SideRecord) : (s.setSide x r).lock = s.lock := rfl
@[simp] theorem State.setSide_attention (x : Side) (r : SideRecord) : (s.setSide x r).attention = s.attention := rfl
@[simp] theorem State.setSide_tenths (x : Side) (r : SideRecord) : (s.setSide x r).tenths = s.tenths := rfl
@[simp] theorem State.setSide_clock (x : Side) (r : SideRecord) : (s.setSide x r).clock = s.clock := rfl
@[simp] theorem State.setSide_keyLine (x : Side) (r : SideRecord) : (s.setSide x r).keyLine = s.keyLine := rfl
@[simp] theorem State.setSide_orderAnswer (x : Side) (r : SideRecord) : (s.setSide x r).orderAnswer = s.orderAnswer := rfl
@[simp] theorem State.setSide_pending (x : Side) (r : SideRecord) : (s.setSide x r).pending = s.pending := rfl
@[simp] theorem State.setSide_lib_sides (x : Side) (r : SideRecord) :
    (s.setSide x r).lib.sides = s.lib.sides.put x r := rfl
@[simp] theorem State.setSide_lib_cartridges (x : Side) (r : SideRecord) :
    (s.setSide x r).lib.cartridges = s.lib.cartridges := rfl
@[simp] theorem State.setSide_lib_libraryId (x : Side) (r : SideRecord) :
    (s.setSide x r).lib.libraryId = s.lib.libraryId := rfl

/-! ### setCart -/

@[simp] theorem State.setCart_stations (n : Cart) (r : CartridgeRecord) : (s.setCart n r).stations = s.stations := rfl
@[simp] theorem State.setCart_traps (n : Cart) (r : CartridgeRecord) : (s.setCart n r).traps = s.traps := rfl
@[simp] theorem State.setCart_chan (n : Cart) (r : CartridgeRecord) : (s.setCart n r).chan = s.chan := rfl
@[simp] theorem State.setCart_queues (n : Cart) (r : CartridgeRecord) : (s.setCart n r).queues = s.queues := rfl
@[simp] theorem State.setCart_mech (n : Cart) (r : CartridgeRecord) : (s.setCart n r).mech = s.mech := rfl
@[simp] theorem State.setCart_sched (n : Cart) (r : CartridgeRecord) : (s.setCart n r).sched = s.sched := rfl
@[simp] theorem State.setCart_remap (n : Cart) (r : CartridgeRecord) : (s.setCart n r).remap = s.remap := rfl
@[simp] theorem State.setCart_tariff (n : Cart) (r : CartridgeRecord) : (s.setCart n r).tariff = s.tariff := rfl
@[simp] theorem State.setCart_ledger (n : Cart) (r : CartridgeRecord) : (s.setCart n r).ledger = s.ledger := rfl
@[simp] theorem State.setCart_orderResult (n : Cart) (r : CartridgeRecord) : (s.setCart n r).orderResult = s.orderResult := rfl
@[simp] theorem State.setCart_lock (n : Cart) (r : CartridgeRecord) : (s.setCart n r).lock = s.lock := rfl
@[simp] theorem State.setCart_attention (n : Cart) (r : CartridgeRecord) : (s.setCart n r).attention = s.attention := rfl
@[simp] theorem State.setCart_tenths (n : Cart) (r : CartridgeRecord) : (s.setCart n r).tenths = s.tenths := rfl
@[simp] theorem State.setCart_clock (n : Cart) (r : CartridgeRecord) : (s.setCart n r).clock = s.clock := rfl
@[simp] theorem State.setCart_keyLine (n : Cart) (r : CartridgeRecord) : (s.setCart n r).keyLine = s.keyLine := rfl
@[simp] theorem State.setCart_orderAnswer (n : Cart) (r : CartridgeRecord) : (s.setCart n r).orderAnswer = s.orderAnswer := rfl
@[simp] theorem State.setCart_pending (n : Cart) (r : CartridgeRecord) : (s.setCart n r).pending = s.pending := rfl
@[simp] theorem State.setCart_lib_sides (n : Cart) (r : CartridgeRecord) :
    (s.setCart n r).lib.sides = s.lib.sides := rfl
@[simp] theorem State.setCart_lib_cartridges (n : Cart) (r : CartridgeRecord) :
    (s.setCart n r).lib.cartridges = s.lib.cartridges.put n r := rfl
@[simp] theorem State.setCart_lib_libraryId (n : Cart) (r : CartridgeRecord) :
    (s.setCart n r).lib.libraryId = s.lib.libraryId := rfl

/-! ### setQueue -/

@[simp] theorem State.setQueue_lib (x : Side) (q : List QEntry) : (s.setQueue x q).lib = s.lib := rfl
@[simp] theorem State.setQueue_stations (x : Side) (q : List QEntry) : (s.setQueue x q).stations = s.stations := rfl
@[simp] theorem State.setQueue_traps (x : Side) (q : List QEntry) : (s.setQueue x q).traps = s.traps := rfl
@[simp] theorem State.setQueue_chan (x : Side) (q : List QEntry) : (s.setQueue x q).chan = s.chan := rfl
@[simp] theorem State.setQueue_mech (x : Side) (q : List QEntry) : (s.setQueue x q).mech = s.mech := rfl
@[simp] theorem State.setQueue_sched (x : Side) (q : List QEntry) : (s.setQueue x q).sched = s.sched := rfl
@[simp] theorem State.setQueue_remap (x : Side) (q : List QEntry) : (s.setQueue x q).remap = s.remap := rfl
@[simp] theorem State.setQueue_tariff (x : Side) (q : List QEntry) : (s.setQueue x q).tariff = s.tariff := rfl
@[simp] theorem State.setQueue_ledger (x : Side) (q : List QEntry) : (s.setQueue x q).ledger = s.ledger := rfl
@[simp] theorem State.setQueue_orderResult (x : Side) (q : List QEntry) : (s.setQueue x q).orderResult = s.orderResult := rfl
@[simp] theorem State.setQueue_lock (x : Side) (q : List QEntry) : (s.setQueue x q).lock = s.lock := rfl
@[simp] theorem State.setQueue_attention (x : Side) (q : List QEntry) : (s.setQueue x q).attention = s.attention := rfl
@[simp] theorem State.setQueue_tenths (x : Side) (q : List QEntry) : (s.setQueue x q).tenths = s.tenths := rfl
@[simp] theorem State.setQueue_clock (x : Side) (q : List QEntry) : (s.setQueue x q).clock = s.clock := rfl
@[simp] theorem State.setQueue_keyLine (x : Side) (q : List QEntry) : (s.setQueue x q).keyLine = s.keyLine := rfl
@[simp] theorem State.setQueue_orderAnswer (x : Side) (q : List QEntry) : (s.setQueue x q).orderAnswer = s.orderAnswer := rfl
@[simp] theorem State.setQueue_pending (x : Side) (q : List QEntry) : (s.setQueue x q).pending = s.pending := rfl
@[simp] theorem State.setQueue_queues (x : Side) (q : List QEntry) : (s.setQueue x q).queues = s.queues.put x q := rfl

/-! ### setDrive -/

@[simp] theorem State.setDrive_lib (d : DriveNo) (r : Drive) : (s.setDrive d r).lib = s.lib := rfl
@[simp] theorem State.setDrive_stations (d : DriveNo) (r : Drive) : (s.setDrive d r).stations = s.stations := rfl
@[simp] theorem State.setDrive_traps (d : DriveNo) (r : Drive) : (s.setDrive d r).traps = s.traps := rfl
@[simp] theorem State.setDrive_chan (d : DriveNo) (r : Drive) : (s.setDrive d r).chan = s.chan := rfl
@[simp] theorem State.setDrive_queues (d : DriveNo) (r : Drive) : (s.setDrive d r).queues = s.queues := rfl
@[simp] theorem State.setDrive_sched (d : DriveNo) (r : Drive) : (s.setDrive d r).sched = s.sched := rfl
@[simp] theorem State.setDrive_remap (d : DriveNo) (r : Drive) : (s.setDrive d r).remap = s.remap := rfl
@[simp] theorem State.setDrive_tariff (d : DriveNo) (r : Drive) : (s.setDrive d r).tariff = s.tariff := rfl
@[simp] theorem State.setDrive_ledger (d : DriveNo) (r : Drive) : (s.setDrive d r).ledger = s.ledger := rfl
@[simp] theorem State.setDrive_orderResult (d : DriveNo) (r : Drive) : (s.setDrive d r).orderResult = s.orderResult := rfl
@[simp] theorem State.setDrive_lock (d : DriveNo) (r : Drive) : (s.setDrive d r).lock = s.lock := rfl
@[simp] theorem State.setDrive_attention (d : DriveNo) (r : Drive) : (s.setDrive d r).attention = s.attention := rfl
@[simp] theorem State.setDrive_tenths (d : DriveNo) (r : Drive) : (s.setDrive d r).tenths = s.tenths := rfl
@[simp] theorem State.setDrive_clock (d : DriveNo) (r : Drive) : (s.setDrive d r).clock = s.clock := rfl
@[simp] theorem State.setDrive_keyLine (d : DriveNo) (r : Drive) : (s.setDrive d r).keyLine = s.keyLine := rfl
@[simp] theorem State.setDrive_orderAnswer (d : DriveNo) (r : Drive) : (s.setDrive d r).orderAnswer = s.orderAnswer := rfl
@[simp] theorem State.setDrive_pending (d : DriveNo) (r : Drive) : (s.setDrive d r).pending = s.pending := rfl
@[simp] theorem State.setDrive_mech_drives (d : DriveNo) (r : Drive) :
    (s.setDrive d r).mech.drives = s.mech.drives.put d r := rfl
@[simp] theorem State.setDrive_mech_picker (d : DriveNo) (r : Drive) :
    (s.setDrive d r).mech.picker = s.mech.picker := rfl
@[simp] theorem State.setDrive_mech_mail (d : DriveNo) (r : Drive) :
    (s.setDrive d r).mech.mail = s.mech.mail := rfl
@[simp] theorem State.setDrive_mech_ageing (d : DriveNo) (r : Drive) :
    (s.setDrive d r).mech.ageing = s.mech.ageing := rfl
@[simp] theorem State.setDrive_mech_pendingExport (d : DriveNo) (r : Drive) :
    (s.setDrive d r).mech.pendingExport = s.mech.pendingExport := rfl
@[simp] theorem State.setDrive_mech_pendingImport (d : DriveNo) (r : Drive) :
    (s.setDrive d r).mech.pendingImport = s.mech.pendingImport := rfl
@[simp] theorem State.setDrive_mech_returns (d : DriveNo) (r : Drive) :
    (s.setDrive d r).mech.returns = s.mech.returns := rfl
@[simp] theorem State.setDrive_mech_startup (d : DriveNo) (r : Drive) :
    (s.setDrive d r).mech.startup = s.mech.startup := rfl
@[simp] theorem State.setDrive_mech_surveyLoaded (d : DriveNo) (r : Drive) :
    (s.setDrive d r).mech.surveyLoaded = s.mech.surveyLoaded := rfl

/-! ### setPicker -/

@[simp] theorem State.setPicker_lib (p : Picker) : (s.setPicker p).lib = s.lib := rfl
@[simp] theorem State.setPicker_stations (p : Picker) : (s.setPicker p).stations = s.stations := rfl
@[simp] theorem State.setPicker_traps (p : Picker) : (s.setPicker p).traps = s.traps := rfl
@[simp] theorem State.setPicker_chan (p : Picker) : (s.setPicker p).chan = s.chan := rfl
@[simp] theorem State.setPicker_queues (p : Picker) : (s.setPicker p).queues = s.queues := rfl
@[simp] theorem State.setPicker_sched (p : Picker) : (s.setPicker p).sched = s.sched := rfl
@[simp] theorem State.setPicker_remap (p : Picker) : (s.setPicker p).remap = s.remap := rfl
@[simp] theorem State.setPicker_tariff (p : Picker) : (s.setPicker p).tariff = s.tariff := rfl
@[simp] theorem State.setPicker_ledger (p : Picker) : (s.setPicker p).ledger = s.ledger := rfl
@[simp] theorem State.setPicker_orderResult (p : Picker) : (s.setPicker p).orderResult = s.orderResult := rfl
@[simp] theorem State.setPicker_lock (p : Picker) : (s.setPicker p).lock = s.lock := rfl
@[simp] theorem State.setPicker_attention (p : Picker) : (s.setPicker p).attention = s.attention := rfl
@[simp] theorem State.setPicker_tenths (p : Picker) : (s.setPicker p).tenths = s.tenths := rfl
@[simp] theorem State.setPicker_clock (p : Picker) : (s.setPicker p).clock = s.clock := rfl
@[simp] theorem State.setPicker_keyLine (p : Picker) : (s.setPicker p).keyLine = s.keyLine := rfl
@[simp] theorem State.setPicker_orderAnswer (p : Picker) : (s.setPicker p).orderAnswer = s.orderAnswer := rfl
@[simp] theorem State.setPicker_pending (p : Picker) : (s.setPicker p).pending = s.pending := rfl
@[simp] theorem State.setPicker_mech_drives (p : Picker) :
    (s.setPicker p).mech.drives = s.mech.drives := rfl
@[simp] theorem State.setPicker_mech_picker (p : Picker) :
    (s.setPicker p).mech.picker = p := rfl
@[simp] theorem State.setPicker_mech_mail (p : Picker) :
    (s.setPicker p).mech.mail = s.mech.mail := rfl
@[simp] theorem State.setPicker_mech_ageing (p : Picker) :
    (s.setPicker p).mech.ageing = s.mech.ageing := rfl
@[simp] theorem State.setPicker_mech_pendingExport (p : Picker) :
    (s.setPicker p).mech.pendingExport = s.mech.pendingExport := rfl
@[simp] theorem State.setPicker_mech_pendingImport (p : Picker) :
    (s.setPicker p).mech.pendingImport = s.mech.pendingImport := rfl
@[simp] theorem State.setPicker_mech_returns (p : Picker) :
    (s.setPicker p).mech.returns = s.mech.returns := rfl
@[simp] theorem State.setPicker_mech_startup (p : Picker) :
    (s.setPicker p).mech.startup = s.mech.startup := rfl
@[simp] theorem State.setPicker_mech_surveyLoaded (p : Picker) :
    (s.setPicker p).mech.surveyLoaded = s.mech.surveyLoaded := rfl

/-! ### setMail -/

@[simp] theorem State.setMail_lib (m : MailSlot) : (s.setMail m).lib = s.lib := rfl
@[simp] theorem State.setMail_stations (m : MailSlot) : (s.setMail m).stations = s.stations := rfl
@[simp] theorem State.setMail_traps (m : MailSlot) : (s.setMail m).traps = s.traps := rfl
@[simp] theorem State.setMail_chan (m : MailSlot) : (s.setMail m).chan = s.chan := rfl
@[simp] theorem State.setMail_queues (m : MailSlot) : (s.setMail m).queues = s.queues := rfl
@[simp] theorem State.setMail_sched (m : MailSlot) : (s.setMail m).sched = s.sched := rfl
@[simp] theorem State.setMail_remap (m : MailSlot) : (s.setMail m).remap = s.remap := rfl
@[simp] theorem State.setMail_tariff (m : MailSlot) : (s.setMail m).tariff = s.tariff := rfl
@[simp] theorem State.setMail_ledger (m : MailSlot) : (s.setMail m).ledger = s.ledger := rfl
@[simp] theorem State.setMail_orderResult (m : MailSlot) : (s.setMail m).orderResult = s.orderResult := rfl
@[simp] theorem State.setMail_lock (m : MailSlot) : (s.setMail m).lock = s.lock := rfl
@[simp] theorem State.setMail_attention (m : MailSlot) : (s.setMail m).attention = s.attention := rfl
@[simp] theorem State.setMail_tenths (m : MailSlot) : (s.setMail m).tenths = s.tenths := rfl
@[simp] theorem State.setMail_clock (m : MailSlot) : (s.setMail m).clock = s.clock := rfl
@[simp] theorem State.setMail_keyLine (m : MailSlot) : (s.setMail m).keyLine = s.keyLine := rfl
@[simp] theorem State.setMail_orderAnswer (m : MailSlot) : (s.setMail m).orderAnswer = s.orderAnswer := rfl
@[simp] theorem State.setMail_pending (m : MailSlot) : (s.setMail m).pending = s.pending := rfl
@[simp] theorem State.setMail_mech_drives (m : MailSlot) :
    (s.setMail m).mech.drives = s.mech.drives := rfl
@[simp] theorem State.setMail_mech_picker (m : MailSlot) :
    (s.setMail m).mech.picker = s.mech.picker := rfl
@[simp] theorem State.setMail_mech_mail (m : MailSlot) :
    (s.setMail m).mech.mail = m := rfl
@[simp] theorem State.setMail_mech_ageing (m : MailSlot) :
    (s.setMail m).mech.ageing = s.mech.ageing := rfl
@[simp] theorem State.setMail_mech_pendingExport (m : MailSlot) :
    (s.setMail m).mech.pendingExport = s.mech.pendingExport := rfl
@[simp] theorem State.setMail_mech_pendingImport (m : MailSlot) :
    (s.setMail m).mech.pendingImport = s.mech.pendingImport := rfl
@[simp] theorem State.setMail_mech_returns (m : MailSlot) :
    (s.setMail m).mech.returns = s.mech.returns := rfl
@[simp] theorem State.setMail_mech_startup (m : MailSlot) :
    (s.setMail m).mech.startup = s.mech.startup := rfl
@[simp] theorem State.setMail_mech_surveyLoaded (m : MailSlot) :
    (s.setMail m).mech.surveyLoaded = s.mech.surveyLoaded := rfl

/-! ### setExport -/

@[simp] theorem State.setExport_lib (n : Option Cart) : (s.setExport n).lib = s.lib := rfl
@[simp] theorem State.setExport_stations (n : Option Cart) : (s.setExport n).stations = s.stations := rfl
@[simp] theorem State.setExport_traps (n : Option Cart) : (s.setExport n).traps = s.traps := rfl
@[simp] theorem State.setExport_chan (n : Option Cart) : (s.setExport n).chan = s.chan := rfl
@[simp] theorem State.setExport_queues (n : Option Cart) : (s.setExport n).queues = s.queues := rfl
@[simp] theorem State.setExport_sched (n : Option Cart) : (s.setExport n).sched = s.sched := rfl
@[simp] theorem State.setExport_remap (n : Option Cart) : (s.setExport n).remap = s.remap := rfl
@[simp] theorem State.setExport_tariff (n : Option Cart) : (s.setExport n).tariff = s.tariff := rfl
@[simp] theorem State.setExport_ledger (n : Option Cart) : (s.setExport n).ledger = s.ledger := rfl
@[simp] theorem State.setExport_orderResult (n : Option Cart) : (s.setExport n).orderResult = s.orderResult := rfl
@[simp] theorem State.setExport_lock (n : Option Cart) : (s.setExport n).lock = s.lock := rfl
@[simp] theorem State.setExport_attention (n : Option Cart) : (s.setExport n).attention = s.attention := rfl
@[simp] theorem State.setExport_tenths (n : Option Cart) : (s.setExport n).tenths = s.tenths := rfl
@[simp] theorem State.setExport_clock (n : Option Cart) : (s.setExport n).clock = s.clock := rfl
@[simp] theorem State.setExport_keyLine (n : Option Cart) : (s.setExport n).keyLine = s.keyLine := rfl
@[simp] theorem State.setExport_orderAnswer (n : Option Cart) : (s.setExport n).orderAnswer = s.orderAnswer := rfl
@[simp] theorem State.setExport_pending (n : Option Cart) : (s.setExport n).pending = s.pending := rfl
@[simp] theorem State.setExport_mech_drives (n : Option Cart) :
    (s.setExport n).mech.drives = s.mech.drives := rfl
@[simp] theorem State.setExport_mech_picker (n : Option Cart) :
    (s.setExport n).mech.picker = s.mech.picker := rfl
@[simp] theorem State.setExport_mech_mail (n : Option Cart) :
    (s.setExport n).mech.mail = s.mech.mail := rfl
@[simp] theorem State.setExport_mech_ageing (n : Option Cart) :
    (s.setExport n).mech.ageing = s.mech.ageing := rfl
@[simp] theorem State.setExport_mech_pendingExport (n : Option Cart) :
    (s.setExport n).mech.pendingExport = n := rfl
@[simp] theorem State.setExport_mech_pendingImport (n : Option Cart) :
    (s.setExport n).mech.pendingImport = s.mech.pendingImport := rfl
@[simp] theorem State.setExport_mech_returns (n : Option Cart) :
    (s.setExport n).mech.returns = s.mech.returns := rfl
@[simp] theorem State.setExport_mech_startup (n : Option Cart) :
    (s.setExport n).mech.startup = s.mech.startup := rfl
@[simp] theorem State.setExport_mech_surveyLoaded (n : Option Cart) :
    (s.setExport n).mech.surveyLoaded = s.mech.surveyLoaded := rfl

/-! ### setImport -/

@[simp] theorem State.setImport_lib (n : Option Cart) : (s.setImport n).lib = s.lib := rfl
@[simp] theorem State.setImport_stations (n : Option Cart) : (s.setImport n).stations = s.stations := rfl
@[simp] theorem State.setImport_traps (n : Option Cart) : (s.setImport n).traps = s.traps := rfl
@[simp] theorem State.setImport_chan (n : Option Cart) : (s.setImport n).chan = s.chan := rfl
@[simp] theorem State.setImport_queues (n : Option Cart) : (s.setImport n).queues = s.queues := rfl
@[simp] theorem State.setImport_sched (n : Option Cart) : (s.setImport n).sched = s.sched := rfl
@[simp] theorem State.setImport_remap (n : Option Cart) : (s.setImport n).remap = s.remap := rfl
@[simp] theorem State.setImport_tariff (n : Option Cart) : (s.setImport n).tariff = s.tariff := rfl
@[simp] theorem State.setImport_ledger (n : Option Cart) : (s.setImport n).ledger = s.ledger := rfl
@[simp] theorem State.setImport_orderResult (n : Option Cart) : (s.setImport n).orderResult = s.orderResult := rfl
@[simp] theorem State.setImport_lock (n : Option Cart) : (s.setImport n).lock = s.lock := rfl
@[simp] theorem State.setImport_attention (n : Option Cart) : (s.setImport n).attention = s.attention := rfl
@[simp] theorem State.setImport_tenths (n : Option Cart) : (s.setImport n).tenths = s.tenths := rfl
@[simp] theorem State.setImport_clock (n : Option Cart) : (s.setImport n).clock = s.clock := rfl
@[simp] theorem State.setImport_keyLine (n : Option Cart) : (s.setImport n).keyLine = s.keyLine := rfl
@[simp] theorem State.setImport_orderAnswer (n : Option Cart) : (s.setImport n).orderAnswer = s.orderAnswer := rfl
@[simp] theorem State.setImport_pending (n : Option Cart) : (s.setImport n).pending = s.pending := rfl
@[simp] theorem State.setImport_mech_drives (n : Option Cart) :
    (s.setImport n).mech.drives = s.mech.drives := rfl
@[simp] theorem State.setImport_mech_picker (n : Option Cart) :
    (s.setImport n).mech.picker = s.mech.picker := rfl
@[simp] theorem State.setImport_mech_mail (n : Option Cart) :
    (s.setImport n).mech.mail = s.mech.mail := rfl
@[simp] theorem State.setImport_mech_ageing (n : Option Cart) :
    (s.setImport n).mech.ageing = s.mech.ageing := rfl
@[simp] theorem State.setImport_mech_pendingExport (n : Option Cart) :
    (s.setImport n).mech.pendingExport = s.mech.pendingExport := rfl
@[simp] theorem State.setImport_mech_pendingImport (n : Option Cart) :
    (s.setImport n).mech.pendingImport = n := rfl
@[simp] theorem State.setImport_mech_returns (n : Option Cart) :
    (s.setImport n).mech.returns = s.mech.returns := rfl
@[simp] theorem State.setImport_mech_startup (n : Option Cart) :
    (s.setImport n).mech.startup = s.mech.startup := rfl
@[simp] theorem State.setImport_mech_surveyLoaded (n : Option Cart) :
    (s.setImport n).mech.surveyLoaded = s.mech.surveyLoaded := rfl

/-! ### setReturn -/

@[simp] theorem State.setReturn_lib (d : DriveNo) (b : Bool) : (s.setReturn d b).lib = s.lib := rfl
@[simp] theorem State.setReturn_stations (d : DriveNo) (b : Bool) : (s.setReturn d b).stations = s.stations := rfl
@[simp] theorem State.setReturn_traps (d : DriveNo) (b : Bool) : (s.setReturn d b).traps = s.traps := rfl
@[simp] theorem State.setReturn_chan (d : DriveNo) (b : Bool) : (s.setReturn d b).chan = s.chan := rfl
@[simp] theorem State.setReturn_queues (d : DriveNo) (b : Bool) : (s.setReturn d b).queues = s.queues := rfl
@[simp] theorem State.setReturn_sched (d : DriveNo) (b : Bool) : (s.setReturn d b).sched = s.sched := rfl
@[simp] theorem State.setReturn_remap (d : DriveNo) (b : Bool) : (s.setReturn d b).remap = s.remap := rfl
@[simp] theorem State.setReturn_tariff (d : DriveNo) (b : Bool) : (s.setReturn d b).tariff = s.tariff := rfl
@[simp] theorem State.setReturn_ledger (d : DriveNo) (b : Bool) : (s.setReturn d b).ledger = s.ledger := rfl
@[simp] theorem State.setReturn_orderResult (d : DriveNo) (b : Bool) : (s.setReturn d b).orderResult = s.orderResult := rfl
@[simp] theorem State.setReturn_lock (d : DriveNo) (b : Bool) : (s.setReturn d b).lock = s.lock := rfl
@[simp] theorem State.setReturn_attention (d : DriveNo) (b : Bool) : (s.setReturn d b).attention = s.attention := rfl
@[simp] theorem State.setReturn_tenths (d : DriveNo) (b : Bool) : (s.setReturn d b).tenths = s.tenths := rfl
@[simp] theorem State.setReturn_clock (d : DriveNo) (b : Bool) : (s.setReturn d b).clock = s.clock := rfl
@[simp] theorem State.setReturn_keyLine (d : DriveNo) (b : Bool) : (s.setReturn d b).keyLine = s.keyLine := rfl
@[simp] theorem State.setReturn_orderAnswer (d : DriveNo) (b : Bool) : (s.setReturn d b).orderAnswer = s.orderAnswer := rfl
@[simp] theorem State.setReturn_pending (d : DriveNo) (b : Bool) : (s.setReturn d b).pending = s.pending := rfl
@[simp] theorem State.setReturn_mech_drives (d : DriveNo) (b : Bool) :
    (s.setReturn d b).mech.drives = s.mech.drives := rfl
@[simp] theorem State.setReturn_mech_picker (d : DriveNo) (b : Bool) :
    (s.setReturn d b).mech.picker = s.mech.picker := rfl
@[simp] theorem State.setReturn_mech_mail (d : DriveNo) (b : Bool) :
    (s.setReturn d b).mech.mail = s.mech.mail := rfl
@[simp] theorem State.setReturn_mech_ageing (d : DriveNo) (b : Bool) :
    (s.setReturn d b).mech.ageing = s.mech.ageing := rfl
@[simp] theorem State.setReturn_mech_pendingExport (d : DriveNo) (b : Bool) :
    (s.setReturn d b).mech.pendingExport = s.mech.pendingExport := rfl
@[simp] theorem State.setReturn_mech_pendingImport (d : DriveNo) (b : Bool) :
    (s.setReturn d b).mech.pendingImport = s.mech.pendingImport := rfl
@[simp] theorem State.setReturn_mech_returns (d : DriveNo) (b : Bool) :
    (s.setReturn d b).mech.returns = s.mech.returns.put d b := rfl
@[simp] theorem State.setReturn_mech_startup (d : DriveNo) (b : Bool) :
    (s.setReturn d b).mech.startup = s.mech.startup := rfl
@[simp] theorem State.setReturn_mech_surveyLoaded (d : DriveNo) (b : Bool) :
    (s.setReturn d b).mech.surveyLoaded = s.mech.surveyLoaded := rfl

/-! ### setStartup -/

@[simp] theorem State.setStartup_lib (u : Startup) : (s.setStartup u).lib = s.lib := rfl
@[simp] theorem State.setStartup_stations (u : Startup) : (s.setStartup u).stations = s.stations := rfl
@[simp] theorem State.setStartup_traps (u : Startup) : (s.setStartup u).traps = s.traps := rfl
@[simp] theorem State.setStartup_chan (u : Startup) : (s.setStartup u).chan = s.chan := rfl
@[simp] theorem State.setStartup_queues (u : Startup) : (s.setStartup u).queues = s.queues := rfl
@[simp] theorem State.setStartup_sched (u : Startup) : (s.setStartup u).sched = s.sched := rfl
@[simp] theorem State.setStartup_remap (u : Startup) : (s.setStartup u).remap = s.remap := rfl
@[simp] theorem State.setStartup_tariff (u : Startup) : (s.setStartup u).tariff = s.tariff := rfl
@[simp] theorem State.setStartup_ledger (u : Startup) : (s.setStartup u).ledger = s.ledger := rfl
@[simp] theorem State.setStartup_orderResult (u : Startup) : (s.setStartup u).orderResult = s.orderResult := rfl
@[simp] theorem State.setStartup_lock (u : Startup) : (s.setStartup u).lock = s.lock := rfl
@[simp] theorem State.setStartup_attention (u : Startup) : (s.setStartup u).attention = s.attention := rfl
@[simp] theorem State.setStartup_tenths (u : Startup) : (s.setStartup u).tenths = s.tenths := rfl
@[simp] theorem State.setStartup_clock (u : Startup) : (s.setStartup u).clock = s.clock := rfl
@[simp] theorem State.setStartup_keyLine (u : Startup) : (s.setStartup u).keyLine = s.keyLine := rfl
@[simp] theorem State.setStartup_orderAnswer (u : Startup) : (s.setStartup u).orderAnswer = s.orderAnswer := rfl
@[simp] theorem State.setStartup_pending (u : Startup) : (s.setStartup u).pending = s.pending := rfl
@[simp] theorem State.setStartup_mech_drives (u : Startup) :
    (s.setStartup u).mech.drives = s.mech.drives := rfl
@[simp] theorem State.setStartup_mech_picker (u : Startup) :
    (s.setStartup u).mech.picker = s.mech.picker := rfl
@[simp] theorem State.setStartup_mech_mail (u : Startup) :
    (s.setStartup u).mech.mail = s.mech.mail := rfl
@[simp] theorem State.setStartup_mech_ageing (u : Startup) :
    (s.setStartup u).mech.ageing = s.mech.ageing := rfl
@[simp] theorem State.setStartup_mech_pendingExport (u : Startup) :
    (s.setStartup u).mech.pendingExport = s.mech.pendingExport := rfl
@[simp] theorem State.setStartup_mech_pendingImport (u : Startup) :
    (s.setStartup u).mech.pendingImport = s.mech.pendingImport := rfl
@[simp] theorem State.setStartup_mech_returns (u : Startup) :
    (s.setStartup u).mech.returns = s.mech.returns := rfl
@[simp] theorem State.setStartup_mech_startup (u : Startup) :
    (s.setStartup u).mech.startup = u := rfl
@[simp] theorem State.setStartup_mech_surveyLoaded (u : Startup) :
    (s.setStartup u).mech.surveyLoaded = s.mech.surveyLoaded := rfl

/-! ### setAgeing -/

@[simp] theorem State.setAgeing_lib (a : Option Nat) : (s.setAgeing a).lib = s.lib := rfl
@[simp] theorem State.setAgeing_stations (a : Option Nat) : (s.setAgeing a).stations = s.stations := rfl
@[simp] theorem State.setAgeing_traps (a : Option Nat) : (s.setAgeing a).traps = s.traps := rfl
@[simp] theorem State.setAgeing_chan (a : Option Nat) : (s.setAgeing a).chan = s.chan := rfl
@[simp] theorem State.setAgeing_queues (a : Option Nat) : (s.setAgeing a).queues = s.queues := rfl
@[simp] theorem State.setAgeing_sched (a : Option Nat) : (s.setAgeing a).sched = s.sched := rfl
@[simp] theorem State.setAgeing_remap (a : Option Nat) : (s.setAgeing a).remap = s.remap := rfl
@[simp] theorem State.setAgeing_tariff (a : Option Nat) : (s.setAgeing a).tariff = s.tariff := rfl
@[simp] theorem State.setAgeing_ledger (a : Option Nat) : (s.setAgeing a).ledger = s.ledger := rfl
@[simp] theorem State.setAgeing_orderResult (a : Option Nat) : (s.setAgeing a).orderResult = s.orderResult := rfl
@[simp] theorem State.setAgeing_lock (a : Option Nat) : (s.setAgeing a).lock = s.lock := rfl
@[simp] theorem State.setAgeing_attention (a : Option Nat) : (s.setAgeing a).attention = s.attention := rfl
@[simp] theorem State.setAgeing_tenths (a : Option Nat) : (s.setAgeing a).tenths = s.tenths := rfl
@[simp] theorem State.setAgeing_clock (a : Option Nat) : (s.setAgeing a).clock = s.clock := rfl
@[simp] theorem State.setAgeing_keyLine (a : Option Nat) : (s.setAgeing a).keyLine = s.keyLine := rfl
@[simp] theorem State.setAgeing_orderAnswer (a : Option Nat) : (s.setAgeing a).orderAnswer = s.orderAnswer := rfl
@[simp] theorem State.setAgeing_pending (a : Option Nat) : (s.setAgeing a).pending = s.pending := rfl
@[simp] theorem State.setAgeing_mech_drives (a : Option Nat) :
    (s.setAgeing a).mech.drives = s.mech.drives := rfl
@[simp] theorem State.setAgeing_mech_picker (a : Option Nat) :
    (s.setAgeing a).mech.picker = s.mech.picker := rfl
@[simp] theorem State.setAgeing_mech_mail (a : Option Nat) :
    (s.setAgeing a).mech.mail = s.mech.mail := rfl
@[simp] theorem State.setAgeing_mech_ageing (a : Option Nat) :
    (s.setAgeing a).mech.ageing = a := rfl
@[simp] theorem State.setAgeing_mech_pendingExport (a : Option Nat) :
    (s.setAgeing a).mech.pendingExport = s.mech.pendingExport := rfl
@[simp] theorem State.setAgeing_mech_pendingImport (a : Option Nat) :
    (s.setAgeing a).mech.pendingImport = s.mech.pendingImport := rfl
@[simp] theorem State.setAgeing_mech_returns (a : Option Nat) :
    (s.setAgeing a).mech.returns = s.mech.returns := rfl
@[simp] theorem State.setAgeing_mech_startup (a : Option Nat) :
    (s.setAgeing a).mech.startup = s.mech.startup := rfl
@[simp] theorem State.setAgeing_mech_surveyLoaded (a : Option Nat) :
    (s.setAgeing a).mech.surveyLoaded = s.mech.surveyLoaded := rfl

/-! ### setRequest -/

@[simp] theorem State.setRequest_lib (t : Tag) (r : Option Request) : (s.setRequest t r).lib = s.lib := rfl
@[simp] theorem State.setRequest_stations (t : Tag) (r : Option Request) : (s.setRequest t r).stations = s.stations := rfl
@[simp] theorem State.setRequest_traps (t : Tag) (r : Option Request) : (s.setRequest t r).traps = s.traps := rfl
@[simp] theorem State.setRequest_queues (t : Tag) (r : Option Request) : (s.setRequest t r).queues = s.queues := rfl
@[simp] theorem State.setRequest_mech (t : Tag) (r : Option Request) : (s.setRequest t r).mech = s.mech := rfl
@[simp] theorem State.setRequest_sched (t : Tag) (r : Option Request) : (s.setRequest t r).sched = s.sched := rfl
@[simp] theorem State.setRequest_remap (t : Tag) (r : Option Request) : (s.setRequest t r).remap = s.remap := rfl
@[simp] theorem State.setRequest_tariff (t : Tag) (r : Option Request) : (s.setRequest t r).tariff = s.tariff := rfl
@[simp] theorem State.setRequest_ledger (t : Tag) (r : Option Request) : (s.setRequest t r).ledger = s.ledger := rfl
@[simp] theorem State.setRequest_orderResult (t : Tag) (r : Option Request) : (s.setRequest t r).orderResult = s.orderResult := rfl
@[simp] theorem State.setRequest_lock (t : Tag) (r : Option Request) : (s.setRequest t r).lock = s.lock := rfl
@[simp] theorem State.setRequest_attention (t : Tag) (r : Option Request) : (s.setRequest t r).attention = s.attention := rfl
@[simp] theorem State.setRequest_tenths (t : Tag) (r : Option Request) : (s.setRequest t r).tenths = s.tenths := rfl
@[simp] theorem State.setRequest_clock (t : Tag) (r : Option Request) : (s.setRequest t r).clock = s.clock := rfl
@[simp] theorem State.setRequest_keyLine (t : Tag) (r : Option Request) : (s.setRequest t r).keyLine = s.keyLine := rfl
@[simp] theorem State.setRequest_orderAnswer (t : Tag) (r : Option Request) : (s.setRequest t r).orderAnswer = s.orderAnswer := rfl
@[simp] theorem State.setRequest_pending (t : Tag) (r : Option Request) : (s.setRequest t r).pending = s.pending := rfl
@[simp] theorem State.setRequest_chan_requests (t : Tag) (r : Option Request) :
    (s.setRequest t r).chan.requests = s.chan.requests.put t r := rfl
@[simp] theorem State.setRequest_chan_withheld (t : Tag) (r : Option Request) :
    (s.setRequest t r).chan.withheld = s.chan.withheld := rfl
@[simp] theorem State.setRequest_chan_assemblyOrder (t : Tag) (r : Option Request) :
    (s.setRequest t r).chan.assemblyOrder = s.chan.assemblyOrder := rfl
@[simp] theorem State.setRequest_chan_heldList (t : Tag) (r : Option Request) :
    (s.setRequest t r).chan.heldList = s.chan.heldList := rfl
@[simp] theorem State.setRequest_chan_regions (t : Tag) (r : Option Request) :
    (s.setRequest t r).chan.regions = s.chan.regions := rfl
@[simp] theorem State.setRequest_chan_staging (t : Tag) (r : Option Request) :
    (s.setRequest t r).chan.staging = s.chan.staging := rfl
@[simp] theorem State.setRequest_chan_sent (t : Tag) (r : Option Request) :
    (s.setRequest t r).chan.sent = s.chan.sent := rfl

/-! ### setRegion -/

@[simp] theorem State.setRegion_lib (t : Tag) (r : Region) : (s.setRegion t r).lib = s.lib := rfl
@[simp] theorem State.setRegion_stations (t : Tag) (r : Region) : (s.setRegion t r).stations = s.stations := rfl
@[simp] theorem State.setRegion_traps (t : Tag) (r : Region) : (s.setRegion t r).traps = s.traps := rfl
@[simp] theorem State.setRegion_queues (t : Tag) (r : Region) : (s.setRegion t r).queues = s.queues := rfl
@[simp] theorem State.setRegion_mech (t : Tag) (r : Region) : (s.setRegion t r).mech = s.mech := rfl
@[simp] theorem State.setRegion_sched (t : Tag) (r : Region) : (s.setRegion t r).sched = s.sched := rfl
@[simp] theorem State.setRegion_remap (t : Tag) (r : Region) : (s.setRegion t r).remap = s.remap := rfl
@[simp] theorem State.setRegion_tariff (t : Tag) (r : Region) : (s.setRegion t r).tariff = s.tariff := rfl
@[simp] theorem State.setRegion_ledger (t : Tag) (r : Region) : (s.setRegion t r).ledger = s.ledger := rfl
@[simp] theorem State.setRegion_orderResult (t : Tag) (r : Region) : (s.setRegion t r).orderResult = s.orderResult := rfl
@[simp] theorem State.setRegion_lock (t : Tag) (r : Region) : (s.setRegion t r).lock = s.lock := rfl
@[simp] theorem State.setRegion_attention (t : Tag) (r : Region) : (s.setRegion t r).attention = s.attention := rfl
@[simp] theorem State.setRegion_tenths (t : Tag) (r : Region) : (s.setRegion t r).tenths = s.tenths := rfl
@[simp] theorem State.setRegion_clock (t : Tag) (r : Region) : (s.setRegion t r).clock = s.clock := rfl
@[simp] theorem State.setRegion_keyLine (t : Tag) (r : Region) : (s.setRegion t r).keyLine = s.keyLine := rfl
@[simp] theorem State.setRegion_orderAnswer (t : Tag) (r : Region) : (s.setRegion t r).orderAnswer = s.orderAnswer := rfl
@[simp] theorem State.setRegion_pending (t : Tag) (r : Region) : (s.setRegion t r).pending = s.pending := rfl
@[simp] theorem State.setRegion_chan_requests (t : Tag) (r : Region) :
    (s.setRegion t r).chan.requests = s.chan.requests := rfl
@[simp] theorem State.setRegion_chan_withheld (t : Tag) (r : Region) :
    (s.setRegion t r).chan.withheld = s.chan.withheld := rfl
@[simp] theorem State.setRegion_chan_assemblyOrder (t : Tag) (r : Region) :
    (s.setRegion t r).chan.assemblyOrder = s.chan.assemblyOrder := rfl
@[simp] theorem State.setRegion_chan_heldList (t : Tag) (r : Region) :
    (s.setRegion t r).chan.heldList = s.chan.heldList := rfl
@[simp] theorem State.setRegion_chan_regions (t : Tag) (r : Region) :
    (s.setRegion t r).chan.regions = s.chan.regions.put t r := rfl
@[simp] theorem State.setRegion_chan_staging (t : Tag) (r : Region) :
    (s.setRegion t r).chan.staging = s.chan.staging := rfl
@[simp] theorem State.setRegion_chan_sent (t : Tag) (r : Region) :
    (s.setRegion t r).chan.sent = s.chan.sent := rfl

/-! ### setStaging -/

@[simp] theorem State.setStaging_lib (m : List (Nat × Block)) : (s.setStaging m).lib = s.lib := rfl
@[simp] theorem State.setStaging_stations (m : List (Nat × Block)) : (s.setStaging m).stations = s.stations := rfl
@[simp] theorem State.setStaging_traps (m : List (Nat × Block)) : (s.setStaging m).traps = s.traps := rfl
@[simp] theorem State.setStaging_queues (m : List (Nat × Block)) : (s.setStaging m).queues = s.queues := rfl
@[simp] theorem State.setStaging_mech (m : List (Nat × Block)) : (s.setStaging m).mech = s.mech := rfl
@[simp] theorem State.setStaging_sched (m : List (Nat × Block)) : (s.setStaging m).sched = s.sched := rfl
@[simp] theorem State.setStaging_remap (m : List (Nat × Block)) : (s.setStaging m).remap = s.remap := rfl
@[simp] theorem State.setStaging_tariff (m : List (Nat × Block)) : (s.setStaging m).tariff = s.tariff := rfl
@[simp] theorem State.setStaging_ledger (m : List (Nat × Block)) : (s.setStaging m).ledger = s.ledger := rfl
@[simp] theorem State.setStaging_orderResult (m : List (Nat × Block)) : (s.setStaging m).orderResult = s.orderResult := rfl
@[simp] theorem State.setStaging_lock (m : List (Nat × Block)) : (s.setStaging m).lock = s.lock := rfl
@[simp] theorem State.setStaging_attention (m : List (Nat × Block)) : (s.setStaging m).attention = s.attention := rfl
@[simp] theorem State.setStaging_tenths (m : List (Nat × Block)) : (s.setStaging m).tenths = s.tenths := rfl
@[simp] theorem State.setStaging_clock (m : List (Nat × Block)) : (s.setStaging m).clock = s.clock := rfl
@[simp] theorem State.setStaging_keyLine (m : List (Nat × Block)) : (s.setStaging m).keyLine = s.keyLine := rfl
@[simp] theorem State.setStaging_orderAnswer (m : List (Nat × Block)) : (s.setStaging m).orderAnswer = s.orderAnswer := rfl
@[simp] theorem State.setStaging_pending (m : List (Nat × Block)) : (s.setStaging m).pending = s.pending := rfl
@[simp] theorem State.setStaging_chan_requests (m : List (Nat × Block)) :
    (s.setStaging m).chan.requests = s.chan.requests := rfl
@[simp] theorem State.setStaging_chan_withheld (m : List (Nat × Block)) :
    (s.setStaging m).chan.withheld = s.chan.withheld := rfl
@[simp] theorem State.setStaging_chan_assemblyOrder (m : List (Nat × Block)) :
    (s.setStaging m).chan.assemblyOrder = s.chan.assemblyOrder := rfl
@[simp] theorem State.setStaging_chan_heldList (m : List (Nat × Block)) :
    (s.setStaging m).chan.heldList = s.chan.heldList := rfl
@[simp] theorem State.setStaging_chan_regions (m : List (Nat × Block)) :
    (s.setStaging m).chan.regions = s.chan.regions := rfl
@[simp] theorem State.setStaging_chan_staging (m : List (Nat × Block)) :
    (s.setStaging m).chan.staging = m := rfl
@[simp] theorem State.setStaging_chan_sent (m : List (Nat × Block)) :
    (s.setStaging m).chan.sent = s.chan.sent := rfl

/-! ### send -/

@[simp] theorem State.send_lib (a : Sent) : (s.send a).lib = s.lib := rfl
@[simp] theorem State.send_stations (a : Sent) : (s.send a).stations = s.stations := rfl
@[simp] theorem State.send_traps (a : Sent) : (s.send a).traps = s.traps := rfl
@[simp] theorem State.send_queues (a : Sent) : (s.send a).queues = s.queues := rfl
@[simp] theorem State.send_mech (a : Sent) : (s.send a).mech = s.mech := rfl
@[simp] theorem State.send_sched (a : Sent) : (s.send a).sched = s.sched := rfl
@[simp] theorem State.send_remap (a : Sent) : (s.send a).remap = s.remap := rfl
@[simp] theorem State.send_tariff (a : Sent) : (s.send a).tariff = s.tariff := rfl
@[simp] theorem State.send_ledger (a : Sent) : (s.send a).ledger = s.ledger := rfl
@[simp] theorem State.send_orderResult (a : Sent) : (s.send a).orderResult = s.orderResult := rfl
@[simp] theorem State.send_lock (a : Sent) : (s.send a).lock = s.lock := rfl
@[simp] theorem State.send_attention (a : Sent) : (s.send a).attention = s.attention := rfl
@[simp] theorem State.send_tenths (a : Sent) : (s.send a).tenths = s.tenths := rfl
@[simp] theorem State.send_clock (a : Sent) : (s.send a).clock = s.clock := rfl
@[simp] theorem State.send_keyLine (a : Sent) : (s.send a).keyLine = s.keyLine := rfl
@[simp] theorem State.send_orderAnswer (a : Sent) : (s.send a).orderAnswer = s.orderAnswer := rfl
@[simp] theorem State.send_pending (a : Sent) : (s.send a).pending = s.pending := rfl
@[simp] theorem State.send_chan_requests (a : Sent) :
    (s.send a).chan.requests = s.chan.requests := rfl
@[simp] theorem State.send_chan_withheld (a : Sent) :
    (s.send a).chan.withheld = s.chan.withheld := rfl
@[simp] theorem State.send_chan_assemblyOrder (a : Sent) :
    (s.send a).chan.assemblyOrder = s.chan.assemblyOrder := rfl
@[simp] theorem State.send_chan_heldList (a : Sent) :
    (s.send a).chan.heldList = s.chan.heldList := rfl
@[simp] theorem State.send_chan_regions (a : Sent) :
    (s.send a).chan.regions = s.chan.regions := rfl
@[simp] theorem State.send_chan_staging (a : Sent) :
    (s.send a).chan.staging = s.chan.staging := rfl
@[simp] theorem State.send_chan_sent (a : Sent) :
    (s.send a).chan.sent = s.chan.sent ++ [a] := rfl

/-! ### setAssembly -/

@[simp] theorem State.setAssembly_lib (l : List Tag) : (s.setAssembly l).lib = s.lib := rfl
@[simp] theorem State.setAssembly_stations (l : List Tag) : (s.setAssembly l).stations = s.stations := rfl
@[simp] theorem State.setAssembly_traps (l : List Tag) : (s.setAssembly l).traps = s.traps := rfl
@[simp] theorem State.setAssembly_queues (l : List Tag) : (s.setAssembly l).queues = s.queues := rfl
@[simp] theorem State.setAssembly_mech (l : List Tag) : (s.setAssembly l).mech = s.mech := rfl
@[simp] theorem State.setAssembly_sched (l : List Tag) : (s.setAssembly l).sched = s.sched := rfl
@[simp] theorem State.setAssembly_remap (l : List Tag) : (s.setAssembly l).remap = s.remap := rfl
@[simp] theorem State.setAssembly_tariff (l : List Tag) : (s.setAssembly l).tariff = s.tariff := rfl
@[simp] theorem State.setAssembly_ledger (l : List Tag) : (s.setAssembly l).ledger = s.ledger := rfl
@[simp] theorem State.setAssembly_orderResult (l : List Tag) : (s.setAssembly l).orderResult = s.orderResult := rfl
@[simp] theorem State.setAssembly_lock (l : List Tag) : (s.setAssembly l).lock = s.lock := rfl
@[simp] theorem State.setAssembly_attention (l : List Tag) : (s.setAssembly l).attention = s.attention := rfl
@[simp] theorem State.setAssembly_tenths (l : List Tag) : (s.setAssembly l).tenths = s.tenths := rfl
@[simp] theorem State.setAssembly_clock (l : List Tag) : (s.setAssembly l).clock = s.clock := rfl
@[simp] theorem State.setAssembly_keyLine (l : List Tag) : (s.setAssembly l).keyLine = s.keyLine := rfl
@[simp] theorem State.setAssembly_orderAnswer (l : List Tag) : (s.setAssembly l).orderAnswer = s.orderAnswer := rfl
@[simp] theorem State.setAssembly_pending (l : List Tag) : (s.setAssembly l).pending = s.pending := rfl
@[simp] theorem State.setAssembly_chan_requests (l : List Tag) :
    (s.setAssembly l).chan.requests = s.chan.requests := rfl
@[simp] theorem State.setAssembly_chan_withheld (l : List Tag) :
    (s.setAssembly l).chan.withheld = s.chan.withheld := rfl
@[simp] theorem State.setAssembly_chan_assemblyOrder (l : List Tag) :
    (s.setAssembly l).chan.assemblyOrder = l := rfl
@[simp] theorem State.setAssembly_chan_heldList (l : List Tag) :
    (s.setAssembly l).chan.heldList = s.chan.heldList := rfl
@[simp] theorem State.setAssembly_chan_regions (l : List Tag) :
    (s.setAssembly l).chan.regions = s.chan.regions := rfl
@[simp] theorem State.setAssembly_chan_staging (l : List Tag) :
    (s.setAssembly l).chan.staging = s.chan.staging := rfl
@[simp] theorem State.setAssembly_chan_sent (l : List Tag) :
    (s.setAssembly l).chan.sent = s.chan.sent := rfl

/-! ### setHeld -/

@[simp] theorem State.setHeld_lib (l : List Tag) : (s.setHeld l).lib = s.lib := rfl
@[simp] theorem State.setHeld_stations (l : List Tag) : (s.setHeld l).stations = s.stations := rfl
@[simp] theorem State.setHeld_traps (l : List Tag) : (s.setHeld l).traps = s.traps := rfl
@[simp] theorem State.setHeld_queues (l : List Tag) : (s.setHeld l).queues = s.queues := rfl
@[simp] theorem State.setHeld_mech (l : List Tag) : (s.setHeld l).mech = s.mech := rfl
@[simp] theorem State.setHeld_sched (l : List Tag) : (s.setHeld l).sched = s.sched := rfl
@[simp] theorem State.setHeld_remap (l : List Tag) : (s.setHeld l).remap = s.remap := rfl
@[simp] theorem State.setHeld_tariff (l : List Tag) : (s.setHeld l).tariff = s.tariff := rfl
@[simp] theorem State.setHeld_ledger (l : List Tag) : (s.setHeld l).ledger = s.ledger := rfl
@[simp] theorem State.setHeld_orderResult (l : List Tag) : (s.setHeld l).orderResult = s.orderResult := rfl
@[simp] theorem State.setHeld_lock (l : List Tag) : (s.setHeld l).lock = s.lock := rfl
@[simp] theorem State.setHeld_attention (l : List Tag) : (s.setHeld l).attention = s.attention := rfl
@[simp] theorem State.setHeld_tenths (l : List Tag) : (s.setHeld l).tenths = s.tenths := rfl
@[simp] theorem State.setHeld_clock (l : List Tag) : (s.setHeld l).clock = s.clock := rfl
@[simp] theorem State.setHeld_keyLine (l : List Tag) : (s.setHeld l).keyLine = s.keyLine := rfl
@[simp] theorem State.setHeld_orderAnswer (l : List Tag) : (s.setHeld l).orderAnswer = s.orderAnswer := rfl
@[simp] theorem State.setHeld_pending (l : List Tag) : (s.setHeld l).pending = s.pending := rfl
@[simp] theorem State.setHeld_chan_requests (l : List Tag) :
    (s.setHeld l).chan.requests = s.chan.requests := rfl
@[simp] theorem State.setHeld_chan_withheld (l : List Tag) :
    (s.setHeld l).chan.withheld = s.chan.withheld := rfl
@[simp] theorem State.setHeld_chan_assemblyOrder (l : List Tag) :
    (s.setHeld l).chan.assemblyOrder = s.chan.assemblyOrder := rfl
@[simp] theorem State.setHeld_chan_heldList (l : List Tag) :
    (s.setHeld l).chan.heldList = l := rfl
@[simp] theorem State.setHeld_chan_regions (l : List Tag) :
    (s.setHeld l).chan.regions = s.chan.regions := rfl
@[simp] theorem State.setHeld_chan_staging (l : List Tag) :
    (s.setHeld l).chan.staging = s.chan.staging := rfl
@[simp] theorem State.setHeld_chan_sent (l : List Tag) :
    (s.setHeld l).chan.sent = s.chan.sent := rfl

/-! ### setTicket -/

@[simp] theorem State.setTicket_lib (t : Station) (k : Ticket) : (s.setTicket t k).lib = s.lib := rfl
@[simp] theorem State.setTicket_stations (t : Station) (k : Ticket) : (s.setTicket t k).stations = s.stations := rfl
@[simp] theorem State.setTicket_traps (t : Station) (k : Ticket) : (s.setTicket t k).traps = s.traps := rfl
@[simp] theorem State.setTicket_chan (t : Station) (k : Ticket) : (s.setTicket t k).chan = s.chan := rfl
@[simp] theorem State.setTicket_queues (t : Station) (k : Ticket) : (s.setTicket t k).queues = s.queues := rfl
@[simp] theorem State.setTicket_mech (t : Station) (k : Ticket) : (s.setTicket t k).mech = s.mech := rfl
@[simp] theorem State.setTicket_sched (t : Station) (k : Ticket) : (s.setTicket t k).sched = s.sched := rfl
@[simp] theorem State.setTicket_remap (t : Station) (k : Ticket) : (s.setTicket t k).remap = s.remap := rfl
@[simp] theorem State.setTicket_tariff (t : Station) (k : Ticket) : (s.setTicket t k).tariff = s.tariff := rfl
@[simp] theorem State.setTicket_orderResult (t : Station) (k : Ticket) : (s.setTicket t k).orderResult = s.orderResult := rfl
@[simp] theorem State.setTicket_lock (t : Station) (k : Ticket) : (s.setTicket t k).lock = s.lock := rfl
@[simp] theorem State.setTicket_attention (t : Station) (k : Ticket) : (s.setTicket t k).attention = s.attention := rfl
@[simp] theorem State.setTicket_tenths (t : Station) (k : Ticket) : (s.setTicket t k).tenths = s.tenths := rfl
@[simp] theorem State.setTicket_clock (t : Station) (k : Ticket) : (s.setTicket t k).clock = s.clock := rfl
@[simp] theorem State.setTicket_keyLine (t : Station) (k : Ticket) : (s.setTicket t k).keyLine = s.keyLine := rfl
@[simp] theorem State.setTicket_orderAnswer (t : Station) (k : Ticket) : (s.setTicket t k).orderAnswer = s.orderAnswer := rfl
@[simp] theorem State.setTicket_pending (t : Station) (k : Ticket) : (s.setTicket t k).pending = s.pending := rfl
@[simp] theorem State.setTicket_ledger_tickets (t : Station) (k : Ticket) :
    (s.setTicket t k).ledger.tickets = s.ledger.tickets.put t k := rfl
@[simp] theorem State.setTicket_ledger_dueList (t : Station) (k : Ticket) :
    (s.setTicket t k).ledger.dueList = s.ledger.dueList := rfl
@[simp] theorem State.setTicket_ledger_accounts (t : Station) (k : Ticket) :
    (s.setTicket t k).ledger.accounts = s.ledger.accounts := rfl
@[simp] theorem State.setTicket_ledger_journal (t : Station) (k : Ticket) :
    (s.setTicket t k).ledger.journal = s.ledger.journal := rfl
@[simp] theorem State.setTicket_ledger_nextSeq (t : Station) (k : Ticket) :
    (s.setTicket t k).ledger.nextSeq = s.ledger.nextSeq := rfl
@[simp] theorem State.setTicket_ledger_noticeLeft (t : Station) (k : Ticket) :
    (s.setTicket t k).ledger.noticeLeft = s.ledger.noticeLeft := rfl

/-! ### setAccount -/

@[simp] theorem State.setAccount_lib (a : Account) (r : DepositAccount) : (s.setAccount a r).lib = s.lib := rfl
@[simp] theorem State.setAccount_stations (a : Account) (r : DepositAccount) : (s.setAccount a r).stations = s.stations := rfl
@[simp] theorem State.setAccount_traps (a : Account) (r : DepositAccount) : (s.setAccount a r).traps = s.traps := rfl
@[simp] theorem State.setAccount_chan (a : Account) (r : DepositAccount) : (s.setAccount a r).chan = s.chan := rfl
@[simp] theorem State.setAccount_queues (a : Account) (r : DepositAccount) : (s.setAccount a r).queues = s.queues := rfl
@[simp] theorem State.setAccount_mech (a : Account) (r : DepositAccount) : (s.setAccount a r).mech = s.mech := rfl
@[simp] theorem State.setAccount_sched (a : Account) (r : DepositAccount) : (s.setAccount a r).sched = s.sched := rfl
@[simp] theorem State.setAccount_remap (a : Account) (r : DepositAccount) : (s.setAccount a r).remap = s.remap := rfl
@[simp] theorem State.setAccount_tariff (a : Account) (r : DepositAccount) : (s.setAccount a r).tariff = s.tariff := rfl
@[simp] theorem State.setAccount_orderResult (a : Account) (r : DepositAccount) : (s.setAccount a r).orderResult = s.orderResult := rfl
@[simp] theorem State.setAccount_lock (a : Account) (r : DepositAccount) : (s.setAccount a r).lock = s.lock := rfl
@[simp] theorem State.setAccount_attention (a : Account) (r : DepositAccount) : (s.setAccount a r).attention = s.attention := rfl
@[simp] theorem State.setAccount_tenths (a : Account) (r : DepositAccount) : (s.setAccount a r).tenths = s.tenths := rfl
@[simp] theorem State.setAccount_clock (a : Account) (r : DepositAccount) : (s.setAccount a r).clock = s.clock := rfl
@[simp] theorem State.setAccount_keyLine (a : Account) (r : DepositAccount) : (s.setAccount a r).keyLine = s.keyLine := rfl
@[simp] theorem State.setAccount_orderAnswer (a : Account) (r : DepositAccount) : (s.setAccount a r).orderAnswer = s.orderAnswer := rfl
@[simp] theorem State.setAccount_pending (a : Account) (r : DepositAccount) : (s.setAccount a r).pending = s.pending := rfl
@[simp] theorem State.setAccount_ledger_tickets (a : Account) (r : DepositAccount) :
    (s.setAccount a r).ledger.tickets = s.ledger.tickets := rfl
@[simp] theorem State.setAccount_ledger_dueList (a : Account) (r : DepositAccount) :
    (s.setAccount a r).ledger.dueList = s.ledger.dueList := rfl
@[simp] theorem State.setAccount_ledger_accounts (a : Account) (r : DepositAccount) :
    (s.setAccount a r).ledger.accounts = s.ledger.accounts.put a r := rfl
@[simp] theorem State.setAccount_ledger_journal (a : Account) (r : DepositAccount) :
    (s.setAccount a r).ledger.journal = s.ledger.journal := rfl
@[simp] theorem State.setAccount_ledger_nextSeq (a : Account) (r : DepositAccount) :
    (s.setAccount a r).ledger.nextSeq = s.ledger.nextSeq := rfl
@[simp] theorem State.setAccount_ledger_noticeLeft (a : Account) (r : DepositAccount) :
    (s.setAccount a r).ledger.noticeLeft = s.ledger.noticeLeft := rfl

/-! ### setTrap -/

@[simp] theorem State.setTrap_lib (t : Station) (r : TrapRecord) : (s.setTrap t r).lib = s.lib := rfl
@[simp] theorem State.setTrap_stations (t : Station) (r : TrapRecord) : (s.setTrap t r).stations = s.stations := rfl
@[simp] theorem State.setTrap_chan (t : Station) (r : TrapRecord) : (s.setTrap t r).chan = s.chan := rfl
@[simp] theorem State.setTrap_queues (t : Station) (r : TrapRecord) : (s.setTrap t r).queues = s.queues := rfl
@[simp] theorem State.setTrap_mech (t : Station) (r : TrapRecord) : (s.setTrap t r).mech = s.mech := rfl
@[simp] theorem State.setTrap_sched (t : Station) (r : TrapRecord) : (s.setTrap t r).sched = s.sched := rfl
@[simp] theorem State.setTrap_remap (t : Station) (r : TrapRecord) : (s.setTrap t r).remap = s.remap := rfl
@[simp] theorem State.setTrap_tariff (t : Station) (r : TrapRecord) : (s.setTrap t r).tariff = s.tariff := rfl
@[simp] theorem State.setTrap_ledger (t : Station) (r : TrapRecord) : (s.setTrap t r).ledger = s.ledger := rfl
@[simp] theorem State.setTrap_orderResult (t : Station) (r : TrapRecord) : (s.setTrap t r).orderResult = s.orderResult := rfl
@[simp] theorem State.setTrap_lock (t : Station) (r : TrapRecord) : (s.setTrap t r).lock = s.lock := rfl
@[simp] theorem State.setTrap_attention (t : Station) (r : TrapRecord) : (s.setTrap t r).attention = s.attention := rfl
@[simp] theorem State.setTrap_tenths (t : Station) (r : TrapRecord) : (s.setTrap t r).tenths = s.tenths := rfl
@[simp] theorem State.setTrap_clock (t : Station) (r : TrapRecord) : (s.setTrap t r).clock = s.clock := rfl
@[simp] theorem State.setTrap_keyLine (t : Station) (r : TrapRecord) : (s.setTrap t r).keyLine = s.keyLine := rfl
@[simp] theorem State.setTrap_orderAnswer (t : Station) (r : TrapRecord) : (s.setTrap t r).orderAnswer = s.orderAnswer := rfl
@[simp] theorem State.setTrap_pending (t : Station) (r : TrapRecord) : (s.setTrap t r).pending = s.pending := rfl
@[simp] theorem State.setTrap_traps (t : Station) (r : TrapRecord) : (s.setTrap t r).traps = s.traps.put t r := rfl

/-! ### setStation -/

@[simp] theorem State.setStation_lib (t : Station) (e : StationEntry) : (s.setStation t e).lib = s.lib := rfl
@[simp] theorem State.setStation_traps (t : Station) (e : StationEntry) : (s.setStation t e).traps = s.traps := rfl
@[simp] theorem State.setStation_chan (t : Station) (e : StationEntry) : (s.setStation t e).chan = s.chan := rfl
@[simp] theorem State.setStation_queues (t : Station) (e : StationEntry) : (s.setStation t e).queues = s.queues := rfl
@[simp] theorem State.setStation_mech (t : Station) (e : StationEntry) : (s.setStation t e).mech = s.mech := rfl
@[simp] theorem State.setStation_sched (t : Station) (e : StationEntry) : (s.setStation t e).sched = s.sched := rfl
@[simp] theorem State.setStation_remap (t : Station) (e : StationEntry) : (s.setStation t e).remap = s.remap := rfl
@[simp] theorem State.setStation_tariff (t : Station) (e : StationEntry) : (s.setStation t e).tariff = s.tariff := rfl
@[simp] theorem State.setStation_ledger (t : Station) (e : StationEntry) : (s.setStation t e).ledger = s.ledger := rfl
@[simp] theorem State.setStation_orderResult (t : Station) (e : StationEntry) : (s.setStation t e).orderResult = s.orderResult := rfl
@[simp] theorem State.setStation_lock (t : Station) (e : StationEntry) : (s.setStation t e).lock = s.lock := rfl
@[simp] theorem State.setStation_attention (t : Station) (e : StationEntry) : (s.setStation t e).attention = s.attention := rfl
@[simp] theorem State.setStation_tenths (t : Station) (e : StationEntry) : (s.setStation t e).tenths = s.tenths := rfl
@[simp] theorem State.setStation_clock (t : Station) (e : StationEntry) : (s.setStation t e).clock = s.clock := rfl
@[simp] theorem State.setStation_keyLine (t : Station) (e : StationEntry) : (s.setStation t e).keyLine = s.keyLine := rfl
@[simp] theorem State.setStation_orderAnswer (t : Station) (e : StationEntry) : (s.setStation t e).orderAnswer = s.orderAnswer := rfl
@[simp] theorem State.setStation_pending (t : Station) (e : StationEntry) : (s.setStation t e).pending = s.pending := rfl
@[simp] theorem State.setStation_stations (t : Station) (e : StationEntry) : (s.setStation t e).stations = s.stations.put t e := rfl

/-! ### setRemap -/

@[simp] theorem State.setRemap_lib (r : Remap) : (s.setRemap r).lib = s.lib := rfl
@[simp] theorem State.setRemap_stations (r : Remap) : (s.setRemap r).stations = s.stations := rfl
@[simp] theorem State.setRemap_traps (r : Remap) : (s.setRemap r).traps = s.traps := rfl
@[simp] theorem State.setRemap_chan (r : Remap) : (s.setRemap r).chan = s.chan := rfl
@[simp] theorem State.setRemap_queues (r : Remap) : (s.setRemap r).queues = s.queues := rfl
@[simp] theorem State.setRemap_mech (r : Remap) : (s.setRemap r).mech = s.mech := rfl
@[simp] theorem State.setRemap_sched (r : Remap) : (s.setRemap r).sched = s.sched := rfl
@[simp] theorem State.setRemap_tariff (r : Remap) : (s.setRemap r).tariff = s.tariff := rfl
@[simp] theorem State.setRemap_ledger (r : Remap) : (s.setRemap r).ledger = s.ledger := rfl
@[simp] theorem State.setRemap_orderResult (r : Remap) : (s.setRemap r).orderResult = s.orderResult := rfl
@[simp] theorem State.setRemap_lock (r : Remap) : (s.setRemap r).lock = s.lock := rfl
@[simp] theorem State.setRemap_attention (r : Remap) : (s.setRemap r).attention = s.attention := rfl
@[simp] theorem State.setRemap_tenths (r : Remap) : (s.setRemap r).tenths = s.tenths := rfl
@[simp] theorem State.setRemap_clock (r : Remap) : (s.setRemap r).clock = s.clock := rfl
@[simp] theorem State.setRemap_keyLine (r : Remap) : (s.setRemap r).keyLine = s.keyLine := rfl
@[simp] theorem State.setRemap_orderAnswer (r : Remap) : (s.setRemap r).orderAnswer = s.orderAnswer := rfl
@[simp] theorem State.setRemap_pending (r : Remap) : (s.setRemap r).pending = s.pending := rfl
@[simp] theorem State.setRemap_remap (r : Remap) : (s.setRemap r).remap = r := rfl

/-! ### sampleKey -/

@[simp] theorem State.sampleKey_lib (key : Bool) : (s.sampleKey key).lib = s.lib := rfl
@[simp] theorem State.sampleKey_stations (key : Bool) : (s.sampleKey key).stations = s.stations := rfl
@[simp] theorem State.sampleKey_traps (key : Bool) : (s.sampleKey key).traps = s.traps := rfl
@[simp] theorem State.sampleKey_chan (key : Bool) : (s.sampleKey key).chan = s.chan := rfl
@[simp] theorem State.sampleKey_queues (key : Bool) : (s.sampleKey key).queues = s.queues := rfl
@[simp] theorem State.sampleKey_mech (key : Bool) : (s.sampleKey key).mech = s.mech := rfl
@[simp] theorem State.sampleKey_sched (key : Bool) : (s.sampleKey key).sched = s.sched := rfl
@[simp] theorem State.sampleKey_remap (key : Bool) : (s.sampleKey key).remap = s.remap := rfl
@[simp] theorem State.sampleKey_tariff (key : Bool) : (s.sampleKey key).tariff = s.tariff := rfl
@[simp] theorem State.sampleKey_ledger (key : Bool) : (s.sampleKey key).ledger = s.ledger := rfl
@[simp] theorem State.sampleKey_orderResult (key : Bool) : (s.sampleKey key).orderResult = s.orderResult := rfl
@[simp] theorem State.sampleKey_lock (key : Bool) : (s.sampleKey key).lock = s.lock := rfl
@[simp] theorem State.sampleKey_attention (key : Bool) : (s.sampleKey key).attention = s.attention := rfl
@[simp] theorem State.sampleKey_tenths (key : Bool) : (s.sampleKey key).tenths = s.tenths := rfl
@[simp] theorem State.sampleKey_clock (key : Bool) : (s.sampleKey key).clock = s.clock := rfl
@[simp] theorem State.sampleKey_orderAnswer (key : Bool) : (s.sampleKey key).orderAnswer = s.orderAnswer := rfl
@[simp] theorem State.sampleKey_pending (key : Bool) : (s.sampleKey key).pending = s.pending := rfl
@[simp] theorem State.sampleKey_keyLine (key : Bool) : (s.sampleKey key).keyLine = key := rfl

/-! ### raise -/

@[simp] theorem State.raise_lib (c : Cause) : (s.raise c).lib = s.lib := rfl
@[simp] theorem State.raise_stations (c : Cause) : (s.raise c).stations = s.stations := rfl
@[simp] theorem State.raise_traps (c : Cause) : (s.raise c).traps = s.traps := rfl
@[simp] theorem State.raise_chan (c : Cause) : (s.raise c).chan = s.chan := rfl
@[simp] theorem State.raise_queues (c : Cause) : (s.raise c).queues = s.queues := rfl
@[simp] theorem State.raise_mech (c : Cause) : (s.raise c).mech = s.mech := rfl
@[simp] theorem State.raise_sched (c : Cause) : (s.raise c).sched = s.sched := rfl
@[simp] theorem State.raise_remap (c : Cause) : (s.raise c).remap = s.remap := rfl
@[simp] theorem State.raise_tariff (c : Cause) : (s.raise c).tariff = s.tariff := rfl
@[simp] theorem State.raise_ledger (c : Cause) : (s.raise c).ledger = s.ledger := rfl
@[simp] theorem State.raise_orderResult (c : Cause) : (s.raise c).orderResult = s.orderResult := rfl
@[simp] theorem State.raise_lock (c : Cause) : (s.raise c).lock = s.lock := rfl
@[simp] theorem State.raise_tenths (c : Cause) : (s.raise c).tenths = s.tenths := rfl
@[simp] theorem State.raise_clock (c : Cause) : (s.raise c).clock = s.clock := rfl
@[simp] theorem State.raise_keyLine (c : Cause) : (s.raise c).keyLine = s.keyLine := rfl
@[simp] theorem State.raise_orderAnswer (c : Cause) : (s.raise c).orderAnswer = s.orderAnswer := rfl
@[simp] theorem State.raise_pending (c : Cause) : (s.raise c).pending = s.pending := rfl
@[simp] theorem State.raise_attention (c : Cause) : (s.raise c).attention = { s.attention with pending := s.attention.pending ||| c.flag } := rfl

/-! ### clearCauses -/

@[simp] theorem State.clearCauses_lib (f : BitVec 12) : (s.clearCauses f).lib = s.lib := rfl
@[simp] theorem State.clearCauses_stations (f : BitVec 12) : (s.clearCauses f).stations = s.stations := rfl
@[simp] theorem State.clearCauses_traps (f : BitVec 12) : (s.clearCauses f).traps = s.traps := rfl
@[simp] theorem State.clearCauses_chan (f : BitVec 12) : (s.clearCauses f).chan = s.chan := rfl
@[simp] theorem State.clearCauses_queues (f : BitVec 12) : (s.clearCauses f).queues = s.queues := rfl
@[simp] theorem State.clearCauses_mech (f : BitVec 12) : (s.clearCauses f).mech = s.mech := rfl
@[simp] theorem State.clearCauses_sched (f : BitVec 12) : (s.clearCauses f).sched = s.sched := rfl
@[simp] theorem State.clearCauses_remap (f : BitVec 12) : (s.clearCauses f).remap = s.remap := rfl
@[simp] theorem State.clearCauses_tariff (f : BitVec 12) : (s.clearCauses f).tariff = s.tariff := rfl
@[simp] theorem State.clearCauses_ledger (f : BitVec 12) : (s.clearCauses f).ledger = s.ledger := rfl
@[simp] theorem State.clearCauses_orderResult (f : BitVec 12) : (s.clearCauses f).orderResult = s.orderResult := rfl
@[simp] theorem State.clearCauses_lock (f : BitVec 12) : (s.clearCauses f).lock = s.lock := rfl
@[simp] theorem State.clearCauses_tenths (f : BitVec 12) : (s.clearCauses f).tenths = s.tenths := rfl
@[simp] theorem State.clearCauses_clock (f : BitVec 12) : (s.clearCauses f).clock = s.clock := rfl
@[simp] theorem State.clearCauses_keyLine (f : BitVec 12) : (s.clearCauses f).keyLine = s.keyLine := rfl
@[simp] theorem State.clearCauses_orderAnswer (f : BitVec 12) : (s.clearCauses f).orderAnswer = s.orderAnswer := rfl
@[simp] theorem State.clearCauses_pending (f : BitVec 12) : (s.clearCauses f).pending = s.pending := rfl
@[simp] theorem State.clearCauses_attention (f : BitVec 12) : (s.clearCauses f).attention = { s.attention with pending := s.attention.pending &&& (~~~f ||| s.heldFlags) } := rfl

/-! ### maskCauses -/

@[simp] theorem State.maskCauses_lib (f : BitVec 12) (b : Bool) : (s.maskCauses f b).lib = s.lib := rfl
@[simp] theorem State.maskCauses_stations (f : BitVec 12) (b : Bool) : (s.maskCauses f b).stations = s.stations := rfl
@[simp] theorem State.maskCauses_traps (f : BitVec 12) (b : Bool) : (s.maskCauses f b).traps = s.traps := rfl
@[simp] theorem State.maskCauses_chan (f : BitVec 12) (b : Bool) : (s.maskCauses f b).chan = s.chan := rfl
@[simp] theorem State.maskCauses_queues (f : BitVec 12) (b : Bool) : (s.maskCauses f b).queues = s.queues := rfl
@[simp] theorem State.maskCauses_mech (f : BitVec 12) (b : Bool) : (s.maskCauses f b).mech = s.mech := rfl
@[simp] theorem State.maskCauses_sched (f : BitVec 12) (b : Bool) : (s.maskCauses f b).sched = s.sched := rfl
@[simp] theorem State.maskCauses_remap (f : BitVec 12) (b : Bool) : (s.maskCauses f b).remap = s.remap := rfl
@[simp] theorem State.maskCauses_tariff (f : BitVec 12) (b : Bool) : (s.maskCauses f b).tariff = s.tariff := rfl
@[simp] theorem State.maskCauses_ledger (f : BitVec 12) (b : Bool) : (s.maskCauses f b).ledger = s.ledger := rfl
@[simp] theorem State.maskCauses_orderResult (f : BitVec 12) (b : Bool) : (s.maskCauses f b).orderResult = s.orderResult := rfl
@[simp] theorem State.maskCauses_lock (f : BitVec 12) (b : Bool) : (s.maskCauses f b).lock = s.lock := rfl
@[simp] theorem State.maskCauses_tenths (f : BitVec 12) (b : Bool) : (s.maskCauses f b).tenths = s.tenths := rfl
@[simp] theorem State.maskCauses_clock (f : BitVec 12) (b : Bool) : (s.maskCauses f b).clock = s.clock := rfl
@[simp] theorem State.maskCauses_keyLine (f : BitVec 12) (b : Bool) : (s.maskCauses f b).keyLine = s.keyLine := rfl
@[simp] theorem State.maskCauses_orderAnswer (f : BitVec 12) (b : Bool) : (s.maskCauses f b).orderAnswer = s.orderAnswer := rfl
@[simp] theorem State.maskCauses_pending (f : BitVec 12) (b : Bool) : (s.maskCauses f b).pending = s.pending := rfl
@[simp] theorem State.maskCauses_attention (f : BitVec 12) (b : Bool) : (s.maskCauses f b).attention = { s.attention with masked := if b then s.attention.masked ||| f else s.attention.masked &&& ~~~f } := rfl

/-! ### One record after its own update -/

theorem State.side_setSide (i j : Side) (r : SideRecord) :
    (s.setSide i r).side j = if i = j then r else s.side j := Table.at_put _ i j r
@[simp] theorem State.side_setSide_same (i : Side) (r : SideRecord) : (s.setSide i r).side i = r :=
  Table.at_put_same _ i r
theorem State.side_setSide_ne {i j : Side} (r : SideRecord) (h : i ≠ j) :
    (s.setSide i r).side j = s.side j := Table.at_put_ne _ r h

theorem State.cart_setCart (i j : Cart) (r : CartridgeRecord) :
    (s.setCart i r).cart j = if i = j then r else s.cart j := Table.at_put _ i j r
@[simp] theorem State.cart_setCart_same (i : Cart) (r : CartridgeRecord) : (s.setCart i r).cart i = r :=
  Table.at_put_same _ i r
theorem State.cart_setCart_ne {i j : Cart} (r : CartridgeRecord) (h : i ≠ j) :
    (s.setCart i r).cart j = s.cart j := Table.at_put_ne _ r h

theorem State.queue_setQueue (i j : Side) (r : List QEntry) :
    (s.setQueue i r).queue j = if i = j then r else s.queue j := Table.at_put _ i j r
@[simp] theorem State.queue_setQueue_same (i : Side) (r : List QEntry) : (s.setQueue i r).queue i = r :=
  Table.at_put_same _ i r
theorem State.queue_setQueue_ne {i j : Side} (r : List QEntry) (h : i ≠ j) :
    (s.setQueue i r).queue j = s.queue j := Table.at_put_ne _ r h

theorem State.drive_setDrive (i j : DriveNo) (r : Drive) :
    (s.setDrive i r).drive j = if i = j then r else s.drive j := Table.at_put _ i j r
@[simp] theorem State.drive_setDrive_same (i : DriveNo) (r : Drive) : (s.setDrive i r).drive i = r :=
  Table.at_put_same _ i r
theorem State.drive_setDrive_ne {i j : DriveNo} (r : Drive) (h : i ≠ j) :
    (s.setDrive i r).drive j = s.drive j := Table.at_put_ne _ r h

theorem State.request_setRequest (i j : Tag) (r : Option Request) :
    (s.setRequest i r).request j = if i = j then r else s.request j := Table.at_put _ i j r
@[simp] theorem State.request_setRequest_same (i : Tag) (r : Option Request) : (s.setRequest i r).request i = r :=
  Table.at_put_same _ i r
theorem State.request_setRequest_ne {i j : Tag} (r : Option Request) (h : i ≠ j) :
    (s.setRequest i r).request j = s.request j := Table.at_put_ne _ r h

theorem State.ticket_setTicket (i j : Station) (r : Ticket) :
    (s.setTicket i r).ticket j = if i = j then r else s.ticket j := Table.at_put _ i j r
@[simp] theorem State.ticket_setTicket_same (i : Station) (r : Ticket) : (s.setTicket i r).ticket i = r :=
  Table.at_put_same _ i r
theorem State.ticket_setTicket_ne {i j : Station} (r : Ticket) (h : i ≠ j) :
    (s.setTicket i r).ticket j = s.ticket j := Table.at_put_ne _ r h

theorem State.account_setAccount (i j : Account) (r : DepositAccount) :
    (s.setAccount i r).account j = if i = j then r else s.account j := Table.at_put _ i j r
@[simp] theorem State.account_setAccount_same (i : Account) (r : DepositAccount) : (s.setAccount i r).account i = r :=
  Table.at_put_same _ i r
theorem State.account_setAccount_ne {i j : Account} (r : DepositAccount) (h : i ≠ j) :
    (s.setAccount i r).account j = s.account j := Table.at_put_ne _ r h

theorem State.station_setStation (i j : Station) (r : StationEntry) :
    (s.setStation i r).station j = if i = j then r else s.station j := Table.at_put _ i j r
@[simp] theorem State.station_setStation_same (i : Station) (r : StationEntry) : (s.setStation i r).station i = r :=
  Table.at_put_same _ i r
theorem State.station_setStation_ne {i j : Station} (r : StationEntry) (h : i ≠ j) :
    (s.setStation i r).station j = s.station j := Table.at_put_ne _ r h

/-! ### One record after the update of another -/

@[simp] theorem State.side_setCart (n : Cart) (r : CartridgeRecord) (i : Side) :
    (s.setCart n r).side i = s.side i := rfl
@[simp] theorem State.side_setQueue (x : Side) (q : List QEntry) (i : Side) :
    (s.setQueue x q).side i = s.side i := rfl
@[simp] theorem State.side_setDrive (d : DriveNo) (r : Drive) (i : Side) :
    (s.setDrive d r).side i = s.side i := rfl
@[simp] theorem State.side_setPicker (p : Picker) (i : Side) :
    (s.setPicker p).side i = s.side i := rfl
@[simp] theorem State.side_setMail (m : MailSlot) (i : Side) :
    (s.setMail m).side i = s.side i := rfl
@[simp] theorem State.side_setExport (n : Option Cart) (i : Side) :
    (s.setExport n).side i = s.side i := rfl
@[simp] theorem State.side_setImport (n : Option Cart) (i : Side) :
    (s.setImport n).side i = s.side i := rfl
@[simp] theorem State.side_setReturn (d : DriveNo) (b : Bool) (i : Side) :
    (s.setReturn d b).side i = s.side i := rfl
@[simp] theorem State.side_setStartup (u : Startup) (i : Side) :
    (s.setStartup u).side i = s.side i := rfl
@[simp] theorem State.side_setAgeing (a : Option Nat) (i : Side) :
    (s.setAgeing a).side i = s.side i := rfl
@[simp] theorem State.side_setRequest (t : Tag) (r : Option Request) (i : Side) :
    (s.setRequest t r).side i = s.side i := rfl
@[simp] theorem State.side_setRegion (t : Tag) (r : Region) (i : Side) :
    (s.setRegion t r).side i = s.side i := rfl
@[simp] theorem State.side_setStaging (m : List (Nat × Block)) (i : Side) :
    (s.setStaging m).side i = s.side i := rfl
@[simp] theorem State.side_send (a : Sent) (i : Side) :
    (s.send a).side i = s.side i := rfl
@[simp] theorem State.side_setAssembly (l : List Tag) (i : Side) :
    (s.setAssembly l).side i = s.side i := rfl
@[simp] theorem State.side_setHeld (l : List Tag) (i : Side) :
    (s.setHeld l).side i = s.side i := rfl
@[simp] theorem State.side_setTicket (t : Station) (k : Ticket) (i : Side) :
    (s.setTicket t k).side i = s.side i := rfl
@[simp] theorem State.side_setAccount (a : Account) (r : DepositAccount) (i : Side) :
    (s.setAccount a r).side i = s.side i := rfl
@[simp] theorem State.side_setTrap (t : Station) (r : TrapRecord) (i : Side) :
    (s.setTrap t r).side i = s.side i := rfl
@[simp] theorem State.side_setStation (t : Station) (e : StationEntry) (i : Side) :
    (s.setStation t e).side i = s.side i := rfl
@[simp] theorem State.side_setRemap (r : Remap) (i : Side) :
    (s.setRemap r).side i = s.side i := rfl
@[simp] theorem State.side_sampleKey (key : Bool) (i : Side) :
    (s.sampleKey key).side i = s.side i := rfl
@[simp] theorem State.side_raise (c : Cause) (i : Side) :
    (s.raise c).side i = s.side i := rfl
@[simp] theorem State.side_clearCauses (f : BitVec 12) (i : Side) :
    (s.clearCauses f).side i = s.side i := rfl
@[simp] theorem State.side_maskCauses (f : BitVec 12) (b : Bool) (i : Side) :
    (s.maskCauses f b).side i = s.side i := rfl

@[simp] theorem State.cart_setSide (x : Side) (r : SideRecord) (i : Cart) :
    (s.setSide x r).cart i = s.cart i := rfl
@[simp] theorem State.cart_setQueue (x : Side) (q : List QEntry) (i : Cart) :
    (s.setQueue x q).cart i = s.cart i := rfl
@[simp] theorem State.cart_setDrive (d : DriveNo) (r : Drive) (i : Cart) :
    (s.setDrive d r).cart i = s.cart i := rfl
@[simp] theorem State.cart_setPicker (p : Picker) (i : Cart) :
    (s.setPicker p).cart i = s.cart i := rfl
@[simp] theorem State.cart_setMail (m : MailSlot) (i : Cart) :
    (s.setMail m).cart i = s.cart i := rfl
@[simp] theorem State.cart_setExport (n : Option Cart) (i : Cart) :
    (s.setExport n).cart i = s.cart i := rfl
@[simp] theorem State.cart_setImport (n : Option Cart) (i : Cart) :
    (s.setImport n).cart i = s.cart i := rfl
@[simp] theorem State.cart_setReturn (d : DriveNo) (b : Bool) (i : Cart) :
    (s.setReturn d b).cart i = s.cart i := rfl
@[simp] theorem State.cart_setStartup (u : Startup) (i : Cart) :
    (s.setStartup u).cart i = s.cart i := rfl
@[simp] theorem State.cart_setAgeing (a : Option Nat) (i : Cart) :
    (s.setAgeing a).cart i = s.cart i := rfl
@[simp] theorem State.cart_setRequest (t : Tag) (r : Option Request) (i : Cart) :
    (s.setRequest t r).cart i = s.cart i := rfl
@[simp] theorem State.cart_setRegion (t : Tag) (r : Region) (i : Cart) :
    (s.setRegion t r).cart i = s.cart i := rfl
@[simp] theorem State.cart_setStaging (m : List (Nat × Block)) (i : Cart) :
    (s.setStaging m).cart i = s.cart i := rfl
@[simp] theorem State.cart_send (a : Sent) (i : Cart) :
    (s.send a).cart i = s.cart i := rfl
@[simp] theorem State.cart_setAssembly (l : List Tag) (i : Cart) :
    (s.setAssembly l).cart i = s.cart i := rfl
@[simp] theorem State.cart_setHeld (l : List Tag) (i : Cart) :
    (s.setHeld l).cart i = s.cart i := rfl
@[simp] theorem State.cart_setTicket (t : Station) (k : Ticket) (i : Cart) :
    (s.setTicket t k).cart i = s.cart i := rfl
@[simp] theorem State.cart_setAccount (a : Account) (r : DepositAccount) (i : Cart) :
    (s.setAccount a r).cart i = s.cart i := rfl
@[simp] theorem State.cart_setTrap (t : Station) (r : TrapRecord) (i : Cart) :
    (s.setTrap t r).cart i = s.cart i := rfl
@[simp] theorem State.cart_setStation (t : Station) (e : StationEntry) (i : Cart) :
    (s.setStation t e).cart i = s.cart i := rfl
@[simp] theorem State.cart_setRemap (r : Remap) (i : Cart) :
    (s.setRemap r).cart i = s.cart i := rfl
@[simp] theorem State.cart_sampleKey (key : Bool) (i : Cart) :
    (s.sampleKey key).cart i = s.cart i := rfl
@[simp] theorem State.cart_raise (c : Cause) (i : Cart) :
    (s.raise c).cart i = s.cart i := rfl
@[simp] theorem State.cart_clearCauses (f : BitVec 12) (i : Cart) :
    (s.clearCauses f).cart i = s.cart i := rfl
@[simp] theorem State.cart_maskCauses (f : BitVec 12) (b : Bool) (i : Cart) :
    (s.maskCauses f b).cart i = s.cart i := rfl

@[simp] theorem State.queue_setSide (x : Side) (r : SideRecord) (i : Side) :
    (s.setSide x r).queue i = s.queue i := rfl
@[simp] theorem State.queue_setCart (n : Cart) (r : CartridgeRecord) (i : Side) :
    (s.setCart n r).queue i = s.queue i := rfl
@[simp] theorem State.queue_setDrive (d : DriveNo) (r : Drive) (i : Side) :
    (s.setDrive d r).queue i = s.queue i := rfl
@[simp] theorem State.queue_setPicker (p : Picker) (i : Side) :
    (s.setPicker p).queue i = s.queue i := rfl
@[simp] theorem State.queue_setMail (m : MailSlot) (i : Side) :
    (s.setMail m).queue i = s.queue i := rfl
@[simp] theorem State.queue_setExport (n : Option Cart) (i : Side) :
    (s.setExport n).queue i = s.queue i := rfl
@[simp] theorem State.queue_setImport (n : Option Cart) (i : Side) :
    (s.setImport n).queue i = s.queue i := rfl
@[simp] theorem State.queue_setReturn (d : DriveNo) (b : Bool) (i : Side) :
    (s.setReturn d b).queue i = s.queue i := rfl
@[simp] theorem State.queue_setStartup (u : Startup) (i : Side) :
    (s.setStartup u).queue i = s.queue i := rfl
@[simp] theorem State.queue_setAgeing (a : Option Nat) (i : Side) :
    (s.setAgeing a).queue i = s.queue i := rfl
@[simp] theorem State.queue_setRequest (t : Tag) (r : Option Request) (i : Side) :
    (s.setRequest t r).queue i = s.queue i := rfl
@[simp] theorem State.queue_setRegion (t : Tag) (r : Region) (i : Side) :
    (s.setRegion t r).queue i = s.queue i := rfl
@[simp] theorem State.queue_setStaging (m : List (Nat × Block)) (i : Side) :
    (s.setStaging m).queue i = s.queue i := rfl
@[simp] theorem State.queue_send (a : Sent) (i : Side) :
    (s.send a).queue i = s.queue i := rfl
@[simp] theorem State.queue_setAssembly (l : List Tag) (i : Side) :
    (s.setAssembly l).queue i = s.queue i := rfl
@[simp] theorem State.queue_setHeld (l : List Tag) (i : Side) :
    (s.setHeld l).queue i = s.queue i := rfl
@[simp] theorem State.queue_setTicket (t : Station) (k : Ticket) (i : Side) :
    (s.setTicket t k).queue i = s.queue i := rfl
@[simp] theorem State.queue_setAccount (a : Account) (r : DepositAccount) (i : Side) :
    (s.setAccount a r).queue i = s.queue i := rfl
@[simp] theorem State.queue_setTrap (t : Station) (r : TrapRecord) (i : Side) :
    (s.setTrap t r).queue i = s.queue i := rfl
@[simp] theorem State.queue_setStation (t : Station) (e : StationEntry) (i : Side) :
    (s.setStation t e).queue i = s.queue i := rfl
@[simp] theorem State.queue_setRemap (r : Remap) (i : Side) :
    (s.setRemap r).queue i = s.queue i := rfl
@[simp] theorem State.queue_sampleKey (key : Bool) (i : Side) :
    (s.sampleKey key).queue i = s.queue i := rfl
@[simp] theorem State.queue_raise (c : Cause) (i : Side) :
    (s.raise c).queue i = s.queue i := rfl
@[simp] theorem State.queue_clearCauses (f : BitVec 12) (i : Side) :
    (s.clearCauses f).queue i = s.queue i := rfl
@[simp] theorem State.queue_maskCauses (f : BitVec 12) (b : Bool) (i : Side) :
    (s.maskCauses f b).queue i = s.queue i := rfl

@[simp] theorem State.drive_setSide (x : Side) (r : SideRecord) (i : DriveNo) :
    (s.setSide x r).drive i = s.drive i := rfl
@[simp] theorem State.drive_setCart (n : Cart) (r : CartridgeRecord) (i : DriveNo) :
    (s.setCart n r).drive i = s.drive i := rfl
@[simp] theorem State.drive_setQueue (x : Side) (q : List QEntry) (i : DriveNo) :
    (s.setQueue x q).drive i = s.drive i := rfl
@[simp] theorem State.drive_setPicker (p : Picker) (i : DriveNo) :
    (s.setPicker p).drive i = s.drive i := rfl
@[simp] theorem State.drive_setMail (m : MailSlot) (i : DriveNo) :
    (s.setMail m).drive i = s.drive i := rfl
@[simp] theorem State.drive_setExport (n : Option Cart) (i : DriveNo) :
    (s.setExport n).drive i = s.drive i := rfl
@[simp] theorem State.drive_setImport (n : Option Cart) (i : DriveNo) :
    (s.setImport n).drive i = s.drive i := rfl
@[simp] theorem State.drive_setReturn (d : DriveNo) (b : Bool) (i : DriveNo) :
    (s.setReturn d b).drive i = s.drive i := rfl
@[simp] theorem State.drive_setStartup (u : Startup) (i : DriveNo) :
    (s.setStartup u).drive i = s.drive i := rfl
@[simp] theorem State.drive_setAgeing (a : Option Nat) (i : DriveNo) :
    (s.setAgeing a).drive i = s.drive i := rfl
@[simp] theorem State.drive_setRequest (t : Tag) (r : Option Request) (i : DriveNo) :
    (s.setRequest t r).drive i = s.drive i := rfl
@[simp] theorem State.drive_setRegion (t : Tag) (r : Region) (i : DriveNo) :
    (s.setRegion t r).drive i = s.drive i := rfl
@[simp] theorem State.drive_setStaging (m : List (Nat × Block)) (i : DriveNo) :
    (s.setStaging m).drive i = s.drive i := rfl
@[simp] theorem State.drive_send (a : Sent) (i : DriveNo) :
    (s.send a).drive i = s.drive i := rfl
@[simp] theorem State.drive_setAssembly (l : List Tag) (i : DriveNo) :
    (s.setAssembly l).drive i = s.drive i := rfl
@[simp] theorem State.drive_setHeld (l : List Tag) (i : DriveNo) :
    (s.setHeld l).drive i = s.drive i := rfl
@[simp] theorem State.drive_setTicket (t : Station) (k : Ticket) (i : DriveNo) :
    (s.setTicket t k).drive i = s.drive i := rfl
@[simp] theorem State.drive_setAccount (a : Account) (r : DepositAccount) (i : DriveNo) :
    (s.setAccount a r).drive i = s.drive i := rfl
@[simp] theorem State.drive_setTrap (t : Station) (r : TrapRecord) (i : DriveNo) :
    (s.setTrap t r).drive i = s.drive i := rfl
@[simp] theorem State.drive_setStation (t : Station) (e : StationEntry) (i : DriveNo) :
    (s.setStation t e).drive i = s.drive i := rfl
@[simp] theorem State.drive_setRemap (r : Remap) (i : DriveNo) :
    (s.setRemap r).drive i = s.drive i := rfl
@[simp] theorem State.drive_sampleKey (key : Bool) (i : DriveNo) :
    (s.sampleKey key).drive i = s.drive i := rfl
@[simp] theorem State.drive_raise (c : Cause) (i : DriveNo) :
    (s.raise c).drive i = s.drive i := rfl
@[simp] theorem State.drive_clearCauses (f : BitVec 12) (i : DriveNo) :
    (s.clearCauses f).drive i = s.drive i := rfl
@[simp] theorem State.drive_maskCauses (f : BitVec 12) (b : Bool) (i : DriveNo) :
    (s.maskCauses f b).drive i = s.drive i := rfl

@[simp] theorem State.request_setSide (x : Side) (r : SideRecord) (i : Tag) :
    (s.setSide x r).request i = s.request i := rfl
@[simp] theorem State.request_setCart (n : Cart) (r : CartridgeRecord) (i : Tag) :
    (s.setCart n r).request i = s.request i := rfl
@[simp] theorem State.request_setQueue (x : Side) (q : List QEntry) (i : Tag) :
    (s.setQueue x q).request i = s.request i := rfl
@[simp] theorem State.request_setDrive (d : DriveNo) (r : Drive) (i : Tag) :
    (s.setDrive d r).request i = s.request i := rfl
@[simp] theorem State.request_setPicker (p : Picker) (i : Tag) :
    (s.setPicker p).request i = s.request i := rfl
@[simp] theorem State.request_setMail (m : MailSlot) (i : Tag) :
    (s.setMail m).request i = s.request i := rfl
@[simp] theorem State.request_setExport (n : Option Cart) (i : Tag) :
    (s.setExport n).request i = s.request i := rfl
@[simp] theorem State.request_setImport (n : Option Cart) (i : Tag) :
    (s.setImport n).request i = s.request i := rfl
@[simp] theorem State.request_setReturn (d : DriveNo) (b : Bool) (i : Tag) :
    (s.setReturn d b).request i = s.request i := rfl
@[simp] theorem State.request_setStartup (u : Startup) (i : Tag) :
    (s.setStartup u).request i = s.request i := rfl
@[simp] theorem State.request_setAgeing (a : Option Nat) (i : Tag) :
    (s.setAgeing a).request i = s.request i := rfl
@[simp] theorem State.request_setRegion (t : Tag) (r : Region) (i : Tag) :
    (s.setRegion t r).request i = s.request i := rfl
@[simp] theorem State.request_setStaging (m : List (Nat × Block)) (i : Tag) :
    (s.setStaging m).request i = s.request i := rfl
@[simp] theorem State.request_send (a : Sent) (i : Tag) :
    (s.send a).request i = s.request i := rfl
@[simp] theorem State.request_setAssembly (l : List Tag) (i : Tag) :
    (s.setAssembly l).request i = s.request i := rfl
@[simp] theorem State.request_setHeld (l : List Tag) (i : Tag) :
    (s.setHeld l).request i = s.request i := rfl
@[simp] theorem State.request_setTicket (t : Station) (k : Ticket) (i : Tag) :
    (s.setTicket t k).request i = s.request i := rfl
@[simp] theorem State.request_setAccount (a : Account) (r : DepositAccount) (i : Tag) :
    (s.setAccount a r).request i = s.request i := rfl
@[simp] theorem State.request_setTrap (t : Station) (r : TrapRecord) (i : Tag) :
    (s.setTrap t r).request i = s.request i := rfl
@[simp] theorem State.request_setStation (t : Station) (e : StationEntry) (i : Tag) :
    (s.setStation t e).request i = s.request i := rfl
@[simp] theorem State.request_setRemap (r : Remap) (i : Tag) :
    (s.setRemap r).request i = s.request i := rfl
@[simp] theorem State.request_sampleKey (key : Bool) (i : Tag) :
    (s.sampleKey key).request i = s.request i := rfl
@[simp] theorem State.request_raise (c : Cause) (i : Tag) :
    (s.raise c).request i = s.request i := rfl
@[simp] theorem State.request_clearCauses (f : BitVec 12) (i : Tag) :
    (s.clearCauses f).request i = s.request i := rfl
@[simp] theorem State.request_maskCauses (f : BitVec 12) (b : Bool) (i : Tag) :
    (s.maskCauses f b).request i = s.request i := rfl

@[simp] theorem State.ticket_setSide (x : Side) (r : SideRecord) (i : Station) :
    (s.setSide x r).ticket i = s.ticket i := rfl
@[simp] theorem State.ticket_setCart (n : Cart) (r : CartridgeRecord) (i : Station) :
    (s.setCart n r).ticket i = s.ticket i := rfl
@[simp] theorem State.ticket_setQueue (x : Side) (q : List QEntry) (i : Station) :
    (s.setQueue x q).ticket i = s.ticket i := rfl
@[simp] theorem State.ticket_setDrive (d : DriveNo) (r : Drive) (i : Station) :
    (s.setDrive d r).ticket i = s.ticket i := rfl
@[simp] theorem State.ticket_setPicker (p : Picker) (i : Station) :
    (s.setPicker p).ticket i = s.ticket i := rfl
@[simp] theorem State.ticket_setMail (m : MailSlot) (i : Station) :
    (s.setMail m).ticket i = s.ticket i := rfl
@[simp] theorem State.ticket_setExport (n : Option Cart) (i : Station) :
    (s.setExport n).ticket i = s.ticket i := rfl
@[simp] theorem State.ticket_setImport (n : Option Cart) (i : Station) :
    (s.setImport n).ticket i = s.ticket i := rfl
@[simp] theorem State.ticket_setReturn (d : DriveNo) (b : Bool) (i : Station) :
    (s.setReturn d b).ticket i = s.ticket i := rfl
@[simp] theorem State.ticket_setStartup (u : Startup) (i : Station) :
    (s.setStartup u).ticket i = s.ticket i := rfl
@[simp] theorem State.ticket_setAgeing (a : Option Nat) (i : Station) :
    (s.setAgeing a).ticket i = s.ticket i := rfl
@[simp] theorem State.ticket_setRequest (t : Tag) (r : Option Request) (i : Station) :
    (s.setRequest t r).ticket i = s.ticket i := rfl
@[simp] theorem State.ticket_setRegion (t : Tag) (r : Region) (i : Station) :
    (s.setRegion t r).ticket i = s.ticket i := rfl
@[simp] theorem State.ticket_setStaging (m : List (Nat × Block)) (i : Station) :
    (s.setStaging m).ticket i = s.ticket i := rfl
@[simp] theorem State.ticket_send (a : Sent) (i : Station) :
    (s.send a).ticket i = s.ticket i := rfl
@[simp] theorem State.ticket_setAssembly (l : List Tag) (i : Station) :
    (s.setAssembly l).ticket i = s.ticket i := rfl
@[simp] theorem State.ticket_setHeld (l : List Tag) (i : Station) :
    (s.setHeld l).ticket i = s.ticket i := rfl
@[simp] theorem State.ticket_setAccount (a : Account) (r : DepositAccount) (i : Station) :
    (s.setAccount a r).ticket i = s.ticket i := rfl
@[simp] theorem State.ticket_setTrap (t : Station) (r : TrapRecord) (i : Station) :
    (s.setTrap t r).ticket i = s.ticket i := rfl
@[simp] theorem State.ticket_setStation (t : Station) (e : StationEntry) (i : Station) :
    (s.setStation t e).ticket i = s.ticket i := rfl
@[simp] theorem State.ticket_setRemap (r : Remap) (i : Station) :
    (s.setRemap r).ticket i = s.ticket i := rfl
@[simp] theorem State.ticket_sampleKey (key : Bool) (i : Station) :
    (s.sampleKey key).ticket i = s.ticket i := rfl
@[simp] theorem State.ticket_raise (c : Cause) (i : Station) :
    (s.raise c).ticket i = s.ticket i := rfl
@[simp] theorem State.ticket_clearCauses (f : BitVec 12) (i : Station) :
    (s.clearCauses f).ticket i = s.ticket i := rfl
@[simp] theorem State.ticket_maskCauses (f : BitVec 12) (b : Bool) (i : Station) :
    (s.maskCauses f b).ticket i = s.ticket i := rfl

@[simp] theorem State.account_setSide (x : Side) (r : SideRecord) (i : Account) :
    (s.setSide x r).account i = s.account i := rfl
@[simp] theorem State.account_setCart (n : Cart) (r : CartridgeRecord) (i : Account) :
    (s.setCart n r).account i = s.account i := rfl
@[simp] theorem State.account_setQueue (x : Side) (q : List QEntry) (i : Account) :
    (s.setQueue x q).account i = s.account i := rfl
@[simp] theorem State.account_setDrive (d : DriveNo) (r : Drive) (i : Account) :
    (s.setDrive d r).account i = s.account i := rfl
@[simp] theorem State.account_setPicker (p : Picker) (i : Account) :
    (s.setPicker p).account i = s.account i := rfl
@[simp] theorem State.account_setMail (m : MailSlot) (i : Account) :
    (s.setMail m).account i = s.account i := rfl
@[simp] theorem State.account_setExport (n : Option Cart) (i : Account) :
    (s.setExport n).account i = s.account i := rfl
@[simp] theorem State.account_setImport (n : Option Cart) (i : Account) :
    (s.setImport n).account i = s.account i := rfl
@[simp] theorem State.account_setReturn (d : DriveNo) (b : Bool) (i : Account) :
    (s.setReturn d b).account i = s.account i := rfl
@[simp] theorem State.account_setStartup (u : Startup) (i : Account) :
    (s.setStartup u).account i = s.account i := rfl
@[simp] theorem State.account_setAgeing (a : Option Nat) (i : Account) :
    (s.setAgeing a).account i = s.account i := rfl
@[simp] theorem State.account_setRequest (t : Tag) (r : Option Request) (i : Account) :
    (s.setRequest t r).account i = s.account i := rfl
@[simp] theorem State.account_setRegion (t : Tag) (r : Region) (i : Account) :
    (s.setRegion t r).account i = s.account i := rfl
@[simp] theorem State.account_setStaging (m : List (Nat × Block)) (i : Account) :
    (s.setStaging m).account i = s.account i := rfl
@[simp] theorem State.account_send (a : Sent) (i : Account) :
    (s.send a).account i = s.account i := rfl
@[simp] theorem State.account_setAssembly (l : List Tag) (i : Account) :
    (s.setAssembly l).account i = s.account i := rfl
@[simp] theorem State.account_setHeld (l : List Tag) (i : Account) :
    (s.setHeld l).account i = s.account i := rfl
@[simp] theorem State.account_setTicket (t : Station) (k : Ticket) (i : Account) :
    (s.setTicket t k).account i = s.account i := rfl
@[simp] theorem State.account_setTrap (t : Station) (r : TrapRecord) (i : Account) :
    (s.setTrap t r).account i = s.account i := rfl
@[simp] theorem State.account_setStation (t : Station) (e : StationEntry) (i : Account) :
    (s.setStation t e).account i = s.account i := rfl
@[simp] theorem State.account_setRemap (r : Remap) (i : Account) :
    (s.setRemap r).account i = s.account i := rfl
@[simp] theorem State.account_sampleKey (key : Bool) (i : Account) :
    (s.sampleKey key).account i = s.account i := rfl
@[simp] theorem State.account_raise (c : Cause) (i : Account) :
    (s.raise c).account i = s.account i := rfl
@[simp] theorem State.account_clearCauses (f : BitVec 12) (i : Account) :
    (s.clearCauses f).account i = s.account i := rfl
@[simp] theorem State.account_maskCauses (f : BitVec 12) (b : Bool) (i : Account) :
    (s.maskCauses f b).account i = s.account i := rfl

@[simp] theorem State.station_setSide (x : Side) (r : SideRecord) (i : Station) :
    (s.setSide x r).station i = s.station i := rfl
@[simp] theorem State.station_setCart (n : Cart) (r : CartridgeRecord) (i : Station) :
    (s.setCart n r).station i = s.station i := rfl
@[simp] theorem State.station_setQueue (x : Side) (q : List QEntry) (i : Station) :
    (s.setQueue x q).station i = s.station i := rfl
@[simp] theorem State.station_setDrive (d : DriveNo) (r : Drive) (i : Station) :
    (s.setDrive d r).station i = s.station i := rfl
@[simp] theorem State.station_setPicker (p : Picker) (i : Station) :
    (s.setPicker p).station i = s.station i := rfl
@[simp] theorem State.station_setMail (m : MailSlot) (i : Station) :
    (s.setMail m).station i = s.station i := rfl
@[simp] theorem State.station_setExport (n : Option Cart) (i : Station) :
    (s.setExport n).station i = s.station i := rfl
@[simp] theorem State.station_setImport (n : Option Cart) (i : Station) :
    (s.setImport n).station i = s.station i := rfl
@[simp] theorem State.station_setReturn (d : DriveNo) (b : Bool) (i : Station) :
    (s.setReturn d b).station i = s.station i := rfl
@[simp] theorem State.station_setStartup (u : Startup) (i : Station) :
    (s.setStartup u).station i = s.station i := rfl
@[simp] theorem State.station_setAgeing (a : Option Nat) (i : Station) :
    (s.setAgeing a).station i = s.station i := rfl
@[simp] theorem State.station_setRequest (t : Tag) (r : Option Request) (i : Station) :
    (s.setRequest t r).station i = s.station i := rfl
@[simp] theorem State.station_setRegion (t : Tag) (r : Region) (i : Station) :
    (s.setRegion t r).station i = s.station i := rfl
@[simp] theorem State.station_setStaging (m : List (Nat × Block)) (i : Station) :
    (s.setStaging m).station i = s.station i := rfl
@[simp] theorem State.station_send (a : Sent) (i : Station) :
    (s.send a).station i = s.station i := rfl
@[simp] theorem State.station_setAssembly (l : List Tag) (i : Station) :
    (s.setAssembly l).station i = s.station i := rfl
@[simp] theorem State.station_setHeld (l : List Tag) (i : Station) :
    (s.setHeld l).station i = s.station i := rfl
@[simp] theorem State.station_setTicket (t : Station) (k : Ticket) (i : Station) :
    (s.setTicket t k).station i = s.station i := rfl
@[simp] theorem State.station_setAccount (a : Account) (r : DepositAccount) (i : Station) :
    (s.setAccount a r).station i = s.station i := rfl
@[simp] theorem State.station_setTrap (t : Station) (r : TrapRecord) (i : Station) :
    (s.setTrap t r).station i = s.station i := rfl
@[simp] theorem State.station_setRemap (r : Remap) (i : Station) :
    (s.setRemap r).station i = s.station i := rfl
@[simp] theorem State.station_sampleKey (key : Bool) (i : Station) :
    (s.sampleKey key).station i = s.station i := rfl
@[simp] theorem State.station_raise (c : Cause) (i : Station) :
    (s.raise c).station i = s.station i := rfl
@[simp] theorem State.station_clearCauses (f : BitVec 12) (i : Station) :
    (s.clearCauses f).station i = s.station i := rfl
@[simp] theorem State.station_maskCauses (f : BitVec 12) (b : Bool) (i : Station) :
    (s.maskCauses f b).station i = s.station i := rfl

end Sys2Proof.Machine
end

