-- ==== Sys2Proof/Laws/Staging.lean ====
section
/-! SUPPORT. Staging memory: what reading gives after writing or discarding, and that every operation
keeps the canonical form. -/

namespace Sys2Proof.Machine

/-- Below the first listed address, everything reads as a fill block. -/
theorem stagingRead_below (m : List (Nat × Block)) (a : Nat)
    (h : m.all (fun e => decide (a < e.1)) = true) : stagingRead m a = fillBlock := by
  induction m with
  | nil => rfl
  | cons e m ih =>
    obtain ⟨k, v⟩ := e
    simp only [List.all_cons, Bool.and_eq_true, decide_eq_true_eq] at h
    have : k ≠ a := by omega
    simp [stagingRead, this, ih h.2]

theorem stagingWf_cons (k : Nat) (v : Block) (m : List (Nat × Block)) :
    stagingWf ((k, v) :: m) = true ↔
      v ≠ fillBlock ∧ m.all (fun e => decide (k < e.1)) = true ∧ stagingWf m = true := by
  simp [stagingWf, and_assoc]

/-- The addresses after a write: those listed before, and the one written. -/
theorem stagingWrite_all (m : List (Nat × Block)) (a : Nat) (b : Block) (k : Nat)
    (h : m.all (fun e => decide (k < e.1)) = true) (hk : k < a) :
    (stagingWrite m a b).all (fun e => decide (k < e.1)) = true := by
  induction m with
  | nil => unfold stagingWrite; split <;> simp [hk]
  | cons e m ih =>
    obtain ⟨j, v⟩ := e
    have h' := h
    rw [List.all_cons, Bool.and_eq_true] at h'
    unfold stagingWrite
    split_ifs
    · exact h
    · rw [List.all_cons, h]; simpa using hk
    · exact h'.2
    · rw [List.all_cons, h'.2]; simpa using hk
    · rw [List.all_cons, ih h'.2, h'.1]; rfl

/-- A write keeps the canonical form. -/
theorem stagingWf_write (m : List (Nat × Block)) (a : Nat) (b : Block) (h : stagingWf m = true) :
    stagingWf (stagingWrite m a b) = true := by
  induction m with
  | nil => unfold stagingWrite; split <;> simp_all [stagingWf]
  | cons e m ih =>
    obtain ⟨k, v⟩ := e
    obtain ⟨hv, hk, hm⟩ := (stagingWf_cons k v m).1 h
    unfold stagingWrite
    split_ifs with h1 h2 h3 h4
    · exact h
    · refine (stagingWf_cons _ _ _).2 ⟨h2, ?_, h⟩
      simp only [List.all_cons, Bool.and_eq_true, decide_eq_true_eq]
      refine ⟨h1, ?_⟩
      rw [List.all_eq_true] at hk ⊢
      intro x hx
      have := hk x hx
      simp only [decide_eq_true_eq] at this ⊢
      omega
    · exact hm
    · subst h3; exact (stagingWf_cons _ _ _).2 ⟨h4, hk, hm⟩
    · exact (stagingWf_cons _ _ _).2 ⟨hv, stagingWrite_all m a b k hk (by omega), ih hm⟩

/-- A read after a write gives the block written at its address, and elsewhere what was there. -/
theorem stagingRead_write (m : List (Nat × Block)) (a c : Nat) (b : Block)
    (h : stagingWf m = true) :
    stagingRead (stagingWrite m a b) c = if c = a then b else stagingRead m c := by
  induction m with
  | nil =>
    by_cases hc : c = a <;> by_cases hb : b = fillBlock <;>
      simp [stagingWrite, stagingRead, hc, hb, eq_comm]
    intro e; exact absurd e.symm hc
  | cons e m ih =>
    obtain ⟨k, v⟩ := e
    obtain ⟨-, hk, hm⟩ := (stagingWf_cons k v m).1 h
    have below : ∀ x, x < k → stagingRead ((k, v) :: m) x = fillBlock := by
      intro x hx
      refine stagingRead_below _ _ ?_
      simp only [List.all_cons, Bool.and_eq_true, decide_eq_true_eq]
      refine ⟨hx, ?_⟩
      rw [List.all_eq_true] at hk ⊢
      intro y hy
      have := hk y hy
      simp only [decide_eq_true_eq] at this ⊢
      omega
    by_cases h1 : a < k
    · by_cases hb : b = fillBlock <;> by_cases hc : c = a
      · simp [stagingWrite, h1, hb, hc, below a h1]
      · simp [stagingWrite, h1, hb, hc]
      · simp [stagingWrite, h1, hb, hc, stagingRead]
      · have : ¬ a = c := fun e => hc e.symm
        simp [stagingWrite, h1, hb, hc, stagingRead, this]
    · by_cases h2 : k = a
      · subst h2
        by_cases hb : b = fillBlock <;> by_cases hc : c = k
        · subst hc; simp [stagingWrite, hb, stagingRead_below m c hk]
        · have : ¬ k = c := fun e => hc e.symm
          simp [stagingWrite, hb, hc, stagingRead, this]
        · simp [stagingWrite, hb, hc, stagingRead]
        · have : ¬ k = c := fun e => hc e.symm
          simp [stagingWrite, hb, hc, stagingRead, this]
      · by_cases h3 : k = c
        · subst h3; simp [stagingWrite, h1, h2, stagingRead]
        · simp [stagingWrite, h1, h2, stagingRead, h3, ih hm]

theorem stagingWf_writeRun (l : List Block) : ∀ (m : List (Nat × Block)) (a : Nat),
    stagingWf m = true → stagingWf (stagingWriteRun m a l) = true := by
  induction l with
  | nil => intro m a h; exact h
  | cons b l ih => intro m a h; exact ih _ _ (stagingWf_write m a b h)

/-- A read after a run of writes. -/
theorem stagingRead_writeRun (l : List Block) : ∀ (m : List (Nat × Block)) (a c : Nat),
    stagingWf m = true → stagingRead (stagingWriteRun m a l) c =
      if h : a ≤ c ∧ c < a + l.length then l[c - a]'(by omega) else stagingRead m c := by
  induction l with
  | nil =>
    intro m a c h
    have : ¬ (a ≤ c ∧ c < a + ([] : List Block).length) := by simp
    rw [dif_neg this]; rfl
  | cons b l ih =>
    intro m a c h
    rw [stagingWriteRun, ih _ _ _ (stagingWf_write m a b h), stagingRead_write m a c b h]
    by_cases hc : c = a
    · subst hc
      simp
    · by_cases h1 : a + 1 ≤ c ∧ c < a + 1 + l.length
      · have h2 : a ≤ c ∧ c < a + (b :: l).length := by simp; omega
        rw [dif_pos h1, dif_pos h2]
        obtain ⟨k, hk⟩ : ∃ k, c - a = k + 1 := ⟨c - a - 1, by omega⟩
        have hk' : c - (a + 1) = k := by omega
        simp [hk, hk']
      · have h2 : ¬ (a ≤ c ∧ c < a + (b :: l).length) := by simp; omega
        rw [dif_neg h1, dif_neg h2, if_neg hc]

/-- Discarding keeps the canonical form. -/
theorem stagingWf_discard (m : List (Nat × Block)) (a n : Nat) (h : stagingWf m = true) :
    stagingWf (stagingDiscard m a n) = true := by
  induction m with
  | nil => rfl
  | cons e m ih =>
    obtain ⟨k, v⟩ := e
    obtain ⟨hv, hk, hm⟩ := (stagingWf_cons k v m).1 h
    unfold stagingDiscard at ih ⊢
    rw [List.filter_cons]
    split_ifs
    · refine (stagingWf_cons _ _ _).2 ⟨hv, ?_, ih hm⟩
      rw [List.all_eq_true] at hk ⊢
      intro x hx
      exact hk x (List.mem_of_mem_filter hx)
    · exact ih hm

/-- A discarded address reads as a fill block; every other one as before. -/
theorem stagingRead_discard (m : List (Nat × Block)) (a n c : Nat) :
    stagingRead (stagingDiscard m a n) c =
      if a ≤ c ∧ c < a + n then fillBlock else stagingRead m c := by
  induction m with
  | nil => simp [stagingDiscard, stagingRead]
  | cons e m ih =>
    obtain ⟨k, v⟩ := e
    unfold stagingDiscard at ih ⊢
    rw [List.filter_cons]
    by_cases hk : k = c
    · subst hk
      by_cases h : a ≤ k ∧ k < a + n
      · have : ¬ (k < a ∨ a + n ≤ k) := by omega
        simp [this, ih, h]
      · have : k < a ∨ a + n ≤ k := by omega
        simp [this, h, stagingRead]
    · by_cases h : k < a ∨ a + n ≤ k
      · simp [h, stagingRead, hk, ih]
      · simp [h, stagingRead, hk, ih]

theorem stagingWf_place (l : List SectorAnswer) : ∀ (m : List (Nat × Block)) (a : Nat),
    stagingWf m = true → stagingWf (placeSectors m a l) = true := by
  induction l with
  | nil => intro m a h; exact h
  | cons x l ih =>
    intro m a h
    cases x with
    | good b => exact ih _ _ (stagingWf_write m a b h)
    | blank => exact ih _ _ h
    | unreadable => exact ih _ _ h

theorem stagingWf_empty : stagingWf [] = true := rfl

end Sys2Proof.Machine
end

