-- ==== Sys2Proof/Laws/Frames.lean ====
section
/-! SUPPORT. What the mechanism's operations can and cannot touch: one relation, `Steady`, between the
state before and after, kept by every operation of the drives, the picker, the scheduler and the side
queues, and by every drive and picker event outside start-up. -/

namespace Sys2Proof.Machine

/-! ### The relation -/

theorem NeverFalls.refl (a : Option Nat) : NeverFalls a a := fun n h => ⟨n, h, Nat.le_refl n⟩

theorem NeverFalls.trans {a b c : Option Nat} (h : NeverFalls a b) (k : NeverFalls b c) :
    NeverFalls a c := fun n e => by
  obtain ⟨m, hm, l⟩ := h n e
  obtain ⟨q, hq, l2⟩ := k m hm
  exact ⟨q, hq, Nat.le_trans l l2⟩

theorem SideRecord.Advances.refl (r : SideRecord) : r.Advances r := by
  cases r <;> simp [SideRecord.Advances, NeverFalls.refl]

theorem SideRecord.Advances.trans {a b c : SideRecord} (h : a.Advances b) (k : b.Advances c) :
    a.Advances c := by
  cases a <;> cases b <;> cases c <;> simp_all only [SideRecord.Advances] <;>
    exact ⟨h.1.trans k.1, Nat.le_trans h.2 k.2⟩

/-- What the drives, the picker, the scheduler and the queues leave alone, and how they may move what
they do touch. -/
structure Steady (s t : State) : Prop where
  libraryId : t.lib.libraryId = s.lib.libraryId
  stations : t.stations = s.stations
  traps : t.traps = s.traps
  sched : t.sched = s.sched
  tariff : t.tariff = s.tariff
  ledger : t.ledger = s.ledger
  orderResult : t.orderResult = s.orderResult
  lock : t.lock = s.lock
  tenths : t.tenths = s.tenths
  clock : t.clock = s.clock
  keyLine : t.keyLine = s.keyLine
  orderAnswer : t.orderAnswer = s.orderAnswer
  pending : t.pending = s.pending
  withheld : t.chan.withheld = s.chan.withheld
  assembly : s.chan.assemblyOrder <+: t.chan.assemblyOrder
  heldList : t.chan.heldList = s.chan.heldList
  regions : t.chan.regions = s.chan.regions
  sent : t.chan.sent = s.chan.sent
  advance : ∀ x, (s.side x).Advances (t.side x)
  lawful : s.SidesLawful → t.SidesLawful
  canonical : s.Canonical → t.Canonical
  held : ∀ k r, s.request k = some r → r.state = .heldForJournal →
    ∃ q, t.request k = some q ∧ q.state = .heldForJournal
  grows : ∀ c, s.attention.isPending c = true → t.attention.isPending c = true
  masked : t.attention.masked = s.attention.masked

theorem Steady.refl (s : State) : Steady s s := by
  constructor <;> first | rfl | exact List.prefix_rfl | (intro h; exact h) | (intro _ h; exact h) | skip
  · intro x; exact SideRecord.Advances.refl _
  · intro k r h e; exact ⟨r, h, e⟩

theorem Steady.trans {s t u : State} (h : Steady s t) (k : Steady t u) : Steady s u where
  libraryId := k.libraryId.trans h.libraryId
  stations := k.stations.trans h.stations
  traps := k.traps.trans h.traps
  sched := k.sched.trans h.sched
  tariff := k.tariff.trans h.tariff
  ledger := k.ledger.trans h.ledger
  orderResult := k.orderResult.trans h.orderResult
  lock := k.lock.trans h.lock
  tenths := k.tenths.trans h.tenths
  clock := k.clock.trans h.clock
  keyLine := k.keyLine.trans h.keyLine
  orderAnswer := k.orderAnswer.trans h.orderAnswer
  pending := k.pending.trans h.pending
  withheld := k.withheld.trans h.withheld
  assembly := h.assembly.trans k.assembly
  heldList := k.heldList.trans h.heldList
  regions := k.regions.trans h.regions
  sent := k.sent.trans h.sent
  advance := fun x => (h.advance x).trans (k.advance x)
  lawful := fun l => k.lawful (h.lawful l)
  canonical := fun l => k.canonical (h.canonical l)
  held := fun i r e x => by
    obtain ⟨q, hq, hx⟩ := h.held i r e x
    exact k.held i q hq hx
  grows := fun c l => k.grows c (h.grows c l)
  masked := k.masked.trans h.masked

/-- An update of queues, cartridges and mechanism alone. -/
theorem Steady.of_mech (s : State) (c : Table CartridgeRecord 160) (q : Table (List QEntry) 320)
    (m : Mechanism) :
    Steady s { s with lib := { s.lib with cartridges := c }, queues := q, mech := m } := by
  constructor <;> first | rfl | exact List.prefix_rfl | (intro h; exact h) | (intro _ h; exact h) | skip
  · intro x; exact SideRecord.Advances.refl _
  · intro k r h e; exact ⟨r, h, e⟩

/-! ### Single updates -/

theorem steady_setCart (s : State) (n : Cart) (r : CartridgeRecord) : Steady s (s.setCart n r) :=
  Steady.of_mech s _ _ _
theorem steady_setQueue (s : State) (x : Side) (q : List QEntry) : Steady s (s.setQueue x q) :=
  Steady.of_mech s _ _ _
theorem steady_setDrive (s : State) (d : DriveNo) (r : Drive) : Steady s (s.setDrive d r) :=
  Steady.of_mech s _ _ _
theorem steady_setPicker (s : State) (p : Picker) : Steady s (s.setPicker p) :=
  Steady.of_mech s _ _ _
theorem steady_setMail (s : State) (m : MailSlot) : Steady s (s.setMail m) := Steady.of_mech s _ _ _
theorem steady_setExport (s : State) (n : Option Cart) : Steady s (s.setExport n) :=
  Steady.of_mech s _ _ _
theorem steady_setImport (s : State) (n : Option Cart) : Steady s (s.setImport n) :=
  Steady.of_mech s _ _ _
theorem steady_setReturn (s : State) (d : DriveNo) (b : Bool) : Steady s (s.setReturn d b) :=
  Steady.of_mech s _ _ _
theorem steady_setStartup (s : State) (u : Startup) : Steady s (s.setStartup u) :=
  Steady.of_mech s _ _ _
theorem steady_setAgeing (s : State) (a : Option Nat) : Steady s (s.setAgeing a) :=
  Steady.of_mech s _ _ _

/-- A pending cause stays pending when another is raised. -/
theorem isPending_raise (s : State) (c e : Cause) :
    (s.raise c).attention.isPending e = (s.attention.isPending e || c.flag.getLsbD e.bit) := by
  simp [Attention.isPending]

theorem steady_raise (s : State) (c : Cause) : Steady s (s.raise c) := by
  constructor <;> first | rfl | exact List.prefix_rfl | (intro h; exact h) | skip
  · intro x; exact SideRecord.Advances.refl _
  · intro k r h e; exact ⟨r, h, e⟩
  · intro e h; rw [isPending_raise, h]; rfl

theorem steady_recompute (s : State) (c : Cause) : Steady s (s.recompute c) := by
  unfold State.recompute; split
  · exact steady_raise s c
  · exact Steady.refl s

/-- Replacing a request that is not held, or by one in the same state, is steady. -/
theorem steady_setRequest (s : State) (t : Tag) (r q : Request) (h : s.request t = some r)
    (hs : r.state = .heldForJournal → q.state = .heldForJournal) :
    Steady s (s.setRequest t (some q)) := by
  constructor <;> first | rfl | exact List.prefix_rfl | (intro h; exact h) | (intro _ h; exact h) | skip
  · intro x; exact SideRecord.Advances.refl _
  · intro k p hp e
    by_cases hk : t = k
    · subst hk
      rw [h] at hp; cases hp
      exact ⟨q, State.request_setRequest_same s t _, hs e⟩
    · exact ⟨p, by rw [State.request_setRequest_ne s _ hk]; exact hp, e⟩

/-! ### Folding -/

theorem steady_foldl {α : Type} (f : State → α → State) (hf : ∀ s a, Steady s (f s a))
    (l : List α) : ∀ s, Steady s (l.foldl f s) := by
  induction l with
  | nil => intro s; exact Steady.refl s
  | cons a l ih => intro s; exact (hf s a).trans (ih (f s a))

/-! ### Queues and the standing test -/

theorem checkAssembled_held (r : Request) (h : r.state = .heldForJournal) :
    r.checkAssembled.state = .heldForJournal := by
  simp [Request.checkAssembled, Request.isComplete, h, ReqState.isOpen]

theorem steady_noteAssembled (s : State) (t : Tag) : Steady s (s.noteAssembled t) := by
  constructor <;> first | rfl | exact List.prefix_append _ _ | (intro h; exact h) |
    (intro _ h; exact h) | skip
  · intro x; exact SideRecord.Advances.refl _
  · intro k r h e; exact ⟨r, h, e⟩

/-- A check of a request that replaces one held only by one held is steady. -/
theorem steady_checkRequest (s : State) (t : Tag) (r q : Request) (h : s.request t = some r)
    (hs : r.state = .heldForJournal → q.state = .heldForJournal) : Steady s (s.checkRequest t q) := by
  have k : Steady s (s.setRequest t (some q.checkAssembled)) :=
    steady_setRequest s t r _ h fun e => checkAssembled_held _ (hs e)
  unfold State.checkRequest
  dsimp only
  split
  · exact k.trans (steady_noteAssembled _ _)
  · exact k

theorem steady_finishPiece (s : State) (t : Tag) (x : Side) (st : Status) :
    Steady s (s.finishPiece t x st) := by
  unfold State.finishPiece
  split
  · exact Steady.refl s
  · rename_i r h
    exact steady_checkRequest s t r _ h id

theorem steady_failLabelling (s : State) (n : Cart) : Steady s (s.failLabelling n) := by
  unfold State.failLabelling
  dsimp only
  split
  · exact (steady_setCart s n _).trans (steady_raise _ _)
  · exact Steady.refl s

theorem steady_refuseEntry (s : State) (h : Side × QEntry × Status) :
    Steady s (s.refuseEntry h) := by
  unfold State.refuseEntry
  split
  · exact steady_finishPiece _ _ _ _
  · exact Steady.refl s
  · exact steady_failLabelling _ _

theorem steady_sweepOnce (s : State) (tested : Side → Bool) : Steady s (s.sweepOnce tested) := by
  unfold State.sweepOnce
  exact (Steady.of_mech s s.lib.cartridges _ s.mech).trans
    (steady_foldl State.refuseEntry steady_refuseEntry _ _)

theorem steady_sweepOn (s : State) (tested : Side → Bool) : Steady s (s.sweepOn tested) :=
  (steady_sweepOnce s tested).trans (steady_sweepOnce _ tested)

theorem steady_sweep (s : State) : Steady s s.sweep := steady_sweepOn s _

theorem steady_sweepCart (s : State) (n : Cart) : Steady s (s.sweepCart n) := steady_sweepOn s _

theorem steady_join (s : State) (x : Side) (o : Owner) (stamp : BitVec 32) :
    Steady s (s.join x o stamp) := steady_setQueue s x _

theorem steady_moveCart (s : State) (n : Cart) (l : Location) : Steady s (s.moveCart n l) :=
  steady_setCart s n _

theorem steady_dropExport (s : State) (n : Cart) : Steady s (s.dropExport n) := by
  unfold State.dropExport; split
  · exact ((steady_setCart s n _).trans (steady_setExport _ _)).trans (steady_setMail _ _)
  · exact Steady.refl s

/-! ### Sides and the remap table -/

/-- Replacing a side record by one that it may move to, lawful where it was lawful. -/
theorem steady_setSide (s : State) (x : Side) (r : SideRecord) (ha : (s.side x).Advances r)
    (hl : (s.side x).Lawful → r.Lawful) : Steady s (s.setSide x r) := by
  constructor <;> first | rfl | exact List.prefix_rfl | (intro h; exact h) | (intro _ h; exact h) | skip
  · intro y
    rw [State.side_setSide]
    split
    · subst_vars; exact ha
    · exact SideRecord.Advances.refl _
  · intro h y
    rw [State.side_setSide]
    split
    · subst_vars; exact hl (h _)
    · exact h y
  · intro k r h e; exact ⟨r, h, e⟩

theorem steady_advancePointer (s : State) (x : Side)
    (h : ∀ p, (s.side x).pointer? = some p → p < 4096) : Steady s (s.advancePointer x) := by
  unfold State.advancePointer
  split
  · rename_i p c e
    refine (steady_setSide s x _ ?_ ?_).trans (steady_recompute _ _)
    · rw [e]
      exact ⟨fun n hn => ⟨p + 1, rfl, by cases hn; omega⟩, Nat.le_refl _⟩
    · rw [e]
      intro l
      have := h p (by rw [e]; rfl)
      exact ⟨by omega, l.2⟩
  · exact Steady.refl s

/-- Replacing the remap table by one that is rising where the old one was. -/
theorem steady_setRemap (s : State) (r : Remap)
    (h : remapRising s.remap.entries → remapRising r.entries) : Steady s (s.setRemap r) := by
  constructor <;> first | rfl | exact List.prefix_rfl | (intro h; exact h) | (intro _ h; exact h) | skip
  · intro x; exact SideRecord.Advances.refl _
  · intro c; exact ⟨c.1, h c.2⟩
  · intro k r h e; exact ⟨r, h, e⟩

theorem mem_remapInsert (home spare : Nat) (l : List RemapEntry) (e : RemapEntry) :
    e ∈ remapInsert home spare l → e = ⟨home, spare⟩ ∨ e ∈ l := by
  induction l with
  | nil => simp [remapInsert]
  | cons f l ih =>
    unfold remapInsert
    split_ifs
    · intro h; rcases List.mem_cons.1 h with h | h
      · exact .inl h
      · exact .inr h
    · intro h; rcases List.mem_cons.1 h with h | h
      · exact .inl h
      · exact .inr (List.mem_cons_of_mem _ h)
    · intro h; rcases List.mem_cons.1 h with h | h
      · exact .inr (h ▸ List.mem_cons_self)
      · rcases ih h with h | h
        · exact .inl h
        · exact .inr (List.mem_cons_of_mem _ h)

/-- Insertion keeps the entries rising. -/
theorem remapRising_insert (home spare : Nat) (l : List RemapEntry) (h : remapRising l) :
    remapRising (remapInsert home spare l) := by
  induction l with
  | nil => exact ⟨by simp, trivial⟩
  | cons f l ih =>
    obtain ⟨h1, h2⟩ := h
    unfold remapInsert
    split_ifs with a b
    · refine ⟨?_, h1, h2⟩
      intro g hg
      rcases List.mem_cons.1 hg with e | e
      · subst e; exact a
      · exact Nat.lt_trans a (h1 g e)
    · subst b; exact ⟨h1, h2⟩
    · refine ⟨?_, ih h2⟩
      intro g hg
      rcases mem_remapInsert _ _ _ _ hg with e | e
      · subst e
        show f.home < home
        omega
      · exact h1 g e

/-- The first entry of a home block after an insertion. -/
theorem lookup_remapInsert (home spare k : Nat) (l : List RemapEntry) (held : Nat)
    (h : remapRising l) :
    Remap.lookup ⟨remapInsert home spare l, held⟩ k =
      if k = home then some spare else Remap.lookup ⟨l, held⟩ k := by
  induction l with
  | nil =>
    by_cases e : k = home
    · subst e; simp [remapInsert, Remap.lookup]
    · have : ¬ home = k := fun x => e x.symm
      simp [remapInsert, Remap.lookup, e, this]
  | cons f l ih =>
    obtain ⟨h1, h2⟩ := h
    have ih := ih h2
    unfold remapInsert
    by_cases a : home < f.home
    · rw [if_pos a]
      by_cases e : k = home
      · subst e; simp [Remap.lookup]
      · have : ¬ home = k := fun x => e x.symm
        simp [Remap.lookup, e, this]
    · rw [if_neg a]
      by_cases b : f.home = home
      · rw [if_pos b]
        by_cases e : k = home
        · subst e; simp [Remap.lookup]
        · have : ¬ home = k := fun x => e x.symm
          have : ¬ f.home = k := fun x => e (by omega)
          simp [Remap.lookup, *]
      · rw [if_neg b]
        by_cases e : f.home = k
        · have : ¬ k = home := by omega
          simp [Remap.lookup, e, this]
        · unfold Remap.lookup at ih ⊢
          simpa [List.find?_cons, e] using ih

/-! ### Drives -/

theorem steady_finishLabel (s : State) (x : Side) (ok : Bool) : Steady s (s.finishLabel x ok) := by
  unfold State.finishLabel
  dsimp only
  split_ifs <;> first
    | exact Steady.refl s
    | exact steady_failLabelling _ _
    | exact steady_setCart _ _ _

theorem steady_finishFront (s : State) (x : Side) (st : Status) :
    Steady s (s.finishFront x st) := by
  unfold State.finishFront
  split
  · exact Steady.refl s
  · rename_i e q h
    dsimp only
    split
    · exact (steady_setQueue s x q).trans (steady_finishPiece _ _ _ _)
    · exact steady_setQueue s x q
    · exact ((steady_setQueue s x q).trans (steady_finishLabel _ _ _)).trans (steady_sweepCart _ _)

theorem steady_goIdle (s : State) (d : DriveNo) (m : Mount) : Steady s (s.goIdle d m) :=
  steady_setDrive _ _ _

theorem steady_startFront (s : State) (x : Side) : Steady s (s.startFront x) := by
  unfold State.startFront
  split
  · exact Steady.refl s
  · rename_i e q h
    dsimp only
    split
    · rename_i o t ho
      split
      · rename_i r hr
        split_ifs with ha
        · refine (steady_setQueue s x _).trans (steady_setRequest _ t r _ hr ?_)
          intro hh; rw [ha] at hh; cases hh
        · exact steady_setQueue s x _
      · exact steady_setQueue s x _
    · exact steady_setQueue s x _

theorem steady_indexWrite (s : State) (x : Side) (t : Tag) (p : Piece) (sector i : Nat) :
    Steady s (s.indexWrite x t p sector i).1 := by
  unfold State.indexWrite
  dsimp only
  split
  · exact Steady.refl s
  · split
    · exact Steady.refl s
    · rename_i ptr hp
      split_ifs with hlt
      · refine steady_advancePointer s x ?_
        intro p h; rw [hp] at h; cases h; exact hlt
      · exact Steady.refl s

theorem steady_redirect (s : State) (x : Side) (i h : Nat) (data : Block) :
    Steady s (s.redirect x i h data).1 := by
  unfold State.redirect
  split_ifs
  · exact Steady.refl s
  · split
    · exact Steady.refl s
    · rename_i ptr hp
      split_ifs with hlt
      · refine (steady_setRemap s { s.remap with held := s.remap.held + 1 } (fun l => l)).trans
          (steady_advancePointer _ x ?_)
        intro p hh
        rw [State.side_setRemap, hp] at hh; cases hh; exact hlt
      · exact Steady.refl s

theorem steady_firstIssue (s : State) (x : Side) (o : Owner) : Steady s (s.firstIssue x o).1 := by
  unfold State.firstIssue
  split
  · exact Steady.refl s
  · exact Steady.refl s
  · split
    · exact Steady.refl s
    · split
      · exact Steady.refl s
      · split
        · exact steady_indexWrite _ _ _ _ _ _
        · exact Steady.refl s

theorem steady_serve (d : DriveNo) (m : Mount) : ∀ (k : Nat) (s : State),
    Steady s (State.serve d m k s) := by
  intro k
  induction k with
  | zero => intro s; exact steady_goIdle s d m
  | succ k ih =>
    intro s
    unfold State.serve
    split
    · exact steady_goIdle s d m
    · rename_i e l h
      have h1 := (steady_startFront s m.side).trans (steady_firstIssue _ m.side e.owner)
      split
      · rename_i u c hu
        rw [hu] at h1
        exact h1.trans (steady_setDrive _ _ _)
      · rename_i u st hu
        rw [hu] at h1
        exact (h1.trans (steady_finishFront _ _ _)).trans (ih _)

theorem steady_serveQueue (s : State) (d : DriveNo) (m : Mount) : Steady s (s.serveQueue d m) :=
  steady_serve d m _ s

theorem steady_endPiece (s : State) (d : DriveNo) (st : Status) : Steady s (s.endPiece d st) := by
  unfold State.endPiece
  split
  · exact (steady_finishFront _ _ _).trans (steady_serveQueue _ _ _)
  · exact (steady_finishFront _ _ _).trans (steady_setDrive _ _ _)
  · exact Steady.refl s

theorem steady_goOn (w : State × Issue) (d : DriveNo) : Steady w.1 (State.goOn w d) := by
  unfold State.goOn
  split
  · exact steady_endPiece _ _ _
  · split
    · exact steady_setDrive _ _ _
    · exact steady_setDrive _ _ _
    · exact Steady.refl _

theorem steady_wake (s : State) (x : Side) : Steady s (s.wake x) := by
  unfold State.wake
  split
  · exact Steady.refl s
  · split
    · exact steady_serveQueue _ _ _
    · exact Steady.refl s

theorem steady_afterLabel (s : State) (d : DriveNo) (m : Mount) : Steady s (s.afterLabel d m) := by
  unfold State.afterLabel
  split_ifs
  · exact steady_setDrive _ _ _
  · exact steady_serveQueue _ _ _

theorem steady_enterVerifying (s : State) (d : DriveNo) (x : Side) (z : Bool) :
    Steady s (s.enterVerifying d x z) := by
  unfold State.enterVerifying
  dsimp only
  split_ifs
  · exact steady_setDrive _ _ _
  · exact steady_afterLabel _ _ _

theorem steady_releasePlace (s : State) (c : DriveCommand) : Steady s (s.releasePlace c) := by
  unfold State.releasePlace
  split
  · exact steady_setRemap s _ (fun l => l)
  · exact Steady.refl s

theorem steady_strand (s : State) (d : DriveNo) (x : Side) : Steady s (s.strand d x) := by
  unfold State.strand
  exact ((((steady_moveCart s _ _).trans (steady_dropExport _ _)).trans
    (steady_setDrive _ _ _)).trans (steady_raise _ _)).trans (steady_sweep _)

theorem steady_faultDrive (s : State) (d : DriveNo) : Steady s (s.faultDrive d) := by
  unfold State.faultDrive
  split
  · exact steady_strand _ _ _
  · exact ((steady_releasePlace _ _).trans (steady_finishFront _ _ _)).trans (steady_strand _ _ _)
  · exact ((steady_releasePlace _ _).trans (steady_finishFront _ _ _)).trans (steady_strand _ _ _)
  · exact Steady.refl s

/-! ### The scheduler and the picker -/

theorem steady_rearm (s : State) : Steady s s.rearm := steady_setAgeing _ _

theorem steady_rearmFrom (s b : State) : Steady s (s.rearmFrom b) := by
  unfold State.rearmFrom; split
  · exact Steady.refl s
  · exact steady_rearm s

theorem steady_startEffects (s : State) (o : PickerOrder) : Steady s (s.startEffects o) := by
  unfold State.startEffects State.startLoading
  split
  · exact (steady_moveCart _ _ _).trans (steady_setDrive _ _ _)
  · split
    · exact (steady_moveCart _ _ _).trans (steady_setDrive _ _ _)
    · exact Steady.refl s
  · split
    · exact (steady_moveCart _ _ _).trans (steady_setDrive _ _ _)
    · exact Steady.refl s
  · exact Steady.refl s
  · exact steady_moveCart _ _ _
  · exact steady_moveCart _ _ _
  · split
    · exact (steady_moveCart _ _ _).trans (steady_setDrive _ _ _)
    · exact Steady.refl s
  · exact ((steady_setCart _ _ _).trans (steady_setMail _ _)).trans (steady_setImport _ _)
  · exact Steady.refl s
  · exact Steady.refl s

theorem steady_startOrder (s : State) (o : PickerOrder) : Steady s (s.startOrder o) :=
  ((steady_startEffects s o).trans (steady_setPicker _ _)).trans (steady_sweep _)

theorem steady_startHoming (s : State) (o : PickerOrder) : Steady s (s.startHoming o) :=
  ((steady_startEffects s o).trans (steady_setPicker _ _)).trans (steady_sweep _)

theorem steady_makeYield (s : State) (d : DriveNo) : Steady s (s.makeYield d) := by
  unfold State.makeYield; split
  · exact steady_setDrive _ _ _
  · exact Steady.refl s

theorem steady_mountSearch (l : List Candidate) : ∀ s : State, Steady s (s.mountSearch l).1 := by
  induction l with
  | nil => intro s; exact Steady.refl s
  | cons c l ih =>
    intro s
    unfold State.mountSearch
    split
    · exact Steady.refl s
    · exact (steady_makeYield _ _).trans (ih _)
    · exact ih s

theorem steady_choose (s : State) : Steady s s.choose := by
  unfold State.choose
  split_ifs
  · have h := steady_mountSearch s.ranked s
    split
    rename_i u mount hu
    rw [hu] at h
    split
    · exact h.trans (steady_startOrder _ _)
    · exact h
  · exact Steady.refl s

theorem steady_chooseIf (s : State) (b : Bool) : Steady s (s.chooseIf b) := by
  unfold State.chooseIf; split
  · exact steady_choose s
  · exact Steady.refl s

theorem steady_seat (s : State) (d : DriveNo) (n : Cart) : Steady s (s.seat d n) := by
  unfold State.seat; split
  · exact (steady_moveCart _ _ _).trans (steady_enterVerifying _ _ _ _)
  · exact Steady.refl s

theorem steady_emptyDrive (s : State) (d : DriveNo) : Steady s (s.emptyDrive d) :=
  steady_setDrive _ _ _

theorem steady_completionEffects (s : State) (o : PickerOrder) :
    Steady s (s.completionEffects o) := by
  unfold State.completionEffects
  split
  · exact steady_seat _ _ _
  · exact steady_seat _ _ _
  · exact (steady_moveCart _ _ _).trans (steady_emptyDrive _ _)
  · exact ((steady_setCart _ _ _).trans (steady_emptyDrive _ _)).trans (steady_setReturn _ _ _)
  · exact (steady_moveCart _ _ _).trans (steady_emptyDrive _ _)
  · dsimp only
    split
    · exact (((steady_setCart s _ _).trans (steady_setExport _ _)).trans
        (steady_setMail _ _)).trans (steady_emptyDrive _ _)
    · exact ((steady_setCart s _ _).trans (steady_setExport _ _)).trans (steady_setMail _ _)
  · exact steady_moveCart _ _ _
  · exact Steady.refl s
  · exact Steady.refl s

theorem steady_completeOrder (s : State) (o : PickerOrder) : Steady s (s.completeOrder o) :=
  (((steady_completionEffects s o).trans (steady_setPicker _ _)).trans (steady_sweep _)).trans
    (steady_choose _)

theorem steady_loseCart (s : State) (n : Option Cart) : Steady s (s.loseCart n) := by
  unfold State.loseCart; split
  · exact (steady_moveCart _ _ _).trans (steady_dropExport _ _)
  · exact Steady.refl s

theorem steady_faultedOrderDrive (s : State) (d : Option DriveNo) :
    Steady s (s.faultedOrderDrive d) := by
  unfold State.faultedOrderDrive; split
  · exact steady_setDrive _ _ _
  · exact Steady.refl s

theorem steady_faultedOrderRequests (s : State) (o : PickerOrder) :
    Steady s (s.faultedOrderRequests o) := by
  unfold State.faultedOrderRequests; split
  · split_ifs
    · exact steady_setMail _ _
    · exact Steady.refl s
  · exact steady_setReturn _ _ _
  · exact Steady.refl s

theorem steady_pickerFault (s : State) (o : PickerOrder) : Steady s (s.pickerFault o) :=
  (((((steady_setPicker s _).trans (steady_loseCart _ _)).trans
    (steady_faultedOrderDrive _ _)).trans (steady_faultedOrderRequests _ _)).trans
    (steady_raise _ _)).trans (steady_sweep _)

end Sys2Proof.Machine
end

