-- ==== Sys2Proof/Laws/Fees.lean ====
section
/-! SUPPORT. What the fee reckoner, settlement, delivery and the drain can and cannot touch (`Reckons`),
and that each keeps the laws of journal, tickets, accounts and held requests. -/

namespace Sys2Proof.Machine

/-! ### The relation -/

/-- What settlement, fee passes, delivery and the drain leave alone. -/
structure Reckons (s t : State) : Prop where
  lib : t.lib = s.lib
  stations : t.stations = s.stations
  traps : t.traps = s.traps
  queues : t.queues = s.queues
  mech : t.mech = s.mech
  sched : t.sched = s.sched
  remap : t.remap = s.remap
  tariff : t.tariff = s.tariff
  orderResult : t.orderResult = s.orderResult
  lock : t.lock = s.lock
  tenths : t.tenths = s.tenths
  clock : t.clock = s.clock
  keyLine : t.keyLine = s.keyLine
  orderAnswer : t.orderAnswer = s.orderAnswer
  pending : t.pending = s.pending
  withheld : t.chan.withheld = s.chan.withheld
  journal : s.ledger.JournalLawful → t.ledger.JournalLawful
  canonical : s.Canonical → t.Canonical
  grows : ∀ c, s.attention.isPending c = true → t.attention.isPending c = true
  masked : t.attention.masked = s.attention.masked

theorem Reckons.refl (s : State) : Reckons s s := by
  constructor <;> first | rfl | (intro h; exact h) | (intro _ h; exact h)

theorem Reckons.trans {s t u : State} (h : Reckons s t) (k : Reckons t u) : Reckons s u where
  lib := k.lib.trans h.lib
  stations := k.stations.trans h.stations
  traps := k.traps.trans h.traps
  queues := k.queues.trans h.queues
  mech := k.mech.trans h.mech
  sched := k.sched.trans h.sched
  remap := k.remap.trans h.remap
  tariff := k.tariff.trans h.tariff
  orderResult := k.orderResult.trans h.orderResult
  lock := k.lock.trans h.lock
  tenths := k.tenths.trans h.tenths
  clock := k.clock.trans h.clock
  keyLine := k.keyLine.trans h.keyLine
  orderAnswer := k.orderAnswer.trans h.orderAnswer
  pending := k.pending.trans h.pending
  withheld := k.withheld.trans h.withheld
  journal := fun l => k.journal (h.journal l)
  canonical := fun l => k.canonical (h.canonical l)
  grows := fun c l => k.grows c (h.grows c l)
  masked := k.masked.trans h.masked

theorem Reckons.foldl {α : Type} (f : State → α → State) (hf : ∀ s a, Reckons s (f s a))
    (l : List α) : ∀ s, Reckons s (l.foldl f s) := by
  induction l with
  | nil => intro s; exact Reckons.refl s
  | cons a l ih => intro s; exact (hf s a).trans (ih (f s a))

/-- An update of tickets, due list and accounts alone. -/
theorem Reckons.of_ledger (s : State) (k : Table Ticket 32) (d : List Station)
    (a : Table DepositAccount 16) :
    Reckons s { s with ledger := { s.ledger with tickets := k, dueList := d, accounts := a } } := by
  constructor <;> first | rfl | (intro h; exact h) | (intro _ h; exact h)

theorem reckons_setTicket (s : State) (t : Station) (k : Ticket) : Reckons s (s.setTicket t k) :=
  Reckons.of_ledger s _ _ _
theorem reckons_setAccount (s : State) (a : Account) (r : DepositAccount) :
    Reckons s (s.setAccount a r) := Reckons.of_ledger s _ _ _

/-- An update of requests, order of assembly, held list, regions and answers alone. -/
theorem Reckons.of_chan (s : State) (r : Table (Option Request) 32) (o l : List Tag)
    (g : Table Region 32) (a : List Sent) :
    Reckons s { s with chan := { s.chan with
      requests := r, assemblyOrder := o, heldList := l, regions := g, sent := a } } := by
  constructor <;> first | rfl | (intro h; exact h) | (intro _ h; exact h)

theorem reckons_setRequest (s : State) (t : Tag) (r : Option Request) :
    Reckons s (s.setRequest t r) := Reckons.of_chan s _ _ _ _ _
theorem reckons_send (s : State) (a : Sent) : Reckons s (s.send a) := Reckons.of_chan s _ _ _ _ _
theorem reckons_setRegion (s : State) (t : Tag) (g : Region) : Reckons s (s.setRegion t g) :=
  Reckons.of_chan s _ _ _ _ _

theorem reckons_raise (s : State) (c : Cause) : Reckons s (s.raise c) := by
  constructor <;> first | rfl | (intro h; exact h) | skip
  · intro e h; rw [isPending_raise, h]; rfl

theorem reckons_recompute (s : State) (c : Cause) : Reckons s (s.recompute c) := by
  unfold State.recompute; split
  · exact reckons_raise s c
  · exact Reckons.refl s

theorem reckons_discardData (s : State) (t : Tag) (i n : Nat) : Reckons s (s.discardData t i n) := by
  constructor <;> first | rfl | (intro h; exact h) | (intro _ h; exact h) | skip
  · intro c; exact ⟨stagingWf_discard _ _ _ c.1, c.2⟩

theorem reckons_freeRegion (s : State) (t : Tag) : Reckons s (s.freeRegion t) :=
  (reckons_discardData s t _ _).trans (reckons_setRegion _ _ _)

/-! ### The ledger behind the attention operations -/

@[simp] theorem State.recompute_ledger (s : State) (c : Cause) :
    (s.recompute c).ledger = s.ledger := by
  unfold State.recompute; split <;> rfl
@[simp] theorem State.recompute_chan (s : State) (c : Cause) : (s.recompute c).chan = s.chan := by
  unfold State.recompute; split <;> rfl
@[simp] theorem State.recompute_tariff (s : State) (c : Cause) :
    (s.recompute c).tariff = s.tariff := by
  unfold State.recompute; split <;> rfl
@[simp] theorem State.recompute_stations (s : State) (c : Cause) :
    (s.recompute c).stations = s.stations := by
  unfold State.recompute; split <;> rfl

/-! ### Settlement -/

theorem journalFree_lt (s : State) (h : s.journalFree = true) : s.ledger.journal.length < 128 := by
  simp [State.journalFree, Ledger.isFull] at h
  exact h

/-- The ledger after a record has entered the journal (R150, R159, R164). -/
theorem enterJournal_ledger (s : State) (r : BitVec 16 → JournalRecord) :
    (s.enterJournal r).ledger =
      { s.ledger with
        journal := s.ledger.journal ++ [r s.ledger.nextSeq]
        nextSeq := s.ledger.nextSeq + 1
        noticeLeft := if s.ledger.noticeLeft ≤ 1 then s.tariff.notice
          else s.ledger.noticeLeft - 1 } := by
  unfold State.enterJournal
  dsimp only
  rw [State.recompute_ledger]
  by_cases h : s.ledger.noticeLeft ≤ 1 <;> simp [h]

/-- Entering a record that takes the next sequence number keeps the journal law where a place is
free. -/
theorem journalLawful_enter (l : Ledger) (x : JournalRecord) (n : Nat)
    (hx : x.seq = l.nextSeq) (hfree : l.journal.length < 128) (h : l.JournalLawful) :
    Ledger.JournalLawful
      { l with journal := l.journal ++ [x], nextSeq := l.nextSeq + 1, noticeLeft := n } := by
  obtain ⟨-, h2⟩ := h
  refine ⟨by simp; omega, ?_⟩
  intro i hi
  simp only [List.length_append, List.length_cons, List.length_nil, Nat.zero_add] at hi ⊢
  by_cases e : i < l.journal.length
  · rw [List.getElem_append_left e, h2 i e]
    have : l.journal.length + 1 - i = (l.journal.length - i) + 1 := by omega
    rw [this, BitVec.ofNat_add]
    have : ∀ a b : BitVec 16, a - b = a + 1 - (b + BitVec.ofNat 16 1) := by intro a b; bv_omega
    exact this _ _
  · have : i = l.journal.length := by omega
    subst this
    simp [hx]

theorem reckons_enterJournal (s : State) (r : BitVec 16 → JournalRecord)
    (hr : ∀ q, (r q).seq = q) (h : s.journalFree = true) : Reckons s (s.enterJournal r) := by
  have key : Reckons s { s with ledger :=
      { s.ledger with
        journal := s.ledger.journal ++ [r s.ledger.nextSeq]
        nextSeq := s.ledger.nextSeq + 1
        noticeLeft := if s.ledger.noticeLeft ≤ 1 then s.tariff.notice
          else s.ledger.noticeLeft - 1 } } := by
    constructor <;> first | rfl | (intro h; exact h) | (intro _ h; exact h) | skip
    · exact fun l => journalLawful_enter s.ledger _ _ (hr _) (journalFree_lt s h) l
  unfold State.enterJournal
  dsimp only
  by_cases e : s.ledger.noticeLeft ≤ 1
  · simp only [e, if_true] at key ⊢
    exact (key.trans (reckons_raise _ _)).trans (reckons_recompute _ _)
  · simp only [e, if_false] at key ⊢
    exact key.trans (reckons_recompute _ _)

theorem reckons_debit (s : State) (a : Option Account) (n : Nat) : Reckons s (s.debit a n) := by
  unfold State.debit; split
  · exact Reckons.refl s
  · exact (reckons_setAccount _ _ _).trans (reckons_recompute _ _)

/-- The accounts after a debit (R150). -/
def debited (t : Table DepositAccount 16) (a : Option Account) (n : Nat) :
    Table DepositAccount 16 :=
  match a with
  | none => t
  | some a =>
    t.put a { t.at a with balance := (t.at a).balance - n, committed := (t.at a).committed - n }

theorem debit_ledger (s : State) (a : Option Account) (n : Nat) :
    (s.debit a n).ledger = { s.ledger with accounts := debited s.ledger.accounts a n } := by
  unfold State.debit debited
  cases a <;> simp [State.account]
  rfl

theorem debit_tariff (s : State) (a : Option Account) (n : Nat) :
    (s.debit a n).tariff = s.tariff := (reckons_debit s a n).tariff

/-- The ledger after a settlement with a free place (R150). -/
theorem settleBody_ledger (s : State) (t : Station) (b : TicketBody) (c : SettleCause) (st : Nat) :
    (s.settleBody t b c st).ledger =
      { tickets := s.ledger.tickets.put t .idle
        dueList := s.ledger.dueList.filter fun u => u ≠ t
        accounts := debited s.ledger.accounts b.account (s.tariff.settle b.gross)
        journal := s.ledger.journal ++
          [settlementRecord s.tariff t b c st s.ledger.nextSeq]
        nextSeq := s.ledger.nextSeq + 1
        noticeLeft := if s.ledger.noticeLeft ≤ 1 then s.tariff.notice
          else s.ledger.noticeLeft - 1 } := by
  unfold State.settleBody
  simp only [enterJournal_ledger, debit_ledger, debit_tariff]

theorem reckons_settleBody (s : State) (t : Station) (b : TicketBody) (c : SettleCause) (st : Nat)
    (h : s.journalFree = true) : Reckons s (s.settleBody t b c st) := by
  unfold State.settleBody
  dsimp only
  have h1 := reckons_debit s b.account (s.tariff.settle b.gross)
  have h2 : (s.debit b.account (s.tariff.settle b.gross)).journalFree = true := by
    simp only [State.journalFree, Ledger.isFull, debit_ledger] at h ⊢
    exact h
  exact (h1.trans (reckons_enterJournal _ _ (fun _ => rfl) h2)).trans (Reckons.of_ledger _ _ _ _)

theorem reckons_settleEvent (s : State) (t : Station) (c : SettleCause) :
    Reckons s (s.settleEvent t c) := by
  unfold State.settleEvent
  split
  · split
    · exact reckons_settleBody _ _ _ _ _ (by assumption)
    · exact Reckons.of_ledger _ _ _ _
  · exact Reckons.refl s

theorem reckons_settleAll (s : State) (c : SettleCause) : Reckons s (s.settleAll c) :=
  Reckons.foldl _ (fun s t => reckons_settleEvent s t c) _ s

/-! ### The fee pass -/

theorem reckons_chargeTicket (s : State) (t : Station) (h : PageHeader) (k c : Nat) :
    Reckons s (s.chargeTicket t h k c) := reckons_setTicket _ _ _

theorem reckons_depositStage (s : State) (t : Station) (h : PageHeader) (k c : Nat) :
    Reckons s (s.depositStage t h k c).1 := by
  unfold State.depositStage
  dsimp only
  split
  · exact reckons_chargeTicket _ _ _ _ _
  · split_ifs
    · exact ((reckons_chargeTicket _ _ _ _ _).trans (reckons_setAccount _ _ _)).trans
        (reckons_recompute _ _)
    · exact Reckons.refl s

theorem reckons_chargeHeader (s : State) (t : Station) (h : PageHeader) (k : Nat) :
    Reckons s (s.chargeHeader t h k).1 := by
  unfold State.chargeHeader
  dsimp only
  split_ifs
  · exact reckons_setTicket _ _ _
  · exact reckons_depositStage _ _ _ _ _
  · exact (reckons_settleEvent _ _ _).trans (reckons_depositStage _ _ _ _ _)
  · exact Reckons.refl s

theorem reckons_walkPosition (t : Tag) (w : State × Nat) (o : Nat) :
    Reckons w.1 (State.walkPosition t w o).1 := by
  unfold State.walkPosition
  dsimp only
  split
  · exact Reckons.refl _
  · split_ifs
    · exact Reckons.refl _
    · split
      · exact Reckons.refl _
      · split_ifs
        · exact (reckons_chargeHeader _ _ _ _).trans (reckons_setRequest _ _ _)
        · exact reckons_chargeHeader _ _ _ _

theorem reckons_feePass (s : State) (t : Tag) : Reckons s (s.feePass t) := by
  unfold State.feePass
  split
  · exact Reckons.refl s
  · rename_i r h
    have : ∀ (l : List Nat) (w : State × Nat),
        Reckons w.1 (l.foldl (State.walkPosition t) w).1 := by
      intro l
      induction l with
      | nil => intro w; exact Reckons.refl _
      | cons o l ih => intro w; exact (reckons_walkPosition t w o).trans (ih _)
    exact this _ (s, 0)

/-! ### The held list -/

/-- Joining the held list adds one tag and takes none away. -/
theorem heldInsert_perm (order : List Tag) (t : Tag) (held : List Tag) :
    (heldInsert order t held).Perm (t :: held) := by
  refine List.perm_middle.trans (List.Perm.cons t ?_)
  have h := List.filter_append_perm
    (fun u => decide (u ∉ order.dropWhile fun u => u ≠ t)) held
  simpa using h

/-- A held list in order of assembly stays so when a request of that order joins it. -/
theorem heldInsert_sublist (order : List Tag) (t : Tag) (held : List Tag) (once : order.Nodup)
    (mem : t ∈ order) (new : t ∉ held) (h : held.Sublist order) :
    (heldInsert order t held).Sublist order := by
  obtain ⟨a, b, rfl⟩ := List.append_of_mem mem
  have ha : t ∉ a := fun k => (List.nodup_append.1 once).2.2 t k t (by simp) rfl
  have later : (a ++ t :: b).dropWhile (fun u => decide (u ≠ t)) = t :: b := by
    rw [List.dropWhile_append_of_pos]
    · simp
    · intro u hu
      simpa using fun e : u = t => ha (e ▸ hu)
  obtain ⟨l, m, rfl, hl, hm⟩ := List.sublist_append_iff.1 h
  have hm' : m.Sublist b := by
    rcases List.sublist_cons_iff.1 hm with h | ⟨r, rfl, _⟩
    · exact h
    · simp at new
  have out : ∀ u ∈ l, u ∉ t :: b := fun u hu k =>
    (List.nodup_append.1 once).2.2 u (hl.subset hu) u k rfl
  have inn : ∀ u ∈ m, u ∈ t :: b := fun u hu => List.mem_cons_of_mem _ (hm'.subset hu)
  have e1 : (l ++ m).filter (fun u => decide (u ∉ t :: b)) = l := by
    rw [List.filter_append, List.filter_eq_self.2 fun u hu => decide_eq_true (out u hu),
      List.filter_eq_nil_iff.2 fun u hu k => absurd (inn u hu) (of_decide_eq_true k), List.append_nil]
  have e2 : (l ++ m).filter (fun u => decide (u ∈ t :: b)) = m := by
    rw [List.filter_append, List.filter_eq_nil_iff.2 fun u hu k => absurd (of_decide_eq_true k) (out u hu),
      List.filter_eq_self.2 fun u hu => decide_eq_true (inn u hu), List.nil_append]
  unfold heldInsert
  simp only [later, e1, e2]
  exact hl.append (hm'.cons_cons t)

/-! ### Delivery and the drain -/

theorem reckons_deliver (s : State) (t : Tag) : Reckons s (s.deliver t) := by
  unfold State.deliver
  split
  · exact Reckons.refl s
  · exact (((reckons_send _ _).trans (reckons_setRequest _ _ _)).trans (reckons_freeRegion _ _)).trans
      (Reckons.of_chan _ _ _ _ _ _)

theorem reckons_deliverByTerms (s : State) (t : Tag) (r : Request) :
    Reckons s (s.deliverByTerms t r) := by
  unfold State.deliverByTerms; split
  · exact (reckons_feePass _ _).trans (reckons_deliver _ _)
  · exact reckons_deliver _ _

theorem reckons_hold (s : State) (t : Tag) (r : Request) : Reckons s (s.hold t r) := by
  unfold State.hold
  exact (reckons_setRequest _ _ _).trans (Reckons.of_chan _ _ _ _ _ _)

theorem reckons_decideDelivery (s : State) (t : Tag) : Reckons s (s.decideDelivery t) := by
  unfold State.decideDelivery
  split
  · exact Reckons.refl s
  · split_ifs
    · exact reckons_hold _ _ _
    · exact reckons_deliverByTerms _ _ _
    · exact Reckons.refl s

theorem reckons_drainDue (l : List Station) : ∀ s : State, Reckons s (s.drainDue l) := by
  induction l with
  | nil => intro s; exact Reckons.refl s
  | cons t l ih =>
    intro s
    unfold State.drainDue
    split_ifs with h
    · refine Reckons.trans ?_ (ih _)
      unfold State.settleDue
      split
      · exact reckons_settleBody _ _ _ _ _ h
      · exact Reckons.of_ledger _ _ _ _
    · exact Reckons.refl s

theorem reckons_drainHeld (l : List Tag) : ∀ s : State, Reckons s (s.drainHeld l) := by
  induction l with
  | nil => intro s; exact Reckons.refl s
  | cons t l ih =>
    intro s
    unfold State.drainHeld
    split_ifs with h
    · split
      · exact Reckons.refl s
      · split_ifs
        · exact Reckons.refl s
        · exact ((Reckons.of_chan s _ _ _ _ _).trans (reckons_deliverByTerms _ _ _)).trans (ih _)
    · exact Reckons.refl s

theorem reckons_drain (s : State) : Reckons s s.drain :=
  (reckons_drainDue _ s).trans (reckons_drainHeld _ _)

end Sys2Proof.Machine
end

