-- ==== Sys2Proof/Laws/Accounts.lean ====
section
/-! SUPPORT. The laws of tickets and accounts (`FeesLawful`) under settlement and under each stage of a
charge. -/

namespace Sys2Proof.Machine

/-- The laws read tickets, due list, accounts, stations and tariff alone. -/
theorem FeesLawful.congr {s t : State} (h : s.FeesLawful)
    (k : t.ledger.tickets = s.ledger.tickets) (d : t.ledger.dueList = s.ledger.dueList)
    (a : t.ledger.accounts = s.ledger.accounts) (e : t.stations = s.stations)
    (f : t.tariff = s.tariff) : t.FeesLawful := by
  have hk : ∀ i, t.ticket i = s.ticket i := fun i => by simp [State.ticket, k]
  have ha : ∀ i, t.account i = s.account i := fun i => by simp [State.account, a]
  have he : ∀ i, t.station i = s.station i := fun i => by simp [State.station, e]
  have hs : ∀ i, t.committedSum i = s.committedSum i := fun i => by
    simp [State.committedSum, hk, f]
  exact
    { terms := fun i => by rw [hk, he]; exact h.terms i
      due := fun i => by rw [hk, d]; exact h.due i
      dueOnce := by rw [d]; exact h.dueOnce
      committed := fun i => by rw [ha, hs]; exact h.committed i
      within := fun i => by rw [ha]; exact h.within i
      limit := fun i => by rw [ha]; exact h.limit i }

/-- The sum over all tickets when one of them is replaced. -/
theorem sum_replace (f g : Station → Nat) (t : Station) (h : ∀ u, u ≠ t → g u = f u) :
    ((List.finRange 32).map g).sum + f t = ((List.finRange 32).map f).sum + g t := by
  have e1 : ((List.finRange 32).map g).sum = ∑ u, g u := (Fin.sum_univ_def g).symm
  have e2 : ((List.finRange 32).map f).sum = ∑ u, f u := (Fin.sum_univ_def f).symm
  have hf := Finset.add_sum_erase Finset.univ f (Finset.mem_univ t)
  have hg := Finset.add_sum_erase Finset.univ g (Finset.mem_univ t)
  have : ∑ u ∈ Finset.univ.erase t, g u = ∑ u ∈ Finset.univ.erase t, f u :=
    Finset.sum_congr rfl fun u hu => h u (Finset.ne_of_mem_erase hu)
  omega

/-- The committed sum when one ticket is replaced. -/
theorem committedSum_replace (s u : State) (t : Station) (a : Account)
    (hT : u.tariff = s.tariff) (h : ∀ i, i ≠ t → u.ticket i = s.ticket i) :
    u.committedSum a + (s.ticket t).commits s.tariff a =
      s.committedSum a + (u.ticket t).commits s.tariff a := by
  unfold State.committedSum
  rw [hT]
  exact sum_replace (fun i => (s.ticket i).commits s.tariff a)
    (fun i => (u.ticket i).commits s.tariff a) t fun i hi => by
      show (u.ticket i).commits s.tariff a = _
      rw [h i hi]

/-- A ticket's share is within the committed amount of its account. -/
theorem commits_le (s : State) (h : s.FeesLawful) (t : Station) (a : Account) :
    (s.ticket t).commits s.tariff a ≤ (s.account a).committed := by
  rw [h.committed a, State.committedSum]
  exact List.single_le_sum (fun _ _ => Nat.zero_le _) _
    (List.mem_map.2 ⟨t, List.mem_finRange t, rfl⟩)

/-- The account table after a debit, one account at a time. -/
theorem debited_at (t : Table DepositAccount 16) (o : Option Account) (n : Nat) (a : Account) :
    (debited t o n).at a =
      if o = some a then
        { t.at a with balance := (t.at a).balance - n, committed := (t.at a).committed - n }
      else t.at a := by
  cases o with
  | none => simp [debited]
  | some b =>
    unfold debited
    rw [Table.at_put]
    by_cases h : b = a
    · subst h; simp
    · simp [h]

/-- A settlement of a live ticket keeps the laws (R150, R155). -/
theorem feesLawful_settleBody (s : State) (h : s.FeesLawful) (t : Station) (b : TicketBody)
    (c : SettleCause) (st : Nat) (hb : (s.ticket t).body? = some b) (hf : s.journalFree = true) :
    (s.settleBody t b c st).FeesLawful := by
  have hR := reckons_settleBody s t b c st hf
  have hL := settleBody_ledger s t b c st
  set u := s.settleBody t b c st
  have hk : ∀ i, u.ticket i = if t = i then .idle else s.ticket i := fun i => by
    show u.ledger.tickets.at i = _
    rw [hL]; exact Table.at_put _ _ _ _
  have ha : ∀ i, u.account i = if b.account = some i then
      { s.account i with
        balance := (s.account i).balance - s.tariff.settle b.gross
        committed := (s.account i).committed - s.tariff.settle b.gross } else s.account i :=
    fun i => by
      show u.ledger.accounts.at i = _
      rw [hL]; exact debited_at _ _ _ _
  have hd : u.ledger.dueList = s.ledger.dueList.filter fun v => v ≠ t := by rw [hL]
  have he : ∀ i, u.station i = s.station i := fun i => by simp [State.station, hR.stations]
  have hshare : ∀ i, (s.ticket t).commits s.tariff i =
      if b.account = some i then s.tariff.settle b.gross else 0 := fun i => by
    simp [Ticket.commits, hb]
  have hsum : ∀ i, u.committedSum i + (s.ticket t).commits s.tariff i = s.committedSum i := by
    intro i
    have := committedSum_replace s u t i hR.tariff (fun j hj => by rw [hk]; simp [Ne.symm hj])
    rw [this, hk t]; simp [Ticket.commits, Ticket.body?]
  refine ⟨?_, ?_, ?_, ?_, ?_, ?_⟩
  · intro i; rw [hk, he]
    split
    · trivial
    · exact h.terms i
  · intro i; rw [hd, hk, List.mem_filter]
    by_cases e : t = i
    · subst e; simp [Ticket.isDue]
    · have e' : i ≠ t := fun x => e x.symm
      simp [e, e', h.due i]
  · rw [hd]; exact h.dueOnce.filter _
  · intro i
    have h1 := hsum i
    have h2 := h.committed i
    rw [hshare] at h1
    rw [ha]
    split_ifs with e
    · simp only [e, if_true] at h1
      show (s.account i).committed - _ = _
      omega
    · simp only [e, if_false] at h1
      omega
  · intro i; rw [ha]
    have := h.within i
    split_ifs
    · show (s.account i).committed - _ ≤ (s.account i).balance - _
      omega
    · exact this
  · intro i; rw [ha]
    have := h.limit i
    split_ifs
    · show (s.account i).balance - _ ≤ _
      omega
    · exact this

/-- A settling event keeps the laws, and leaves no OPEN ticket at its station (R147, R150, R151). -/
theorem feesLawful_settleEvent (s : State) (h : s.FeesLawful) (t : Station) (c : SettleCause) :
    (s.settleEvent t c).FeesLawful := by
  unfold State.settleEvent
  split
  · rename_i b cd hb
    split
    · exact feesLawful_settleBody s h t b c _ (by rw [hb]; rfl) (by assumption)
    · rename_i hfull
      obtain ⟨u, hu⟩ : ∃ u : State, u = { s with ledger := { s.ledger with
          tickets := s.ledger.tickets.put t (.due b c s.clockStamp)
          dueList := s.ledger.dueList ++ [t] } } := ⟨_, rfl⟩
      have hk : ∀ i, u.ticket i = if t = i then .due b c s.clockStamp else s.ticket i :=
        fun i => by rw [hu]; exact Table.at_put _ _ _ _
      have hT : u.tariff = s.tariff := by rw [hu]
      have hsum : ∀ i, u.committedSum i = s.committedSum i := by
        intro i
        have := committedSum_replace s u t i hT (fun j hj => by rw [hk]; simp [Ne.symm hj])
        have e : (u.ticket t).commits s.tariff i = (s.ticket t).commits s.tariff i := by
          rw [hk, hb]; simp [Ticket.commits, Ticket.body?]
        omega
      have hnd : t ∉ s.ledger.dueList := by
        rw [h.due]; simp [hb, Ticket.isDue]
      rw [← hu]
      have he : ∀ i, u.station i = s.station i := fun i => by rw [hu]; rfl
      have ha : ∀ i, u.account i = s.account i := fun i => by rw [hu]; rfl
      have hd : u.ledger.dueList = s.ledger.dueList ++ [t] := by rw [hu]
      refine ⟨?_, ?_, ?_, ?_, fun i => by rw [ha]; exact h.within i,
        fun i => by rw [ha]; exact h.limit i⟩
      · intro i; rw [hk, he]
        split
        · trivial
        · exact h.terms i
      · intro i
        rw [hd, hk]
        by_cases e : t = i
        · subst e; simp [Ticket.isDue]
        · have e' : i ≠ t := fun x => e x.symm
          simp [e, e', h.due i]
      · rw [hd, List.nodup_append]
        refine ⟨h.dueOnce, by simp, ?_⟩
        intro x hx y hy
        rw [List.mem_singleton] at hy
        subst hy
        exact fun e => hnd (e ▸ hx)
      · intro i; rw [hsum, ha]; exact h.committed i
  · exact h

theorem feesLawful_settleAll (s : State) (h : s.FeesLawful) (c : SettleCause) :
    (s.settleAll c).FeesLawful := by
  have : ∀ (l : List Station) (s : State), s.FeesLawful →
      (l.foldl (fun s t => s.settleEvent t c) s).FeesLawful := by
    intro l
    induction l with
    | nil => intro s h; exact h
    | cons t l ih => intro s h; exact ih _ (feesLawful_settleEvent s h t c)
  exact this _ s h

/-- Replacing a ticket that is not due by an OPEN one whose terms agree, with the account set to carry
exactly its new share, keeps the laws (R136, R138, R155). -/
theorem feesLawful_charge (s u : State) (h : s.FeesLawful) (t : Station) (b : TicketBody)
    (cd : Option Nat) (hnd : (s.ticket t).isDue = false)
    (hterms : (Ticket.opened b cd).AgreesWith (s.station t).fee)
    (hk : ∀ i, u.ticket i = if t = i then .opened b cd else s.ticket i)
    (hd : u.ledger.dueList = s.ledger.dueList) (he : u.stations = s.stations)
    (hT : u.tariff = s.tariff)
    (hacct : ∀ i, (u.account i).balance = (s.account i).balance ∧
      (u.account i).committed + (s.ticket t).commits s.tariff i =
        (s.account i).committed + (Ticket.opened b cd).commits s.tariff i ∧
      (u.account i).committed ≤ (s.account i).balance) : u.FeesLawful := by
  have hst : ∀ i, u.station i = s.station i := fun i => by simp [State.station, he]
  refine ⟨?_, ?_, by rw [hd]; exact h.dueOnce, ?_, ?_, ?_⟩
  · intro i; rw [hk, hst]
    split
    · subst_vars; exact hterms
    · exact h.terms i
  · intro i; rw [hd, hk]
    by_cases e : t = i
    · subst e
      simp only [if_true, Ticket.isDue, Bool.false_eq_true, iff_false]
      rw [h.due, hnd]; simp
    · simp [e, h.due i]
  · intro i
    have h1 := committedSum_replace s u t i hT (fun j hj => by rw [hk]; simp [Ne.symm hj])
    have h2 := h.committed i
    have h3 := (hacct i).2.1
    rw [hk t, if_pos rfl] at h1
    omega
  · intro i; rw [(hacct i).1]; exact (hacct i).2.2
  · intro i; rw [(hacct i).1]; exact h.limit i

/-- The new ticket of an applied charge (R138). -/
theorem chargeTicket_ticket (s : State) (t i : Station) (h : PageHeader) (k c : Nat) :
    ∃ b cd, (s.chargeTicket t h k c).ticket i =
        (if t = i then .opened b cd else s.ticket i) ∧
      b.gross = (s.ticket t).gross + c ∧
      b.account = (match (s.ticket t).body? with
        | some b => b.account
        | none => chargedAccount (s.station t) .idle) := by
  refine ⟨_, _, State.ticket_setTicket _ _ _ _, ?_, ?_⟩
  · cases hb : s.ticket t <;> simp [Ticket.gross, Ticket.body?, State.openingBody]
  · cases hb : s.ticket t <;> simp [Ticket.body?, State.openingBody]

/-- The deposit stage keeps the laws for a ticket that is not due, at a station that charges
(R136 to R138, R155). -/
theorem feesLawful_depositStage (s : State) (hl : s.FeesLawful) (t : Station) (h : PageHeader)
    (k c : Nat) (hnd : (s.ticket t).isDue = false) (hfee : (s.station t).fee ≠ .exempt) :
    (s.depositStage t h k c).1.FeesLawful ∧
      ((s.depositStage t h k c).1.ticket t).isDue = false := by
  obtain ⟨b, cd, hk0, hg, hacc⟩ := chargeTicket_ticket s t t h k c
  have hk : ∀ i, (s.chargeTicket t h k c).ticket i = if t = i then .opened b cd else s.ticket i := by
    intro i
    by_cases e : t = i
    · subst e; exact hk0
    · rw [if_neg e]
      exact State.ticket_setTicket_ne s _ e
  have hold := hl.terms t
  unfold State.depositStage
  dsimp only
  rcases hf : (s.station t).fee with _ | _ | a
  · exact absurd hf hfee
  · -- COUNTER: no account is drawn on
    have hb : b.account = none := by
      rw [hacc]
      cases ht : s.ticket t with
      | idle => simp [Ticket.body?, chargedAccount, hf]
      | opened b0 c0 =>
        rw [ht, hf] at hold
        exact hold
      | due b0 c0 d0 => rw [ht] at hnd; cases hnd
    have hca : chargedAccount (s.station t) (s.ticket t) = none := by simp [chargedAccount, hf]
    rw [hca]
    refine ⟨feesLawful_charge s _ hl t b cd hnd (by rw [hf]; exact hb) hk rfl rfl rfl ?_, ?_⟩
    · intro i
      refine ⟨rfl, ?_, hl.within i⟩
      have h0 : (s.ticket t).commits s.tariff i = 0 := by
        cases ht : s.ticket t with
        | idle => rfl
        | opened b0 c0 =>
          rw [ht, hf] at hold
          have : b0.account = none := hold
          simp [Ticket.commits, Ticket.body?, this]
        | due b0 c0 d0 => rw [ht] at hnd; cases hnd
      have h1 : (Ticket.opened b cd).commits s.tariff i = 0 := by
        simp [Ticket.commits, Ticket.body?, hb]
      rw [h0, h1]; rfl
    · show ((s.chargeTicket t h k c).ticket t).isDue = false
      rw [hk]; simp [Ticket.isDue]
  · -- DEPOSIT on account a
    have hca : chargedAccount (s.station t) (s.ticket t) = some a ∧ b.account = some a := by
      rw [hacc]
      cases ht : s.ticket t with
      | idle => simp [Ticket.body?, chargedAccount, hf]
      | opened b0 c0 =>
        rw [ht, hf] at hold
        have : b0.account = some a := hold
        simp [Ticket.body?, chargedAccount, hf, this]
      | due b0 c0 d0 => rw [ht] at hnd; cases hnd
    obtain ⟨hca, hb⟩ := hca
    rw [hca]
    have hshare : ∀ i, (s.ticket t).commits s.tariff i =
        if a = i then s.tariff.settle (s.ticket t).gross else 0 := by
      intro i
      cases ht : s.ticket t with
      | idle => simp [Ticket.commits, Ticket.body?, Ticket.gross, Tariff.settle]
      | opened b0 c0 =>
        rw [ht, hf] at hold
        have : b0.account = some a := hold
        simp [Ticket.commits, Ticket.body?, Ticket.gross, this]
      | due b0 c0 d0 => rw [ht] at hnd; cases hnd
    have hnew : ∀ i, (Ticket.opened b cd).commits s.tariff i =
        if a = i then s.tariff.settle ((s.ticket t).gross + c) else 0 := by
      intro i
      simp [Ticket.commits, Ticket.body?, hb, hg]
    simp only
    split_ifs with hP
    · obtain ⟨P, hPe⟩ : ∃ P, P = (s.account a).committed +
          s.tariff.settle ((s.ticket t).gross + c) - s.tariff.settle (s.ticket t).gross := ⟨_, rfl⟩
      rw [← hPe] at hP ⊢
      obtain ⟨v, hv⟩ : ∃ v : State, v = (s.chargeTicket t h k c).setAccount a
          { s.account a with committed := P } := ⟨_, rfl⟩
      rw [← hv]
      have hvk : ∀ i, v.ticket i = if t = i then .opened b cd else s.ticket i := fun i => by
        rw [hv]; exact hk i
      have hva : ∀ i, v.account i =
          if a = i then { s.account a with committed := P } else s.account i := fun i => by
        rw [hv]; exact State.account_setAccount _ _ _ _
      have hvl : v.FeesLawful := by
        refine feesLawful_charge s v hl t b cd hnd (by rw [hf]; exact hb) hvk (by rw [hv]; rfl)
          (by rw [hv]; rfl) (by rw [hv]; rfl) fun i => ?_
        have hle := commits_le s hl t i
        have hw := hl.within i
        rw [hshare] at hle
        rw [hshare, hnew, hva]
        by_cases e : a = i
        · subst e
          simp only [if_true] at hle ⊢
          exact ⟨trivial, by omega, hP⟩
        · simp only [if_neg e]
          exact ⟨trivial, trivial, hw⟩
      refine ⟨FeesLawful.congr hvl (by simp) (by simp) (by simp) (by simp) (by simp), ?_⟩
      have : (v.recompute .depositLow).ticket t = .opened b cd := by
        show (v.recompute .depositLow).ledger.tickets.at t = _
        rw [State.recompute_ledger]
        have := hvk t
        rw [if_pos rfl] at this
        exact this
      show ((v.recompute .depositLow).ticket t).isDue = false
      rw [this]; rfl
    · exact ⟨hl, hnd⟩

/-- The ticket of a station that a settling event reaches (R147). -/
theorem settleEvent_ticket (s : State) (t : Station) (c : SettleCause) (h : s.journalFree = true) :
    ((s.settleEvent t c).ticket t).isDue = (s.ticket t).isDue := by
  unfold State.settleEvent
  split
  · rename_i b cd hb
    rw [if_pos h]
    have hL := settleBody_ledger s t b c s.clockStamp
    have : (s.settleBody t b c s.clockStamp).ticket t = .idle := by
      show (s.settleBody t b c s.clockStamp).ledger.tickets.at t = _
      rw [hL]; exact Table.at_put_same _ _ _
    rw [this, hb]; rfl
  · rfl

/-- The charge of one header keeps the laws, for a ticket that is not due at a station that charges
(R134 to R138). -/
theorem feesLawful_chargeHeader (s : State) (hl : s.FeesLawful) (t : Station) (h : PageHeader)
    (k : Nat) (hnd : (s.ticket t).isDue = false) (hfee : (s.station t).fee ≠ .exempt) :
    (s.chargeHeader t h k).1.FeesLawful ∧ ((s.chargeHeader t h k).1.ticket t).isDue = false := by
  unfold State.chargeHeader
  dsimp only
  split_ifs with h1 h2 h3
  · -- a page delivered free: only the page list moves
    have hk : ∀ i, (s.setTicket t ((s.ticket t).touchPage h)).ticket i =
        if t = i then (s.ticket t).touchPage h else s.ticket i :=
      fun i => State.ticket_setTicket _ _ _ _
    have hd : ((s.ticket t).touchPage h).isDue = (s.ticket t).isDue := by
      cases s.ticket t <;> rfl
    have hc : ∀ i, ((s.ticket t).touchPage h).commits s.tariff i =
        (s.ticket t).commits s.tariff i := by
      intro i; cases s.ticket t <;> rfl
    have ha : ∀ f, (s.ticket t).AgreesWith f → ((s.ticket t).touchPage h).AgreesWith f := by
      intro f; cases s.ticket t <;> exact id
    refine ⟨⟨?_, ?_, hl.dueOnce, ?_, hl.within, hl.limit⟩, ?_⟩
    · intro i; rw [hk]
      split
      · subst_vars; exact ha _ (hl.terms _)
      · exact hl.terms i
    · intro i; rw [hk]
      split
      · subst_vars; rw [hd]; exact hl.due _
      · exact hl.due i
    · intro i
      have := committedSum_replace s (s.setTicket t ((s.ticket t).touchPage h)) t i rfl
        (fun j hj => by rw [hk]; simp [Ne.symm hj])
      rw [hk t, if_pos rfl, hc] at this
      have h2 := hl.committed i
      show (s.account i).committed = (s.setTicket t ((s.ticket t).touchPage h)).committedSum i
      omega
    · rw [hk, if_pos rfl, hd]; exact hnd
  · exact feesLawful_depositStage s hl t h k _ hnd hfee
  · have hR := reckons_settleEvent s t .totalLimit
    refine feesLawful_depositStage _ (feesLawful_settleEvent s hl t _) t h k _ ?_ ?_
    · rw [settleEvent_ticket s t _ h3]; exact hnd
    · simpa [State.station, hR.stations] using hfee
  · exact ⟨hl, hnd⟩

end Sys2Proof.Machine
end

