-- ==== Sys2Proof/Laws/Chain.lean ====
section
/-! SUPPORT. The start-up chain: what the standing test cannot touch there, which drives the retained locations
identify, and how the chain goes on from any point. -/

namespace Sys2Proof.Machine

/-! ### What the standing test leaves alone -/

/-- The mechanism's records and the locations of cartridges are as they were. -/
structure State.SamePlaces (s t : State) : Prop where
  mech : t.mech = s.mech
  locations : ∀ n, (t.cart n).location = (s.cart n).location

theorem State.SamePlaces.refl (s : State) : s.SamePlaces s := ⟨rfl, fun _ => rfl⟩

theorem State.SamePlaces.trans {s t u : State} (h : s.SamePlaces t) (k : t.SamePlaces u) :
    s.SamePlaces u :=
  ⟨k.mech.trans h.mech, fun n => (k.locations n).trans (h.locations n)⟩

theorem State.finishPiece_samePlaces (s : State) (t : Tag) (x : Side) (st : Status) :
    s.SamePlaces (s.finishPiece t x st) := by
  unfold State.finishPiece State.checkRequest State.noteAssembled
  split
  · exact .refl s
  · dsimp only
    split <;> exact ⟨rfl, fun _ => rfl⟩

theorem State.failLabelling_samePlaces (s : State) (n : Cart) : s.SamePlaces (s.failLabelling n) := by
  unfold State.failLabelling State.raise
  dsimp only
  split
  · refine ⟨rfl, fun k => ?_⟩
    show CartridgeRecord.location (Table.at (Table.put _ _ _) k) = _
    rw [Table.at_put]
    split
    · rename_i h; subst h; rfl
    · rfl
  · exact .refl s

theorem State.refuseEntry_samePlaces (s : State) (h : Side × QEntry × Status) :
    s.SamePlaces (s.refuseEntry h) := by
  unfold State.refuseEntry
  split
  · exact s.finishPiece_samePlaces _ _ _
  · exact .refl s
  · exact s.failLabelling_samePlaces _

theorem State.sweepOnce_samePlaces (s : State) (tested : Side → Bool) :
    s.SamePlaces (s.sweepOnce tested) := by
  unfold State.sweepOnce
  have all : ∀ (l : List (Side × QEntry × Status)) (u : State),
      u.SamePlaces (l.foldl State.refuseEntry u) := by
    intro l
    induction l with
    | nil => exact fun u => .refl u
    | cons h l ih => exact fun u => (u.refuseEntry_samePlaces h).trans (ih _)
  exact (show s.SamePlaces (s.dropRefused tested) from ⟨rfl, fun _ => rfl⟩).trans (all _ _)

/-- The standing test moves no record of the mechanism and no cartridge (R16). -/
theorem State.sweep_samePlaces (s : State) : s.SamePlaces s.sweep :=
  (s.sweepOnce_samePlaces _).trans (State.sweepOnce_samePlaces _ _)

/-! ### Drives that the retained locations identify -/

/-- The lowest number that a search accepts. -/
theorem findSome?_finRange {α : Type} {k : Nat} (f : Fin k → Option α) (n : Fin k) (b : α)
    (h : f n = some b) (low : ∀ m, m < n → f m = none) :
    (List.finRange k).findSome? f = some b := by
  obtain ⟨l, r, e⟩ := List.append_of_mem (List.mem_finRange n)
  have before : ∀ m ∈ l, m < n := by
    have := List.pairwise_lt_finRange k
    rw [e, List.pairwise_append] at this
    exact fun m hm => this.2.2 m hm n (by simp)
  rw [e, List.findSome?_append, List.findSome?_eq_none_iff.mpr fun m hm => low m (before m hm)]
  simp [h]

/-- Where a cartridge's retained location places it in drive `d` (R183, step 2). -/
def retainedPlace (s : State) (d : DriveNo) (n : Cart) : Option (Cart × Face) :=
  match (s.cart n).location with
  | .mounted e f => if e = d then some (n, f) else none
  | .stuck e f => if e = d then some (n, f) else none
  | _ => none

theorem retainedPlace_some {s : State} {d : DriveNo} {n : Cart} {w : Cart × Face} :
    retainedPlace s d n = some w ↔ ∃ f, s.Retains d n f ∧ w = (n, f) := by
  unfold retainedPlace State.Retains
  rcases (s.cart n).location with _ | ⟨e, f⟩ | _ | _ | _ | ⟨e, f⟩ <;> simp [-Fin.exists_fin_two]
  all_goals exact fun _ => eq_comm

theorem retainedPlace_none {s : State} {d : DriveNo} {n : Cart} :
    retainedPlace s d n = none ↔ ∀ f, ¬ s.Retains d n f := by
  constructor
  · intro h f hf
    have := retainedPlace_some.mpr ⟨f, hf, rfl⟩
    simp [h] at this
  · intro h
    rcases hp : retainedPlace s d n with _ | w
    · rfl
    · obtain ⟨f, hf, -⟩ := retainedPlace_some.mp hp
      exact absurd hf (h f)

theorem State.retainedIn_eq (s : State) (d : DriveNo) :
    s.retainedIn d = (List.finRange 160).findSome? (retainedPlace s d) := rfl

/-- A drive is identified by the lowest cartridge retained in it (R183; log entry 20). -/
theorem State.IdentifiedAs.retainedIn {s : State} {i : Ident} (h : s.IdentifiedAs i) :
    s.retainedIn i.drive = some (i.cart, i.face) := by
  rw [State.retainedIn_eq]
  exact findSome?_finRange _ i.cart _ (retainedPlace_some.mpr ⟨_, h.retained, rfl⟩)
    fun n hn => retainedPlace_none.mpr fun f => h.lowest n f hn

theorem State.retainedIn_none {s : State} {d : DriveNo} :
    s.retainedIn d = none ↔ ∀ n f, ¬ s.Retains d n f := by
  rw [State.retainedIn_eq, List.findSome?_eq_none_iff]
  exact ⟨fun h n => retainedPlace_none.mp (h n (List.mem_finRange n)),
    fun h n _ => retainedPlace_none.mpr (h n)⟩

/-! ### The chain -/

theorem State.startHoming_places {s : State} (o : PickerOrder) :
    (s.startHoming o).mech = { (s.startEffects o).mech with picker := .homing o 400 } ∧
      ∀ n, ((s.startHoming o).cart n).location = ((s.startEffects o).cart n).location := by
  have h := ((s.startEffects o).setPicker (.homing o Config.watchdogTenths)).sweep_samePlaces
  exact ⟨h.mech, h.locations⟩

theorem State.chainGoesOn_nextUnload (s : State) (found : List Ident) :
    s.ChainGoesOn (s.nextUnload found []) found [] := by
  rcases found with _ | ⟨i, rest⟩
  · obtain ⟨hm, hl⟩ := State.startHoming_places (s := s.setStartup (.inventory [])) .inventory
    refine ⟨fun known d rest h => by simp at h, fun _ _ => ⟨?_, ⟨by simp, fun e _ _ => ?_⟩, hl⟩,
      fun known i rest h _ hf => ?_⟩
    · unfold State.ChainAt State.nextUnload; rw [hm]; rfl
    · unfold State.drive State.nextUnload; rw [hm]; rfl
    · have : known = [] := List.map_eq_nil_iff.mp h.symm
      simp [this] at hf
  · obtain ⟨hm, hl⟩ := State.startHoming_places (s := s.setStartup (.unloading rest []))
      (.unload i.drive i.cart .startup)
    refine ⟨fun known d rest h => by simp at h, fun _ h => by simp at h, fun known j more h _ hf => ?_⟩
    have : known = [] := List.map_eq_nil_iff.mp h.symm
    subst this
    obtain ⟨rfl, rfl⟩ : i = j ∧ rest = more := by simpa using hf
    refine ⟨?_, ⟨by simp, fun e _ _ => ?_⟩, fun n => ?_⟩
    · unfold State.ChainAt State.nextUnload; rw [hm]; rfl
    · unfold State.drive State.nextUnload; rw [hm]; rfl
    · refine (hl n).trans ?_
      show CartridgeRecord.location (Table.at (Table.put _ _ _) n) = _
      rw [Table.at_put]
      by_cases hn : n = i.cart
      · simp [hn]
      · simp [hn, Ne.symm hn]; rfl

/-- The chain goes on from any point of the identification as R183 says. -/
theorem State.chainGoesOn_identifyFrom : ∀ (todo : List DriveNo) (s : State) (found : List Ident),
    s.ChainGoesOn (s.identifyFrom found todo) found todo := by
  intro todo
  induction todo with
  | nil => intro s found; exact s.chainGoesOn_nextUnload found
  | cons d rest ih =>
    intro s found
    rcases hr : s.retainedIn d with _ | ⟨n, f⟩
    · have hu : s.identifyFrom found (d :: rest) =
          ((s.setDrive d (.empty (some 250))).setStartup
            (.identifying d rest found)).setPicker .homingWait := by
        conv => lhs; unfold State.identifyFrom
        rw [hr]
      have no (i : Ident) (hd : i.drive = d) (hi : s.IdentifiedAs i) : False := by
        have := hi.retainedIn
        rw [hd, hr] at this
        cases this
      rw [hu]
      refine ⟨fun known e more h hk _ => ?_, fun h => by simp at h, fun known i more h hk _ => ?_⟩
      · rcases known with _ | ⟨i, known⟩
        · obtain ⟨rfl, rfl⟩ : d = e ∧ rest = more := by simpa using h
          refine ⟨?_, ⟨by simp, fun e' _ he => ?_⟩, Table.at_put_same _ _ _, fun _ => rfl⟩
          · unfold State.ChainAt; rw [List.append_nil]; rfl
          · exact Table.at_put_ne _ _ fun h => he (congrArg some h)
        · obtain ⟨hd, -⟩ : d = i.drive ∧ _ := by simpa using h
          exact (no i hd.symm (hk i (by simp))).elim
      · rcases known with _ | ⟨i, known⟩
        · simp at h
        · obtain ⟨hd, -⟩ : d = i.drive ∧ _ := by simpa using h
          exact (no i hd.symm (hk i (by simp))).elim
    · have hu : s.identifyFrom found (d :: rest) =
          (s.identify ⟨d, n, f⟩).identifyFrom (found ++ [⟨d, n, f⟩]) rest := by
        conv => lhs; unfold State.identifyFrom
        rw [hr]
      have only (i : Ident) (hd : i.drive = d) (hi : s.IdentifiedAs i) : i = ⟨d, n, f⟩ := by
        have := hi.retainedIn
        rw [hd, hr] at this
        rcases i with ⟨_, _, _⟩
        simp_all
      have move (i : Ident) : s.IdentifiedAs i → (s.identify ⟨d, n, f⟩).IdentifiedAs i :=
        fun h => ⟨h.retained, h.lowest⟩
      have chain {u : State} {p : Picker} {k : Startup}
          (h : (s.identify ⟨d, n, f⟩).ChainAt u p k) : s.ChainAt u p k := h
      have drives {u : State} {known : List Ident} {x : Option DriveNo}
          (hk : ∀ i ∈ known, s.IdentifiedAs i) (hx : x ≠ some d)
          (h : (s.identify ⟨d, n, f⟩).DrivesIdentified u known x) :
          s.DrivesIdentified u (⟨d, n, f⟩ :: known) x := by
        refine ⟨fun i hi => ?_, fun e he hex => ?_⟩
        · rcases List.mem_cons.mp hi with rfl | hi
          · by_cases hin : ∃ j ∈ known, j.drive = d
            · obtain ⟨j, hj, hjd⟩ := hin
              have := only j hjd (hk j hj)
              exact this ▸ h.identified j hj
            · exact (h.others d (fun j hj hjd => hin ⟨j, hj, hjd⟩) hx).trans
                (Table.at_put_same _ _ _)
          · exact h.identified i hi
        · have hd : d ≠ e := he ⟨d, n, f⟩ (by simp)
          exact (h.others e (fun i hi => he i (by simp [hi])) hex).trans (Table.at_put_ne _ _ hd)
      obtain ⟨awaits, inventory, unloads⟩ := ih (s.identify ⟨d, n, f⟩) (found ++ [⟨d, n, f⟩])
      rw [hu]
      refine ⟨fun known e more h hk hn => ?_, fun h => by simp at h, fun known i more h hk hf => ?_⟩
      · rcases known with _ | ⟨i, known⟩
        · obtain ⟨rfl, rfl⟩ : d = e ∧ rest = more := by simpa using h
          rw [State.retainedIn_none.mpr hn] at hr
          cases hr
        · obtain ⟨hd, ht⟩ : d = i.drive ∧ rest = known.map (·.drive) ++ e :: more := by simpa using h
          have hi := only i hd.symm (hk i (by simp))
          subst hi
          have hne : (some e : Option DriveNo) ≠ some d := fun hed => by
            cases hed
            rw [State.retainedIn_none.mpr hn] at hr
            cases hr
          obtain ⟨a, b, c, g⟩ := awaits known e more ht (fun j hj => move j (hk j (by simp [hj]))) hn
          rw [List.append_assoc] at a
          exact ⟨chain a, drives (fun j hj => hk j (by simp [hj])) hne b, c, g⟩
      · rcases known with _ | ⟨j, known⟩
        · simp at h
        · obtain ⟨hd, ht⟩ : d = j.drive ∧ rest = known.map (·.drive) := by simpa using h
          have hj := only j hd.symm (hk j (by simp))
          subst hj
          obtain ⟨a, b, g⟩ := unloads known i more ht (fun j hj => move j (hk j (by simp [hj])))
            (by rw [← hf, List.append_assoc]; rfl)
          exact ⟨chain a, drives (fun j hj => hk j (by simp [hj])) (by simp) b, g⟩

end Sys2Proof.Machine
end

