-- ==== Sys2Proof/Laws/Events.lean ====
section
/-! SUPPORT. Every event of a drive, of the picker and of a scheduler's countdown, outside start-up, is
steady: where it gives a next state, that state differs from the old one only as the mechanism's
operations may make it differ. -/

namespace Sys2Proof.Machine

/-- An outcome whose next state, if it has one, is steady from a state. -/
def SteadyOut (s : State) (o : Out) : Prop := ∀ t, o = .next t → Steady s t

theorem SteadyOut.of_next {s t : State} (h : Steady s t) : SteadyOut s (.next t) := by
  intro u e; cases e; exact h

theorem SteadyOut.of_fault (s : State) (f : Fault) : SteadyOut s (.fault f) := by
  intro u e; cases e

theorem SteadyOut.of_refused (s : State) (r : Refusal) : SteadyOut s (.refused r) := by
  intro u e; cases e

theorem steady_afterDriveEvent (s : State) (d : DriveNo) (b : State) :
    Steady s (s.afterDriveEvent d b) :=
  (steady_chooseIf s _).trans (steady_rearmFrom _ _)

/-- Replacing staging memory by one that is canonical where the old one was. -/
theorem steady_setStaging (s : State) (m : List (Nat × Block))
    (h : stagingWf s.chan.staging = true → stagingWf m = true) : Steady s (s.setStaging m) := by
  constructor <;> first | rfl | exact List.prefix_rfl | (intro h; exact h) | (intro _ h; exact h) | skip
  · intro x; exact SideRecord.Advances.refl _
  · intro c; exact ⟨h c.1, c.2⟩
  · intro k r h e; exact ⟨r, h, e⟩

theorem sidePiece_request (s : State) (t : Tag) (x : Side) (r : Request) (p : Piece) (n : Nat)
    (h : s.sidePiece t x = some (r, p, n)) : s.request t = some r := by
  unfold State.sidePiece at h
  split at h
  · cases h
  · rename_i q hq
    split at h
    · cases h
    · split at h
      · cases h; exact hq
      · cases h

theorem steady_takeSectors (s : State) (d : DriveNo) (x : Side) (i : Nat) (l : List SectorAnswer) :
    Steady s (s.takeSectors d x i l) := by
  unfold State.takeSectors
  split
  · rename_i o t ho
    split
    · exact steady_endPiece _ _ _
    · rename_i o2 r p sector h
      have hr := sidePiece_request s t x r p sector h
      have h1 : Steady s (s.enterSectors t x r p i l) := by
        refine (steady_setRequest s t r (r.mapPiece x fun p =>
          { p with conds := enterConds p.conds i l }) hr (fun e => e)).trans
          (steady_setStaging _ _ ?_)
        exact fun w => stagingWf_place l _ _ w
      dsimp only
      split_ifs
      · exact h1.trans (steady_goOn (s.enterSectors t x r p i l, _) d)
      · exact h1.trans (steady_endPiece _ _ _)
  · exact steady_endPiece _ _ _

theorem steadyOut_answerRead (s : State) (d : DriveNo) (x : Side) (i run : Nat) (a : DriveAnswer) :
    SteadyOut s (s.answerRead d x i run a) := by
  unfold State.answerRead
  split
  · split_ifs
    · exact .of_next ((steady_takeSectors _ _ _ _ _).trans (steady_afterDriveEvent _ _ _))
    · exact .of_fault _ _
  · exact .of_fault _ _

theorem steadyOut_endPiece (s : State) (d : DriveNo) (st : Status) (b : State) :
    SteadyOut s (.next ((s.endPiece d st).afterDriveEvent d b)) :=
  .of_next ((steady_endPiece _ _ _).trans (steady_afterDriveEvent _ _ _))

theorem steadyOut_answerDeed (s : State) (d : DriveNo) (first count : Nat) (a : DriveAnswer) :
    SteadyOut s (s.answerDeed d first count a) := by
  unfold State.answerDeed
  split
  · exact steadyOut_endPiece _ _ _ _
  · split_ifs
    · exact steadyOut_endPiece _ _ _ _
    · exact .of_fault _ _
  · split_ifs
    · exact steadyOut_endPiece _ _ _ _
    · exact .of_fault _ _
  · exact .of_fault _ _

theorem steady_nextBlock (s : State) (d : DriveNo) (x : Side) (i : Nat) :
    Steady s (s.nextBlock d x i) := by
  unfold State.nextBlock
  split
  · split
    · exact steady_endPiece _ _ _
    · split_ifs
      · exact (steady_indexWrite _ _ _ _ _ _).trans (steady_goOn _ _)
      · exact steady_endPiece _ _ _
  · exact steady_endPiece _ _ _

theorem steady_homeWritten (s : State) (d : DriveNo) (x : Side) (i h : Nat) (data : Block) :
    Steady s (s.homeWritten d x i h data) := by
  unfold State.homeWritten
  split
  · exact (steady_redirect _ _ _ _ _).trans (steady_goOn _ _)
  · exact steady_endPiece _ _ _

theorem steadyOut_answerHome (s : State) (d : DriveNo) (x : Side) (i h : Nat) (data : Block)
    (a : DriveAnswer) : SteadyOut s (s.answerHome d x i h data a) := by
  unfold State.answerHome
  split
  · exact .of_next ((steady_nextBlock _ _ _ _).trans (steady_afterDriveEvent _ _ _))
  · split_ifs
    · exact .of_next ((steady_homeWritten _ _ _ _ _ _).trans (steady_afterDriveEvent _ _ _))
    · exact .of_fault _ _
  · split_ifs
    · exact steadyOut_endPiece _ _ _ _
    · exact .of_fault _ _
  · exact .of_fault _ _

theorem steady_enterSpare (s : State) (home spare : Nat) (had : Bool) :
    Steady s (s.enterSpare home spare had) :=
  (steady_setRemap s _ (fun h => remapRising_insert home spare _ h)).trans (steady_recompute _ _)

theorem steadyOut_answerSpare (s : State) (d : DriveNo) (x : Side) (i spare home : Nat) (had : Bool)
    (data : Block) (a : DriveAnswer) :
    SteadyOut s (s.answerSpare d x i spare home had data a) := by
  unfold State.answerSpare
  dsimp only
  have h (st : Status) : SteadyOut s (.next (((s.releasePlace
      (.writeSpare i spare home had data)).endPiece d st).afterDriveEvent d s)) :=
    .of_next (((steady_releasePlace _ _).trans (steady_endPiece _ _ _)).trans (steady_afterDriveEvent _ _ _))
  split
  · exact .of_next (((steady_enterSpare _ _ _ _).trans (steady_nextBlock _ _ _ _)).trans (steady_afterDriveEvent _ _ _))
  · split_ifs
    · exact h _
    · exact .of_fault _ _
  · split_ifs
    · exact h _
    · exact .of_fault _ _
  · exact .of_fault _ _

theorem steady_proveCart (s : State) (n : Cart) (v : Verification) : Steady s (s.proveCart n v) := by
  unfold State.proveCart
  dsimp only
  split
  · exact ((steady_setCart s n _).trans (steady_raise _ _)).trans (steady_sweepCart _ _)
  · exact steady_setCart s n _

theorem steadyOut_answerLabel (s : State) (d : DriveNo) (m : Mount) (a : DriveAnswer) :
    SteadyOut s (s.answerLabel d m a) := by
  unfold State.answerLabel
  split
  · exact .of_fault _ _
  · exact .of_next (((steady_proveCart _ _ _).trans (steady_afterLabel _ _ _)).trans (steady_afterDriveEvent _ _ _))

theorem resolve_advances (r : SideRecord) (x : Nat) : r.Advances (r.resolve x) := by
  rcases r with _ | ⟨f, r, c⟩ | ⟨p, c⟩
  · trivial
  · cases f with
    | none => exact ⟨fun n h => (by cases h), Nat.le_refl _⟩
    | some f => exact ⟨NeverFalls.refl _, Nat.le_refl _⟩
  · cases p with
    | none => exact ⟨fun n h => (by cases h), Nat.le_refl _⟩
    | some p => exact ⟨NeverFalls.refl _, Nat.le_refl _⟩

theorem resolve_lawful (r : SideRecord) (x : Nat) (hx : x ≤ 262144) (h : r.Lawful) :
    (r.resolve x).Lawful := by
  rcases r with _ | ⟨f, r, c⟩ | ⟨p, c⟩
  · trivial
  · cases f with
    | none => obtain ⟨h1, h2⟩ := h; subst h1 h2; exact ⟨Nat.zero_le _, by omega⟩
    | some f => exact h
  · cases p with
    | none =>
      refine ⟨?_, h⟩
      show x - 258048 ≤ 4096
      omega
    | some p => exact h

theorem steady_resolveSide (s : State) (y : Side) (x : Nat) (hx : x ≤ 262144) :
    Steady s (s.resolveSide y x) := by
  unfold State.resolveSide
  dsimp only
  have h := steady_setSide s y ((s.side y).resolve x) (resolve_advances _ _)
    (resolve_lawful _ _ hx)
  split
  · exact (h.trans (steady_raise _ _)).trans (steady_recompute _ _)
  · exact h.trans (steady_recompute _ _)

theorem steadyOut_answerSearch (s : State) (d : DriveNo) (m : Mount) (start : Nat)
    (a : DriveAnswer) : SteadyOut s (s.answerSearch d m start a) := by
  unfold State.answerSearch
  split
  · exact .of_next ((steady_serveQueue _ _ _).trans (steady_afterDriveEvent _ _ _))
  · exact .of_next (((steady_resolveSide _ _ _ (Nat.le_refl _)).trans
      (steady_serveQueue _ _ _)).trans (steady_afterDriveEvent _ _ _))
  · split_ifs with hx
    · exact .of_next (((steady_resolveSide _ _ _ (Nat.le_of_lt hx.2)).trans
        (steady_serveQueue _ _ _)).trans (steady_afterDriveEvent _ _ _))
    · exact .of_fault _ _
  · exact .of_fault _ _

theorem steadyOut_answerWriteLabel (s : State) (d : DriveNo) (a : DriveAnswer) :
    SteadyOut s (s.answerWriteLabel d a) := by
  unfold State.answerWriteLabel
  split
  · exact steadyOut_endPiece _ _ _ _
  · exact steadyOut_endPiece _ _ _ _
  · exact steadyOut_endPiece _ _ _ _
  · exact .of_fault _ _

/-! ### Start-up -/

theorem steady_nextUnload (s : State) (todo : List Ident) (done : List Cart) :
    Steady s (s.nextUnload todo done) := by
  unfold State.nextUnload; split
  · exact (steady_setStartup _ _).trans (steady_startHoming _ _)
  · exact (steady_setStartup _ _).trans (steady_startHoming _ _)

theorem steady_identifyFrom (l : List DriveNo) : ∀ (s : State) (found : List Ident),
    Steady s (s.identifyFrom found l) := by
  induction l with
  | nil => intro s found; exact steady_nextUnload _ _ _
  | cons d l ih =>
    intro s found
    unfold State.identifyFrom
    split
    · exact (steady_setDrive _ _ _).trans (ih _ _)
    · exact ((steady_setDrive _ _ _).trans (steady_setStartup _ _)).trans (steady_setPicker _ _)

theorem steady_labelRead (s : State) (d : DriveNo) (rest : List DriveNo) (found : List Ident)
    (n : Option (Cart × Face)) : Steady s (s.labelRead d rest found n) := by
  unfold State.labelRead; split
  · exact (steady_setDrive _ _ _).trans (steady_identifyFrom _ _ _)
  · exact ((steady_setDrive _ _ _).trans (steady_raise _ _)).trans (steady_identifyFrom _ _ _)

theorem steadyOut_answerStartup (s : State) (d : DriveNo) (rest : List DriveNo)
    (found : List Ident) (a : DriveAnswer) : SteadyOut s (s.answerStartup d rest found a) := by
  cases a with
  | label b => exact .of_next (steady_labelRead s d rest found (labelNames (readLabel b)))
  | blank => exact .of_next (steady_labelRead s d rest found none)
  | unreadable => exact .of_next (steady_labelRead s d rest found none)
  | notReady => exact .of_next (steady_labelRead s d rest found none)
  | _ => exact .of_fault _ _

theorem steadyOut_answerCommand (s : State) (d : DriveNo) (m : Mount) (c : DriveCommand)
    (a : DriveAnswer) : SteadyOut s (s.answerCommand d m c a) := by
  unfold State.answerCommand
  split
  · exact steadyOut_answerRead _ _ _ _ _ _
  · exact steadyOut_answerDeed _ _ _ _ _
  · exact steadyOut_answerHome _ _ _ _ _ _ _
  · exact steadyOut_answerSpare _ _ _ _ _ _ _ _ _
  · exact steadyOut_answerLabel _ _ _ _
  · exact steadyOut_answerWriteLabel _ _ _
  · exact steadyOut_answerSearch _ _ _ _ _

/-- Every answer of a drive is steady. -/
theorem steadyOut_takeAnswer (s : State) (d : DriveNo) (a : DriveAnswer) :
    SteadyOut s (s.takeAnswer d a) := by
  unfold State.takeAnswer
  split
  · exact steadyOut_answerStartup _ _ _ _ _
  · split
    · exact .of_next (Steady.refl s)
    · split
      · exact .of_next ((steady_faultDrive _ _).trans (steady_afterDriveEvent _ _ _))
      · exact steadyOut_answerCommand _ _ _ _ _

theorem steadyOut_commandExpiry (d : DriveNo) (s : State) :
    SteadyOut s (execCommandCountdownExpiry d s) := by
  unfold execCommandCountdownExpiry
  split
  · split_ifs
    · exact .of_next (steady_labelRead _ _ _ _ _)
    · exact .of_next (Steady.refl s)
  · split
    · exact .of_next ((steady_faultDrive _ _).trans (steady_afterDriveEvent _ _ _))
    · exact .of_next (Steady.refl s)

theorem steady_startupReady (s : State) (occ : BitVec 160) (l : List Cart) :
    Steady s (s.startupReady occ l) :=
  ((((Steady.of_mech s _ s.queues s.mech).trans (steady_setPicker _ _)).trans
    (steady_setStartup _ _)).trans (steady_sweep _)).trans (steady_choose _)

theorem steady_reconcileSlot (occ : BitVec 160) (s : State) (n : Cart) :
    Steady s (State.reconcileSlot occ s n) := by
  unfold State.reconcileSlot
  dsimp only
  split
  · exact (steady_moveCart _ _ _).trans (steady_dropExport _ _)
  · exact steady_setCart _ _ _
  · exact Steady.refl s

theorem steady_reconcile (s : State) (occ : BitVec 160) : Steady s (s.reconcile occ) :=
  (((steady_foldl _ (steady_reconcileSlot occ) _ s).trans (steady_setPicker _ _)).trans
    (steady_sweep _)).trans (steady_choose _)

theorem steady_startupFault (s : State) (o : PickerOrder) : Steady s (s.startupFault o) :=
  ((Steady.of_mech s _ s.queues _).trans (steady_raise _ _)).trans (steady_sweep _)

theorem steady_orderFault (s : State) (o : PickerOrder) : Steady s (s.orderFault o) := by
  unfold State.orderFault; split
  · exact steady_pickerFault _ _
  · exact steady_startupFault _ _

/-! ### The picker and the mail slot -/

theorem steady_orderDone (s : State) (o : PickerOrder) : Steady s (s.orderDone o) := by
  unfold State.orderDone; split
  · exact (steady_completionEffects _ _).trans (steady_nextUnload _ _ _)
  · exact steady_completeOrder _ _

theorem steady_homeDone (s : State) : Steady s s.homeDone := by
  unfold State.homeDone; split
  · exact steady_identifyFrom _ _ _
  · exact steady_startHoming _ _

theorem steady_inventoryDone (s : State) (occ : BitVec 160) : Steady s (s.inventoryDone occ) := by
  unfold State.inventoryDone; split
  · exact steady_startupReady _ _ _
  · exact steady_reconcile _ _

/-- Every completion of the picker is steady. -/
theorem steadyOut_takeDone (s : State) (readings : Option (BitVec 160)) :
    SteadyOut s (s.takeDone readings) := by
  unfold State.takeDone
  split
  · exact .of_next (Steady.refl s)
  · exact .of_next ((steady_homeDone _).trans (steady_rearmFrom _ _))
  · split
    · exact .of_next ((steady_inventoryDone _ _).trans (steady_rearmFrom _ _))
    · exact .of_fault _ _
  · exact .of_next ((steady_orderDone _ _).trans (steady_rearmFrom _ _))

theorem steadyOut_jammed (s : State) : SteadyOut s (execPickerJammed s) := by
  unfold execPickerJammed; split
  · exact .of_next (Steady.refl s)
  · exact .of_next ((steady_orderFault _ _).trans (steady_rearmFrom _ _))

theorem steadyOut_watchdog (s : State) : SteadyOut s (execPickerWatchdogExpiry s) := by
  unfold execPickerWatchdogExpiry; split
  · exact .of_next (Steady.refl s)
  · exact .of_next ((steady_orderFault _ _).trans (steady_rearmFrom _ _))

theorem steadyOut_mailPlaced (s : State) : SteadyOut s (execMailSlotPlaced s) :=
  .of_next ((steady_setMail _ _).trans (steady_raise _ _))

theorem steadyOut_mailRemoved (s : State) : SteadyOut s (execMailSlotRemoved s) := by
  unfold execMailSlotRemoved
  dsimp only
  split
  · exact .of_next (((steady_setMail _ _).trans (steady_setImport _ _)).trans (steady_raise _ _))
  · exact .of_next ((steady_setMail _ _).trans (steady_raise _ _))

/-! ### Countdowns of the scheduler -/

theorem steadyOut_dwell (d : DriveNo) (s : State) : SteadyOut s (execDwellExpiry d s) := by
  unfold execDwellExpiry; split
  · exact .of_next (((steady_setDrive _ _ _).trans (steady_choose _)).trans (steady_rearmFrom _ _))
  · exact .of_next (Steady.refl s)

theorem steadyOut_linger (d : DriveNo) (s : State) : SteadyOut s (execLingerExpiry d s) := by
  unfold execLingerExpiry; split
  · exact .of_next (((steady_setDrive _ _ _).trans (steady_choose _)).trans (steady_rearmFrom _ _))
  · exact .of_next (Steady.refl s)

theorem steadyOut_ageing (s : State) : SteadyOut s (execAgeingAlarmExpiry s) := by
  unfold execAgeingAlarmExpiry; split
  · exact .of_next ((steady_choose _).trans (steady_rearm _))
  · exact .of_next (Steady.refl s)

end Sys2Proof.Machine
end

