-- ==== Sys2Proof/Laws/Reports.lean ====
section
/-! SUPPORT. The bits of report blocks and of their fields, which every reading of a report rests on. -/

namespace Sys2Proof.Machine

/-- A bit of a field of a block. -/
theorem blockField_testBit (b : Block) (off size j : Nat) :
    (blockField b off size).testBit j = (decide (j < 8 * size) && b.getLsbD (8 * off + j)) := by
  rw [blockField, BitVec.testBit_toNat, BitVec.getLsbD_extractLsb']

/-- A field of a block is below the bound of its size. -/
theorem blockField_lt (b : Block) (off size : Nat) : blockField b off size < 256 ^ size := by
  rw [show (256 : Nat) = 2 ^ 8 from rfl, ← Nat.pow_mul]
  exact BitVec.isLt _

/-- A bit of one field of a report, at its place in the block. -/
theorem field_testBit (f : Field) (i : Nat) :
    ((f.value % 256 ^ f.size) <<< (8 * f.off)).testBit i =
      (decide (8 * f.off ≤ i ∧ i < 8 * (f.off + f.size)) && f.value.testBit (i - 8 * f.off)) := by
  rw [Nat.testBit_shiftLeft, show (256 : Nat) = 2 ^ 8 from rfl, ← Nat.pow_mul,
    Nat.testBit_mod_two_pow]
  by_cases h : 8 * f.off ≤ i
  · have : i - 8 * f.off < 8 * f.size ↔ i < 8 * (f.off + f.size) := by omega
    simp [h, this]
  · simp [h]

theorem report_fold_testBit (fs : List Field) (a i : Nat) :
    (fs.foldl (fun a f => a ||| ((f.value % 256 ^ f.size) <<< (8 * f.off))) a).testBit i =
      (a.testBit i || fs.any fun f =>
        decide (8 * f.off ≤ i ∧ i < 8 * (f.off + f.size)) && f.value.testBit (i - 8 * f.off)) := by
  induction fs generalizing a with
  | nil => simp
  | cons f fs ih => rw [List.foldl_cons, ih, Nat.testBit_or, field_testBit, List.any_cons,
      Bool.or_assoc]

/-- A bit of a report block is set where some field that covers it has it set (R178). -/
theorem reportBlock_getLsbD (fs : List Field) (i : Nat) (h : i < 8192) :
    (reportBlock fs).getLsbD i = fs.any fun f =>
      decide (8 * f.off ≤ i ∧ i < 8 * (f.off + f.size)) && f.value.testBit (i - 8 * f.off) := by
  rw [reportBlock, BitVec.getLsbD_ofNat, report_fold_testBit]
  simp [h]

/-- The fields of a list of entries: those of the entries, each in its place, and FFh past the end. -/
theorem mem_listFields {α : Type} {base step places : Nat} {fields : α → List Field} {l : List α}
    {f : Field} : f ∈ listFields base step places fields l ↔ ∃ i, i < places ∧
      ((∃ x, l[i]? = some x ∧ f ∈ atOffset (base + step * i) (fields x)) ∨
        (l[i]? = none ∧ f = ⟨base + step * i, step, absentValue step⟩)) := by
  simp only [listFields, List.mem_flatten, List.mem_map, List.mem_range]
  constructor
  · rintro ⟨_, ⟨i, hi, rfl⟩, hf⟩
    refine ⟨i, hi, ?_⟩
    cases h : l[i]? with
    | none => rw [h] at hf; exact .inr ⟨rfl, by simpa using hf⟩
    | some x => rw [h] at hf; exact .inl ⟨x, rfl, hf⟩
  · rintro ⟨i, hi, ⟨x, hx, hf⟩ | ⟨hx, rfl⟩⟩
    · exact ⟨_, ⟨i, hi, rfl⟩, by rw [hx]; exact hf⟩
    · exact ⟨_, ⟨i, hi, rfl⟩, by rw [hx]; simp⟩

end Sys2Proof.Machine
end

