-- ==== Sys2Proof/Laws/Serving.lean ====
section
/-! SUPPORT. What the standing test and the serving of a queue do: a test that refuses nothing changes
nothing, and a drive that turns to its side's queue ends the pieces that have no command and starts the
first one that has. -/

namespace Sys2Proof.Machine

/-! ### The standing test -/

/-- When the standing test finds a piece available (R14). -/
theorem State.standing_eq_none {s : State} {x : Side} {isLabel : Bool} :
    s.standing x isLabel = none ↔
      ((s.cart x.cart).location ≠ .shelfOut ∧ (s.cart x.cart).exportPending = false ∧
        ((s.cart x.cart).verification.isForeign = true ∨ (s.cart x.cart).labellingPending = true →
          isLabel = true ∧ (s.cart x.cart).labellingPending = true) ∧
        (s.cart x.cart).location ≠ .missing ∧ (∀ d f, (s.cart x.cart).location ≠ .stuck d f)) ∧
      (s.isMounted x = true ∨ (s.mech.picker ≠ .faulted ∧ s.anyDrive = true)) := by
  have rows : s.standing x isLabel = none ↔
      ¬ ((s.cart x.cart).location = .shelfOut ∨ (s.cart x.cart).exportPending = true) ∧
      ¬ (((s.cart x.cart).verification.isForeign = true ∨ (s.cart x.cart).labellingPending = true) ∧
        ¬ (isLabel = true ∧ (s.cart x.cart).labellingPending = true)) ∧
      ((s.cart x.cart).location ≠ .missing ∧ ∀ d f, (s.cart x.cart).location ≠ .stuck d f) ∧
      (s.isMounted x = true ∨ (s.mech.picker ≠ .faulted ∧ s.anyDrive = true)) := by
    unfold State.standing
    dsimp only
    split
    · rename_i h1; simp [h1]
    · rename_i h1
      split
      · rename_i h2; simp [h2]
      · rename_i h2
        rw [and_iff_right h1, and_iff_right h2]
        split
        · rename_i h; simp [h]
        · rename_i h; simp [h]
        · rename_i hm hs
          rw [and_iff_right ⟨fun h => hm h, fun d f h => hs d f h⟩]
          by_cases h3 : s.isMounted x = true <;> by_cases h4 : s.mech.picker = .faulted <;>
            by_cases h5 : s.anyDrive = true <;> simp [h3, h4, h5]
  rw [rows]
  constructor
  · rintro ⟨a, b, c, e⟩
    refine ⟨⟨fun h => a (.inl h), ?_, fun h => ?_, c⟩, e⟩
    · exact Bool.eq_false_iff.mpr fun h => a (.inr h)
    · by_contra hn; exact b ⟨h, hn⟩
  · rintro ⟨⟨a, b, c, e⟩, f⟩
    exact ⟨fun h => h.elim a fun h => by simp [b] at h, fun h => h.2 (c h.1), e, f⟩

/-- The standing test refuses no QUEUED piece of the state (R16). -/
def State.NoneRefused (s : State) : Prop :=
  ∀ x, ∀ e ∈ s.queue x, e.running = false → s.standing x e.owner.isLabel = none

theorem State.NoneRefused.refusal {s : State} (h : s.NoneRefused) {x : Side} {e : QEntry}
    (he : e ∈ s.queue x) : s.refusal x e = none := by
  unfold State.refusal
  split
  · rfl
  · rename_i hr
    exact h x e he (by simpa using hr)

theorem State.sweepOnce_of_noneRefused {s : State} (h : s.NoneRefused) (tested : Side → Bool) :
    s.sweepOnce tested = s := by
  have none : s.refusals tested = [] := by
    unfold State.refusals
    rw [List.flatMap_eq_nil_iff]
    rintro ⟨x, q⟩ hx
    have hq : s.queue x = q := Table.mem_entries.mp hx
    dsimp only
    split
    · rw [List.filterMap_eq_nil_iff]
      intro e he
      simp [h.refusal (hq ▸ he)]
    · rfl
  have drop : s.dropRefused tested = s := by
    unfold State.dropRefused
    have : (s.queues.mapNumbered fun x q =>
        if tested x then q.filter fun e => (s.refusal x e).isNone else q) = s.queues := by
      apply Table.ext_at
      intro x
      rw [Table.at_mapNumbered]
      split
      · rw [List.filter_eq_self]
        intro e he
        simp [h.refusal (x := x) he]
      · rfl
    rw [this]
  unfold State.sweepOnce
  rw [none, drop]
  rfl

/-- A standing test that refuses nothing changes nothing (R16). -/
theorem State.sweepOn_of_noneRefused {s : State} (h : s.NoneRefused) (tested : Side → Bool) :
    s.sweepOn tested = s := by
  unfold State.sweepOn
  rw [State.sweepOnce_of_noneRefused h, State.sweepOnce_of_noneRefused h]

/-- In a lawful state the standing test refuses nothing (R16, R182). -/
theorem State.MechanismLawful.noneRefused {s : State} (h : s.MechanismLawful) : s.NoneRefused := by
  intro x e he hr
  by_cases c : s.mech.startup = .complete
  · exact (h.queues c).standing x e he hr
  · rw [(h.starting c).queues x] at he
    cases he

/-! ### A piece that ends -/

theorem Piece.onSide_finish (st : Status) (p : Piece) (x : Side) :
    (p.finish st).onSide x = p.onSide x := by
  unfold Piece.finish
  split <;> rfl

theorem Request.pieceOn_mapPiece (r : Request) (x : Side) (st : Status) :
    (r.mapPiece x (Piece.finish st)).pieceOn x = (r.pieceOn x).map (Piece.finish st) := by
  unfold Request.pieceOn Request.mapPiece
  dsimp only
  induction r.pieces with
  | nil => rfl
  | cons p l ih =>
    by_cases h : p.onSide x = true
    · simp [h, Piece.onSide_finish]
    · simp [h, ih]

theorem Request.pieceOn_checkAssembled (r : Request) (x : Side) :
    r.checkAssembled.pieceOn x = r.pieceOn x := by
  unfold Request.checkAssembled
  split <;> rfl

theorem Request.kind_checkAssembled (r : Request) : r.checkAssembled.kind = r.kind := by
  unfold Request.checkAssembled
  split <;> rfl

/-- What an event leaves of the requests with a piece on side `x`: each stands with its piece, which keeps its
place and a status once it has one. -/
def State.RequestsKept (s t : State) (x : Side) : Prop :=
  ∀ k r, s.request k = some r → ∃ r', t.request k = some r' ∧ r'.kind = r.kind ∧
    ∀ p, r.pieceOn x = some p → ∃ p', r'.pieceOn x = some p' ∧ p'.place = p.place ∧
      p'.count = p.count ∧ p'.offset = p.offset ∧ ∀ st, p.status = some st → p'.status = some st

theorem State.RequestsKept.of_eq {s t : State} (h : t.chan.requests = s.chan.requests) (x : Side) :
    s.RequestsKept t x := fun k r hr =>
  ⟨r, by unfold State.request; rw [h]; exact hr, rfl, fun p hp => ⟨p, hp, rfl, rfl, rfl, fun _ h => h⟩⟩

theorem State.RequestsKept.trans {s t u : State} {x : Side} (h : s.RequestsKept t x)
    (k : t.RequestsKept u x) : s.RequestsKept u x := fun i r hr => by
  obtain ⟨r', hr', hk, hp⟩ := h i r hr
  obtain ⟨r'', hr'', hk', hp'⟩ := k i r' hr'
  refine ⟨r'', hr'', hk'.trans hk, fun p hx => ?_⟩
  obtain ⟨p', e, a, b, c, f⟩ := hp p hx
  obtain ⟨p'', e', a', b', c', f'⟩ := hp' p' e
  exact ⟨p'', e', a'.trans a, b'.trans b, c'.trans c, fun st h => f' st (f st h)⟩

/-- What an event leaves of the records that the pieces of side `x` are served by: side records, remap table,
staging memory and library id as they were, and the requests with a piece there. -/
structure State.PiecesKept (s t : State) (x : Side) : Prop where
  sides : t.lib.sides = s.lib.sides
  libraryId : t.lib.libraryId = s.lib.libraryId
  remap : t.remap = s.remap
  staging : t.chan.staging = s.chan.staging
  requests : s.RequestsKept t x

theorem State.PiecesKept.refl (s : State) (x : Side) : s.PiecesKept s x :=
  ⟨rfl, rfl, rfl, rfl, .of_eq rfl x⟩

theorem State.PiecesKept.trans {s t u : State} {x : Side} (h : s.PiecesKept t x)
    (k : t.PiecesKept u x) : s.PiecesKept u x where
  sides := k.sides.trans h.sides
  libraryId := k.libraryId.trans h.libraryId
  remap := k.remap.trans h.remap
  staging := k.staging.trans h.staging
  requests := h.requests.trans k.requests

theorem State.PiecesKept.setQueue (s : State) (y : Side) (q : List QEntry) (x : Side) :
    s.PiecesKept (s.setQueue y q) x :=
  ⟨rfl, rfl, rfl, rfl, .of_eq rfl x⟩

/-- One request's record is replaced by one that keeps its piece on `x`. -/
theorem State.PiecesKept.of_request {s t : State} {k : Tag} {r q : Request} {x : Side}
    (hr : s.request k = some r) (hq : t.chan.requests = s.chan.requests.put k (some q))
    (hs : t.lib = s.lib) (hm : t.remap = s.remap) (hg : t.chan.staging = s.chan.staging)
    (hk : q.kind = r.kind)
    (hp : ∀ p, r.pieceOn x = some p → ∃ p', q.pieceOn x = some p' ∧ p'.place = p.place ∧
      p'.count = p.count ∧ p'.offset = p.offset ∧ ∀ st, p.status = some st → p'.status = some st) :
    s.PiecesKept t x := by
  refine ⟨by rw [hs], by rw [hs], hm, hg, fun i u hu => ?_⟩
  by_cases h : k = i
  · subst h
    cases hr.symm.trans hu
    refine ⟨q, ?_, hk, hp⟩
    show t.chan.requests.at k = _
    rw [hq]; simp
  · refine ⟨u, ?_, rfl, fun p hx => ⟨p, hx, rfl, rfl, rfl, fun _ h => h⟩⟩
    show t.chan.requests.at i = _
    rw [hq, Table.at_put_ne _ _ h]
    exact hu

theorem State.checkRequest_requests (s : State) (t : Tag) (r : Request) :
    (s.checkRequest t r).chan.requests = s.chan.requests.put t (some r.checkAssembled) := by
  unfold State.checkRequest State.noteAssembled
  dsimp only
  split <;> rfl

theorem State.checkRequest_frame (s : State) (t : Tag) (r : Request) :
    s.checkRequest t r = { s with chan := (s.checkRequest t r).chan } ∧
      (s.checkRequest t r).chan.staging = s.chan.staging := by
  unfold State.checkRequest State.noteAssembled
  dsimp only
  split <;> exact ⟨rfl, rfl⟩

/-- A piece that ends touches the channel's records alone (R47). -/
theorem State.finishPiece_frame (s : State) (t : Tag) (x : Side) (st : Status) :
    s.finishPiece t x st = { s with chan := (s.finishPiece t x st).chan } := by
  unfold State.finishPiece
  split
  · rfl
  · exact (s.checkRequest_frame _ _).1

theorem State.finishPiece_kept (s : State) (t : Tag) (y : Side) (st : Status) :
    s.PiecesKept (s.finishPiece t y st) y := by
  unfold State.finishPiece
  split
  · exact .refl s y
  · rename_i r hr
    have f := s.checkRequest_frame t (r.mapPiece y (Piece.finish st))
    refine .of_request hr (s.checkRequest_requests _ _) (by rw [f.1]) (by rw [f.1]) f.2
      (Request.kind_checkAssembled _) fun p hp => ?_
    rw [Request.pieceOn_checkAssembled, Request.pieceOn_mapPiece, hp]
    refine ⟨p.finish st, rfl, ?_⟩
    unfold Piece.finish
    split
    · rename_i h; exact ⟨rfl, rfl, rfl, fun st h' => by simp [h] at h'⟩
    · rename_i h; exact ⟨rfl, rfl, rfl, fun _ h => h⟩

theorem State.finishPiece_other (s : State) (t k : Tag) (x : Side) (st : Status) (h : t ≠ k) :
    (s.finishPiece t x st).request k = s.request k := by
  unfold State.finishPiece
  split
  · rfl
  · show (State.chan _).requests.at k = _
    rw [State.checkRequest_requests, Table.at_put_ne _ _ h]
    rfl

/-- The piece of a request that ends has the status given where it had none (R47). -/
theorem State.finishPiece_status {s : State} {t : Tag} {x : Side} {r : Request} {p : Piece} (st : Status)
    (hr : s.request t = some r) (hp : r.pieceOn x = some p) (hs : p.status = none) :
    ∃ r' p', (s.finishPiece t x st).request t = some r' ∧ r'.pieceOn x = some p' ∧
      p'.status = some st := by
  refine ⟨(r.mapPiece x (Piece.finish st)).checkAssembled, p.finish st, ?_, ?_, ?_⟩
  · unfold State.finishPiece
    rw [hr]
    show (State.chan _).requests.at t = _
    rw [State.checkRequest_requests]; simp
  · rw [Request.pieceOn_checkAssembled, Request.pieceOn_mapPiece, hp]; rfl
  · unfold Piece.finish; rw [hs]

/-! ### The first command of a piece -/

theorem State.HoldsPiece.kept {s t : State} {k : Tag} {x : Side} {r : Request} {kind : ReqKind}
    {p : Piece} {sector : Nat} (hk : s.PiecesKept t x) (h : s.HoldsPiece k x r kind p sector) :
    ∃ r' p', t.HoldsPiece k x r' kind p' sector ∧ p'.count = p.count ∧ p'.offset = p.offset := by
  obtain ⟨r', hr', hkind, hp⟩ := hk.requests k r h.request
  obtain ⟨p', e, a, b, c, _⟩ := hp p h.piece
  exact ⟨r', p', ⟨hr', hkind.trans h.kind, e, a.trans h.place, b.symm ▸ h.count⟩, b, c⟩

theorem State.PiecesKept.side {s t : State} {x : Side} (h : s.PiecesKept t x) (y : Side) :
    t.side y = s.side y := by
  unfold State.side; rw [h.sides]

theorem State.PiecesKept.spareOf {s t : State} {x : Side} (h : s.PiecesKept t x) (y : Side) (n : Nat) :
    t.spareOf y n = s.spareOf y n := by
  unfold State.spareOf; rw [h.remap]

theorem State.PiecesKept.staged {s t : State} {x : Side} (h : s.PiecesKept t x) (k : Tag) {p q : Piece}
    (e : q.offset = p.offset) : t.staged k q = s.staged k p := by
  funext i; unfold State.staged; rw [h.staging, e]

theorem State.EndsUnissued.kept {s t : State} {x : Side} {o : Owner} (hk : s.PiecesKept t x)
    (h : s.EndsUnissued x o) : t.EndsUnissued x o := by
  obtain ⟨k, r, p, sector, q, c, ho, hp, hs, he, hq⟩ := h
  obtain ⟨r', p', hp', _, _⟩ := hp.kept hk
  exact ⟨k, r', p', sector, q, c, ho, hp', (hk.side x).trans hs, by rwa [hk.spareOf], hq⟩

theorem State.FirstRead.kept {s t : State} {x : Side} {sector n : Nat} {c : DriveCommand}
    (hk : s.PiecesKept t x) (h : s.FirstRead x sector n c) : t.FirstRead x sector n c := by
  constructor
  · simpa only [hk.side] using h.plain
  · simpa only [hk.side, hk.spareOf] using h.entry
  · simpa only [hk.side, hk.spareOf] using h.run

theorem State.FirstCommand.kept {s t : State} {x : Side} {o : Owner} {c : DriveCommand}
    {rec : SideRecord} (hk : s.PiecesKept t x) (h : s.FirstCommand x o c rec) :
    t.FirstCommand x o c rec := by
  cases h with
  | read k r p sector c hp hc =>
    obtain ⟨r', p', hp', hn, _⟩ := hp.kept hk
    rw [← hk.side]
    exact .read k r' p' sector c hp' (hn.symm ▸ hc.kept hk)
  | deed k r p sector hp hd =>
    obtain ⟨r', p', hp', hn, ho⟩ := hp.kept hk
    rw [← hk.staged k ho, ← hn, ← hk.side]
    exact .deed k r' p' sector hp' (by rwa [hk.side])
  | home k r p sector q c hp hs he =>
    obtain ⟨r', p', hp', hn, ho⟩ := hp.kept hk
    rw [← hk.staged k ho]
    exact .home k r' p' sector q c hp' (by rwa [hk.side]) (by rwa [hk.spareOf])
  | spare k r p sector q c hp hs he hq =>
    obtain ⟨r', p', hp', hn, ho⟩ := hp.kept hk
    rw [← hk.staged k ho]
    exact .spare k r' p' sector q c hp' (by rwa [hk.side]) (by rwa [hk.spareOf]) hq
  | label =>
    rw [← hk.libraryId, ← hk.side]
    exact .label

theorem State.HoldsPiece.sidePiece {s : State} {t : Tag} {x : Side} {r : Request} {k : ReqKind}
    {p : Piece} {sector : Nat} (h : s.HoldsPiece t x r k p sector) :
    s.sidePiece t x = some (r, p, sector) := by
  unfold State.sidePiece
  simp [h.request, h.piece, h.place]

/-- A run of unredirected sectors ends at an entry or at its limit (R123). -/
theorem State.plainRun_spec (s : State) (x : Side) : ∀ (n sector : Nat),
    s.plainRun x sector n ≤ n ∧ (∀ i, i < s.plainRun x sector n → s.spareOf x (sector + i) = none) ∧
    (s.plainRun x sector n < n → s.spareOf x (sector + s.plainRun x sector n) ≠ none) := by
  intro n
  induction n with
  | zero => intro sector; simp [State.plainRun]
  | succ n ih =>
    intro sector
    unfold State.plainRun
    split
    · rename_i h
      obtain ⟨a, b, c⟩ := ih (sector + 1)
      refine ⟨by omega, fun i hi => ?_, fun hn => ?_⟩
      · cases i with
        | zero => simpa using h
        | succ i => have := b i (by omega); rwa [show sector + (i + 1) = sector + 1 + i by omega]
      · have := c (by omega)
        rwa [show sector + (s.plainRun x (sector + 1) n + 1) =
          sector + 1 + s.plainRun x (sector + 1) n by omega]
    · rename_i h
      refine ⟨by omega, by omega, fun _ => ?_⟩
      simpa [Option.isNone_iff_eq_none] using h

/-- The first READ SECTORS is the one that the rules give (R66, R123). -/
theorem State.FirstRead.eq_readCommand {s : State} {x : Side} {sector n : Nat} {c : DriveCommand}
    (h : s.FirstRead x sector n c) : s.readCommand x sector n 0 = c := by
  unfold State.readCommand
  split
  · rename_i p m hs
    rw [Nat.add_zero, Nat.sub_zero]
    split
    · rename_i spare he
      exact (h.entry p m spare hs he).symm
    · rename_i he
      obtain ⟨j, hc, h1, hj, hnone, hend⟩ := h.run p m hs he
      obtain ⟨a, b, e⟩ := s.plainRun_spec x n sector
      rw [hc]
      congr 1
      apply Nat.le_antisymm
      · by_contra hlt
        exact hend (by omega) (b j (by omega))
      · by_contra hlt
        exact e (by omega) (hnone _ (by omega))
  · rename_i hs
    exact (h.plain fun p m e => hs p m e).symm

theorem State.stagedRun_eq (s : State) (t : Tag) (p : Piece) (n : Nat) :
    s.stagedRun t p.offset n = (List.range n).map (s.staged t p) := rfl

/-- The state after the issue of the first command of a piece (R64, R66). -/
def State.issued (s : State) (x : Side) : DriveCommand → State
  | .writeSpare _ _ _ _ _ => s.advancePointer x
  | _ => s

theorem State.FirstCommand.firstIssue {s : State} {x : Side} {o : Owner} {c : DriveCommand}
    {rec : SideRecord} (h : s.FirstCommand x o c rec) :
    s.firstIssue x o = (s.issued x c, .command c) := by
  cases h with
  | read t r p sector c hp hc =>
    have hi : s.issued x c = s := by
      have := hc.eq_readCommand
      subst this
      unfold State.readCommand
      split
      · split <;> rfl
      · rfl
    simp [State.firstIssue, hp.sidePiece, hp.kind, hc.eq_readCommand, hi]
  | deed t r p sector hp hd =>
    simp only [State.firstIssue, hp.sidePiece, hp.kind]
    split
    · rename_i hs; simp [hs, SideRecord.isDeed] at hd
    · rfl
  | home t r p sector q c hp hs he =>
    simp [State.firstIssue, hp.sidePiece, hp.kind, hs, State.indexWrite, he, State.issued, State.staged,
      stagingAddress, Config.regionBlocks]
  | spare t r p sector q c hp hs he hq =>
    obtain ⟨sp, hsp⟩ := Option.ne_none_iff_exists'.mp he
    simp [State.firstIssue, hp.sidePiece, hp.kind, hs, State.indexWrite, hsp, State.issued, State.staged,
      stagingAddress, Config.regionBlocks, SideRecord.pointer?, Config.spares, hq, homeVba,
      Config.spareBase, Config.sectorsPerSide]
  | label => rfl

theorem State.EndsUnissued.firstIssue {s : State} {x : Side} {o : Owner} (h : s.EndsUnissued x o) :
    s.firstIssue x o = (s, .fails .spareExhausted) := by
  obtain ⟨t, r, p, sector, q, c, rfl, hp, hs, he, hq⟩ := h
  obtain ⟨sp, hsp⟩ := Option.ne_none_iff_exists'.mp he
  have : ¬ q < Config.spares := by simpa [Config.spares] using hq
  simp [State.firstIssue, hp.sidePiece, hp.kind, hs, State.indexWrite, hsp, SideRecord.pointer?, this]

/-! ### A drive turns to its side's queue -/

/-- The front piece is started: it is RUNNING, and its request IN_SERVICE (R64). -/
theorem State.startFront_cons {s : State} {x : Side} {e : QEntry} {q : List QEntry}
    (h : s.queue x = e :: q) :
    s.startFront x = { s with
      queues := s.queues.put x ({ e with running := true } :: q), chan := (s.startFront x).chan } ∧
    (s.startFront x).chan.staging = s.chan.staging ∧
    (∀ t, e.owner ≠ .request t → (s.startFront x).request t = s.request t) ∧
    ∀ t r, e.owner = .request t → s.request t = some r → (s.startFront x).request t =
      some { r with state := if r.state = .accepted then .inService else r.state } := by
  unfold State.startFront
  rw [h]
  dsimp only
  split
  · rename_i k ho
    split
    · rename_i r hr
      have hr : s.request k = some r := hr
      split
      · rename_i ha
        refine ⟨rfl, rfl, fun t ht => ?_, fun t r' ht hr' => ?_⟩
        · have : k ≠ t := fun e => ht (e ▸ ho)
          exact Table.at_put_ne _ _ this
        · cases ho.symm.trans ht
          cases hr.symm.trans hr'
          rw [if_pos ha]
          exact Table.at_put_same _ _ _
      · rename_i ha
        refine ⟨rfl, rfl, fun t _ => rfl, fun t r' ht hr' => ?_⟩
        cases ho.symm.trans ht
        cases hr.symm.trans hr'
        rw [if_neg ha]
        exact hr
    · rename_i hr
      refine ⟨rfl, rfl, fun t _ => rfl, fun t r' ht hr' => ?_⟩
      cases ho.symm.trans ht
      exact absurd (hr.symm.trans hr') (by simp)
  · rename_i ho
    exact ⟨rfl, rfl, fun t _ => rfl, fun t r ht _ => absurd ht (ho t)⟩

theorem State.startFront_kept (s : State) (x y : Side) : s.PiecesKept (s.startFront x) y := by
  unfold State.startFront
  split
  · exact .refl s y
  · dsimp only
    split
    · split
      · rename_i r hr
        split
        · exact (State.PiecesKept.setQueue s x _ y).trans
            (.of_request hr rfl rfl rfl rfl rfl fun p hp => ⟨p, hp, rfl, rfl, rfl, fun _ h => h⟩)
        · exact .setQueue s x _ y
      · exact .setQueue s x _ y
    · exact .setQueue s x _ y

/-- A piece that ends without a command leaves the front of its queue, SPARE_EXHAUSTED (R121). -/
theorem State.endUnissued {s : State} {x : Side} {e : QEntry} {q : List QEntry}
    (h : s.queue x = e :: q) (he : s.EndsUnissued x e.owner) :
    let u := (s.startFront x).finishFront x .spareExhausted
    u = { s with queues := u.queues, chan := u.chan } ∧ s.PiecesKept u x ∧ u.queue x = q ∧
    (∀ y, y ≠ x → u.queue y = s.queue y) ∧
    (∀ t, e.owner ≠ .request t → u.request t = s.request t) ∧
    ∀ t r p, e.owner = .request t → s.request t = some r → r.pieceOn x = some p → p.status = none →
      ∃ r' p', u.request t = some r' ∧ r'.pieceOn x = some p' ∧ p'.status = some .spareExhausted := by
  obtain ⟨f, -, fo, fr⟩ := State.startFront_cons h
  have kept := s.startFront_kept x x
  obtain ⟨k, r, p, sector, c, n, ho, hp, -⟩ := he
  have hq : (s.startFront x).queue x = { e with running := true } :: q := by
    show (State.queues _).at x = _
    rw [f]; simp
  have hf : (s.startFront x).finishFront x .spareExhausted =
      ((s.startFront x).setQueue x q).finishPiece k x .spareExhausted := by
    unfold State.finishFront
    rw [hq]
    simp [ho]
  have g := ((s.startFront x).setQueue x q).finishPiece_frame k x .spareExhausted
  dsimp only
  rw [hf]
  refine ⟨?_, ?_, ?_, fun y hy => ?_, fun t ht => ?_, fun t r p ht hr hp hs => ?_⟩
  · rw [g, f]; rfl
  · exact kept.trans ((State.PiecesKept.setQueue _ x q x).trans (State.finishPiece_kept _ k x _))
  · show (State.queues _).at x = _
    rw [g]; simp [State.setQueue]
  · show (State.queues _).at y = _
    rw [g, f]; simp [State.setQueue, Table.at_put_ne _ _ (Ne.symm hy), State.queue]
  · have : k ≠ t := fun e => ht (e ▸ ho)
    rw [State.finishPiece_other _ _ _ _ _ this]
    exact fo t ht
  · cases ho.symm.trans ht
    exact State.finishPiece_status (s := (s.startFront x).setQueue x q) (x := x)
      (r := { r with state := if r.state = .accepted then .inService else r.state }) .spareExhausted
      (fr k r ho hr) hp hs

/-! ### Serving a queue -/

theorem State.advancePointer_frame (s : State) (x : Side) :
    s.advancePointer x = { s with
      lib := { s.lib with sides := (s.advancePointer x).lib.sides }
      attention := (s.advancePointer x).attention } := by
  unfold State.advancePointer State.recompute State.raise
  split
  · split <;> rfl
  · rfl

/-- Issuing a first command touches side records and pending causes alone (R117). -/
theorem State.firstIssue_frame (s : State) (x : Side) (o : Owner) :
    (s.firstIssue x o).1 = { s with
      lib := { s.lib with sides := (s.firstIssue x o).1.lib.sides }
      attention := (s.firstIssue x o).1.attention } := by
  unfold State.firstIssue State.indexWrite
  repeat (first | rfl | exact s.advancePointer_frame x | split | dsimp only)

/-- A drive touches no queue but its side's as it turns to the front piece (R64). -/
theorem State.startFront_others (s : State) (x : Side) {y : Side} (hy : y ≠ x) :
    (s.startFront x).queue y = s.queue y := by
  rcases h : s.queue x with _ | ⟨e, q⟩
  · unfold State.startFront; rw [h]
  · unfold State.queue
    rw [(State.startFront_cons h).1]
    exact Table.at_put_ne _ _ hy.symm

/-- The front piece ends as its drive turns to it: the pieces of its side keep their places, and no other queue
moves (R47). -/
theorem State.finishFront_kept {s : State} {x : Side} {e : QEntry} {l : List QEntry} (st : Status)
    (hq : s.queue x = e :: l) (hl : e.owner ≠ .label) :
    s.RequestsKept (s.finishFront x st) x ∧
      ∀ y, y ≠ x → (s.finishFront x st).queue y = s.queue y := by
  have other (y : Side) (hy : y ≠ x) : (s.setQueue x l).queue y = s.queue y :=
    Table.at_put_ne _ _ hy.symm
  unfold State.finishFront
  rw [hq]
  dsimp only
  split
  · rename_i t _
    refine ⟨(State.RequestsKept.of_eq (t := s.setQueue x l) rfl _).trans
      (State.finishPiece_kept _ _ _ _).requests, fun y hy => ?_⟩
    unfold State.queue
    rw [(s.setQueue x l).finishPiece_frame t x st]
    exact other y hy
  · exact ⟨.of_eq rfl _, other⟩
  · rename_i ho; exact absurd ho hl

/-- Whatever a drive does as it turns to its queue, the pieces of the side keep their places, and a status once
they have one (R47), and no other queue moves. -/
theorem State.serve_kept (d : DriveNo) (m : Mount) : ∀ (k : Nat) (s : State),
    s.RequestsKept (s.serve d m k) m.side ∧
      ∀ y, y ≠ m.side → (s.serve d m k).queue y = s.queue y := by
  intro k
  induction k with
  | zero => intro s; exact ⟨.of_eq rfl _, fun _ _ => rfl⟩
  | succ k ih =>
    intro s
    unfold State.serve
    split
    · exact ⟨.of_eq rfl _, fun _ _ => rfl⟩
    · rename_i e l h
      have h1 := (s.startFront_kept m.side m.side).requests
      have hf := (s.startFront m.side).firstIssue_frame m.side e.owner
      have hq : ((s.startFront m.side).firstIssue m.side e.owner).1.queue m.side =
          { e with running := true } :: l := by
        unfold State.queue
        rw [hf, (State.startFront_cons h).1]
        simp
      have ho (y : Side) (hy : y ≠ m.side) :
          ((s.startFront m.side).firstIssue m.side e.owner).1.queue y = s.queue y := by
        unfold State.queue
        rw [hf]
        exact s.startFront_others m.side hy
      have h2 : (s.startFront m.side).RequestsKept
          ((s.startFront m.side).firstIssue m.side e.owner).1 m.side := .of_eq (by rw [hf]) _
      split
      · rename_i u c hu
        rw [hu] at h2 ho
        exact ⟨(h1.trans h2).trans (.of_eq rfl _), ho⟩
      · rename_i u st hu
        rw [hu] at h2 hq ho
        have hl : e.owner ≠ .label := fun hl => by rw [hl] at hu; cases hu
        have hk := State.finishFront_kept st hq hl
        exact ⟨((h1.trans h2).trans hk.1).trans (ih _).1, fun y hy => by
          rw [(ih _).2 y hy, hk.2 y hy, ho y hy]⟩

/-- What the pieces that end without a command leave of a queue, before the drive goes on (R65, R121). -/
structure State.EndedAhead (s u : State) (x : Side) (ended rest : List QEntry) : Prop where
  frame : u = { s with queues := u.queues, chan := u.chan }
  kept : s.PiecesKept u x
  queue : u.queue x = rest
  others : ∀ y, y ≠ x → u.queue y = s.queue y
  requests : ∀ t, (∀ o ∈ ended, o.owner ≠ .request t) → u.request t = s.request t
  ended : ∀ o ∈ ended, ∀ t r p, o.owner = .request t → s.request t = some r → r.pieceOn x = some p →
    p.status = none → ∃ r' p', u.request t = some r' ∧ r'.pieceOn x = some p' ∧
      p'.status = some .spareExhausted

/-- A drive passes over the pieces that end without a command (R65, R121). -/
theorem State.serve_past (d : DriveNo) (m : Mount) : ∀ (ended rest : List QEntry) (k : Nat) (s : State),
    s.queue m.side = ended ++ rest → (∀ o ∈ ended, s.EndsUnissued m.side o.owner) →
    ∃ u : State, s.EndedAhead u m.side ended rest ∧
      s.serve d m (ended.length + k) = u.serve d m k := by
  intro ended
  induction ended with
  | nil =>
    intro rest k s hq _
    refine ⟨s, ⟨rfl, .refl s _, hq, fun _ _ => rfl, fun _ _ => rfl, fun _ h => by simp at h⟩, ?_⟩
    rw [List.length_nil, Nat.zero_add]
  | cons e ended ih =>
    intro rest k s hq he
    obtain ⟨f, kept, queue, others, keeps, ends⟩ := State.endUnissued hq (he e (by simp))
    generalize hu : (s.startFront m.side).finishFront m.side .spareExhausted = u at *
    obtain ⟨v, hv, hs⟩ := ih rest k u queue fun o ho => (he o (by simp [ho])).kept kept
    refine ⟨v, ?_, ?_⟩
    · refine ⟨by rw [hv.frame, f], kept.trans hv.kept, hv.queue, fun y hy => ?_, fun t ht => ?_, ?_⟩
      · rw [hv.others y hy, others y hy]
      · rw [hv.requests t fun o ho => ht o (by simp [ho]), keeps t (ht e (by simp))]
      · intro o ho t r p hot hr hp hn
        by_cases heo : e.owner = .request t
        · obtain ⟨r', p', hr', hp', hst⟩ := ends t r p heo hr hp hn
          obtain ⟨r'', hr'', -, h⟩ := hv.kept.requests t r' hr'
          obtain ⟨p'', hp'', -, -, -, h⟩ := h p' hp'
          exact ⟨r'', p'', hr'', hp'', h _ hst⟩
        · rcases List.mem_cons.mp ho with rfl | ho
          · exact absurd hot heo
          · exact hv.ended o ho t r p hot ((keeps t heo).trans hr) hp hn
    · have hi : (s.startFront m.side).firstIssue m.side e.owner =
          (s.startFront m.side, .fails .spareExhausted) :=
        ((he e (by simp)).kept (s.startFront_kept _ _)).firstIssue
      rw [List.length_cons, Nat.add_right_comm]
      conv => lhs; unfold State.serve
      rw [hq]
      simp only [List.cons_append, hi, hu]
      exact hs

/-- The side records after the issue of a first command (R117). -/
theorem State.FirstCommand.issued_sides {s : State} {x : Side} {o : Owner} {c : DriveCommand}
    {rec : SideRecord} (h : s.FirstCommand x o c rec) :
    (s.issued x c).lib.sides = s.lib.sides.put x rec := by
  have same : s.lib.sides.put x (s.side x) = s.lib.sides := by
    apply Table.ext_at
    intro y
    rw [Table.at_put]
    split
    · rename_i e; subst e; rfl
    · rfl
  cases h with
  | read t r p sector c hp hc =>
    rw [same]
    have := hc.eq_readCommand
    subst this
    unfold State.readCommand
    split
    · split <;> rfl
    · rfl
  | deed => rw [same]; rfl
  | home t r p sector q c hp hs he => rw [← hs, same]; rfl
  | spare t r p sector q c hp hs he hq =>
    unfold State.issued State.advancePointer
    simp only [hs]
    unfold State.recompute State.raise
    split <;> rfl
  | label => rw [same]; rfl

theorem State.issued_frame (s : State) (x : Side) (c : DriveCommand) :
    s.issued x c = { s with
      lib := { s.lib with sides := (s.issued x c).lib.sides }
      attention := (s.issued x c).attention } := by
  unfold State.issued
  split
  · exact s.advancePointer_frame x
  · rfl

/-- A drive whose front piece has a command is BUSY with it (R64). -/
theorem State.serve_front {s : State} {d : DriveNo} {m : Mount} {e : QEntry} {rest : List QEntry}
    {c : DriveCommand} {rec : SideRecord} (k : Nat) (hq : s.queue m.side = e :: rest)
    (hc : s.FirstCommand m.side e.owner c rec) :
    s.serve d m (k + 1) =
      ((s.startFront m.side).issued m.side c).setDrive d (.busy m ⟨c, 250⟩) := by
  unfold State.serve
  rw [hq]
  simp only [(hc.kept (s.startFront_kept _ _)).firstIssue]
  rfl

/-- A drive with no piece left is IDLE (R63, R65). -/
theorem State.serve_empty {s : State} {d : DriveNo} {m : Mount} (k : Nat) (hq : s.queue m.side = []) :
    s.serve d m k = s.goIdle d m := by
  unfold State.serve
  split
  · rfl
  · rw [hq]

/-- What the serving of a queue leaves of the drive and of the side records (R63 to R65). -/
theorem State.leavesVerifying_serveQueue (s : State) (d : DriveNo) (m : Mount) :
    s.LeavesVerifying (s.serveQueue d m) d m where
  idle h := by
    obtain ⟨u, hu, hs⟩ := s.serve_past d m (s.queue m.side) [] 0 (by simp) h
    unfold State.serveQueue
    rw [Nat.add_zero] at hs
    rw [hs, State.serve_empty 0 hu.queue]
    have f := hu.frame
    refine ⟨hu.kept.sides, ?_⟩
    rw [f]
    simp only [State.goIdle, State.drive, State.setDrive, Table.at_put_same, loadCountdown]
    by_cases hl : s.sched.linger = 0 <;> simp [hl]
  busy ended e rest c rec hq he hc := by
    obtain ⟨u, hu, hs⟩ := s.serve_past d m ended (e :: rest) (rest.length + 1) hq he
    unfold State.serveQueue
    rw [hq, List.length_append, List.length_cons, hs,
      State.serve_front rest.length hu.queue (hc.kept hu.kept)]
    have hv := (u.startFront_kept m.side m.side)
    refine ⟨?_, Table.at_put_same _ _ _⟩
    show ((u.startFront m.side).issued m.side c).lib.sides = _
    rw [((hc.kept hu.kept).kept hv).issued_sides, hv.sides, hu.kept.sides]

/-- What the serving of a queue leaves of the queues and requests (R16, R64, R65). -/
theorem State.frontServed_serveQueue (s : State) (d : DriveNo) (m : Mount) :
    s.FrontServed (s.serveQueue d m) m where
  emptied h := by
    obtain ⟨u, hu, hs⟩ := s.serve_past d m (s.queue m.side) [] 0 (by simp) h
    unfold State.serveQueue
    rw [Nat.add_zero] at hs
    rw [hs, State.serve_empty 0 hu.queue]
    exact hu.queue
  started ended e rest c rec hq he hc := by
    obtain ⟨u, hu, hs⟩ := s.serve_past d m ended (e :: rest) (rest.length + 1) hq he
    unfold State.serveQueue
    rw [hq, List.length_append, List.length_cons, hs,
      State.serve_front rest.length hu.queue (hc.kept hu.kept)]
    have hf := (u.startFront m.side).issued_frame m.side c
    obtain ⟨f, -, -, fr⟩ := State.startFront_cons hu.queue
    refine ⟨?_, fun t r ho hr hn => ?_⟩
    · show ((u.startFront m.side).issued m.side c).queues.at m.side = _
      rw [hf, f]; simp
    · show ((u.startFront m.side).issued m.side c).chan.requests.at t = _
      rw [hf]
      exact fr t r ho ((hu.requests t hn).trans hr)
  ended ended rest hq he o ho t r p hot hr hp hn := by
    obtain ⟨u, hu, hs⟩ := s.serve_past d m ended rest rest.length hq he
    unfold State.serveQueue
    rw [hq, List.length_append, hs]
    obtain ⟨r', p', hr', hp', hst⟩ := hu.ended o ho t r p hot hr hp hn
    obtain ⟨r'', hr'', -, h⟩ := (State.serve_kept d m rest.length u).1 t r' hr'
    obtain ⟨p'', hp'', -, -, -, h⟩ := h p' hp'
    exact ⟨r'', p'', hr'', hp'', h _ hst⟩
  others y hy := (State.serve_kept d m _ s).2 y hy

end Sys2Proof.Machine
end

