-- ==== Sys2Proof/WellFormed.lean ====
section
/-! DEFINITION. Which terms of `Instr` spell a command that can come from outside the part at all,
whatever the part's state.  Operands that a rule of spec/ judges are never checked here. -/

namespace Sys2Proof

/-- A run of 1..64 sector conditions, or NOT_READY (R66). -/
def ReadAnswer.wellFormed : ReadAnswer → Bool
  | .sectors l => 1 ≤ l.length && l.length ≤ Config.maxBlocks
  | .notReady => true

/-- A sector named in an answer is a user sector of the side (R5, R66). -/
def RunWriteAnswer.wellFormed : RunWriteAnswer → Bool
  | .written j => j < Config.sectorsPerSide
  | .mediaError j => j < Config.sectorsPerSide
  | _ => true

/-- A sector named in an answer is a user sector of the side (R5, R66). -/
def SearchAnswer.wellFormed : SearchAnswer → Bool
  | .sector x => x < Config.sectorsPerSide
  | _ => true

/-- A request carries at most as many blocks as its count field can number (R36). -/
def ChannelRequest.wellFormed (r : ChannelRequest) : Bool :=
  r.data.length ≤ 255

/-- A code that the order table of R173 does not hold, END apart (R169). -/
def isUnknownCode (code : BitVec 8) : Bool :=
  24 ≤ code.toNat

/-- The terms that spell a command.  `exec` does not ask for them: it judges any term by the rules of
the event that the term spells (log entry 7), and the part itself refuses an over-long request (R38). -/
def Instr.wellFormed : Instr → Bool
  | .acceptance r _ => r.wellFormed
  | .controlWriteNotWritable r _ => r.wellFormed && decide (r.kind = .write)
  | .readSectorsAnswer _ a => a.wellFormed
  | .deedWriteAnswer _ a => a.wellFormed
  | .searchBlankAnswer _ a => a.wellFormed
  | .unknownOrder code => isUnknownCode code
  | .withheldRequestTaken _ => true
  | .delivery _ => true
  | .channelReset => true
  | .powerUp _ _ _ => true
  | .startupLabelAnswer _ _ => true
  | .homeWriteAnswer _ _ => true
  | .spareWriteAnswer _ _ => true
  | .readLabelAnswer _ _ => true
  | .writeLabelAnswer _ _ => true
  | .lateDriveAnswer _ => true
  | .commandCountdownExpiry _ => true
  | .dwellExpiry _ => true
  | .lingerExpiry _ => true
  | .ageingAlarmExpiry => true
  | .pickerOrderCompletion => true
  | .homeCompletion => true
  | .inventoryCompletion _ => true
  | .pickerJammed => true
  | .pickerWatchdogExpiry => true
  | .latePickerAnswer => true
  | .mailSlotPlaced => true
  | .mailSlotRemoved => true
  | .idleCountdownExpiry _ => true
  | .stationSet _ _ _ _ _ _ _ _ => true
  | .trapClear _ => true
  | .sideZoneSet _ _ _ => true
  | .closureSet _ _ _ => true
  | .libraryIdSet _ _ => true
  | .labelCartridge _ => true
  | .schedParams _ _ _ _ => true
  | .exportCartridge _ => true
  | .importCartridge _ => true
  | .pickerReset => true
  | .driveReturn _ => true
  | .tariffSet _ _ _ _ => true
  | .sizeFactorSet _ _ _ => true
  | .feeParams _ _ _ _ => true
  | .ticketClose _ => true
  | .accountCredit _ _ => true
  | .accountWithdraw _ _ => true
  | .accountLowMark _ _ => true
  | .journalRelease _ => true
  | .settingsLock _ _ => true
  | .attentionMask _ _ => true
  | .attentionClear _ => true
  | .clockSet _ => true
  | .tenth => true

end Sys2Proof
end

