-- ==== Sys2Proof/Tests/Slice0.lean ====
section
/-! SUPPORT. The model's own tests: ill-formed terms that each check refuses, one small step of each
command with its result taken from the rule named, and for each statement with hypotheses a state and
operands that meet them. -/

namespace Sys2Proof.Tests

open Sys2Proof.Machine

set_option Elab.async false

/-! ### Small states -/

/-- Start-up complete, the picker IDLE and every drive EMPTY. -/
def ready : State :=
  { State.reset with mech :=
    { Mechanism.powered with
      drives := Vector.replicate 4 (.empty none), picker := .idle, startup := .complete } }

/-- A mount of side 0 past dwell. -/
def mount0 : Mount := ⟨0, 0, .expired, false⟩

/-- Cartridge 0 VERIFIED and mounted, face 0, in drive 0, whose record is given. -/
def mountedAs (r : Drive) : State :=
  (ready.setCart 0 ⟨.mounted 0 0, .verified, false, false⟩).setDrive 0 r

/-- The same with an IDLE drive and a DEED side 0 with frontier 10. -/
def idle0 : State := (mountedAs (.idle mount0 0 (.running 200))).setSide 0 (.deed (some 10) 0 0)

/-- A READ of station 0, the CLERK station of the whole volume. -/
def readOf (tag : Tag) (sba : BitVec 28) (count : BitVec 8) : ChannelRequest :=
  ⟨tag, .read, 0, sba, count, 0, []⟩

/-- A WRITE of one block by station 0. -/
def writeOf (tag : Tag) (sba : BitVec 28) (b : Block) : ChannelRequest :=
  ⟨tag, .write, 0, sba, 1, 0, [b]⟩

/-- A record of a read or write of `count` blocks of side 0 from sector `x`, bound to tag 0. -/
def record (k : ReqKind) (x count : Nat) : Request :=
  ⟨k, 0, some x, count, 0, 0, false,
    [⟨.side 0 x, count, 0, if k = .read then List.replicate count .fill else [], none⟩],
    .inService, none⟩

/-- Drive 0 BUSY with a command for the piece of tag 0 on a side 0 of the given record. -/
def serving (side : SideRecord) (k : ReqKind) (x count : Nat) (c : DriveCommand) (left : Nat) :
    State :=
  ((((mountedAs (.busy mount0 ⟨c, left⟩)).setSide 0 side).setRequest 0
    (some (record k x count))).setQueue 0 [⟨.request 0, 0, true⟩])

/-- Drive 0 VERIFYING with a command outstanding. -/
def verifying (c : DriveCommand) : State :=
  (mountedAs (.verifying mount0 ⟨c, 5⟩)).setCart 0 ⟨.mounted 0 0, .unverified, false, false⟩

/-- A test of the state that a command answers. -/
def gives (c : Instr) (s : State) (p : State → Bool) : Bool :=
  match exec c s with
  | .next t => p t
  | _ => false

/-- A page header of class 3, sheet code 0, instrument 7, page 1, image length 2, with its check word
(R102): the words 4A50h, 0148h, 7, 0, 1, 1, 0003h, 2 sum to 4BA5h + 1, and the check word makes the sum 0
modulo 65536. -/
def header : Block :=
  BitVec.ofNat 8192 (0x4A50 + 0x0148 * 2 ^ 16 + 7 * 2 ^ 32 + 1 * 2 ^ 64 + 1 * 2 ^ 80 + 3 * 2 ^ 96 +
    2 * 2 ^ 112 + (0x10000 - (0x4A50 + 0x0148 + 7 + 1 + 1 + 3 + 2)) * 2 ^ 160)

/-! ### Ill-formed terms -/

theorem test_wf_read_answer_empty :
    (Instr.readSectorsAnswer 0 (.sectors [])).wellFormed = false := by decide
theorem test_wf_read_answer_long :
    (Instr.readSectorsAnswer 0 (.sectors (List.replicate 65 .blank))).wellFormed = false := by
  decide +kernel
theorem test_wf_deed_written_past_side :
    (Instr.deedWriteAnswer 0 (.written 262144)).wellFormed = false := by decide
theorem test_wf_deed_media_error_past_side :
    (Instr.deedWriteAnswer 0 (.mediaError 262144)).wellFormed = false := by decide
theorem test_wf_search_past_side :
    (Instr.searchBlankAnswer 0 (.sector 262144)).wellFormed = false := by decide
theorem test_wf_request_data_past_count_field :
    (Instr.acceptance ⟨0, .write, 0, 0, 1, 0, List.replicate 256 0⟩ false).wellFormed = false := by
  decide +kernel
theorem test_wf_control_write_is_a_read :
    (Instr.controlWriteNotWritable (readOf 0 0 1) false).wellFormed = false := by decide
theorem test_wf_order_code_of_the_table :
    (Instr.unknownOrder 23).wellFormed = false ∧ (Instr.unknownOrder 24).wellFormed = true := by
  decide

/-! ### One step of each command -/

/-- R65, R66: a read of an IDLE drive's side starts at once, on the whole piece. -/
theorem test_acceptance : gives (.acceptance (readOf 3 5 2) false) idle0 (fun t =>
    t.drive 0 = .busy mount0 ⟨.readSectors 0 5 2, 250⟩ &&
    t.queue 0 = [⟨.request 3, 0, true⟩]) = true := by decide +kernel
/-- R101, row 2, and R44: a write below the frontier completes at acceptance, refused WRITTEN. -/
theorem test_acceptance_written :
    gives (.acceptance (writeOf 3 9 fillBlock) false) idle0 (fun t =>
      (t.request 3).map (·.status) = some (some .written) && t.side 0 = .deed (some 10) 0 0) =
      true := by decide +kernel
/-- R38: a count of 0 is refused at the port. -/
theorem test_withheld_request_taken : gives (.withheldRequestTaken false)
    { ready with chan := { ready.chan with withheld := [readOf 3 0 0] } } (fun t =>
      t.chan.sent = [.refusal 3 .badRequest] && t.chan.withheld = []) = true := by decide +kernel
/-- R50: a READ delivers a fill block for a position in no piece. -/
theorem test_delivery : gives (.delivery 4)
    (ready.setRequest 4 (some ⟨.read, 9, none, 1, 0, 0, true, [], .assembled, some .windowTrap⟩))
    (fun t => t.chan.sent = [.delivery 4 .windowTrap [fillBlock]] && (t.request 4).isNone) =
      true := by decide +kernel
/-- R54: the running piece of a discarded request becomes an orphan. -/
theorem test_channel_reset : gives .channelReset
    (serving (.deed (some 10) 0 0) .read 5 1 (.readSectors 0 5 1) 9) (fun t =>
      (t.request 0).isNone && (t.queue 0).length = 1 &&
        (t.queue 0).all fun e => !e.owner.isLabel && e.owner ≠ .request 0) = true := by
  decide +kernel
/-- R182, R183: a lost store, one absent drive, and HOME under way. -/
theorem test_power_up : gives (.powerUp false #v[.empty, .absent, .loaded, .empty] true) idle0
    (fun t => t.side 0 = .unused && t.drive 1 = .absent && t.mech.mail = .heldIn &&
      t.mech.picker = .homing .home 400) = true := by decide +kernel
/-- R183, step 2: a label of another library still names its cartridge. -/
theorem test_startup_label : gives (.startupLabelAnswer 0 (.good (labelSector 77 5 1)))
    { ready with mech := { ready.mech with
      drives := ready.mech.drives.put 0 (.empty (some 9)), picker := .homingWait
      startup := .identifying 0 [] [] } } (fun t =>
        t.drive 0 = .unloading 11 && t.mech.picker = .homing (.unload 0 5 .startup) 400) =
      true := by decide +kernel
/-- R67: a BLANK sector ends its piece BLANK. -/
theorem test_read_sectors : gives (.readSectorsAnswer 0 (.sectors [.good header, .blank]))
    (serving (.deed (some 10) 0 0) .read 5 2 (.readSectors 0 5 2) 9) (fun t =>
      (t.request 0).map (·.status) = some (some .blank) &&
        stagingRead t.chan.staging 0 = header) = true := by decide +kernel
/-- R66: an answer of another length than the run. -/
theorem test_read_sectors_outside_protocol :
    (match exec (.readSectorsAnswer 0 (.sectors [.blank]))
        (serving (.deed (some 10) 0 0) .read 5 2 (.readSectors 0 5 2) 9) with
      | .fault .answerOutsideProtocol => true
      | _ => false) = true := by decide +kernel
/-- R111: a written sector in the run ends the piece WRITTEN. -/
theorem test_deed_write : gives (.deedWriteAnswer 0 (.written 10))
    (serving (.deed (some 11) 0 0) .write 10 1 (.writeDeed 10 [header]) 9) (fun t =>
      (t.request 0).map (·.status) = some (some .written) && t.side 0 = .deed (some 11) 0 0) =
      true := by decide +kernel
/-- R119: a written home sector takes the next spare, 258,048 + 7, under a held place. -/
theorem test_home_write : gives (.homeWriteAnswer 0 .written)
    (serving (.index (some 7) 0) .write 10 1 (.writeHome 0 10 header) 9) (fun t =>
      t.drive 0 = .busy mount0 ⟨.writeSpare 0 258055 10 false header, 250⟩ &&
        t.side 0 = .index (some 8) 0 && t.remap.held = 1) = true := by decide +kernel
/-- R120: a spare written DONE makes the entry and ends the piece. -/
theorem test_spare_write : gives (.spareWriteAnswer 0 .done)
    ((serving (.index (some 8) 0) .write 10 1 (.writeSpare 0 258055 10 false header) 9).setRemap
      ⟨[], 1⟩) (fun t => t.remap = ⟨[⟨10, 258055⟩], 0⟩ &&
        (t.request 0).map (·.status) = some (some .done)) = true := by decide +kernel
/-- R61: a blank label makes the cartridge FOREIGN_BLANK and raises cause 7. -/
theorem test_read_label : gives (.readLabelAnswer 0 .blank) (verifying .readLabel) (fun t =>
    (t.cart 0).verification = .foreignBlank && t.attention.isPending .foreignMedia) = true := by
  decide +kernel
/-- R62: sector x resolves a DEED side to frontier x. -/
theorem test_search_blank : gives (.searchBlankAnswer 0 (.sector 42))
    ((verifying (.searchBlank 0)).setSide 0 (.deed none 0 0)) (fun t =>
      t.side 0 = .deed (some 42) 0 0 && (t.drive 0).isIdle) = true := by decide +kernel
/-- R76: the second face's DONE verifies the cartridge. -/
theorem test_write_label : gives (.writeLabelAnswer 0 .done)
    (((mountedAs (.busy mount0 ⟨.writeLabel 0 0 0, 9⟩)).setCart 0
      ⟨.mounted 0 0, .foreignBlank, false, true⟩).setQueue 0 [⟨.label, 0, true⟩]) (fun t =>
        t.cart 0 = ⟨.mounted 0 0, .verified, false, false⟩) = true := by decide +kernel
/-- R68: an answer with no command outstanding changes nothing. -/
theorem test_late_drive_answer : gives (.lateDriveAnswer 0) idle0 (fun t => t.drive 0 = idle0.drive 0) =
    true := by decide +kernel
/-- R72: an expiry faults the drive and strands the cartridge. -/
theorem test_command_countdown : gives (.commandCountdownExpiry 0)
    (serving (.deed (some 10) 0 0) .read 5 1 (.readSectors 0 5 1) 0) (fun t =>
      t.drive 0 = .faulted && (t.cart 0).location = .stuck 0 0 &&
        (t.request 0).map (·.status) = some (some .driveFault)) = true := by decide +kernel
/-- R72, R82: the fault of a YIELDING drive ends its piece, so the choice loads a waiting side. -/
theorem test_command_countdown_yielding : gives (.commandCountdownExpiry 0)
    (((serving (.deed (some 10) 0 0) .read 5 1 (.readSectors 0 5 1) 0).setDrive 0
      (.yielding mount0 (some ⟨.readSectors 0 5 1, 0⟩))).setQueue 9 [⟨.request 1, 0, false⟩])
    (fun t => t.drive 0 = .faulted && t.mech.picker = .moving (.load 4 1 1) 400) = true := by
  decide +kernel
/-- R69: the countdown is held as expired. -/
theorem test_dwell : gives (.dwellExpiry 0)
    (mountedAs (.idle { mount0 with dwell := .running 0 } 0 (.running 5))) (fun t =>
      t.drive 0 = .idle mount0 0 (.running 5)) = true := by decide +kernel
/-- R70, R83: with no candidate an expired linger releases nothing. -/
theorem test_linger : gives (.lingerExpiry 0) (mountedAs (.idle mount0 0 (.running 0))) (fun t =>
    t.drive 0 = .idle mount0 0 .expired && t.mech.picker = .idle) = true := by decide +kernel
/-- R81, R83: at its moment a candidate at home loads into the lowest EMPTY drive. -/
theorem test_ageing_alarm : gives .ageingAlarmExpiry
    (({ ready with tenths := 450 }.setAgeing (some 0)).setQueue 9 [⟨.request 0, 0, false⟩]) (fun t =>
      t.mech.picker = .moving (.load 4 1 0) 400 && t.mech.ageing = none) = true := by
  decide +kernel
/-- R58, R61: a LOAD's completion mounts an UNVERIFIED cartridge and reads its label. -/
theorem test_picker_completion : gives .pickerOrderCompletion
    ((ready.moveCart 4 .inPicker |>.setDrive 2 (.loading 9 false)).setPicker
      (.moving (.load 4 1 2) 17)) (fun t =>
        (t.cart 4).location = .mounted 2 1 && t.mech.picker = .idle &&
          t.drive 2 = .verifying ⟨9, 0, .running 80, false⟩ ⟨.readLabel, 250⟩) = true := by
  decide +kernel
/-- R90: INVENTORY follows HOME in the same event. -/
theorem test_home : gives .homeCompletion (ready.setPicker (.homing .home 3)) (fun t =>
    t.mech.picker = .homing .inventory 400) = true := by decide +kernel
/-- R91: a HOME cartridge whose slot is empty is MISSING. -/
theorem test_inventory : gives (.inventoryCompletion (BitVec.allOnes 160 - 2))
    (ready.setPicker (.homing .inventory 3)) (fun t =>
      (t.cart 1).location = .missing && (t.cart 2).location = .home && t.mech.picker = .idle) =
      true := by decide +kernel
/-- R88: the held cartridge is MISSING and the drive that was LOADING is EMPTY (R60). -/
theorem test_picker_jammed : gives .pickerJammed
    ((ready.moveCart 4 .inPicker |>.setDrive 2 (.loading 9 false)).setPicker
      (.moving (.load 4 1 2) 17)) (fun t =>
        (t.cart 4).location = .missing && t.mech.picker = .faulted && t.drive 2 = .empty none) =
      true := by decide +kernel
/-- R86, R88: the watchdog's expiry is a picker fault. -/
theorem test_picker_watchdog : gives .pickerWatchdogExpiry (ready.setPicker (.homing .home 0))
    (fun t => t.mech.picker = .faulted && t.attention.isPending .pickerFault) = true := by
  decide +kernel
/-- R86: a late answer changes no record. -/
theorem test_late_picker_answer : gives .latePickerAnswer ready (fun t => t.mech.picker = .idle) =
    true := by decide +kernel
/-- R93: placed in EMPTY. -/
theorem test_mail_placed : gives .mailSlotPlaced ready (fun t =>
    t.mech.mail = .heldIn && t.attention.isPending .mailSlot) = true := by decide +kernel
/-- R93: removal of a cartridge HELD_IN ends the pending import. -/
theorem test_mail_removed : gives .mailSlotRemoved ((ready.setMail .heldIn).setImport (some 3))
    (fun t => t.mech.mail = .empty && t.mech.pendingImport = none) = true := by decide +kernel

/-- An OPEN ticket of 123 cents, its countdown as given. -/
def openTicket (c : Option Nat) : Ticket := .opened ⟨none, 0, 2, 123, [], []⟩ c

/-- R148 to R150: with minimum 0 and step 1 a gross of 123 settles at 123, cause IDLE. -/
theorem test_idle_countdown : gives (.idleCountdownExpiry 5)
    (ready.setTicket 5 (openTicket (some 0))) (fun t =>
      t.ticket 5 = .idle && t.ledger.journal =
        [⟨0, 5, none, .idle, 2, 123, 0, 0, 123, 0, 0⟩]) = true := by decide +kernel
/-- R32: a SEARCH entry for station 4 of 16 granules from granule 2, on account 3. -/
theorem test_station_set : gives (.stationSet 4 1 2 16 2 3 600 false) ready (fun t =>
    t.station 4 = ⟨.search, 2, 16, .deposit 3, 600⟩ && t.orderAnswer = some .done) = true := by
  decide +kernel
/-- R32: station 0 may not leave the control region without a CLERK station. -/
theorem test_station_set_clerk : gives (.stationSet 0 1 0 16 0 0 0 false) ready (fun t =>
    t.orderAnswer = some .clerkRequired) = true := by decide +kernel
/-- R30. -/
theorem test_trap_clear : gives (.trapClear 0x20)
    ((ready.recordTrap 5 .vacant .read 9).recordTrap 6 .vacant .read 9) (fun t =>
      t.traps.at 5 = ⟨none, 0⟩ && (t.traps.at 6).count = 1) = true := by decide +kernel
/-- R18. -/
theorem test_side_zone_set : gives (.sideZoneSet 7 2 false) ready (fun t =>
    t.side 7 = .index none 0) = true := by decide +kernel
/-- R19: a mark above the frontier raises it and abandons the body owed. -/
theorem test_closure_set : gives (.closureSet 0 50 true) (idle0.setSide 0 (.deed (some 10) 3 0))
    (fun t => t.side 0 = .deed (some 50) 0 50) = true := by decide +kernel
/-- R171: a KEYED lock with the key off. -/
theorem test_library_id_locked : gives (.libraryIdSet 9 false) { ready with lock := .keyed } (fun t =>
    t.lib.libraryId = 0 && t.orderAnswer = some .locked) = true := by decide +kernel
/-- R75: one label piece a face, and the choice of R82 loads the lower face. -/
theorem test_label_cartridge : gives (.labelCartridge 3)
    (ready.setCart 3 ⟨.home, .foreignBlank, false, false⟩) (fun t =>
      t.queue 6 = [⟨.label, 0, false⟩] && t.queue 7 = [⟨.label, 0, false⟩] &&
        t.mech.picker = .moving (.load 3 0 0) 400) = true := by decide +kernel
/-- R14, R76: with the picker FAULTED the pieces are refused and the labelling fails. -/
theorem test_label_cartridge_faulted : gives (.labelCartridge 3)
    ((ready.setCart 3 ⟨.home, .foreignBlank, false, false⟩).setPicker .faulted) (fun t =>
      t.queue 6 = [] && t.queue 7 = [] &&
        t.cart 3 = ⟨.home, .foreignWrong, false, false⟩ && t.attention.isPending .foreignMedia) =
      true := by decide +kernel
/-- R98: L above 600. -/
theorem test_sched_params : gives (.schedParams 40 8 601 false) ready (fun t =>
    t.sched = ⟨45, 8, 20⟩ && t.orderAnswer = some .badValue) = true := by decide +kernel
/-- R94, R95: a cartridge at home goes to the mail slot at once. -/
theorem test_export : gives (.exportCartridge 3) ready (fun t =>
    t.mech.mail = .reservedOut && t.mech.picker = .moving (.mailOut 3 none) 400) = true := by
  decide +kernel
/-- R96, R97: an import with nothing else to do starts at once. -/
theorem test_import : gives (.importCartridge 3) ((ready.moveCart 3 .shelfOut).setMail .heldIn)
    (fun t => (t.cart 3).location = .inPicker && t.mech.picker = .moving (.mailIn 3) 400) =
      true := by decide +kernel
/-- R90: PICKER_BUSY while MOVING. -/
theorem test_picker_reset : gives .pickerReset (ready.setPicker (.moving (.mailIn 3) 9)) (fun t =>
    t.orderAnswer = some .pickerBusy) = true := by decide +kernel
/-- R92: a FAULTED drive with no STUCK cartridge. -/
theorem test_drive_return : gives (.driveReturn 1) (ready.setDrive 1 .faulted) (fun t =>
    t.drive 1 = .empty none) = true := by decide +kernel
/-- R132: the greatest rate and cap. -/
theorem test_tariff_set : gives (.tariffSet 3 2000 999999 false) ready (fun t =>
    t.tariff.rate.at 3 = 2000 && t.tariff.cap.at 3 = 999999) = true := by decide +kernel
/-- R132: factor 0 is refused. -/
theorem test_size_factor_set : gives (.sizeFactorSet 1 0 false) ready (fun t =>
    t.tariff.factor.at 1 = 4 && t.orderAnswer = some .badValue) = true := by decide +kernel
/-- R165: TICKETS_OPEN. -/
theorem test_fee_params : gives (.feeParams 100 25 8 false) (ready.setTicket 5 (openTicket none))
    (fun t => t.orderAnswer = some .ticketsOpen) = true := by decide +kernel
/-- R149, R150: minimum 130 and step 25 settle 123 at 125, with adjustments 7 and -5. -/
theorem test_ticket_close : gives (.ticketClose 5)
    { ready.setTicket 5 (openTicket none) with
      tariff := { ready.tariff with minimum := 130, settleStep := 25 } } (fun t =>
        t.ledger.journal = [⟨0, 5, none, .order, 2, 123, 7, -5, 125, 0, 0⟩]) = true := by
  decide +kernel
/-- R156: the balance saturates. -/
theorem test_account_credit : gives (.accountCredit 2 6)
    (ready.setAccount 2 ⟨99999994, 0, 0⟩) (fun t =>
      t.account 2 = ⟨99999999, 0, 0⟩ && t.orderAnswer = some .capped) = true := by decide +kernel
/-- R157: down to committed exactly. -/
theorem test_account_withdraw : gives (.accountWithdraw 2 60) (ready.setAccount 2 ⟨100, 40, 1⟩)
    (fun t => t.account 2 = ⟨40, 40, 1⟩ && t.attention.isPending .depositLow) = true := by
  decide +kernel
/-- R158. -/
theorem test_account_low_mark : gives (.accountLowMark 2 100000000) ready (fun t =>
    t.orderAnswer = some .badValue) = true := by decide +kernel
/-- R160: a release of an empty journal answers TRIMMED. -/
theorem test_journal_release : gives (.journalRelease 1) ready (fun t =>
    t.orderAnswer = some .trimmed && t.ledger.journal = []) = true := by decide +kernel
/-- R172: KEYED to OPEN with the key off. -/
theorem test_settings_lock : gives (.settingsLock 0 false) { ready with lock := .keyed } (fun t =>
    t.lock = .keyed && t.orderAnswer = some .noKey) = true := by decide +kernel
/-- R175: both causes of the reset masked, so the line is off. -/
theorem test_attention_mask : gives (.attentionMask 0xC00 1) ready (fun t =>
    !t.attention.line && t.attention.firstCause = 0 && t.attention.pending = 0xC00#12) = true := by
  decide +kernel
/-- R176: cause 11 goes; cause 12 stays while the clock is unset. -/
theorem test_attention_clear : gives (.attentionClear 0xC00) ready (fun t =>
    t.attention.pending = 0x800#12) = true := by decide +kernel
/-- R180. -/
theorem test_clock_set : gives (.clockSet 4294967295) ready (fun t =>
    t.clock = none && t.orderAnswer = some .badValue) = true := by decide +kernel
/-- R169. -/
theorem test_unknown_order : gives (.unknownOrder 99) ready (fun t =>
    t.orderAnswer = some .unknownOrder) = true := by decide +kernel
/-- R168: control block 0 is not writable. -/
theorem test_control_write_not_writable :
    gives (.controlWriteNotWritable (writeOf 2 268435200 fillBlock) false) ready (fun t =>
      (t.request 2).map (·.status) = some (some .notWritableControl) &&
        t.orderResult.number = 0) = true := by decide +kernel
/-- R179, R180: the tenth tenth. -/
theorem test_tenth : gives .tenth
    { (ready.setDrive 0 (.empty (some 7))) with clock := some ⟨4294967294, 9⟩ } (fun t =>
      t.tenths = 1 && t.clock = some ⟨4294967294, 0⟩ && t.drive 0 = .empty (some 6)) = true := by
  decide +kernel

/-! ### Formats and the queue -/

/-- R102: the header above is valid, and is not once one bit of its check word changes. -/
theorem test_header : (validHeader header).map (fun h => (h.instrument, h.page, h.length)) =
    some (7, 1, 2) ∧ validHeader (header ^^^ BitVec.ofNat 8192 (2 ^ 160)) = none := by
  decide +kernel
/-- R169: an order block of END alone takes no order. -/
theorem test_order_block_of_end :
    (takeRecords ((List.range 64).map (orderRecord fillBlock)) ready).1 = [] := by decide +kernel
/-- A step takes the front command and leaves the rest waiting. -/
theorem test_step :
    (match step { ready with pending := [.mailSlotPlaced, .tenth] } with
      | .next t => decide (t.pending = [.tenth] ∧ t.mech.mail = .heldIn)
      | _ => false) = true := by decide +kernel

/-! ### States and operands that meet the statements' hypotheses

One theorem a statement, with a conjunct for each of its clauses, at a boundary of its range. -/

/-- `ready` under a KEYED lock. -/
def keyed : State := { ready with lock := .keyed }

theorem witness_StationSetJudgedAndTaken :
    keyed.lock.barredTo false ∧ ¬ keyed.lock.barredTo true ∧ 31 < (32#8).toNat ∧
    ¬ StationOperandsGood 1 1 65536 0 0 0 ∧ ¬ StationOperandsGood 4 0 1 0 0 0 ∧
    StationOperandsGood 3 0 65536 2 15 3600 ∧ StationOperandsGood 0 65535 0 9 99 5 ∧
    keyed.KeepsClerk 0 3 0 65536 ∧ keyed.KeepsClerk 31 1 0 1 ∧ ¬ keyed.KeepsClerk 0 1 0 65536 := by
  unfold LockMode.barredTo StationOperandsGood State.KeepsClerk
  refine ⟨?_, ?_, ?_, ?_, ?_, ?_, ?_, ?_, ?_, ?_⟩ <;> decide +kernel

theorem witness_SideZoneSetJudgedAndTaken :
    keyed.lock.barredTo false ∧ ¬ ready.lock.barredTo false ∧ 319 < (320#16).toNat ∧
    (319#16).toNat = (319 : Side).val ∧ ready.side 319 = .unused ∧ idle0.side 0 ≠ .unused := by
  unfold LockMode.barredTo
  decide +kernel

theorem witness_ClosureSetJudgedAndTaken :
    319 < (320#16).toNat ∧ ready.side 319 = .unused ∧
    (ready.setSide 0 (.deed none 0 0)).side 0 = .deed none 0 0 ∧
    (ready.setSide 0 (.deed (some 10) 3 5)).side 0 = .deed (some 10) 3 5 ∧
    262144 < (262145#32).toNat ∧ (4#32).toNat < 5 ∧ (10#32).toNat ≤ 10 ∧
    10 < (262144#32).toNat ∧ (ready.setSide 1 (.index none 5)).side 1 = .index none 5 ∧
    258048 < (258049#32).toNat ∧ (258048#32).toNat ≤ 258048 := by decide +kernel

/-- Cartridge 3 with a record of its own. -/
def cart3 (l : Location) (v : Verification) (x p : Bool) : State := ready.setCart 3 ⟨l, v, x, p⟩

theorem witness_LabelCartridgeJudgedAndTaken :
    159 < (160#16).toNat ∧ ((cart3 .missing .verified false false).cart 3).location ≠ .home ∧
    ((cart3 .home .verified true false).cart 3).exportPending = true ∧
    ((cart3 .home .verified false true).cart 3).labellingPending = true ∧
    (ready.cart 159).verification ≠ .foreignBlank ∧
    (cart3 .home .foreignBlank false false).cart 3 = ⟨.home, .foreignBlank, false, false⟩ ∧
    (let s := (cart3 .home .foreignBlank false false).setPicker .faulted;
      Side.cart 6 = 3 ∧ s.isMounted 6 = false ∧ s.mech.picker = .faulted) ∧
    (ready.mech.picker ≠ .faulted ∧ (ready.drive 0).inService = true) := by
  decide +kernel

theorem witness_SchedParamsAndLibraryIdTaken :
    keyed.lock.barredTo false ∧ ¬ keyed.lock.barredTo true ∧
    ((5#16).toNat = 5 ∧ (600#16).toNat = 600 ∧ (120#16).toNat = 120) ∧ ¬ 5 ≤ (4#16).toNat ∧
    (ready.setPicker .faulted).mech.picker ≠ .idle := by
  unfold LockMode.barredTo
  decide +kernel

theorem witness_ExportAndImportJudgedAndTaken :
    159 < (160#16).toNat ∧ (ready.setMail .heldIn).mech.mail ≠ .empty ∧
    ready.mech.mail = .empty ∧ ((cart3 (.stuck 3 1) .verified false false).cart 3).location =
      .stuck 3 1 ∧ (ready.cart 159).location = .home ∧
    ((ready.setMail .heldIn).setImport (some 4)).mech.pendingImport ≠ none ∧
    ((cart3 .shelfOut .verified false false).cart 3).location = .shelfOut ∧
    (let s := ready.setQueue 7 [⟨.request 0, 0, false⟩] |>.setRequest 0 (some ⟨.read, 0, some 0, 1, 0,
        0, false, [⟨.side 7 0, 1, 0, [.fill], none⟩], .accepted, none⟩);
      Side.cart 7 = 3 ∧ (s.queue 7).length = 1 ∧ ((s.request 0).bind (·.pieceOn 7)).isSome) ∧
    gives (.exportCartridge 3) ((cart3 .home .foreignBlank false true).setQueue 6
      [⟨.label, 0, false⟩]) (fun t => t.cart 3 = ⟨.inPicker, .foreignWrong, true, false⟩ &&
        t.attention.isPending .foreignMedia && (t.queue 6).isEmpty) = true := by
  decide +kernel

theorem witness_PickerResetAndDriveReturnTaken :
    (ready.setPicker .faulted).mech.picker = .faulted ∧ ready.mech.picker = .idle ∧
    (ready.setPicker .homingWait).mech.picker ≠ .faulted ∧
    (ready.setPicker .homingWait).mech.picker ≠ .idle ∧ 3 < (4#8).toNat ∧
    ready.drive 3 ≠ .faulted ∧ (ready.setDrive 3 .faulted).drive 3 = .faulted ∧
    ((ready.setDrive 3 .faulted).setReturn 3 true).mech.returns.at 3 = true ∧
    ((cart3 (.stuck 3 1) .verified false false).cart 3).location = .stuck 3 1 ∧
    (∀ n : Cart, (ready.cart n).location = .home) := by decide +kernel

theorem witness_TariffOrdersJudgedAndTaken :
    keyed.lock.barredTo false ∧ ¬ ready.lock.barredTo true ∧ 15 < (16#8).toNat ∧
    2000 < (2001#16).toNat ∧ 999999 < (1000000#32).toNat ∧ (15#8).toNat = (15 : Fin 16).val ∧
    3 < (4#8).toNat ∧ (0#8).toNat = 0 ∧ 40 < (41#8).toNat ∧ (40#8).toNat ≤ 40 ∧
    gives (.powerUp true (Vector.replicate 4 .empty) false) ready (fun _ => true) = true := by
  unfold LockMode.barredTo
  decide +kernel

theorem witness_FeeParamsJudgedAndTaken :
    keyed.lock.barredTo false ∧ ¬ ready.lock.barredTo false ∧ (9999#16).toNat ≤ 9999 ∧
    (25#8).toNat = 25 ∧ (16#8).toNat ≤ 16 ∧ ¬ 1 ≤ (0#8).toNat ∧
    (ready.setTicket 31 (openTicket none)).ticket 31 ≠ .idle ∧
    ∀ t : Station, ready.ticket t = .idle := by
  unfold LockMode.barredTo
  decide +kernel

/-- A ticket of 123 cents that is SETTLE_DUE. -/
def dueTicket : Ticket := .due ⟨none, 0, 2, 123, [], []⟩ .order 9

theorem witness_TicketCloseAndIdleExpirySettle :
    31 < (32#8).toNat ∧ ready.ticket 31 = .idle ∧
    ((ready.setTicket 31 dueTicket).ticket 31).isDue = true ∧
    (ready.setTicket 31 (openTicket (some 0))).ticket 31 = openTicket (some 0) ∧
    (ready.setTicket 31 (openTicket (some 1))).ticket 31 = openTicket (some 1) := by
  decide +kernel

theorem witness_AccountOrdersJudgedAndTaken :
    15 < (16#8).toNat ∧ (0#32).toNat = 0 ∧ 99999999 < (100000000#32).toNat ∧
    (15#8).toNat = (15 : Account).val ∧
    99999999 < ((ready.setAccount 15 ⟨99999999, 0, 0⟩).account 15).balance + (1#32).toNat ∧
    (ready.account 15).balance + (99999999#32).toNat ≤ 99999999 ∧
    ((ready.setAccount 15 ⟨5, 5, 0⟩).account 15).balance < 5 + (1#32).toNat ∧
    0 + (5#32).toNat ≤ ((ready.setAccount 15 ⟨5, 0, 0⟩).account 15).balance := by decide +kernel

/-- The held law as a test. -/
theorem heldLawful_of {s : State} (once : s.chan.heldList.Nodup)
    (same : ∀ t, decide (t ∈ s.chan.heldList) =
      ((s.request t).any fun r => r.state = .heldForJournal)) : s.HeldLawful :=
  ⟨once, fun t => by
    rw [← decide_eq_true_iff (p := t ∈ s.chan.heldList), same t]; simp [Option.any_eq_true]⟩

/-- A full journal with two due tickets. -/
def fullJournal : State :=
  { ready with ledger := { ready.ledger with
      tickets := (ready.ledger.tickets.put 4 dueTicket).put 6 dueTicket
      dueList := [6, 4]
      journal := List.replicate 128 ⟨0, 0, none, .order, 0, 0, 0, 0, 0, 0, 0⟩ } }

/-- A held read whose pass can start, with nothing due. -/
def heldRequest : State :=
  { ready with chan := { ready.chan with
      requests := ready.chan.requests.put 1
        (some ⟨.read, 3, some 5, 1, 2, 0, false, [], .heldForJournal, some .done⟩)
      heldList := [1] } }

theorem witness_JournalReleaseDrains :
    (let k : State := { fullJournal with ledger := { fullJournal.ledger with journal := [] } };
      k.ledger.dueList = 6 :: [4] ∧ (6 : Station) ∉ [(4 : Station)] ∧ k.ticket 6 = dueTicket ∧
      k.ledger.journal.length < 128) ∧
    heldRequest.ledger.dueList = [] ∧ heldRequest.chan.heldList = 1 :: [] ∧
    (heldRequest.request 1).map (·.station) = some 3 ∧
    (heldRequest.ticket 3).isDue = false ∧ heldRequest.ledger.journal.length < 128 ∧
    128 ≤ fullJournal.ledger.journal.length := by decide +kernel

theorem witness_JournalReleaseRemovesOldest :
    (0#16).toNat = 0 ∧ 128 < (129#16).toNat ∧ (128#16).toNat ≤ 128 ∧
    ready.ledger.dueList = [] ∧ ready.chan.heldList = [] ∧ ready.ledger.journal.length ≤ 128 ∧
    fullJournal.ledger.dueList = [6, 4] ∧ fullJournal.ticket 6 = dueTicket ∧
    (fullJournal.ledger.journal.drop 1).length < 128 := by decide +kernel

/-- The terms law as a test. -/
def agrees (k : Ticket) (fee : FeeMode) : Bool :=
  match k, fee with
  | .opened _ _, .exempt => false
  | .opened b _, .counter => b.account = none
  | .opened b _, .deposit a => b.account = some a
  | _, _ => true

theorem agrees_sound {k : Ticket} {fee : FeeMode} (h : agrees k fee = true) : k.AgreesWith fee := by
  cases k <;> cases fee <;> simp_all [agrees, Ticket.AgreesWith]

theorem witness_DrainLeavesListsOnlyOnFullJournal :
    fullJournal.FeesLawful ∧ fullJournal.HeldLawful ∧
    gives (.journalRelease 1) fullJournal (fun u => u.ledger.dueList ≠ []) = true := by
  refine ⟨⟨fun t => agrees_sound (by revert t; decide +kernel), by decide +kernel,
    by decide +kernel, by decide +kernel, by decide +kernel, by decide +kernel⟩,
    heldLawful_of List.nodup_nil (by decide +kernel), by decide +kernel⟩

/-- A lawful tariff at its limits. -/
def topTariff : Tariff :=
  { Tariff.lost with
    rate := Vector.replicate 16 2000, factor := Vector.replicate 4 40
    minimum := 9999, settleStep := 25, notice := 16 }

/-- A DEPOSIT station with an OPEN ticket of 5 cents on account 2. -/
def depositOpen : State :=
  { ready with
    stations := ready.stations.put 1 ⟨.search, 0, 16, .deposit 2, 0⟩
    ledger := { ready.ledger with
      tickets := ready.ledger.tickets.put 1 (.opened ⟨some 2, 0, 1, 5, [], []⟩ none)
      accounts := ready.ledger.accounts.put 2 ⟨5, 5, 0⟩ } }

theorem lawful_tariffs : topTariff.Lawful ∧ Tariff.lost.Lawful := by
  constructor <;> constructor <;> decide +kernel

theorem witness_SettleRoundsToNearestStep :
    topTariff.Lawful ∧ depositOpen.tariff.Lawful ∧ depositOpen.FeesLawful ∧
    (depositOpen.ticket 1).body? = some ⟨some 2, 0, 1, 5, [], []⟩ := by
  refine ⟨lawful_tariffs.1, lawful_tariffs.2, ⟨fun t => agrees_sound (by revert t; decide +kernel),
    by decide +kernel, by decide +kernel, by decide +kernel, by decide +kernel,
    by decide +kernel⟩, by decide +kernel⟩

theorem witness_FeeParamsBarredByTicket : depositOpen.ticket 1 ≠ .idle ∧
    gives (.feeParams 0 1 1 false) depositOpen (fun _ => true) = true := by decide +kernel

theorem witness_SettingsLockJudgedAndTaken :
    2 < (3#8).toNat ∧ LockMode.keyed.height = (1#8).toNat ∧ LockMode.keyed = keyed.lock ∧
    ready.lock.height < LockMode.locked.height ∧ LockMode.unlocked.height < keyed.lock.height ∧
    ({ ready with lock := .locked } : State).lock = .locked ∧
    gives (.powerUp true (Vector.replicate 4 .empty) false) ready (fun _ => true) = true := by
  decide +kernel

theorem witness_AttentionOrdersJudgedAndTaken :
    4096 ≤ (4096#16).toNat ∧ 1 < (2#8).toNat ∧ (4095#16).toNat < 4096 ∧ (1#8).toNat ≤ 1 := by
  decide

theorem witness_TenthCountsAndClockSet :
    (0#32).toNat = 0 ∧ (4294967295#32).toNat = 4294967295 ∧ (4294967294#32).toNat ≠ 4294967295 ∧
    ({ ready with clock := some ⟨1, 9⟩ } : State).clock = some ⟨1, 9⟩ ∧
    (ready.setPicker (.moving .home 1)).mech.picker = .moving .home 1 ∧
    (ready.setTicket 5 (openTicket (some 1))).ticket 5 = openTicket (some 1) ∧
    idle0.drive 0 = .idle mount0 0 (.running 200) ∧ ready.drive 0 = .empty none ∧
    (mountedAs (.idle { mount0 with dwell := .running 1 } 0 (.running 0))).drive 0 =
      .idle { mount0 with dwell := .running 1 } 0 (.running 0) := by
  decide +kernel

theorem witness_LateAnswersAndUnknownOrdersChangeNothing :
    (ready.drive 0).awaitsAnswer = false ∧ ready.mech.picker.order? = none ∧
    24 ≤ (24#8).toNat := by decide +kernel

/-- An order record of a code and operand bytes. -/
def orderOf (code rest : Nat) : OrderRecord := BitVec.ofNat 128 (code + rest * 256)

theorem witness_RecordsTakenInOrder :
    (operand (orderOf 0 9) 0 1).toNat = 0 ∧ (operand (orderOf 24 0) 0 1).toNat = 24 ∧
    (operand (orderOf 1 0) 0 1).toNat = 1 ∧ (operand (orderOf 23 5) 0 1).toNat = 23 := by
  decide +kernel

/-- The port of `ready` takes a write of one block by station 0. -/
theorem portTakes_writeOf (t : Tag) (a : BitVec 28) (b : Block)
    (h : ∀ t : Tag, ready.request t = none) : ready.PortTakes (writeOf t a b) .write :=
  ⟨rfl, rfl, h t, by simp [writeOf], by simp, by simp [writeOf]⟩

theorem witness_ControlWriteTakesOrderBlock :
    ready.TakesControl (writeOf 2 268435201 fillBlock) .write 1 1 ∧
    (writeOf 2 268435201 fillBlock).data = [fillBlock] ∧ (2 : Tag) ∉ ready.chan.heldList :=
  ⟨⟨portTakes_writeOf _ _ _ (by decide +kernel), by decide +kernel, by decide +kernel,
    by decide +kernel, by decide +kernel⟩, rfl, by decide +kernel⟩

theorem witness_OtherControlWritesNotWritable :
    ready.TakesControl (writeOf 2 268435455 fillBlock) .write 255 1 ∧ ¬ (255 = 1 ∧ 1 = 1) :=
  ⟨⟨portTakes_writeOf _ _ _ (by decide +kernel), by decide +kernel, by decide +kernel,
    by decide +kernel, by decide +kernel⟩, by decide⟩

theorem canonical_ready : ready.Canonical := ⟨rfl, trivial⟩

/-- A read cut back at the top of the volume, which the example of R25 gives. -/
theorem witness_ControlReadShowsReports :
    ready.TakesControl (readOf 2 268435450 10) .read 250 6 ∧ ready.Canonical ∧
    ([⟨0, 4, 7⟩, ⟨4, 0, 1⟩, ⟨1020, 4, 9⟩] : List Field).Pairwise
      (fun f g => f.off + f.size ≤ g.off ∨ g.off + g.size ≤ f.off) :=
  ⟨⟨by constructor <;> decide +kernel, by decide +kernel, by decide +kernel, by decide +kernel, by decide +kernel⟩,
    canonical_ready, by decide⟩

theorem witness_PortWithholdsOrRefuses :
    State.reset.mech.startup ≠ .complete ∧
    (∀ t : Tag, ({ ready with chan := { ready.chan with
      requests := Vector.replicate 32 (some (record .read 0 1)) } } : State).request t ≠ none) ∧
    ({ ready with chan := { ready.chan with withheld := [readOf 1 0 1] } } : State).chan.withheld ≠
      [] ∧ ¬ (ready.mech.startup ≠ .complete) ∧ ready.request 0 = none ∧
    (readOf 1 0 0).count.toNat = 0 ∧ 64 < (readOf 1 0 65).count.toNat ∧
    (ready.setRequest 1 (some (record .read 0 1))).request 1 ≠ none := by decide +kernel

/-- `ready` with station 3 of a class and a window of one granule from a base. -/
def window3 (c : StationClass) (base : Nat) : State :=
  ready.setStation 3 ⟨c, base, 1, .exempt, 0⟩

/-- A read of station 3. -/
def read3 (sba : BitVec 28) (count : BitVec 8) : ChannelRequest := ⟨1, .read, 3, sba, count, 0, []⟩

/-- What the port asks of a presented request, as one test. -/
abbrev portTest (s : State) (r : ChannelRequest) (k : ReqKind) : Prop :=
  s.mech.startup = .complete ∧ s.chan.withheld = [] ∧ s.request r.tag = none ∧
  (1 ≤ r.count.toNat ∧ r.count.toNat ≤ 64) ∧ (k = .read → r.kind = .read ∧ r.data = []) ∧
  (k = .write → r.kind = .write ∧ r.data.length = r.count.toNat)

theorem portTakes_of {s : State} {r : ChannelRequest} {k : ReqKind} (h : portTest s r k) :
    s.PortTakes r k :=
  let ⟨started, waiting, free, count, read, write⟩ := h
  { started, waiting, free, count, read, write }

theorem takesRun_of {s : State} {r : ChannelRequest} {k : ReqKind} {x : Side} {sector n : Nat}
    (port : portTest s r k)
    (h : ((s.station r.station).cls ≠ .vacant ∧ (k = .write → (s.station r.station).cls ≠ .search)) ∧
      r.sba.toNat < s.windowEnd r.station ∧
      n = min r.count.toNat (s.windowEnd r.station - r.sba.toNat) ∧
      (s.station r.station).base * 4096 + r.sba.toNat = x.val * 262144 + sector ∧
      sector + n ≤ 262144 ∧ s.standing x false = none) : s.TakesRun r k x sector n :=
  let ⟨rights, inside, cut, run, oneSide, available⟩ := h
  { port := portTakes_of port, rights, inside, cut, run, oneSide, available }

theorem takesLibrary_of {s : State} {r : ChannelRequest} {k : ReqKind} {v n : Nat}
    (port : portTest s r k)
    (h : ((s.station r.station).cls ≠ .vacant ∧ (k = .write → (s.station r.station).cls ≠ .search)) ∧
      r.sba.toNat < s.windowEnd r.station ∧
      n = min r.count.toNat (s.windowEnd r.station - r.sba.toNat) ∧
      (s.station r.station).base * 4096 + r.sba.toNat = v ∧ v + n ≤ 268435200) :
    s.TakesLibrary r k v n :=
  let ⟨rights, inside, cut, run, library⟩ := h
  { port := portTakes_of port, rights, inside, cut, run, library }

/-- Drive 0 IDLE with side 0, as `idle0` has it. -/
theorem idleOn_of {s : State} (h : s.mountedIn 0 = some 0 ∧ s.drive 0 = .idle mount0 0 (.running 200) ∧
    s.queue 0 = []) : s.IdleOn 0 0 mount0 :=
  { mounted := h.1, idle := ⟨0, .running 200, h.2.1⟩, side := rfl, empty := h.2.2 }

theorem witness_WindowUnitDeniesWhole :
    (window3 .vacant 0).PortTakes (read3 0 1) .read ∧
    (window3 .search 0).PortTakes (read3 4096 1) .read ∧
    (window3 .search 0).windowEnd 3 ≤ (read3 4096 1).sba.toNat ∧
    (window3 .filing 65535).PortTakes (read3 4095 64) .read ∧
    268435200 ≤ ((window3 .filing 65535).station 3).base * 4096 + (read3 4095 64).sba.toNat ∧
    (window3 .clerk 65535).PortTakes (read3 3839 64) .read ∧
    ((window3 .clerk 65535).station 3).base * 4096 + (read3 3839 64).sba.toNat < 268435200 ∧
    (window3 .search 0).PortTakes ⟨1, .write, 3, 0, 1, 0, [fillBlock]⟩ .write := by
  refine ⟨portTakes_of (by decide +kernel),
    portTakes_of (by decide +kernel), by decide +kernel,
    portTakes_of (by decide +kernel), by decide +kernel,
    portTakes_of (by decide +kernel), by decide +kernel,
    portTakes_of (by decide +kernel)⟩

/-- The last block of a window and 63 past its end, and a run of a whole request. -/
theorem witness_AcceptedReadJoinsQueue :
    (window3 .search 0).TakesRun (read3 4095 64) .read 0 4095 1 ∧ (window3 .search 0).NotIdleOn 0 ∧
    (window3 .search 0).TakesRun (read3 0 64) .read 0 0 64 := by
  refine ⟨takesRun_of (by decide +kernel) (by decide +kernel), by unfold State.NotIdleOn; decide +kernel,
    takesRun_of (by decide +kernel) (by decide +kernel)⟩

/-- A read over the ends of two sides, one over the end of side 319 and one of the gap. -/
theorem witness_AcceptedReadPieces :
    (ready.TakesLibrary (readOf 5 262140 10) .read 262140 10 ∧
      CutInto 262140 10 [(.side 0 262140, 4), (.side 1 0, 6)] ∧ ∀ x, ready.NotIdleOn x) ∧
    CutInto 83886077 10 [(.side 319 262141, 3), (.gap, 7)] ∧
    CutInto 83886080 10 [(.gap, 10)] ∧ CutInto 262134 10 [(.side 0 262134, 10)] := by
  refine ⟨⟨takesLibrary_of (by decide +kernel) (by decide +kernel),
    .sides 0 1 262140 4 6 (by decide) (by decide) (by decide) (by decide) (by decide) (by decide),
    fun x d h => ?_⟩,
    .lastSide 319 262141 3 7 (by decide) (by decide) (by decide) (by decide) (by decide)
      (by decide), .gap (by decide), .side 0 262134 (by decide) (by decide)⟩
  have : ∀ d, (ready.drive d).isIdle = false := by decide +kernel
  exact this d

/-- A read, a deed write at the frontier and an index write, each on a side in an IDLE drive. -/
theorem witness_IdleDriveStartsJoiningPiece :
    idle0.IdleOn 0 0 mount0 ∧ idle0.TakesRun (readOf 1 10 1) .read 0 10 1 ∧
    idle0.TakesRun (writeOf 1 10 header) .write 0 10 1 ∧
    (imageWalk 10 0 ([header].take 1)).toOption = some 1 ∧
    (let s := idle0.setSide 0 (.index (some 4095) 0);
      s.IdleOn 0 0 mount0 ∧ s.TakesRun (writeOf 1 10 header) .write 0 10 1 ∧
      s.spareOf 0 10 = none) :=
  ⟨idleOn_of (by decide +kernel),
    takesRun_of (by decide +kernel) (by decide +kernel),
    takesRun_of (by decide +kernel) (by decide +kernel),
    by decide +kernel,
    idleOn_of (by decide +kernel),
    takesRun_of (by decide +kernel) (by decide +kernel),
    by decide +kernel⟩

/-- An INDEX side 0 in an IDLE drive, home block 10 with an entry, `p` spares issued. -/
def indexIdle (p : Nat) : State :=
  (idle0.setSide 0 (.index (some p) 0)).setRemap ⟨[⟨10, 258048⟩], 0⟩

/-- A write of home block 10 at the last spare and with none left, in canonical states. -/
theorem witness_IdleDriveMeetsSpares :
    idle0.Canonical ∧ (∀ p, (indexIdle p).Canonical) ∧
    (indexIdle 4095).IdleOn 0 0 mount0 ∧ (indexIdle 4096).IdleOn 0 0 mount0 ∧
    (indexIdle 4095).TakesRun (writeOf 1 10 header) .write 0 10 1 ∧
    (indexIdle 4096).TakesRun (writeOf 1 10 header) .write 0 10 1 ∧
    (indexIdle 4095).spareOf 0 10 ≠ none ∧ (indexIdle 4096).spareOf 0 10 ≠ none ∧
    (indexIdle 4095).side 0 = .index (some 4095) 0 ∧ (indexIdle 4096).side 0 = .index (some 4096) 0 :=
  ⟨⟨rfl, trivial⟩, fun _ => ⟨rfl, nofun, trivial⟩,
    idleOn_of (by decide +kernel),
    idleOn_of (by decide +kernel),
    takesRun_of (by decide +kernel) (by decide +kernel),
    takesRun_of (by decide +kernel) (by decide +kernel),
    by decide +kernel, by decide +kernel, by decide +kernel, by decide +kernel⟩

/-- A run over the ends of sides 0 and 1, the first in an IDLE drive: its read starts there, and so does its
write, from side 0's last sector; the piece on side 1 waits. -/
theorem witness_TwoPiecesMeetIdleDrive :
    (idle0.TakesLibrary (readOf 5 262143 2) .read 262143 2 ∧
      CutInto 262143 2 [(.side 0 262143, 1), (.side 1 0, 1)] ∧
      idle0.IdleOn 0 0 mount0 ∧ idle0.NotIdleOn 1 ∧ idle0.FirstRead 0 262143 1
        (.readSectors 0 262143 1)) ∧
    (let s := ((idle0.setSide 0 (.deed (some 262143) 1 0)).setSide 1 (.deed (some 0) 0 0));
      s.verdicts [header, header] 0 [(.side 0 262143, 1), (.side 1 0, 1)] =
        [(0, .pass (.deed (some 262144) 0 0)), (1, .pass (.deed (some 1) 1 0))] ∧
      gives (.acceptance ⟨5, .write, 0, 262143, 2, 0, [header, header]⟩ false) s (fun t =>
        t.drive 0 = .busy mount0 ⟨.writeDeed 262143 [header], 250⟩ ∧
        t.queue 1 = [⟨.request 5, 0, false⟩]) = true) := by
  refine ⟨⟨takesLibrary_of (by decide +kernel) (by decide +kernel),
    .sides 0 1 262143 1 1 (by decide) (by decide) (by decide) (by decide) (by decide) (by decide),
    idleOn_of (by decide +kernel), ?_, ?_⟩, ?_⟩
  · have : idle0.mountedIn 1 = none := by decide +kernel
    exact fun d h => absurd (this.symm.trans h) (by simp)
  · have : ∀ p m, idle0.side 0 ≠ .index p m := by
      have : idle0.side 0 = .deed (some 10) 0 0 := by decide +kernel
      simp [this]
    exact ⟨fun _ => rfl, fun p m _ h => absurd h (this p m), fun p m h => absurd h (this p m)⟩
  · decide +kernel

/-- `ready` with a record for side 0. -/
def side0 (r : SideRecord) : State := ready.setSide 0 r

theorem takesRun_side0 (r : SideRecord) (a : BitVec 28) (ha : a.toNat < 262144) (b : Block)
    (h : ∀ t : Tag, ready.request t = none) (hs : ready.standing 0 false = none)
    (hw : (ready.station 0).cls = .clerk ∧ ready.windowEnd 0 = 268435456 ∧
      (ready.station 0).base = 0) :
    (side0 r).TakesRun (writeOf 1 a b) .write 0 a.toNat 1 where
  port := ⟨rfl, rfl, h 1, by simp [writeOf], by simp, by simp [writeOf]⟩
  rights := by
    have : ((side0 r).station 0).cls = .clerk := hw.1
    simp [writeOf, this]
  inside := by
    have : (side0 r).windowEnd 0 = 268435456 := hw.2.1
    show a.toNat < (side0 r).windowEnd 0
    omega
  cut := by
    have : (side0 r).windowEnd 0 = 268435456 := hw.2.1
    show 1 = min 1 ((side0 r).windowEnd 0 - a.toNat)
    omega
  run := by
    have : ((side0 r).station 0).base = 0 := hw.2.2
    show ((side0 r).station 0).base * 4096 + a.toNat = 0 * 262144 + a.toNat
    omega
  oneSide := by omega
  available := hs

/-- Every clause of the filing checker and of the remap rules, at a boundary sector. -/
theorem witness_DeedWriteReservesOrIsRefused :
    (∀ r : SideRecord, ∀ a : BitVec 28, a.toNat < 262144 →
      (side0 r).TakesRun (writeOf 1 a header) .write 0 a.toNat 1) ∧
    (∀ r : SideRecord, (side0 r).NotIdleOn 0 ∧ (side0 r).Canonical) ∧
    (9#28).toNat < 10 ∧ 10 < (11#28).toNat ∧ (10#28).toNat = 10 ∧
    (imageWalk 10 0 [header]).toOption = some 1 ∧
    (imageWalk 10 0 [fillBlock]).toOption = none := by
  refine ⟨fun r a ha => takesRun_side0 r a ha _ (by decide +kernel) (by decide +kernel)
    (by decide +kernel), fun r => ⟨fun d h => ?_, canonical_ready⟩, by decide, by decide, by decide,
    by decide +kernel, by decide +kernel⟩
  have : ready.mountedIn 0 = none := by decide +kernel
  exact absurd (this.symm.trans h) (by simp)

theorem witness_IndexAndUnusedWritesJudged :
    (side0 (.index (some 0) 5)).TakesRun (writeOf 1 258048 header) .write 0 258048 1 ∧
    (side0 (.index (some 0) 5)).TakesRun (writeOf 1 258047 header) .write 0 258047 1 ∧
    (side0 (.index (some 0) 5)).TakesRun (writeOf 1 4 header) .write 0 4 1 ∧
    (side0 .unused).side 0 = .unused ∧ (side0 (.index none 0)).side 0 = .index none 0 := by
  refine ⟨takesRun_side0 _ _ (by decide) _ (by decide +kernel) (by decide +kernel)
    (by decide +kernel), takesRun_side0 _ _ (by decide) _ (by decide +kernel) (by decide +kernel)
    (by decide +kernel), takesRun_side0 _ _ (by decide) _ (by decide +kernel) (by decide +kernel)
    (by decide +kernel), by decide +kernel, by decide +kernel⟩

/-- A write over the ends of two sides: one side UNUSED refuses it; at their frontiers both pass. -/
theorem witness_WritePiecesJudgedTogether :
    ready.TakesLibrary ⟨5, .write, 0, 262143, 2, 0, [header, header]⟩ .write 262143 2 ∧
    CutInto 262143 2 [(.side 0 262143, 1), (.side 1 0, 1)] ∧ ready.Canonical ∧
    ready.verdicts [header, header] 0 [(.side 0 262143, 1), (.side 1 0, 1)] =
      [(0, .refuse .notWritableSide), (1, .refuse .notWritableSide)] ∧
    ((ready.setSide 0 (.deed (some 262143) 1 0)).setSide 1 (.deed (some 0) 0 0)).verdicts
        [header, header] 0 [(.side 0 262143, 1), (.side 1 0, 1)] =
      [(0, .deed (some 262144) 0 0), (1, .deed (some 1) 1 0)].map
        fun e => (e.1, Verdict.pass e.2) :=
  ⟨takesLibrary_of (by decide +kernel) (by decide +kernel),
    .sides 0 1 262143 1 1 (by decide) (by decide) (by decide) (by decide) (by decide) (by decide),
    canonical_ready, by decide +kernel, by decide +kernel⟩

theorem witness_ImageWalkFollowsHeaders :
    validHeader fillBlock = none ∧
    (validHeader header).map (fun h => (decide (262143 + h.length ≤ 262144),
      decide (262142 + h.length ≤ 262144))) = some (false, true) := by decide +kernel

/-- A charged read of one GOOD deed block, at a station of the given fee terms with a ticket. -/
def chargedRead (fee : FeeMode) (k : Ticket) (account : DepositAccount) : State :=
  { side0 (.deed (some 10) 0 0) with
    stations := ready.stations.put 3 ⟨.search, 0, 1, fee, 60⟩
    chan := { ready.chan with
      requests := ready.chan.requests.put 1 (some ⟨.read, 3, some 5, 1, 2, 0, false,
        [⟨.side 0 5, 1, 0, [.good], some .done⟩], .assembled, some .done⟩)
      staging := [(64, header)] }
    tariff := { ready.tariff with rate := ready.tariff.rate.put 3 80 }
    ledger := { ready.ledger with
      tickets := ready.ledger.tickets.put 3 k
      accounts := ready.ledger.accounts.put 2 account } }

/-- The record of the charged read. -/
def chargedRecord : Request :=
  ⟨.read, 3, some 5, 1, 2, 0, false, [⟨.side 0 5, 1, 0, [.good], some .done⟩], .assembled,
    some .done⟩

theorem witness_DeliveryReturnsOrHolds :
    ready.request 1 = none ∧
    (let s := chargedRead .counter .idle ⟨0, 0, 0⟩;
      s.request 1 = some chargedRecord ∧ s.IsCharged chargedRecord ∧
      s.ledger.journal.length < 128 ∧ (s.ticket 3).isDue = false) ∧
    ((chargedRead .counter dueTicket ⟨0, 0, 0⟩).ticket 3).isDue = true ∧
    ((chargedRead .exempt .idle ⟨0, 0, 0⟩).station 3).fee = .exempt ∧
    (record .read 5 1).state ≠ .assembled := by
  refine ⟨by decide +kernel, ⟨by decide +kernel, ⟨rfl, by decide, by decide +kernel,
    by decide +kernel, 0, by decide, by decide +kernel⟩, by decide +kernel, by decide +kernel⟩,
    by decide +kernel, by decide +kernel, by decide⟩

/-- The assembly law as a test. -/
theorem assemblyLawful_of {s : State} (held : s.HeldLawful) (once : s.chan.assemblyOrder.Nodup)
    (same : ∀ t, decide (t ∈ s.chan.assemblyOrder) =
      ((s.request t).any fun r => r.state = .assembled || r.state = .heldForJournal))
    (order : s.chan.heldList.Sublist s.chan.assemblyOrder) : s.AssemblyLawful :=
  ⟨held, once, fun t => by
    rw [← decide_eq_true_iff (p := t ∈ s.chan.assemblyOrder), same t]
    simp [Option.any_eq_true], order⟩

/-- Three charged reads of a full journal, assembled in the order 4, 1, 9.  Those of tags 4 and 9 are
held; that of tag 1 waits for its delivery. -/
def heldAround : State :=
  let s := chargedRead .counter .idle ⟨0, 0, 0⟩
  let held := some { chargedRecord with state := .heldForJournal }
  { s with
    chan := { s.chan with
      requests := (s.chan.requests.put 4 held).put 9 held
      assemblyOrder := [4, 1, 9]
      heldList := [4, 9] }
    ledger := { s.ledger with journal := fullJournal.ledger.journal } }

theorem assemblyLawful_heldAround : heldAround.AssemblyLawful :=
  assemblyLawful_of (heldLawful_of (by decide +kernel) (by decide +kernel)) (by decide +kernel)
    (by decide +kernel) (by decide +kernel)

theorem test_delivery_held_in_order_of_assembly :
    gives (.delivery 1) heldAround (fun t => t.chan.heldList = [4, 1, 9]) = true := by
  decide +kernel

/-- The premises of the clause that holds a request between two others. -/
theorem witness_DeliveryHoldsInOrder :
    heldAround.request 1 = some chargedRecord ∧ heldAround.IsCharged chargedRecord ∧
    128 ≤ heldAround.ledger.journal.length ∧
    heldAround.chan.assemblyOrder = [4] ++ 1 :: [9] ∧ heldAround.chan.heldList = [4] ++ [9] ∧
    (1 : Tag) ∉ [(4 : Tag)] ∧ (4 : Tag) ∉ [(9 : Tag)] := by
  refine ⟨by decide +kernel, ⟨rfl, by decide, by decide +kernel, by decide +kernel, 0, by decide,
    by decide +kernel⟩, by decide +kernel, rfl, rfl, by decide, by decide⟩

/-- A position that a pass examines, with its header. -/
theorem witness_FeePassWalks :
    (let s := chargedRead .counter .idle ⟨0, 0, 0⟩;
      s.request 1 = some chargedRecord ∧ chargedRecord.position 0 = some (0, .good) ∧
      (s.side 0).isDeed = true ∧
      (validHeader (stagingRead s.chan.staging (1 * 64 + 0))).isSome = true ∧
      chargedRecord.position 1 = none) := by decide +kernel

/-- A ticket 10 cents below its gross limit, which a charge of 160 cents takes past it. -/
theorem witness_TotalLimitSettlesFirst :
    (let k : Ticket := .opened ⟨some 2, 0, 1, 99999989, [], []⟩ none;
      (chargedRead (.deposit 2) k ⟨99999999, 99999989, 0⟩).ticket 3 = k ∧
      99999999 < k.gross + 160 ∧ k.copiesOf 7 1 = 0) ∧
    gives (.delivery 1) (chargedRead .counter (.opened ⟨none, 0, 1, 99999989, [], []⟩ none)
      ⟨0, 0, 0⟩) (fun t => t.ledger.journal.map (·.cause) = [.totalLimit] &&
        (t.ticket 3).gross = 160) = true := by decide +kernel

/-- The header's price is 80 cents a copy: two copies charge 160; a ticket that has charged both
charges none; an account of 159 cents does not allow it. -/
theorem witness_HeaderChargedOrDepositShort :
    (let s := chargedRead .counter .idle ⟨0, 0, 0⟩;
      s.request 1 = some chargedRecord ∧ (s.side 0).isDeed = true ∧
      (validHeader (stagingRead s.chan.staging (1 * 64))).map (·.book) = some 3 ∧
      (s.station 3).cls ≠ .vacant ∧ s.ledger.journal.length < 128 ∧ (s.ticket 3).isDue = false) ∧
    (Ticket.opened ⟨none, 0, 1, 160, [⟨7, 1, 2⟩], [⟨7, 160⟩]⟩ none).copiesOf 7 1 = 2 ∧
    gives (.delivery 1) (chargedRead .counter .idle ⟨0, 0, 0⟩) (fun t =>
      (t.ticket 3).gross = 160) = true ∧
    gives (.delivery 1) (chargedRead (.deposit 2) .idle ⟨160, 0, 0⟩) (fun t =>
      t.account 2 = ⟨160, 160, 0⟩) = true ∧
    gives (.delivery 1) (chargedRead (.deposit 2) .idle ⟨159, 0, 0⟩) (fun t =>
      t.chan.sent = [.delivery 1 .depositShort [fillBlock]]) = true := by decide +kernel

/-- A ticket with full lists of 24 pages and 8 instruments, neither with page 1 of instrument 7. -/
def fullLists : TicketBody :=
  ⟨none, 0, 24, 1000, (List.range 24).map fun i => ⟨100 + i / 3, i % 3 + 1, 1⟩,
    (List.range 8).map fun i => ⟨100 + i, 125⟩⟩

/-- The header as read: page 1 of instrument 7, of book 3. -/
def page7 : PageHeader := (validHeader header).getD ⟨0, 0, 0, 0, 0⟩

/-- A state whose station 3 has the ticket, on the journal given, ready for a charge of two copies. -/
def pageAt (b : TicketBody) (journal : List JournalRecord) : State :=
  let s := chargedRead .counter (.opened b none) ⟨0, 0, 0⟩
  { s with ledger := { s.ledger with journal := journal } }

/-- Two copies charged before, of a page that has a newer one behind it: the page alone moves. -/
theorem witness_ChargeHeaderMovesPage :
    let s := pageAt ⟨none, 0, 1, 160, [⟨7, 1, 2⟩, ⟨8, 1, 1⟩], [⟨7, 160⟩]⟩ [];
    page7.instrument = 7 ∧ page7.page = 1 ∧ 2 - (s.ticket 3).copiesOf 7 1 = 0 ∧
    ((s.chargeHeader 3 page7 2).1.ticket 3).body?.map (·.pageList) =
      some [⟨8, 1, 1⟩, ⟨7, 1, 2⟩] := by decide +kernel

/-- A new page on full lists: the oldest page and the oldest instrument leave. -/
theorem witness_ChargeHeaderOnFullLists :
    let s := pageAt fullLists [];
    2 - (s.ticket 3).copiesOf 7 1 = 2 ∧ (s.ticket 3).gross + 160 ≤ 99999999 ∧
    ((s.chargeHeader 3 page7 2).1.ticket 3).body?.map (fun b =>
      (b.pageList.length, b.pageList.head?, b.pageList.getLast?)) =
        some (24, some ⟨100, 2, 1⟩, some ⟨7, 1, 2⟩) ∧
    ((s.chargeHeader 3 page7 2).1.ticket 3).body?.map (fun b =>
      (b.instruments.length, b.instruments.head?, b.instruments.getLast?)) =
        some (8, some ⟨101, 125⟩, some ⟨7, 160⟩) := by decide +kernel

/-- A charge of 160 cents that reaches the gross limit, and one a cent past it, on a full journal and on
one with room. -/
theorem witness_ChargeHeaderAtGrossLimit :
    ((pageAt { fullLists with gross := 99999839 } []).chargeHeader 3 page7 2).1.ledger.journal = [] ∧
    ((pageAt { fullLists with gross := 99999839 } []).ticket 3).gross + 160 = 99999999 ∧
    ((pageAt { fullLists with gross := 99999840 } []).chargeHeader 3 page7 2).1.ledger.journal.length =
      1 ∧
    128 ≤ (pageAt { fullLists with gross := 99999840 } fullJournal.ledger.journal).ledger.journal.length ∧
    ((pageAt { fullLists with gross := 99999840 } fullJournal.ledger.journal).chargeHeader 3 page7 2).2 =
      true := by decide +kernel

/-- A command for tag 0's piece on side 0, as `serving` sets it up. -/
theorem serves_serving (side : SideRecord) (k : ReqKind) (x count : Nat) (c : DriveCommand)
    (left : Nat) (p : Piece) (hp : (record k x count).pieceOn 0 = some p)
    (hx : p.place = .side 0 x) (hs : p.status = none) :
    (serving side k x count c left).Serves 0 mount0 c 0 (record k x count) p x where
  drive := ⟨left, .inl (Table.at_put_same _ _ _)⟩
  front := ⟨0, [], Table.at_put_same _ _ _⟩
  request := Table.at_put_same _ _ _
  piece := hp
  place := hx
  running := hs

/-- Drive 0 BUSY with a command for an orphan on side 0, ahead of a queued piece of tag 4. -/
def orphaned (c : DriveCommand) : State :=
  (mountedAs (.busy mount0 ⟨c, 9⟩)).setQueue 0
    [⟨.orphan .write ⟨.side 0 10, 1, 0, [], none⟩, 3, true⟩, ⟨.request 4, 9, false⟩]

theorem witness_ServesOrphan (c : DriveCommand) :
    (orphaned c).ServesOrphan 0 mount0 c [⟨.request 4, 9, false⟩] :=
  ⟨⟨9, .inl (Table.at_put_same _ _ _)⟩, .write, ⟨.side 0 10, 1, 0, [], none⟩, 3,
    Table.at_put_same _ _ _⟩

/-- A deed write ends with another request's read and write queued behind it. -/
theorem witness_NextPieceStarts :
    (let s := ((serving (.deed (some 11) 0 0) .write 10 1 (.writeDeed 10 [header]) 9).setRequest 4
        (some (record .read 5 2))).setQueue 0 [⟨.request 0, 0, true⟩, ⟨.request 4, 9, false⟩];
      s.drive 0 = .busy mount0 ⟨.writeDeed 10 [header], 9⟩ ∧ s.request 0 = some (record .write 10 1) ∧
      s.request 4 = some (record .read 5 2) ∧ (s.side 0).isDeed = true ∧
      s.queue 0 = [⟨.request 0, 0, true⟩, ⟨.request 4, 9, false⟩] ∧
      (record .read 5 2).pieceOn 0 = some ⟨.side 0 5, 2, 0, [.fill, .fill], none⟩) := by
  decide +kernel

/-- The whole piece in one command; and on an INDEX side its first block alone, the second having an
entry. -/
theorem witness_ReadAnswerEntersConditions :
    (serving (.deed (some 10) 0 0) .read 5 2 (.readSectors 0 5 2) 9).Serves 0 mount0
      (.readSectors 0 5 2) 0 (record .read 5 2) ⟨.side 0 5, 2, 0, [.fill, .fill], none⟩ 5 ∧
    (serving (.deed (some 10) 0 0) .read 5 2 (.readSectors 0 5 2) 9).Canonical ∧
    (let s := (serving (.index (some 1) 0) .read 5 2 (.readSectors 0 5 1) 9).setRemap
        ⟨[⟨6, 258048⟩], 0⟩;
      s.Serves 0 mount0 (.readSectors 0 5 1) 0 (record .read 5 2)
        ⟨.side 0 5, 2, 0, [.fill, .fill], none⟩ 5 ∧ s.spareOf 0 6 = some 258048) :=
  ⟨serves_serving _ _ _ _ _ _ _ rfl rfl rfl, ⟨rfl, trivial⟩,
    ⟨⟨9, .inl (Table.at_put_same _ _ _)⟩, ⟨0, [], Table.at_put_same _ _ _⟩,
      Table.at_put_same _ _ _, rfl, rfl, rfl⟩, by decide +kernel⟩

theorem witness_DeedWriteAnswerEndsPiece :
    (serving (.deed (some 11) 0 0) .write 10 1 (.writeDeed 10 [header]) 9).Serves 0 mount0
      (.writeDeed 10 [header]) 0 (record .write 10 1) ⟨.side 0 10, 1, 0, [], none⟩ 10 ∧
    ((serving (.deed (some 11) 0 0) .write 10 1 (.writeDeed 10 [header]) 9).side 0).isDeed = true ∧
    (10 ≤ 10 ∧ 10 < 10 + [header].length) ∧ (9 < 10 ∧ 10 + [header].length ≤ 11) :=
  ⟨serves_serving _ _ _ _ _ _ _ rfl rfl rfl, by decide +kernel, by decide, by decide⟩

/-- The last block, a block before it, a full table, and a pool with its last spare and none. -/
theorem witness_HomeWriteAnswerRedirects :
    (∀ count p, (record .write 10 count).pieceOn 0 = some p → p.place = .side 0 10 →
      p.status = none → ∀ ptr, (serving (.index (some ptr) 0) .write 10 count
        (.writeHome 0 10 header) 9).Serves 0 mount0 (.writeHome 0 10 header) 0
          (record .write 10 count) p 10) ∧
    (∀ ptr, (serving (.index (some ptr) 0) .write 10 1 (.writeHome 0 10 header) 9).side 0 =
      .index (some ptr) 0) ∧
    (let s := (serving (.index (some 4095) 0) .write 10 2 (.writeHome 0 10 header) 9).setRemap
        ⟨[⟨11, 258048⟩], 4095⟩;
      s.spareOf 0 11 ≠ none ∧ 4096 ≤ s.remap.entries.length + s.remap.held) ∧
    (serving (.index (some 4096) 0) .write 10 2 (.writeHome 0 10 header) 9).spareOf 0 11 = none :=
  ⟨fun _ p hp hx hs _ => serves_serving _ _ _ _ _ _ p hp hx hs, fun ptr => rfl, by decide +kernel,
    by decide +kernel⟩

theorem witness_SpareWriteAnswerMakesEntry :
    (serving (.index (some 8) 0) .write 10 2 (.writeSpare 0 258055 10 false header) 9).Serves 0
      mount0 (.writeSpare 0 258055 10 false header) 0 (record .write 10 2)
      ⟨.side 0 10, 2, 0, [], none⟩ 10 :=
  serves_serving _ _ _ _ _ _ _ rfl rfl rfl

/-! ### A library at work -/

/-- What the law of the side queues asks of one entry of a side's queue (R15, R16, R54, R64, R76). -/
abbrev entryTest (s : State) (x : Side) (e : QEntry) : Prop :=
  (e.running = true → ∃ d, ((s.drive d).runs?.map (·.1)) = some x) ∧
  (e.owner.isOrphan = true → e.running = true) ∧
  (∀ t, e.owner = .request t → ∃ r ∈ s.request t, r.state.isOpen = true ∧
    (∃ p ∈ r.pieceOn x, p.status = none) ∧ (e.running = true → r.state = .inService)) ∧
  (e.running = false →
    (e.owner = .label → (s.cart x.cart).labellingPending = true) ∧
    s.standing x e.owner.isLabel = none)

/-- What it asks of one side's queue. -/
abbrev queueTest (s : State) (x : Side) : Prop :=
  (∀ e ∈ (s.queue x).tail, e.running = false) ∧ ((s.queue x).map (·.owner)).Nodup ∧
    ∀ e ∈ s.queue x, entryTest s x e

/-- What it asks of one drive. -/
abbrev driveTest (s : State) (d : DriveNo) : Prop :=
  (∀ w ∈ (s.drive d).runs?, ∃ e ∈ (s.queue w.1).head?, e.running = true ∧
    s.callsFor w.1 w.2 e.owner = true) ∧
  ((s.drive d).isIdle = true → ∀ x ∈ (s.drive d).side?, s.queue x = [])

/-- What it asks of one tag, with the sides where the tag's pieces may wait. -/
abbrev tagTest (s : State) (sides : List Side) (t : Tag) : Prop :=
  ∀ r ∈ s.request t, r.state.isOpen = true →
    (∃ p ∈ r.pieces, p.status = none) ∧ ∀ p ∈ r.pieces, p.status = none →
      ∃ x ∈ sides, p.onSide x = true ∧ ∃ e ∈ s.queue x, e.owner = .request t

/-- What it asks of one cartridge. -/
abbrev cartTest (s : State) (n : Cart) : Prop :=
  (s.cart n).labellingPending = true → (s.cart n).verification = .foreignBlank ∧
    ∃ f, ∃ e ∈ s.queue (Cart.side n f), e.owner = .label

/-- The law of the side queues, tested on the sides whose queues are not empty, on every drive, and on every
tag and cartridge. -/
theorem queuesLawful_of {s : State} (sides : List Side)
    (empty : ∀ x, x ∉ sides → s.queue x = []) (queues : ∀ x ∈ sides, queueTest s x)
    (drives : ∀ d, driveTest s d) (tags : ∀ t, tagTest s sides t) (carts : ∀ n, cartTest s n) :
    s.QueuesLawful := by
  have all (x) : queueTest s x := by
    by_cases h : x ∈ sides
    · exact queues x h
    · simp [queueTest, empty x h]
  exact {
    behind := fun x => (all x).1
    owners := fun x => (all x).2.1
    running := fun x e he => ((all x).2.2 e he).1
    orphans := fun x e he => ((all x).2.2 e he).2.1
    requests := fun x e he => ((all x).2.2 e he).2.2.1
    labels := fun x e he ho hr => (((all x).2.2 e he).2.2.2 hr).1 ho
    standing := fun x e he hr => (((all x).2.2 e he).2.2.2 hr).2
    serving := fun d => (drives d).1
    idle := fun d => (drives d).2
    pieces := fun t r hr ho => (tags t r hr ho).imp_right fun h p hp hs =>
      (h p hp hs).imp fun _ hx => hx.2
    labelling := carts }

/-- A QUEUED read of the first block of a side. -/
def queuedRead (x : Side) : Request :=
  ⟨.read, 0, some 0, 1, 0, 0, false, [⟨.side x 0, 1, 0, [.fill], none⟩], .accepted, none⟩

/-- Drive 0 BUSY with the piece of tag 0 on side 0 and the others ABSENT; tag 1 waits behind it, tag 2 on side
4, and cartridge 6 is being labelled. -/
def busyLibrary : State :=
  let s := serving (.deed (some 10) 0 0) .read 5 1 (.readSectors 0 5 1) 0
  let s := { s with mech := { s.mech with
    drives := Table.put (Vector.replicate 4 .absent) 0 (s.drive 0) } }
  let s := ((s.setRequest 1 (some (queuedRead 0))).setRequest 2 (some (queuedRead 4))).setCart 6
    ⟨.home, .foreignBlank, false, true⟩
  (((s.setQueue 0 [⟨.request 0, 0, true⟩, ⟨.request 1, 0, false⟩]).setQueue 4
    [⟨.request 2, 0, false⟩]).setQueue 12 [⟨.label, 0, false⟩]).setQueue 13 [⟨.label, 0, false⟩]

/-- The same with the LOAD of cartridge 9, VERIFIED, into drive 2 under way, for tag 3. -/
def loadingLibrary : State :=
  ((((busyLibrary.setRequest 3 (some (queuedRead 19))).setQueue 19 [⟨.request 3, 0, false⟩]).setCart 9
    ⟨.inPicker, .verified, false, false⟩).setDrive 2 (.loading 19 false)).setPicker (.moving (.load 9 1 2) 17)

/-- The same library with drive 3 FAULTED and no cartridge STUCK in it. -/
def faultedLibrary : State := busyLibrary.setDrive 3 .faulted

/-- The same library as a PICKER_RESET's INVENTORY comes to its end. -/
def countingLibrary : State := busyLibrary.setPicker (.homing .inventory 3)

theorem queuesLawful_busy : busyLibrary.QueuesLawful := by
  apply queuesLawful_of [0, 4, 12, 13] <;> decide +kernel

theorem queuesLawful_loading : loadingLibrary.QueuesLawful := by
  apply queuesLawful_of [0, 4, 12, 13, 19] <;> decide +kernel

theorem queuesLawful_faulted : faultedLibrary.QueuesLawful := by
  apply queuesLawful_of [0, 4, 12, 13] <;> decide +kernel

theorem queuesLawful_counting : countingLibrary.QueuesLawful := by
  apply queuesLawful_of [0, 4, 12, 13] <;> decide +kernel

/-- The law of drives as a test, with the drive of each cartridge that has one. -/
theorem mechanismLawful_of {s : State} (seated : DriveNo → Cart)
    (alone : ∀ n, ∀ d ∈ (s.cart n).location.inDrive?, n = seated d)
    (surveyed : s.mech.surveyLoaded.Nodup) (complete : s.mech.startup = .complete)
    (asleep : ∀ d, (s.drive d).awaitsLabel = false) (drives : s.DrivesLawful)
    (queues : s.QueuesLawful) : s.MechanismLawful where
  alone n m d hn hm := (alone n d hn).trans (alone m d hm).symm
  surveyed := surveyed
  awaited d h := absurd h (by simp [asleep d])
  starting h := absurd complete h
  drives _ := drives
  queues _ := queues

theorem drivesLawful_busy : busyLibrary.DrivesLawful := by
  have idle : busyLibrary.mech.picker.order? = none := by decide +kernel
  constructor
  case order => simp [idle]
  all_goals decide +kernel

theorem drivesLawful_loading : loadingLibrary.DrivesLawful := by
  have load : loadingLibrary.mech.picker.order? = some (.load 9 1 2) := by decide +kernel
  have held : (loadingLibrary.cart 9).location = .inPicker := by decide +kernel
  have drive : loadingLibrary.drive 2 = .loading 19 false := by decide +kernel
  constructor
  case order => simpa [load] using show loadingLibrary.UnderWay (.load 9 1 2) from ⟨held, false, drive⟩
  all_goals decide +kernel

theorem mechanismLawful_busy : busyLibrary.MechanismLawful := by
  apply mechanismLawful_of (fun _ => 0) (drives := drivesLawful_busy) (queues := queuesLawful_busy) <;>
    decide +kernel

theorem mechanismLawful_loading : loadingLibrary.MechanismLawful := by
  apply mechanismLawful_of (fun _ => 0) (drives := drivesLawful_loading)
    (queues := queuesLawful_loading) <;> decide +kernel

theorem mechanismLawful_faulted : faultedLibrary.MechanismLawful := by
  have idle : faultedLibrary.mech.picker.order? = none := by decide +kernel
  have drives : faultedLibrary.DrivesLawful := by
    constructor
    case order => simp [idle]
    all_goals decide +kernel
  apply mechanismLawful_of (fun _ => 0) (drives := drives) (queues := queuesLawful_faulted) <;>
    decide +kernel

theorem mechanismLawful_counting : countingLibrary.MechanismLawful := by
  have order : countingLibrary.mech.picker.order? = some .inventory := by decide +kernel
  have drives : countingLibrary.DrivesLawful := by
    constructor
    case order => simpa [order] using show countingLibrary.UnderWay .inventory from trivial
    all_goals decide +kernel
  apply mechanismLawful_of (fun _ => 0) (drives := drives) (queues := queuesLawful_counting) <;>
    decide +kernel

/-- Lawful libraries with the picker IDLE: one PICKER_RESET or DRIVE_RETURN leaves every queue as it was. -/
theorem witness_ResetAndReturnKeepQueues :
    busyLibrary.MechanismLawful ∧ busyLibrary.mech.picker = .idle ∧ faultedLibrary.MechanismLawful ∧
    faultedLibrary.drive 3 = .faulted ∧ faultedLibrary.mech.returns.at 3 = false ∧
    (∀ n : Cart, ∀ f, (faultedLibrary.cart n).location ≠ .stuck 3 f) ∧
    gives .pickerReset busyLibrary (fun t => t.queues = busyLibrary.queues && t.chan = busyLibrary.chan &&
      t.mech.picker = .homing .home 400) = true := by
  refine ⟨mechanismLawful_busy, by decide +kernel, mechanismLawful_faulted, ?_⟩
  decide +kernel

theorem witness_ReadLabelAnswerProvesCartridge :
    (verifying .readLabel).drive 0 = .verifying mount0 ⟨.readLabel, 5⟩ ∧
    (verifying .readLabel).cart 0 = ⟨.mounted 0 0, .unverified, false, false⟩ ∧
    (let b := labelSector (verifying .readLabel).lib.libraryId 0 0;
      blockField b 0 4 = 0x014C424C ∧ blockField b 4 4 = 0 ∧ blockField b 8 2 = 0 ∧
        blockField b 10 1 = 0) ∧ blockField fillBlock 0 4 ≠ 0x014C424C ∧
    ((verifying .readLabel).setSide 0 (.deed none 0 0)).side 0 = .deed none 0 0 := by
  decide +kernel

/-- A label is awaited for side 0, with a queue and a side record. -/
def labelAwaited (side : SideRecord) (q : List QEntry) : State :=
  (((verifying .readLabel).setSide 0 side).setRequest 4 (some (record .write 10 1))).setQueue 0 q

/-- A VERIFIED label with a write waiting on a DEED side and on an INDEX side with a spare left, on one with none
left, and with nothing waiting; and a FOREIGN label with a read waiting. -/
theorem witness_ReadLabelLeavesVerifying :
    (let q : List QEntry := [⟨.request 4, 0, false⟩]
     let s := labelAwaited (.deed (some 11) 0 0) q
     let i := (labelAwaited (.index (some 4095) 0) q).setRemap ⟨[⟨10, 258048⟩], 0⟩
     let k := (labelAwaited (.index (some 4096) 0) q).setRemap ⟨[⟨10, 258048⟩], 0⟩
     let label := labelSector s.lib.libraryId 0 0
     s.FirstCommand 0 (.request 4) (.writeDeed 10 [fillBlock]) (.deed (some 11) 0 0) ∧
     i.FirstCommand 0 (.request 4) (.writeSpare 0 262143 10 true fillBlock) (.index (some 4096) 0) ∧
     k.EndsUnissued 0 (.request 4) ∧ (s.side 0).isUnresolved = false ∧
     gives (.readLabelAnswer 0 (.good label)) s (fun t => t.queue 0 = [⟨.request 4, 0, true⟩] &&
       t.drive 0 = .busy mount0 ⟨.writeDeed 10 [fillBlock], 250⟩) = true ∧
     gives (.readLabelAnswer 0 (.good label)) k (fun t => t.queue 0 = [] && (t.drive 0).isIdle &&
       (t.request 4).bind (·.status) = some .spareExhausted) = true ∧
     gives (.readLabelAnswer 0 .blank) s (fun t => t.queue 0 = [] && (t.drive 0).isIdle) = true) := by
  have held (side : SideRecord) (r : Remap) :
      ((labelAwaited side [⟨.request 4, 0, false⟩]).setRemap r).HoldsPiece 4 0 (record .write 10 1) .write
        ⟨.side 0 10, 1, 0, [], none⟩ 10 :=
    ⟨Table.at_put_same _ _ _, rfl, rfl, rfl, by decide⟩
  refine ⟨.deed 4 _ _ 10 (held _ ⟨[], 0⟩) (by decide +kernel),
    .spare 4 _ _ 10 4095 0 (held _ _) (by decide +kernel) (by decide +kernel) (by decide),
    ⟨4, _, _, 10, 4096, 0, rfl, held _ _, by decide +kernel, by decide +kernel, by decide⟩, ?_⟩
  decide +kernel

/-- The label of a cartridge whose labelling is pending, with an export pending too: a matching one starts no
blank search, and another one fails the labelling. -/
theorem witness_ReadLabelOfLabelling :
    (let s := (((verifying .readLabel).setSide 0 (.deed none 0 0)).setCart 0
        ⟨.mounted 0 0, .unverified, true, true⟩).setQueue 1 [⟨.label, 0, false⟩];
      s.drive 0 = .verifying mount0 ⟨.readLabel, 5⟩ ∧ (s.cart 0).location = .mounted 0 0 ∧
      (s.cart 0).labellingPending = true ∧ (s.cart 0).exportPending = true ∧ Side.cart 1 = 0 ∧
      (s.side 0).isUnresolved = true ∧ mount0.zoned = false ∧
      gives (.readLabelAnswer 0 .blank) s (fun t => (t.cart 0).verification = .foreignWrong) =
        true ∧
      gives (.readLabelAnswer 0 (.good (labelSector s.lib.libraryId 0 0))) s (fun t =>
        t.drive 0 = .idle mount0 0 (.running (ready.sched.linger * 10))) = true) ∧
    (let s := ((verifying .readLabel).setCart 0 ⟨.mounted 0 0, .unverified, false, true⟩).setQueue 0
        [⟨.label, 0, false⟩];
      (s.cart 0).labellingPending = true ∧ (s.cart 0).exportPending = false ∧ s.mech.picker ≠ .faulted ∧
      gives (.readLabelAnswer 0 .blank) s (fun t =>
        t.drive 0 = .busy mount0 ⟨.writeLabel 0 0 0, 250⟩ && t.queue 0 = [⟨.label, 0, true⟩]) = true) := by
  decide +kernel

theorem witness_SearchBlankAnswerResolvesSide :
    (let s := (verifying (.searchBlank 0)).setSide 0 (.deed none 0 0);
      s.drive 0 = .verifying mount0 ⟨.searchBlank 0, 5⟩ ∧ (s.side 0).isUnresolved = true) ∧
    (let s := (verifying (.searchBlank 258048)).setSide 0 (.index none 5);
      s.drive 0 = .verifying mount0 ⟨.searchBlank 258048, 5⟩ ∧ s.side 0 = .index none 5 ∧
        s.queue 0 = []) ∧
    258047 < 258048 ∧ 262143 < 262144 ∧
    (let s := (((verifying (.searchBlank 258048)).setSide 0 (.index none 5)).setRequest 1
        (some (queuedRead 0))).setQueue 0 [⟨.request 1, 0, false⟩];
      s.drive 0 = .verifying mount0 ⟨.searchBlank 258048, 5⟩ ∧ s.side 0 = .index none 5 ∧
      s.queue 0 = [⟨.request 1, 0, false⟩] ∧ s.request 1 = some (queuedRead 0) ∧
      (queuedRead 0).pieceOn 0 = some ⟨.side 0 0, 1, 0, [.fill], none⟩ ∧
      gives (.searchBlankAnswer 0 (.sector 258048)) s (fun t => t.side 0 = .index (some 0) 5 &&
        t.drive 0 = .busy mount0 ⟨.readSectors 0 0 1, 250⟩) = true) := by decide +kernel

/-- A label piece running on side 0 of a cartridge being labelled. -/
def labelling (other : List QEntry) : State :=
  (((mountedAs (.busy mount0 ⟨.writeLabel 0 0 0, 9⟩)).setCart 0
    ⟨.mounted 0 0, .foreignBlank, false, true⟩).setQueue 0 [⟨.label, 0, true⟩]).setQueue 1 other

theorem witness_WriteLabelAnswerEndsLabelling :
    (let s := labelling [⟨.label, 0, false⟩];
      s.drive 0 = .busy mount0 ⟨.writeLabel 0 0 0, 9⟩ ∧ s.queue 0 = [⟨.label, 0, true⟩] ∧
      s.cart 0 = ⟨.mounted 0 0, .foreignBlank, false, true⟩ ∧ s.mech.picker ≠ .faulted ∧
      s.queue (Side.otherSide 0) = [⟨.label, 0, false⟩]) ∧
    (labelling []).queue (Side.otherSide 0) = [] ∧
    (let s := ((labelling []).setCart 0 ⟨.mounted 0 0, .foreignWrong, true, false⟩).setPicker .faulted;
      (s.cart 0).labellingPending = false ∧ (s.cart 0).exportPending = true ∧
      s.drive 0 = .busy mount0 ⟨.writeLabel 0 0 0, 9⟩ ∧ s.queue 0 = [⟨.label, 0, true⟩] ∧
      gives (.writeLabelAnswer 0 .mediaError) s (fun t =>
        t.cart 0 = s.cart 0 && !t.attention.isPending .foreignMedia) = true) := by decide +kernel

theorem witness_NotReadyOrExpiryFaultsDrive :
    (serving (.deed (some 10) 0 0) .read 5 1 (.readSectors 0 5 1) 0).drive 0 =
      .busy mount0 ⟨.readSectors 0 5 1, 0⟩ ∧
    (verifying .readLabel).drive 0 = .verifying mount0 ⟨.readLabel, 5⟩ ∧
    (mountedAs (.yielding mount0 (some ⟨.writeLabel 0 0 0, 0⟩))).drive 0 =
      .yielding mount0 (some ⟨.writeLabel 0 0 0, 0⟩) ∧
    (serving (.deed (some 10) 0 0) .read 5 1 (.readSectors 0 5 1) 0).Serves 0 mount0
      (.readSectors 0 5 1) 0 (record .read 5 1) ⟨.side 0 5, 1, 0, [.fill], none⟩ 5 :=
  ⟨by decide +kernel, by decide +kernel, by decide +kernel,
    serves_serving _ _ _ _ _ _ _ rfl rfl rfl⟩

/-- Lawful libraries, in which drive 0 is the last in service and is not; a labelling waits in both. -/
theorem witness_DriveFaultEmptiesQueues :
    busyLibrary.MechanismLawful ∧ loadingLibrary.MechanismLawful ∧
    busyLibrary.drive 0 = .busy mount0 ⟨.readSectors 0 5 1, 0⟩ ∧
    loadingLibrary.drive 0 = .busy mount0 ⟨.readSectors 0 5 1, 0⟩ ∧
    (∀ e, e ≠ 0 → (busyLibrary.drive e).inService = false) ∧
    (loadingLibrary.drive 2).inService = true ∧
    gives (.commandCountdownExpiry 0) busyLibrary (fun t =>
      (t.request 1).bind (·.status) = some .mediaUnavailable &&
      (t.request 2).bind (·.status) = some .noDrive && (t.cart 6).verification = .foreignWrong) = true := by
  refine ⟨mechanismLawful_busy, mechanismLawful_loading, ?_⟩
  decide +kernel

/-- Start-up waiting for the label of drive 0. -/
def identifying (rest : List DriveNo) (left : Nat) : State :=
  { ready with mech := { ready.mech with
      drives := ready.mech.drives.put 0 (.empty (some left)), picker := .homingWait
      startup := .identifying 0 rest [] } }

theorem witness_StartupLabelIdentifiesDrive :
    (identifying [] 0).drive 0 = .empty (some 0) ∧
    (identifying [3] 9).mech.startup = .identifying 0 [3] [] ∧ (0 : DriveNo) ∉ [(3 : DriveNo)] ∧
    (blockField (labelSector 77 159 1) 0 4 = 0x014C424C ∧
      blockField (labelSector 77 159 1) 8 2 = (159 : Cart).val ∧
      blockField (labelSector 77 159 1) 10 1 = (1 : Face).val) ∧
    blockField fillBlock 0 4 ≠ 0x014C424C := by decide +kernel

/-- Drive 0's label is read with drive 3 still to identify: its retained location names cartridge 31, and in the
same event the first UNLOAD starts; where none does, drive 3 reads its label. -/
theorem witness_IdentificationGoesOn :
    (let s := (identifying [3] 9).moveCart 31 (.stuck 3 0);
      s.IdentifiedAs ⟨3, 31, 0⟩ ∧
      gives (.startupLabelAnswer 0 (.good (labelSector 77 5 1))) s (fun t =>
        t.drive 0 = .unloading 11 && t.drive 3 = .unloading 62 &&
          t.mech.picker = .homing (.unload 0 5 .startup) 400 &&
          t.mech.startup = .unloading [⟨3, 31, 0⟩] [] && (t.cart 5).location = .inPicker) = true) ∧
    (∀ n f, ¬ (identifying [3] 9).Retains 3 n f) ∧
    gives (.startupLabelAnswer 0 .notReady) (identifying [3] 9) (fun t =>
      t.drive 0 = .faulted && t.drive 3 = .empty (some 250) &&
        t.mech.startup = .identifying 3 [] []) = true ∧
    (identifying [3] 9).ChainAscends := by
  refine ⟨⟨⟨.inr ?_, ?_⟩, ?_⟩, ?_, ?_, by decide +kernel,
    (by decide : [(0 : DriveNo), 3].Pairwise (· < ·))⟩
  all_goals first | unfold State.Retains | skip
  all_goals decide +kernel

theorem witness_DwellAndLingerExpire :
    (mountedAs (.busy { mount0 with dwell := .running 0 } ⟨.readLabel, 9⟩)).drive 0 =
      .busy { mount0 with dwell := .running 0 } ⟨.readLabel, 9⟩ ∧
    (mountedAs (.idle mount0 0 (.running 0))).drive 0 = .idle mount0 0 (.running 0) ∧
    (ready.drive 0).dwell? ≠ some (.running 0) ∧
    ((mountedAs (.idle { mount0 with dwell := .running 1 } 0 (.running 1))).drive 0).dwell? ≠
      some (.running 0) := by decide +kernel

theorem witness_ChoiceStartsAllowedOrder :
    ready.mech.ageing ≠ some 0 ∧ (ready.setAgeing (some 0)).mech.ageing = some 0 ∧
    (ready.setAgeing (some 0)).mech.picker = .idle ∧
    ((ready.setAgeing (some 0)).setPicker .faulted).mech.picker ≠ .idle ∧
    (let s := ready.setQueue 9 [⟨.label, 0, false⟩];
      s.ranked = [⟨9, 0, 1, false, none⟩] ∧
      (s.mountSearch s.ranked).2 = some (.load 4 1 0) ∧
      s.arbiter (some (.load 4 1 0)) = some (.load 4 1 0)) ∧
    (ready.setImport (some 3)).arbiter none = none ∧
    (((ready.moveCart 3 .shelfOut).setImport (some 3)).setMail .heldIn).arbiter none =
      some (.mailIn 3) := by decide +kernel

theorem witness_PickerOrderCompletes :
    ready.mech.picker.order? = none ∧
    (let s := (ready.setDrive 2 (.loading 9 false)).setPicker (.moving (.load 4 1 2) 17);
      s.mech.picker = .moving (.load 4 1 2) 17 ∧ s.mech.startup = .complete ∧
      s.drive 2 = .loading 9 false ∧ (s.cart (Side.cart 9)).verification = .unverified) ∧
    (let s := (ready.setPicker (.homing (.unload 0 5 .startup) 17)).setStartup
        (.unloading [⟨1, 6, 0⟩] []);
      s.mech.picker = .homing (.unload 0 5 .startup) 17 ∧
      s.mech.startup = .unloading [⟨1, 6, 0⟩] []) := by decide +kernel

theorem witness_PickerFaultLosesCartridge :
    (ready.setPicker (.moving (.mailOut 3 none) 0)).mech.picker = .moving (.mailOut 3 none) 0 ∧
    (ready.setPicker (.moving (.mailOut 3 none) 0)).mech.picker.order? = some (.mailOut 3 none) ∧
    ready.mech.picker.order? = none ∧
    (let s := ((ready.setPicker (.homing (.unload 0 5 .startup) 1)).setStartup
        (.unloading [⟨1, 6, 0⟩] []));
      s.mech.startup ≠ .complete ∧ s.mech.picker.order? = some (.unload 0 5 .startup) ∧
      (s.mech.startup.todo.find? fun j => j.cart = 6) = some ⟨1, 6, 0⟩ ∧
      ∀ i ∈ s.mech.startup.todo, i.cart ≠ 7) := by decide +kernel

/-- A LOAD ends with a VERIFIED cartridge: the lawful library's, whose read starts; one whose side's frontier is
UNKNOWN; and one that is not to be searched, on an empty queue. -/
theorem witness_MountOfProvedCartridge :
    loadingLibrary.MechanismLawful ∧ loadingLibrary.mech.picker = .moving (.load 9 1 2) 17 ∧
    loadingLibrary.drive 2 = .loading 19 false ∧ (loadingLibrary.cart 9).verification = .verified ∧
    loadingLibrary.FirstCommand 19 (.request 3) (.readSectors 0 0 1) .unused ∧
    gives .pickerOrderCompletion loadingLibrary (fun t => t.queue 19 = [⟨.request 3, 0, true⟩] &&
      (t.drive 2).outstanding.map (·.2) = some ⟨.readSectors 0 0 1, 250⟩) = true ∧
    gives .pickerOrderCompletion (loadingLibrary.setSide 19 (.index none 0)) (fun t =>
      (t.drive 2).outstanding.map (·.2) = some ⟨.searchBlank 258048, 250⟩) = true ∧
    gives .pickerOrderCompletion (loadingLibrary.setQueue 19 []) (fun t => (t.drive 2).isIdle) = true := by
  refine ⟨mechanismLawful_loading, by decide +kernel, by decide +kernel, by decide +kernel, ?_, by decide +kernel⟩
  have side : loadingLibrary.side 19 = .unused := by decide +kernel
  have held : loadingLibrary.HoldsPiece 3 19 (queuedRead 19) .read ⟨.side 19 0, 1, 0, [.fill], none⟩ 0 :=
    ⟨by decide +kernel, rfl, rfl, rfl, by decide⟩
  have read : loadingLibrary.FirstRead 19 0 1 (.readSectors 0 0 1) :=
    ⟨fun _ => rfl, fun p m sp h => by simp [side] at h, fun p m h => by simp [side] at h⟩
  exact side ▸ .read 3 _ _ 0 _ held read

/-- A lawful library that loses the cartridge of its LOAD: tag 3 waits for it, tag 2 for another one, tag 1 on
the side that drive 0 has mounted. -/
theorem witness_PickerFaultRefusesQueues :
    loadingLibrary.MechanismLawful ∧ loadingLibrary.mech.startup = .complete ∧
    loadingLibrary.mech.picker.order? = some (.load 9 1 2) ∧ Side.cart 19 = 9 ∧
    gives .pickerJammed loadingLibrary (fun t =>
      (t.request 3).bind (·.status) = some .mediaUnavailable &&
      (t.request 2).bind (·.status) = some .mechanismFault &&
      (t.queue 0).length = 2 && (t.cart 6).verification = .foreignWrong) = true := by
  refine ⟨mechanismLawful_loading, ?_⟩
  decide +kernel

theorem witness_HomeAndInventoryComplete :
    (ready.setPicker (.homing .home 3)).mech.picker = .homing .home 3 ∧
    (let s := { ready with mech := { ready.mech with
        picker := .homing .home 3, startup := .homing, surveyLoaded := [1, 2] } };
      s.mech.surveyLoaded = [1, 2] ∧ (1 : DriveNo) ∉ [(2 : DriveNo)] ∧
      (∀ n : Cart, (s.cart n).location = .home)) ∧
    (ready.setPicker (.homing .inventory 3)).mech.picker = .homing .inventory 3 ∧
    ((ready.setPicker (.homing .inventory 3)).setStartup (.inventory [4])).mech.startup =
      .inventory [4] := by decide +kernel

/-- HOME ends in the worked start-up of R184's chapter: cartridge 20 retained MOUNTED (1, 1) and cartridge 31
STUCK (3) with face 0, drives 1 and 3 loaded. -/
def workedStartup : State :=
  ({ ready with mech := { ready.mech with
      picker := .homing .home 3, startup := .homing, surveyLoaded := [1, 3] } }.moveCart 20
        (.mounted 1 1)).moveCart 31 (.stuck 3 0)

theorem witness_ChainGoesOn :
    workedStartup.IdentifiedAs ⟨1, 20, 1⟩ ∧ workedStartup.IdentifiedAs ⟨3, 31, 0⟩ ∧
    workedStartup.mech.surveyLoaded = [1, 3] ∧ workedStartup.ChainAscends ∧
    gives .homeCompletion workedStartup (fun t =>
      t.drive 1 = .unloading 41 && t.drive 3 = .unloading 62 &&
        t.mech.picker = .homing (.unload 1 20 .startup) 400 && (t.cart 20).location = .inPicker &&
        t.mech.startup = .unloading [⟨3, 31, 0⟩] []) = true ∧
    (∀ n f, ¬ (workedStartup.moveCart 31 .home).Retains 3 n f) ∧
    gives .homeCompletion (workedStartup.moveCart 31 .home) (fun t =>
      t.drive 1 = .unloading 41 && t.drive 3 = .empty (some 250) && t.mech.picker = .homingWait) =
      true := by
  refine ⟨⟨.inl ?_, ?_⟩, ⟨.inr ?_, ?_⟩, ?_, ⟨by decide +kernel, trivial⟩, ?_, ?_, ?_⟩
  all_goals first | unfold State.Retains | skip
  all_goals decide +kernel

/-- A lawful library at the end of its INVENTORY, with every slot read empty. -/
theorem witness_InventoryEmptiesQueues :
    countingLibrary.MechanismLawful ∧ countingLibrary.mech.picker = .homing .inventory 3 ∧
    countingLibrary.mech.startup = .complete ∧ (countingLibrary.cart 2).location = .home ∧
    (countingLibrary.cart 6).labellingPending = true ∧
    gives (.inventoryCompletion 0) countingLibrary (fun t =>
      (t.request 2).bind (·.status) = some .mediaUnavailable && t.queue 4 = [] &&
      t.queue 0 = countingLibrary.queue 0 && (t.cart 6).verification = .foreignWrong) = true := by
  refine ⟨mechanismLawful_counting, ?_⟩
  decide +kernel

theorem witness_OperatorEventsMoveMailSlot :
    ready.mech.mail = .empty ∧ (ready.setMail .reservedOut).mech.mail ≠ .empty ∧
    (ready.setMail .heldIn).mech.mail = .heldIn ∧ (ready.setMail .heldOut).mech.mail = .heldOut := by
  decide +kernel

theorem witness_MechanismLawKept : State.reset.mech.startup ≠ .complete ∧
    busyLibrary.MechanismLawful ∧ loadingLibrary.MechanismLawful ∧
    gives (.commandCountdownExpiry 0) busyLibrary (fun t => t.drive 0 = .faulted) = true ∧
    gives .pickerJammed loadingLibrary (fun t => (t.cart 9).location = .missing) = true := by
  refine ⟨by decide, mechanismLawful_busy, mechanismLawful_loading, ?_⟩
  decide +kernel

/-- A read joins behind the piece that runs; the end of that piece starts the next. -/
theorem witness_PiecesKeepOrderOfJoining :
    gives (.acceptance (readOf 7 5 1) false) busyLibrary (fun t =>
      (t.queue 0).map (·.owner) = [.request 0, .request 1, .request 7]) = true ∧
    gives (.readSectorsAnswer 0 (.sectors [.blank])) busyLibrary (fun t =>
      t.queue 0 = [⟨.request 1, 0, true⟩]) = true := by decide +kernel

/-- A journal of one record, which a settlement follows; and the ticket of a deposit account. -/
theorem witness_JournalAndFeeLawsKept :
    (({ Ledger.lost with
        journal := [⟨0, 0, none, .order, 0, 0, 0, 0, 0, 0, 0⟩], nextSeq := 1 } :
      Ledger).JournalLawful) ∧ depositOpen.FeesLawful ∧ depositOpen.GrossLawful := by
  refine ⟨⟨by decide, fun i h => ?_⟩, witness_SettleRoundsToNearestStep.2.2.1, lawful_tariffs.2,
    fun t r h => ?_, by decide +kernel⟩
  · have : i = 0 := by simpa using h
    subst this
    rfl
  have : ∀ t : Tag, depositOpen.request t = none := by decide +kernel
  exact absurd ((this t).symm.trans h) (by simp)

theorem witness_SideAndStationLawsKept :
    (side0 (.deed (some 10) 3 5)).SidesLawful ∧ (window3 .search 65535).StationsLawful := by
  refine ⟨fun x => ?_, fun t => ?_, 0, by decide +kernel, by decide +kernel⟩
  · show SideRecord.Lawful (Table.at (Table.put _ _ _) x)
    rw [Table.at_put]
    split
    · exact ⟨by decide, by decide⟩
    · have : Library.lost.sides.at x = .unused := Table.at_replicate _ _
      show SideRecord.Lawful (Library.lost.sides.at x)
      rw [this]; trivial
  · refine ⟨?_, ?_, ?_, ?_⟩ <;> revert t <;> decide +kernel

/-- A closure mark rises in a lawful state, under a command that is no power-up. -/
theorem witness_SidesAdvance :
    (side0 (.deed (some 10) 3 5)).SidesLawful ∧ isPowerUp (.closureSet 0 6 true) = false ∧
    gives (.closureSet 0 6 true) (side0 (.deed (some 10) 3 5)) (fun t =>
      t.side 0 = .deed (some 10) 3 6) = true :=
  ⟨witness_SideAndStationLawsKept.1, rfl, by decide +kernel⟩

theorem witness_LockBarsProtectedSettings :
    keyed.lock.barredTo (keyed.keyOn (.libraryIdSet 9 false)) ∧
    keyed.lock.barredTo (keyed.keyOn (.unknownOrder 20)) ∧
    keyed.lock.barredTo (keyed.keyOn (.sideZoneSet 7 2 false)) ∧
    isPowerUp (.libraryIdSet 9 false) = false ∧
    gives (.libraryIdSet 9 false) keyed (fun _ => true) = true :=
  ⟨.inr ⟨rfl, rfl⟩, .inr ⟨rfl, rfl⟩, .inr ⟨rfl, rfl⟩, rfl, by decide +kernel⟩

theorem witness_PendingCausesPersist :
    mayClearCauses .tenth = false ∧ gives .tenth ready (fun _ => true) = true ∧
    ready.attention.isPending .retainedLost = true := by decide +kernel

/-- The last spare of side 0 being written for home block 6, under a held place, beside an entry. -/
def spareWriting : State :=
  (serving (.index (some 4096) 0) .write 6 1 (.writeSpare 0 262143 6 false 0) 9).setRemap
    ⟨[⟨5, 258048⟩], 1⟩

theorem spareWriting_drives : spareWriting.drive 0 = .busy mount0 ⟨.writeSpare 0 262143 6 false 0, 9⟩ ∧
    ∀ d, d ≠ 0 → spareWriting.drive d = .empty none := by decide +kernel

theorem spareWriting_requests : spareWriting.request 0 = some (record .write 6 1) ∧
    ∀ t, t ≠ 0 → spareWriting.request t = none := by decide +kernel

theorem remapLawful_spareWriting : spareWriting.RemapLawful := by
  have h0 := spareWriting_drives.1
  have hd (d : DriveNo) : d = 0 ∨ spareWriting.drive d = .empty none :=
    (em (d = 0)).imp_right (spareWriting_drives.2 d)
  have side : spareWriting.side 0 = .index (some 4096) 0 := by decide +kernel
  have entries : spareWriting.remap.entries = [⟨5, 258048⟩] := rfl
  refine ⟨by decide +kernel, ?_, ?_, ?_, by decide +kernel, ?_, ?_, ?_, ?_⟩
  · simp [entries, remapRising]
  · simp only [entries, List.mem_singleton, forall_eq]
    exact ⟨0, 4096, 0, rfl, side, by decide, by decide, by decide⟩
  · simp [entries]
  · intro d m c h
    obtain rfl | e := hd d
    · rw [h0] at h; cases h
    · rw [e]; rfl
  · intro d home spare had h
    obtain rfl | e := hd d
    · rw [h0] at h
      cases h
      refine ⟨⟨0, 4096, 0, rfl, side, by decide, by decide, by decide⟩, ?_, by simp,
        by simp [entries], ?_⟩
      · intro x e; rw [h0] at e; cases e; rfl
      · intro d' home' had' ne h
        rw [(hd d').resolve_left ne] at h; cases h
    · rw [e] at h; cases h
  · intro d m i h data left e
    obtain rfl | k := hd d
    · rw [h0] at e; cases e
    · rw [k] at e; cases e
  · intro t r p x sector h mem place
    obtain rfl | ne := em (t = 0)
    · rw [spareWriting_requests.1] at h
      cases h
      obtain rfl := List.mem_singleton.1 mem
      cases place
      decide
    · rw [spareWriting_requests.2 t ne] at h; cases h

theorem witness_CanonicalAndHeldFormsKept :
    spareWriting.RemapLawful ∧ gives (.spareWriteAnswer 0 .done) spareWriting (fun t =>
      t.remap = ⟨[⟨5, 258048⟩, ⟨6, 262143⟩], 0⟩) = true ∧
    (chargedRead .counter .idle ⟨0, 0, 0⟩).Canonical ∧
    heldAround.AssemblyLawful :=
  ⟨remapLawful_spareWriting, by decide +kernel, ⟨by decide +kernel, trivial⟩,
    assemblyLawful_heldAround⟩

theorem witness_StepRunsFrontCommand : ready.pending = [] := rfl

theorem witness_ExecKeepsTheQueue : gives .tenth ready (fun _ => true) = true := by decide +kernel

theorem witness_TrapClearClearsFlagged : (0x80000000#32).getLsbD (31 : Station).val = true := by
  decide

theorem witness_ChannelResetDiscardsRequests :
    (let s := serving (.deed (some 10) 0 0) .read 5 1 (.readSectors 0 5 1) 9;
      s.queue 0 = [⟨.request 0, 0, true⟩] ∧ s.request 0 = some (record .read 5 1) ∧
      (record .read 5 1).pieceOn 0 = some ⟨.side 0 5, 1, 0, [.fill], none⟩) := by decide +kernel

end Sys2Proof.Tests
end

section
/-! SUPPORT. How CLOSURE_SET is judged and taken (R19): the checks of an order one at a time, what the order
answers on each kind of side record, and the statement assembled from these. -/

namespace Sys2Proof.Machine

/-! ### The flag of a cause -/

theorem Cause.bit_lt (c : Cause) : c.bit < 12 := by cases c <;> decide

theorem Cause.bit_injective : Function.Injective Cause.bit :=
  Function.LeftInverse.injective (g := Cause.ofNat) fun c => by cases c <;> rfl

/-- A cause's flag set holds that cause and no other. -/
theorem Cause.getLsbD_flag (c e : Cause) : c.flag.getLsbD e.bit = decide (e = c) := by
  have he := e.bit_lt
  have same : e = c ↔ e.bit = c.bit := Cause.bit_injective.eq_iff.symm
  rw [Cause.flag, BitVec.getLsbD_shiftLeft, BitVec.getLsbD_one, Bool.eq_iff_iff]
  simp only [same, Bool.and_eq_true, Bool.not_eq_true', decide_eq_true_eq, decide_eq_false_iff_not]
  omega

/-- Raising a cause makes it pending and leaves every other as it was (R174). -/
theorem State.isPending_raise_eq (s : State) (c e : Cause) :
    (s.raise c).attention.isPending e = (s.attention.isPending e || decide (e = c)) := by
  rw [isPending_raise, Cause.getLsbD_flag]

/-! ### How an order is judged -/

section
variable {n : Nat} (s done : State) (f : Fin n → Ordered)

theorem withNumber_val (i : Fin n) : withNumber s i.val f = f i := by
  simp [withNumber, numberOf]

theorem withNumber_of_le {v : Nat} (h : n ≤ v) : withNumber s v f = (.badValue, s) := by
  simp [withNumber, numberOf, Nat.not_lt.2 h]

@[simp] theorem judged_nil : judged [] s done = (.done, done) := rfl

@[simp] theorem judged_cons (b : Bool) (r : ResultCode) (cs : List (Bool × ResultCode)) :
    judged ((b, r) :: cs) s done = if b then (r, s) else judged cs s done := by
  cases b <;> rfl

end

/-! ### What CLOSURE_SET answers, by the record of the side -/

section
variable {side : BitVec 16} {mark : BitVec 32} {s : State} {x : Side}

theorem exec_closureSet (key : Bool) :
    exec (.closureSet side mark key) s =
      .next (answered (orderClosureSet side mark (s.sampleKey key))) := rfl

theorem exec_closureSet_noSide {key : Bool} (h : 319 < side.toNat) :
    exec (.closureSet side mark key) s = (s.sampleKey key).shows .badValue := by
  rw [exec_closureSet, orderClosureSet, withNumber_of_le _ _ h]
  rfl

theorem exec_closureSet_noKey (hx : side.toNat = x.val) :
    exec (.closureSet side mark false) s = (s.sampleKey false).shows .noKey := by
  rw [exec_closureSet, orderClosureSet, hx, withNumber_val]
  rfl

theorem exec_closureSet_unused (hx : side.toNat = x.val) (hs : s.side x = .unused) :
    exec (.closureSet side mark true) s = (s.sampleKey true).shows .notZoned := by
  rw [exec_closureSet, orderClosureSet, hx, withNumber_val, State.side_sampleKey, hs]
  rfl

theorem exec_closureSet_unresolved {r c : Nat} (hx : side.toNat = x.val)
    (hs : s.side x = .deed none r c) :
    exec (.closureSet side mark true) s =
      if 262144 < mark.toNat then (s.sampleKey true).shows .badValue
      else (s.sampleKey true).shows .sideUnresolved := by
  rw [exec_closureSet, orderClosureSet, hx, withNumber_val, State.side_sampleKey, hs]
  simp only [State.sampleKey_keyLine, not_true_eq_false, if_false, judged_cons, if_true,
    decide_eq_true_eq]
  split_ifs <;> rfl

theorem exec_closureSet_deed {f r c : Nat} (hx : side.toNat = x.val)
    (hs : s.side x = .deed (some f) r c) :
    exec (.closureSet side mark true) s =
      if 262144 < mark.toNat then (s.sampleKey true).shows .badValue
      else if mark.toNat < c then (s.sampleKey true).shows .notMonotone
      else .next { (s.sampleKey true).closeDeed x f r mark.toNat with orderAnswer := some .done } := by
  rw [exec_closureSet, orderClosureSet, hx, withNumber_val, State.side_sampleKey, hs]
  simp only [State.sampleKey_keyLine, not_true_eq_false, if_false, judged_cons, judged_nil,
    decide_eq_true_eq]
  split_ifs <;> rfl

theorem exec_closureSet_index {p : Option Nat} {c : Nat} (hx : side.toNat = x.val)
    (hs : s.side x = .index p c) :
    exec (.closureSet side mark true) s =
      if 258048 < mark.toNat then (s.sampleKey true).shows .badValue
      else if mark.toNat < c then (s.sampleKey true).shows .notMonotone
      else .next { (s.sampleKey true).setSide x (.index p mark.toNat) with
        orderAnswer := some .done } := by
  rw [exec_closureSet, orderClosureSet, hx, withNumber_val, State.side_sampleKey, hs]
  simp only [State.sampleKey_keyLine, not_true_eq_false, if_false, judged_cons, judged_nil,
    decide_eq_true_eq]
  split_ifs <;> rfl

end

/-! ### The mark on a DEED side -/

section
variable {s : State} {x : Side} {f r m : Nat}

theorem State.closeDeed_of_le (h : m ≤ f) :
    s.closeDeed x f r m = s.setSide x (.deed (some f) r m) := if_neg (Nat.not_lt.2 h)

/-- A frontier below the mark is raised to it, with cause 10 at the side's end (R19, R106). -/
theorem State.closeDeed_of_lt (h : f < m) :
    s.closeDeed x f r m =
      if m = 262144 then (s.setSide x (.deed (some m) 0 m)).raise .sideFull
      else s.setSide x (.deed (some m) 0 m) := if_pos h

/-- Raising the frontier changes the side's record and the attention unit alone. -/
theorem State.closeDeed_frame (h : f < m) :
    s.closeDeed x f r m = { s with
      lib := { s.lib with sides := s.lib.sides.put x (.deed (some m) 0 m) }
      attention := (s.closeDeed x f r m).attention } := by
  rw [State.closeDeed_of_lt h]
  split <;> rfl

theorem State.closeDeed_masked : (s.closeDeed x f r m).attention.masked = s.attention.masked := by
  unfold State.closeDeed
  split_ifs <;> rfl

theorem State.closeDeed_isPending (h : f < m) (a : Cause) :
    (s.closeDeed x f r m).attention.isPending a =
      (s.attention.isPending a || decide (a = .sideFull ∧ m = 262144)) := by
  rw [State.closeDeed_of_lt h]
  split
  case isTrue full => rw [State.isPending_raise_eq]; simp [full]
  case isFalse room => simp [room]

end

/-- Settles O9: the record of the side decides which checks of R19 apply, and each lemma above gives the
answer for one kind of record. -/
theorem closureSetJudgedAndTaken : Obligations.ClosureSetJudgedAndTaken := by
  intro side mark key s
  refine ⟨exec_closureSet_noSide, fun x hx => ⟨?noKey, ?withKey⟩⟩
  case noKey =>
    rintro rfl
    exact exec_closureSet_noKey hx
  case withKey =>
    rintro rfl
    refine ⟨exec_closureSet_unused hx, fun f r c hs hm => ?tooFar, fun r c hs hm => ?unresolved,
      fun f r c hs hm => ?deed, fun p c hs => ?index⟩
    case tooFar =>
      cases f with
      | none => exact (exec_closureSet_unresolved hx hs).trans (if_pos hm)
      | some f => exact (exec_closureSet_deed hx hs).trans (if_pos hm)
    case unresolved =>
      exact (exec_closureSet_unresolved hx hs).trans (if_neg (Nat.not_lt.2 hm))
    case deed =>
      have judge := (exec_closureSet_deed hx hs).trans (if_neg (Nat.not_lt.2 hm))
      have taken (hc : c ≤ mark.toNat) := judge.trans (if_neg (Nat.not_lt.2 hc))
      refine ⟨fun hc => judge.trans (if_pos hc), fun hc hf => ?_, fun hc hf =>
        ⟨_, taken hc, ?_, State.closeDeed_masked, State.closeDeed_isPending hf⟩⟩
      · rw [taken hc, State.closeDeed_of_le hf]
        rfl
      · exact congrArg (fun t : State => { t with orderAnswer := some .done })
          (State.closeDeed_frame hf)
    case index =>
      have judge := exec_closureSet_index (mark := mark) hx hs
      refine ⟨fun hm => judge.trans (if_pos hm), fun hm hc => ?_, fun hm hc => ?_⟩
      · rw [judge, if_neg (Nat.not_lt.2 hm), if_pos hc]
      · rw [judge, if_neg (Nat.not_lt.2 hm), if_neg (Nat.not_lt.2 hc)]
        rfl

end Sys2Proof.Machine
end

section
/-! SUPPORT. How an order stands under the settings lock (R171), what one settling event does to the state
(R150 to R153, R163, R164), how STATION_SET reads and judges its operands (R32, R33), what TRAP_CLEAR leaves
(R30), and the two statements about the station table assembled from these. -/

namespace Sys2Proof.Machine

/-! ### The settings lock gate -/

section
variable {s : State} (w : Ordered)

theorem State.gateOpen_eq_false_iff : s.gateOpen = false ↔ s.lock.barredTo s.keyLine := by
  unfold State.gateOpen LockMode.barredTo
  cases s.lock <;> simp

theorem protectedOrder_of_barred (h : s.lock.barredTo s.keyLine) :
    protectedOrder s w = (.locked, s) := by
  simp [protectedOrder, State.gateOpen_eq_false_iff.2 h]

theorem protectedOrder_of_not_barred (h : ¬ s.lock.barredTo s.keyLine) : protectedOrder s w = w := by
  have hopen : s.gateOpen = true := by simpa using mt State.gateOpen_eq_false_iff.1 h
  simp [protectedOrder, hopen]

end

/-! ### Updates of the ledger and the attention unit alone -/

/-- The ledger and the attention unit may differ, and nothing else does. -/
def State.SettlesTo (s u : State) : Prop :=
  u = { s with ledger := u.ledger, attention := u.attention }

theorem State.SettlesTo.refl (s : State) : s.SettlesTo s := rfl

theorem State.SettlesTo.trans {s t u : State} (h : s.SettlesTo t) (k : t.SettlesTo u) :
    s.SettlesTo u := by
  unfold State.SettlesTo at h k ⊢
  calc u = { t with ledger := u.ledger, attention := u.attention } := k
    _ = { s with ledger := u.ledger, attention := u.attention } := by rw [h]

theorem State.settlesTo_of_ledger (s : State) (l : Ledger) : s.SettlesTo { s with ledger := l } := rfl

theorem State.settlesTo_raise (s : State) (c : Cause) : s.SettlesTo (s.raise c) := rfl

theorem State.settlesTo_recompute (s : State) (c : Cause) : s.SettlesTo (s.recompute c) := by
  unfold State.recompute
  split
  · exact s.settlesTo_raise c
  · exact .refl s

theorem State.settlesTo_debit (s : State) (a : Option Account) (n : Nat) :
    s.SettlesTo (s.debit a n) := by
  cases a with
  | none => exact .refl s
  | some a => exact (s.settlesTo_of_ledger _).trans (State.settlesTo_recompute _ _)

theorem State.settlesTo_enterJournal (s : State) (r : BitVec 16 → JournalRecord) :
    s.SettlesTo (s.enterJournal r) := by
  unfold State.enterJournal
  refine State.SettlesTo.trans ?_ (State.settlesTo_recompute _ _)
  split
  · exact (s.settlesTo_of_ledger _).trans (State.settlesTo_raise _ _)
  · exact s.settlesTo_of_ledger _

section
variable (s : State) (t : Station) (b : TicketBody) (c : SettleCause) (stamp : Nat)

theorem State.settlesTo_settleBody : s.SettlesTo (s.settleBody t b c stamp) :=
  ((s.settlesTo_debit _ _).trans (State.settlesTo_enterJournal _ _)).trans
    (State.settlesTo_of_ledger _ _)

theorem State.settlesTo_settleEvent : s.SettlesTo (s.settleEvent t c) := by
  unfold State.settleEvent
  split
  · split
    · exact s.settlesTo_settleBody t _ c _
    · exact s.settlesTo_of_ledger _
  · exact .refl s

/-! ### The ledger after a settling event -/

theorem State.settleBody_ledger_eq_settledBy :
    (s.settleBody t b c stamp).ledger = s.ledger.settledBy s.tariff t b c stamp := by
  rw [settleBody_ledger]
  unfold Ledger.settledBy debited
  cases b.account <;> rfl

theorem State.journalFree_iff : s.journalFree = true ↔ s.ledger.journal.length < 128 := by
  simp [State.journalFree, Ledger.isFull]

/-- One settling event leaves the ledger that R150 and R151 give. -/
theorem State.settleEvent_ledger : (s.settleEvent t c).ledger = s.settledLedger t c := by
  unfold State.settleEvent State.settledLedger Ledger.reached State.ticket
  simp only [State.journalFree_iff]
  cases s.ledger.tickets.at t with
  | idle => rfl
  | due b c' stamp => rfl
  | opened b n =>
    dsimp only
    split
    · exact s.settleBody_ledger_eq_settledBy t b c _
    · rfl

/-- A settling event changes the ledger as R150 and R151 give it, and the attention unit, alone. -/
theorem State.settleEvent_frame :
    s.settleEvent t c = { s with
      ledger := s.settledLedger t c
      attention := (s.settleEvent t c).attention } := by
  rw [← s.settleEvent_ledger t c]
  exact s.settlesTo_settleEvent t c

end

/-! ### The attention unit after a settling event -/

section
variable (s : State)

/-- A level cause becomes pending where its condition holds, and every other cause stays (R174). -/
theorem State.isPending_recompute (c e : Cause) :
    (s.recompute c).attention.isPending e =
      (s.attention.isPending e || decide (e = c ∧ s.levelHolds c = true)) := by
  unfold State.recompute
  split
  case isTrue holds => rw [State.isPending_raise_eq]; simp [holds]
  case isFalse fails => simp [fails]

/-- A debit can make cause 9 pending and no other (R158). -/
theorem State.isPending_debit_of_ne (a : Option Account) (n : Nat) {e : Cause} (h : e ≠ .depositLow) :
    (s.debit a n).attention.isPending e = s.attention.isPending e := by
  cases a with
  | none => rfl
  | some a =>
    unfold State.debit
    rw [State.isPending_recompute]
    simp [h, State.setAccount]

/-- A record's entry makes cause 4 pending where the notice countdown reaches 0, cause 3 where the journal
is full with the record, and no other (R163, R164). -/
theorem State.isPending_enterJournal (r : BitVec 16 → JournalRecord) (e : Cause) :
    (s.enterJournal r).attention.isPending e =
      (s.attention.isPending e || decide (e = .journalNotice ∧ s.ledger.noticeLeft ≤ 1) ||
        decide (e = .journalFull ∧ 128 ≤ s.ledger.journal.length + 1)) := by
  unfold State.enterJournal
  dsimp only
  rw [State.isPending_recompute]
  split
  case isTrue zero =>
    rw [State.isPending_raise_eq]
    simp [zero, State.levelHolds, Ledger.isFull, Config.journalPlaces]
  case isFalse left => simp [left, State.levelHolds, Ledger.isFull, Config.journalPlaces]

variable (t : Station) (b : TicketBody) (c : SettleCause) (stamp : Nat)

theorem State.isPending_settleBody {e : Cause} (h : e ≠ .depositLow) :
    (s.settleBody t b c stamp).attention.isPending e =
      (s.attention.isPending e || decide (e = .journalNotice ∧ s.ledger.noticeLeft ≤ 1) ||
        decide (e = .journalFull ∧ 128 ≤ s.ledger.journal.length + 1)) := by
  unfold State.settleBody
  dsimp only
  rw [State.isPending_enterJournal, State.isPending_debit_of_ne s _ _ h, debit_ledger]

theorem State.settleAttention_settleBody (h : s.journalFree = true) :
    s.SettleAttention (s.settleBody t b c stamp) where
  masked := (reckons_settleBody s t b c stamp h).masked
  keeps := (reckons_settleBody s t b c stamp h).grows
  others e hfull hnotice hlow := by
    rw [State.isPending_settleBody s t b c stamp hlow]
    simp [hfull, hnotice]
  full _ hlen := by
    rw [settleBody_ledger, List.length_append, List.length_singleton] at hlen
    rw [State.isPending_settleBody s t b c stamp (by decide)]
    simp [hlen]
  notice _ hleft := by
    rw [State.isPending_settleBody s t b c stamp (by decide)]
    simp [hleft]

/-- Where neither the attention unit nor the journal has changed, a settling event asks for nothing. -/
theorem State.SettleAttention.of_same {s u : State} (ha : u.attention = s.attention)
    (hj : u.ledger.journal = s.ledger.journal) : s.SettleAttention u where
  masked := by rw [ha]
  keeps _ h := by rw [ha]; exact h
  others _ _ _ _ := by rw [ha]
  full h _ := by rw [hj] at h; exact absurd h (lt_irrefl _)
  notice h _ := by rw [hj] at h; exact absurd h (lt_irrefl _)

theorem State.settleAttention_settleEvent : s.SettleAttention (s.settleEvent t c) := by
  unfold State.settleEvent
  split
  · split
    case isTrue free => exact s.settleAttention_settleBody t _ c _ free
    case isFalse full => exact .of_same rfl rfl
  · exact .of_same rfl rfl

end

/-! ### The entry a STATION_SET record gives -/

section
variable {cls : BitVec 8} {base : BitVec 16} {length : BitVec 32} {fee account : BitVec 8}
  {idle : BitVec 16}

/-- The class operand reads as the class whose code it is (R22, R178). -/
theorem classOf_eq_some_iff {c : StationClass} : classOf cls = some c ↔ c.code = cls.toNat := by
  unfold classOf
  generalize cls.toNat = n
  match n with
  | 0 | 1 | 2 | 3 | n + 4 => cases c <;> simp [StationClass.code]

theorem exists_classOf (h : cls.toNat ≤ 3) : ∃ c, classOf cls = some c := by
  simp only [classOf_eq_some_iff]
  generalize cls.toNat = n at h
  match n, h with
  | 0, _ => exact ⟨.vacant, rfl⟩
  | 1, _ => exact ⟨.search, rfl⟩
  | 2, _ => exact ⟨.filing, rfl⟩
  | 3, _ => exact ⟨.clerk, rfl⟩

theorem numberOf_eq_some_iff {n v : Nat} {i : Fin n} : numberOf n v = some i ↔ i.val = v := by
  unfold numberOf
  split
  case isTrue h => simp [Fin.ext_iff, eq_comm]
  case isFalse h =>
    simp only [reduceCtorEq, false_iff]
    omega

/-- The fee operand reads as the mode whose code it is, the account being read for DEPOSIT alone (R32). -/
theorem feeOf_eq_some_iff {f : FeeMode} : feeOf fee account = some f ↔
    f.code = fee.toNat ∧ ∀ a, f = .deposit a → a.val = account.toNat := by
  unfold feeOf
  generalize fee.toNat = n
  match n with
  | 0 | 1 | 2 | n + 3 => cases f <;> simp [FeeMode.code, numberOf_eq_some_iff]

theorem exists_feeOf (h : fee.toNat ≤ 2) (ha : fee.toNat = 2 → account.toNat ≤ 15) :
    ∃ f, feeOf fee account = some f := by
  simp only [feeOf_eq_some_iff]
  generalize fee.toNat = n at h ha
  match n, h with
  | 0, _ => exact ⟨.exempt, rfl, nofun⟩
  | 1, _ => exact ⟨.counter, rfl, nofun⟩
  | 2, _ =>
    refine ⟨.deposit ⟨account.toNat, Nat.lt_succ_of_le (ha rfl)⟩, rfl, ?_⟩
    rintro a ⟨⟩
    rfl

theorem feeOf_le {f : FeeMode} (h : feeOf fee account = some f) :
    fee.toNat ≤ 2 ∧ (fee.toNat = 2 → account.toNat ≤ 15) := by
  obtain ⟨hcode, hacc⟩ := feeOf_eq_some_iff.1 h
  cases f with
  | exempt | counter => simp [← hcode, FeeMode.code]
  | deposit a => exact ⟨hcode.ge, fun _ => by have := hacc a rfl; omega⟩

theorem entryOf_vacant (h : cls.toNat = 0) :
    entryOf cls base length fee account idle = some vacantEntry := by
  rw [entryOf, classOf_eq_some_iff.2 (show StationClass.vacant.code = cls.toNat from h.symm)]

/-- The entry of a class other than VACANT takes its fields from the operands, within R22's bounds. -/
theorem entryOf_of_class {c : StationClass} (hc : classOf cls = some c) (hv : c ≠ .vacant) :
    entryOf cls base length fee account idle = (feeOf fee account).bind fun f =>
      if 1 ≤ length.toNat ∧ length.toNat ≤ 65536 ∧ base.toNat + length.toNat ≤ 65536 ∧
        (idle.toNat = 0 ∨ 10 ≤ idle.toNat ∧ idle.toNat ≤ 3600)
      then some ⟨c, base.toNat, length.toNat, f, idle.toNat⟩ else none := by
  have bounds : (1 ≤ length.toNat ∧ length.toNat ≤ 65536 ∧ base.toNat + length.toNat ≤ 65536 ∧
      (idle.toNat = 0 ∨ 10 ≤ idle.toNat ∧ idle.toNat ≤ 3600)) ↔
      ¬ (length.toNat = 0 ∨ 65536 < length.toNat ∨ 65536 < base.toNat + length.toNat ∨
        (1 ≤ idle.toNat ∧ idle.toNat ≤ 9) ∨ 3600 < idle.toNat) := by omega
  simp only [bounds, ite_not, entryOf, hc]
  cases c with
  | vacant => exact absurd rfl hv
  | search | filing | clerk => cases feeOf fee account <;> rfl

/-- Only operands that pass the first two checks of R32 give an entry. -/
theorem stationOperandsGood_of_entryOf {e : StationEntry}
    (h : entryOf cls base length fee account idle = some e) :
    StationOperandsGood cls base length fee account idle := by
  cases hc : classOf cls with
  | none => simp [entryOf, hc] at h
  | some c =>
    have hcode := classOf_eq_some_iff.1 hc
    refine ⟨by cases c <;> simp [← hcode, StationClass.code], fun hne => ?_⟩
    have hv : c ≠ .vacant := by rintro rfl; exact hne hcode.symm
    rw [entryOf_of_class hc hv, Option.bind_eq_some_iff] at h
    obtain ⟨f, hf, h⟩ := h
    obtain ⟨hfee, hacc⟩ := feeOf_le hf
    split at h
    case isTrue bounds =>
      obtain ⟨hpos, hlen, htop, hidle⟩ := bounds
      exact ⟨hpos, hlen, htop, hfee, hacc, hidle⟩
    case isFalse => contradiction

/-- Operands that pass the first two checks of R32 give the entry that they spell. -/
theorem StationOperandsGood.exists_entryOf (h : StationOperandsGood cls base length fee account idle) :
    ∃ e, entryOf cls base length fee account idle = some e ∧
      e.Spells cls base length fee account idle := by
  obtain ⟨hcls, hrest⟩ := h
  by_cases h0 : cls.toNat = 0
  · exact ⟨vacantEntry, entryOf_vacant h0, h0.symm, fun _ => rfl, absurd h0, absurd h0, absurd h0,
      absurd h0, absurd h0⟩
  · obtain ⟨hpos, hlen, htop, hfee, hacc, hidle⟩ := hrest h0
    obtain ⟨c, hc⟩ := exists_classOf hcls
    obtain ⟨f, hf⟩ := exists_feeOf hfee hacc
    have hcode := classOf_eq_some_iff.1 hc
    have hv : c ≠ .vacant := by rintro rfl; exact h0 hcode.symm
    obtain ⟨hfcode, hfacc⟩ := feeOf_eq_some_iff.1 hf
    refine ⟨⟨c, base.toNat, length.toNat, f, idle.toNat⟩, ?_, hcode, fun h => absurd h h0,
      fun _ => ⟨rfl, rfl⟩, fun _ => rfl, fun _ h => ?exempt, fun _ h => ?counter,
      fun _ h => ?deposit⟩
    · rw [entryOf_of_class hc hv, hf]
      exact if_pos ⟨hpos, hlen, htop, hidle⟩
    all_goals
      rw [h] at hfcode
      cases f <;> simp_all [FeeMode.code]

end

/-! ### The clerk that must remain -/

theorem hasClerk_iff {T : Table StationEntry 32} : hasClerk T = true ↔
    ∃ v, (T.at v).cls = .clerk ∧ (T.at v).base + (T.at v).length = 65536 := by
  unfold hasClerk
  simp only [Vector.any_toList, Vector.any_eq_true, StationEntry.reachesControl, decide_eq_true_eq]
  exact ⟨fun ⟨i, hi, h⟩ => ⟨⟨i, hi⟩, h⟩, fun ⟨v, h⟩ => ⟨v.val, v.isLt, h⟩⟩

section
variable {e : StationEntry} {cls : BitVec 8} {base : BitVec 16} {length : BitVec 32}
  {fee account : BitVec 8} {idle : BitVec 16}

theorem StationEntry.Spells.reachesControl_iff
    (h : e.Spells cls base length fee account idle) :
    (e.cls = .clerk ∧ e.base + e.length = 65536) ↔
      (cls.toNat = 3 ∧ base.toNat + length.toNat = 65536) := by
  have hcode : e.cls = .clerk ↔ cls.toNat = 3 := by
    rw [← h.code]
    cases e.cls <;> simp [StationClass.code]
  rw [hcode]
  refine and_congr_right fun h3 => ?_
  obtain ⟨hb, hl⟩ := h.window (by omega)
  rw [hb, hl]

/-- The table with the new entry keeps a clerk exactly where R32's third check passes. -/
theorem State.hasClerk_put_iff (s : State) (t : Station)
    (h : e.Spells cls base length fee account idle) :
    hasClerk (s.stations.put t e) = true ↔ s.KeepsClerk t cls base length := by
  rw [hasClerk_iff, State.KeepsClerk, ← h.reachesControl_iff]
  constructor
  · rintro ⟨v, hv⟩
    by_cases hvt : v = t
    · subst hvt
      rw [Table.at_put_same] at hv
      exact .inl hv
    · rw [Table.at_put_ne _ _ (Ne.symm hvt)] at hv
      exact .inr ⟨v, hvt, hv⟩
  · rintro (he | ⟨v, hvt, hv⟩)
    · exact ⟨t, by rwa [Table.at_put_same]⟩
    · exact ⟨v, by rwa [Table.at_put_ne _ _ (Ne.symm hvt)]⟩

end

/-! ### What STATION_SET answers -/

section
variable {station cls : BitVec 8} {base : BitVec 16} {length : BitVec 32} {fee account : BitVec 8}
  {idle : BitVec 16} {s : State} {t : Station} {e : StationEntry}

theorem exec_stationSet (key : Bool) :
    exec (.stationSet station cls base length fee account idle key) s =
      .next (answered (orderStationSet station cls base length fee account idle (s.sampleKey key))) :=
  rfl

theorem orderStationSet_barred (h : s.lock.barredTo s.keyLine) :
    orderStationSet station cls base length fee account idle s = (.locked, s) :=
  protectedOrder_of_barred _ h

theorem orderStationSet_noStation (h : ¬ s.lock.barredTo s.keyLine) (ht : 31 < station.toNat) :
    orderStationSet station cls base length fee account idle s = (.badValue, s) := by
  rw [orderStationSet, protectedOrder_of_not_barred _ h, withNumber_of_le _ _ ht]

theorem orderStationSet_noEntry (h : ¬ s.lock.barredTo s.keyLine) (ht : station.toNat = t.val)
    (he : entryOf cls base length fee account idle = none) :
    orderStationSet station cls base length fee account idle s = (.badValue, s) := by
  rw [orderStationSet, protectedOrder_of_not_barred _ h, ht, withNumber_val, he]

theorem orderStationSet_entry (h : ¬ s.lock.barredTo s.keyLine) (ht : station.toNat = t.val)
    (he : entryOf cls base length fee account idle = some e) :
    orderStationSet station cls base length fee account idle s =
      if hasClerk (s.stations.put t e) then
        (.done, (s.settleEvent t .profile).setStation t e)
      else (.clerkRequired, s) := by
  rw [orderStationSet, protectedOrder_of_not_barred _ h, ht, withNumber_val, he]
  simp only [judged_cons, judged_nil]
  cases hasClerk (s.stations.put t e) <;> rfl

/-- Operands that fail one of the first two checks of R32 are refused. -/
theorem orderStationSet_badValue (h : ¬ s.lock.barredTo s.keyLine)
    (hbad : 31 < station.toNat ∨ ¬ StationOperandsGood cls base length fee account idle) :
    orderStationSet station cls base length fee account idle s = (.badValue, s) := by
  by_cases ht : 31 < station.toNat
  · exact orderStationSet_noStation h ht
  · have hnone : entryOf cls base length fee account idle = none :=
      Option.eq_none_iff_forall_ne_some.2 fun e he =>
        hbad.resolve_left ht (stationOperandsGood_of_entryOf he)
    exact orderStationSet_noEntry (t := ⟨station.toNat, by omega⟩) h rfl hnone

/-- The state in which the old ticket has settled and the new entry stands (R32, R33). -/
theorem State.settleEvent_setStation (s : State) (t : Station) (c : SettleCause) (e : StationEntry) :
    (s.settleEvent t c).setStation t e = { s with
      stations := s.stations.put t e
      ledger := s.settledLedger t c
      attention := (s.settleEvent t c).attention } :=
  congrArg (fun u : State => u.setStation t e) (s.settleEvent_frame t c)

end

/-- Settles O6: the gate, the reading of the operands, and the clerk test are judged in turn by the lemmas
above; an entry that passes them takes its place after one settling event. -/
theorem stationSetJudgedAndTaken : Obligations.StationSetJudgedAndTaken := by
  intro station cls base length fee account idle key s
  refine ⟨fun hbar => ?locked, fun hopen => ⟨fun hbad => ?badValue, fun t ht hgood => ?judged⟩⟩
  case locked => rw [exec_stationSet, orderStationSet_barred hbar]; rfl
  case badValue => rw [exec_stationSet, orderStationSet_badValue hopen hbad]; rfl
  case judged =>
    obtain ⟨e, he, hspells⟩ := hgood.exists_entryOf
    have clerk : hasClerk (s.stations.put t e) = true ↔ s.KeepsClerk t cls base length :=
      s.hasClerk_put_iff t hspells
    rw [exec_stationSet, orderStationSet_entry hopen ht he, State.sampleKey_stations]
    refine ⟨fun hno => ?clerkRequired, fun hkeeps => ?done⟩
    case clerkRequired => rw [if_neg (mt clerk.1 hno)]; rfl
    case done =>
      obtain ⟨masked, keeps, others, full, notice⟩ :=
        (s.sampleKey key).settleAttention_settleEvent t .profile
      rw [State.settleEvent_ledger] at full notice
      rw [if_pos (clerk.2 hkeeps), State.settleEvent_setStation]
      exact ⟨e, _, rfl, hspells, rfl, masked, keeps, others, full, notice⟩

/-! ### TRAP_CLEAR and the traps after it -/

/-- A trap is the station's latest, and its count goes up by one to the ceiling (R29). -/
theorem State.traps_recordTrap_same (s : State) (t : Station) (kind : TrapKind) (k : ReqKind)
    (sba : Nat) : (s.recordTrap t kind k sba).traps.at t =
      ⟨some ⟨kind, k, sba⟩, min ((s.traps.at t).count + 1) 255⟩ :=
  Table.at_put_same _ _ _

theorem orderTrapClear_traps (flags : BitVec 32) (s : State) (t : Station) :
    (orderTrapClear flags s).2.traps.at t =
      if flags.getLsbD t.val then ⟨none, 0⟩ else s.traps.at t :=
  Table.at_mapNumbered _ _ t

/-- Settles O7: the order maps the table record by record, and the count of a cleared record is 0. -/
theorem trapClearClearsFlagged : Obligations.TrapClearClearsFlagged := by
  intro flags s
  refine ⟨answered (orderTrapClear flags s), rfl, rfl, orderTrapClear_traps flags s,
    fun t kind k sba hflag => ?_⟩
  have cleared : (answered (orderTrapClear flags s)).traps.at t = ⟨none, 0⟩ :=
    (orderTrapClear_traps flags s t).trans (if_pos hflag)
  rw [State.traps_recordTrap_same, cleared]
  rfl

end Sys2Proof.Machine
end

section
/-! SUPPORT. The filing checker of DEED sides (R102, R103): numbers of a block read byte by byte, the header
test as its conditions and its fields, the walk a block at a time, and the statement assembled from these. -/

namespace Sys2Proof.Machine

/-! ### Fields of a block -/

/-- Numbers are little-endian: a field is its low bytes, and its high bytes above them (R178). -/
theorem blockField_add (b : Block) (off m n : Nat) :
    blockField b off (m + n) = blockField b off m + 256 ^ m * blockField b (off + m) n := by
  have bytes (k : Nat) : 2 ^ (8 * k) = 256 ^ k := Nat.pow_mul 2 8 k
  simp only [blockField, BitVec.extractLsb'_toNat, Nat.shiftRight_eq_div_pow, bytes]
  rw [pow_add, Nat.mod_mul, Nat.div_div_eq_div_mul, ← pow_add]

/-- The signature, read as one number, is its four bytes 50h 4Ah 48h 01h in their order (R102). -/
theorem blockField_headerSignature_iff (b : Block) :
    blockField b 0 4 = Config.headerSignature.toNat ↔
      blockField b 0 1 = 0x50 ∧ blockField b 1 1 = 0x4A ∧ blockField b 2 1 = 0x48 ∧
      blockField b 3 1 = 0x01 := by
  have above0 : blockField b 0 4 = blockField b 0 1 + 256 * blockField b 1 3 := blockField_add b 0 1 3
  have above1 : blockField b 1 3 = blockField b 1 1 + 256 * blockField b 2 2 := blockField_add b 1 1 2
  have above2 : blockField b 2 2 = blockField b 2 1 + 256 * blockField b 3 1 := blockField_add b 2 1 1
  have byte (i : Nat) : blockField b i 1 < 256 := blockField_lt b i 1
  have lt0 := byte 0
  have lt1 := byte 1
  have lt2 := byte 2
  have value : Config.headerSignature.toNat = 0x01484A50 := rfl
  omega

/-! ### The header test -/

/-- The four conditions of R102 on a block. -/
structure IsHeader (b : Block) : Prop where
  signature : blockField b 0 4 = Config.headerSignature.toNat
  book : blockField b 12 1 < 16
  sheet : blockField b 13 1 < 4
  length_ge : 2 ≤ blockField b 14 2
  length_le : blockField b 14 2 ≤ 2048
  sum : headerSum b % 65536 = 0

/-- The fields of a block that meets the header test. -/
def IsHeader.fields {b : Block} (hb : IsHeader b) : PageHeader where
  instrument := blockField b 4 4
  page := blockField b 8 2
  book := ⟨blockField b 12 1, hb.book⟩
  sheet := ⟨blockField b 13 1, hb.sheet⟩
  length := blockField b 14 2

section
variable {b : Block}

theorem validHeader_of_isHeader (hb : IsHeader b) : validHeader b = some hb.fields :=
  dif_pos ⟨hb.signature, hb.book, hb.sheet, hb.length_ge, hb.length_le, hb.sum⟩

theorem validHeader_of_not_isHeader (hb : ¬ IsHeader b) : validHeader b = none :=
  dif_neg fun ⟨signature, book, sheet, length_ge, length_le, sum⟩ =>
    hb ⟨signature, book, sheet, length_ge, length_le, sum⟩

theorem validHeader_eq_some_iff {h : PageHeader} :
    validHeader b = some h ↔ ∃ hb : IsHeader b, h = hb.fields := by
  by_cases hb : IsHeader b
  · simp [validHeader_of_isHeader hb, hb, eq_comm]
  · simp [validHeader_of_not_isHeader hb, hb]

theorem validHeader_isSome_iff : (validHeader b).isSome = true ↔ IsHeader b := by
  simp [Option.isSome_iff_exists, validHeader_eq_some_iff]

/-- R102 in its own terms, byte by byte. -/
theorem isHeader_iff : IsHeader b ↔
    blockField b 0 1 = 0x50 ∧ blockField b 1 1 = 0x4A ∧ blockField b 2 1 = 0x48 ∧
    blockField b 3 1 = 0x01 ∧ blockField b 12 1 ≤ 15 ∧ blockField b 13 1 ≤ 3 ∧
    2 ≤ blockField b 14 2 ∧ blockField b 14 2 ≤ 2048 ∧
    ((List.range 16).map fun i => blockField b (2 * i) 2).sum % 65536 = 0 := by
  constructor
  · rintro ⟨signature, book, sheet, length_ge, length_le, sum⟩
    obtain ⟨b0, b1, b2, b3⟩ := (blockField_headerSignature_iff b).1 signature
    exact ⟨b0, b1, b2, b3, Nat.le_of_lt_succ book, Nat.le_of_lt_succ sheet, length_ge, length_le, sum⟩
  · rintro ⟨b0, b1, b2, b3, book, sheet, length_ge, length_le, sum⟩
    exact ⟨(blockField_headerSignature_iff b).2 ⟨b0, b1, b2, b3⟩, Nat.lt_succ_of_le book,
      Nat.lt_succ_of_le sheet, length_ge, length_le, sum⟩

end

/-! ### The walk, a block at a time (R103) -/

section
variable {x rem : Nat} {b : Block} {rest : List Block}

@[simp] theorem imageWalk_nil : imageWalk x rem [] = .ok rem := rfl

theorem imageWalk_body (hrem : 0 < rem) :
    imageWalk x rem (b :: rest) = imageWalk (x + 1) (rem - 1) rest :=
  if_neg hrem.ne'

theorem imageWalk_noHeader (hb : validHeader b = none) :
    imageWalk x 0 (b :: rest) = .error .noHeader := by
  simp [imageWalk, hb]

theorem imageWalk_header {h : PageHeader} (hb : validHeader b = some h) :
    imageWalk x 0 (b :: rest) =
      if x + h.length ≤ 262144 then imageWalk (x + 1) (h.length - 1) rest
      else .error .imageOverrun := by
  simp [imageWalk, hb]

end

/-- Settles O33: the walk takes its branch on the first block by the remainder and by the header test, and
the test is its conditions byte by byte. -/
theorem imageWalkFollowsHeaders : Obligations.ImageWalkFollowsHeaders := by
  intro x rem b rest
  refine ⟨imageWalk_nil, imageWalk_body, imageWalk_noHeader, fun h hb => ?header,
    validHeader_isSome_iff.trans isHeader_iff⟩
  case header =>
    have walk := imageWalk_header (x := x) (rest := rest) hb
    obtain ⟨hd, rfl⟩ := validHeader_eq_some_iff.1 hb
    exact ⟨fun overruns => walk.trans (if_neg (Nat.not_le.2 overruns)),
      fun ends => walk.trans (if_pos ends), hd.length_ge, hd.length_le, rfl, rfl, rfl, rfl, rfl⟩

end Sys2Proof.Machine
end

section
/-! SUPPORT. How TARIFF_SET and SIZE_FACTOR_SET are judged and taken (R132): a protected order that names one
record and makes one range check, what a power-up with a good store does to the tariff (R182), and the
statement assembled from these. -/

namespace Sys2Proof.Machine

/-! ### A protected order on a numbered record -/

section
variable {n v : Nat} {s : State} {bad : Prop} [Decidable bad] (take : Fin n → State)

/-- With the gate open, an operand out of its range answers BAD_VALUE, be it the number or another. -/
theorem protectedNumbered_badValue (hopen : ¬ s.lock.barredTo s.keyLine) (h : n ≤ v ∨ bad) :
    protectedOrder s (withNumber s v fun i => judged [(decide bad, .badValue)] s (take i)) =
      (.badValue, s) := by
  rw [protectedOrder_of_not_barred _ hopen]
  rcases Nat.lt_or_ge v n with hv | hv
  case inl =>
    have hbad : bad := h.resolve_left (Nat.not_le.2 hv)
    rw [withNumber_val s _ ⟨v, hv⟩, judged_cons, if_pos (decide_eq_true hbad)]
  case inr => exact withNumber_of_le _ _ hv

/-- With the gate open and every operand in its range, the order takes effect on the record named. -/
theorem protectedNumbered_done (hopen : ¬ s.lock.barredTo s.keyLine) {i : Fin n} (hv : v = i.val)
    (hgood : ¬ bad) :
    protectedOrder s (withNumber s v fun i => judged [(decide bad, .badValue)] s (take i)) =
      (.done, take i) := by
  rw [protectedOrder_of_not_barred _ hopen, hv, withNumber_val, judged_cons,
    if_neg (by simpa using hgood), judged_nil]

end

/-! ### What TARIFF_SET answers -/

section
variable {book : BitVec 8} {rate : BitVec 16} {cap : BitVec 32} {s : State}

theorem exec_tariffSet (key : Bool) :
    exec (.tariffSet book rate cap key) s =
      .next (answered (orderTariffSet book rate cap (s.sampleKey key))) := rfl

theorem orderTariffSet_barred (h : s.lock.barredTo s.keyLine) :
    orderTariffSet book rate cap s = (.locked, s) := protectedOrder_of_barred _ h

theorem orderTariffSet_badValue (h : ¬ s.lock.barredTo s.keyLine)
    (hbad : 15 < book.toNat ∨ 2000 < rate.toNat ∨ 999999 < cap.toNat) :
    orderTariffSet book rate cap s = (.badValue, s) := protectedNumbered_badValue _ h hbad

theorem orderTariffSet_done (h : ¬ s.lock.barredTo s.keyLine) {b : Fin 16} (hb : book.toNat = b.val)
    (hrate : rate.toNat ≤ 2000) (hcap : cap.toNat ≤ 999999) :
    orderTariffSet book rate cap s = (.done, { s with tariff := { s.tariff with
      rate := s.tariff.rate.put b rate.toNat, cap := s.tariff.cap.put b cap.toNat } }) :=
  protectedNumbered_done _ h hb (by omega)

end

/-! ### What SIZE_FACTOR_SET answers -/

section
variable {sheet factor : BitVec 8} {s : State}

theorem exec_sizeFactorSet (key : Bool) :
    exec (.sizeFactorSet sheet factor key) s =
      .next (answered (orderSizeFactorSet sheet factor (s.sampleKey key))) := rfl

theorem orderSizeFactorSet_barred (h : s.lock.barredTo s.keyLine) :
    orderSizeFactorSet sheet factor s = (.locked, s) := protectedOrder_of_barred _ h

theorem orderSizeFactorSet_badValue (h : ¬ s.lock.barredTo s.keyLine)
    (hbad : 3 < sheet.toNat ∨ factor.toNat = 0 ∨ 40 < factor.toNat) :
    orderSizeFactorSet sheet factor s = (.badValue, s) := protectedNumbered_badValue _ h hbad

theorem orderSizeFactorSet_done (h : ¬ s.lock.barredTo s.keyLine) {z : Fin 4}
    (hz : sheet.toNat = z.val) (hlow : 1 ≤ factor.toNat) (hhigh : factor.toNat ≤ 40) :
    orderSizeFactorSet sheet factor s = (.done, { s with tariff := { s.tariff with
      factor := s.tariff.factor.put z factor.toNat } }) :=
  protectedNumbered_done _ h hz (by omega)

end

/-! ### The tariff over a power-up -/

theorem State.recomputeLevels_tariff (s : State) : s.recomputeLevels.tariff = s.tariff := by
  simp only [State.recomputeLevels, State.recompute_tariff]

/-- The survey touches the mechanism and what HOME moves, none of which is the tariff (R183). -/
theorem State.survey_tariff (s : State) (readings : Vector SurveyReading 4) (mail : Bool) :
    (s.survey readings mail).tariff = s.tariff := (steady_startHoming _ .home).tariff

/-- With a good store the open tickets settle and the tariff stays (R182). -/
theorem State.restoreStore_good_tariff (s : State) : (s.restoreStore true).tariff = s.tariff :=
  (reckons_settleAll s .powerRestore).tariff

theorem exec_powerUp (good : Bool) (survey : Vector SurveyReading 4) (mail : Bool) (s : State) :
    exec (.powerUp good survey mail) s =
      .next (((s.powerOn.restoreStore good).recomputeLevels).survey survey mail) := rfl

/-- A power-up with a good store keeps the tariff (R132, R182). -/
theorem tariff_of_powerUp_good {survey : Vector SurveyReading 4} {mail : Bool} {s t : State}
    (h : exec (.powerUp true survey mail) s = .next t) : t.tariff = s.tariff := by
  rw [exec_powerUp, Host.Outcome.next.injEq] at h
  rw [← h, State.survey_tariff, State.recomputeLevels_tariff, State.restoreStore_good_tariff]
  rfl

/-- Settles O14: `tariff_of_powerUp_good` is the first part; each order passes the gate, then its range checks, then
takes its values, and one lemma gives the answer at each stage. -/
theorem tariffOrdersJudgedAndTaken : Obligations.TariffOrdersJudgedAndTaken := by
  refine ⟨fun survey mail s t => tariff_of_powerUp_good, fun book rate cap key s => ?tariffSet,
    fun sheet factor key s => ?sizeFactorSet⟩
  case tariffSet =>
    refine ⟨fun hbar => ?locked, fun hopen => ⟨fun hbad => ?badValue, fun b hb hrate hcap => ?done⟩⟩
    case locked => rw [exec_tariffSet, orderTariffSet_barred hbar]; rfl
    case badValue => rw [exec_tariffSet, orderTariffSet_badValue hopen hbad]; rfl
    case done => rw [exec_tariffSet, orderTariffSet_done hopen hb hrate hcap]; rfl
  case sizeFactorSet =>
    refine ⟨fun hbar => ?locked, fun hopen => ⟨fun hbad => ?badValue, fun z hz hlow hhigh => ?done⟩⟩
    case locked => rw [exec_sizeFactorSet, orderSizeFactorSet_barred hbar]; rfl
    case badValue => rw [exec_sizeFactorSet, orderSizeFactorSet_badValue hopen hbad]; rfl
    case done => rw [exec_sizeFactorSet, orderSizeFactorSet_done hopen hz hlow hhigh]; rfl

end Sys2Proof.Machine
end

section
/-! SUPPORT. The settle function as rounding to a multiple of the step (R149), what FEE_PARAMS leaves alone
while a ticket is live (R165), how the three account orders are judged and taken (R156 to R158), and the two
statements assembled from these. -/

namespace Sys2Proof.Machine

/-! ### The settle function (R149) -/

section
variable (T : Tariff)

theorem Tariff.base_zero : T.base 0 = 0 := rfl

theorem Tariff.base_of_pos {x : Nat} (h : 0 < x) : T.base x = max x T.minimum := if_neg h.ne'

theorem Tariff.settle_zero : T.settle 0 = 0 := rfl

theorem Tariff.settle_of_pos {x : Nat} (h : 0 < x) :
    T.settle x = (max x T.minimum + T.settleStep / 2) / T.settleStep * T.settleStep := by
  rw [Tariff.settle, if_neg h.ne', T.base_of_pos h]

/-- The settled total does not fall as the gross rises: raising to the minimum and rounding both keep the
order. -/
theorem Tariff.settle_mono : Monotone T.settle := by
  intro x y hxy
  rcases Nat.eq_zero_or_pos x with rfl | hx
  case inl => exact Nat.zero_le _
  case inr =>
    rw [T.settle_of_pos hx, T.settle_of_pos (hx.trans_le hxy)]
    gcongr

end

section
variable {T : Tariff}

theorem Tariff.Lawful.settleStep_pos (hT : T.Lawful) : 0 < T.settleStep := by
  have step := hT.settleStep
  omega

/-- Half a step added to the base lies in the step that starts at the settled total: the rounding is to the
nearest multiple, and half rounds up. -/
theorem Tariff.Lawful.settle_nearest (hT : T.Lawful) {x : Nat} (h : 0 < x) :
    T.settle x ≤ max x T.minimum + T.settleStep / 2 ∧
      max x T.minimum + T.settleStep / 2 < T.settle x + T.settleStep := by
  rw [T.settle_of_pos h]
  exact ⟨Nat.div_mul_le_self _ _, Nat.lt_div_mul_add hT.settleStep_pos⟩

/-- Only a step of 10 has a base half way between two multiples, and that base rounds up. -/
theorem Tariff.Lawful.settle_tie (hT : T.Lawful) {x : Nat} (h : 0 < x)
    (tie : 2 * (max x T.minimum % T.settleStep) = T.settleStep) :
    T.settleStep = 10 ∧ max x T.minimum < T.settle x := by
  have ten : T.settleStep = 10 := by
    have step := hT.settleStep
    omega
  rw [T.settle_of_pos h]
  rw [ten] at tie ⊢
  omega

/-- The greatest gross settles at 100000000 under every step but 1, which leaves it (R149). -/
theorem Tariff.Lawful.settle_centsLimit (hT : T.Lawful) :
    T.settle 99999999 = if T.settleStep = 1 then 99999999 else 100000000 := by
  have top : max 99999999 T.minimum = 99999999 := Nat.max_eq_left (hT.minimum.trans (by decide))
  rw [T.settle_of_pos (by decide), top]
  obtain step | step | step | step := hT.settleStep <;> rw [step] <;> rfl

theorem Tariff.Lawful.settle_le (hT : T.Lawful) {x : Nat} (h : x ≤ 99999999) :
    T.settle x ≤ 100000000 := by
  refine (T.settle_mono h).trans ?_
  rw [hT.settle_centsLimit]
  split <;> decide

end

/-- What a ticket has committed on a deposit account is within the balance, and so within its limit
(R155). -/
theorem State.FeesLawful.settle_le {s : State} (hs : s.FeesLawful) {t : Station} {b : TicketBody}
    {a : Account} (hb : (s.ticket t).body? = some b) (ha : b.account = some a) :
    s.tariff.settle b.gross ≤ 99999999 :=
  calc s.tariff.settle b.gross = (s.ticket t).commits s.tariff a := by simp [Ticket.commits, hb, ha]
    _ ≤ (s.account a).committed := commits_le s hs t a
    _ ≤ (s.account a).balance := hs.within a
    _ ≤ 99999999 := hs.limit a

/-! ### Tests over a table, and checks that refuse -/

theorem Table.any_toList_iff {α : Type} {n : Nat} (T : Table α n) (p : α → Bool) :
    T.toList.any p = true ↔ ∃ i, p (T.at i) = true := by
  rw [Vector.any_toList, Vector.any_eq_true]
  exact ⟨fun ⟨i, hi, h⟩ => ⟨⟨i, hi⟩, h⟩, fun ⟨i, h⟩ => ⟨i.val, i.isLt, h⟩⟩

/-- An order that fails one of its checks, whichever, leaves the state as it was. -/
theorem judged_state_of_mem {cs : List (Bool × ResultCode)} {r : ResultCode} (s done : State)
    (h : (true, r) ∈ cs) : (judged cs s done).2 = s := by
  induction cs with
  | nil => cases h
  | cons c cs ih =>
    obtain ⟨b, code⟩ := c
    rw [judged_cons]
    cases b with
    | true => rfl
    | false => exact ih ((List.mem_cons.1 h).resolve_left (by simp))

theorem protectedOrder_state {s : State} {w : Ordered} (h : w.2 = s) : (protectedOrder s w).2 = s := by
  unfold protectedOrder
  split
  · exact h
  · rfl

/-! ### FEE_PARAMS while a ticket is live (R165) -/

theorem Ticket.isLive_iff {k : Ticket} : k.isLive = true ↔ k ≠ .idle := by
  cases k <;> simp [Ticket.isLive]

theorem State.someTicketLive_iff {s : State} :
    s.someTicketLive = true ↔ ∃ t, s.ticket t ≠ .idle := by
  simp only [← Ticket.isLive_iff]
  exact Table.any_toList_iff _ _

section
variable {minimum : BitVec 16} {step notice : BitVec 8} {s : State}

theorem orderFeeParams_state_of_live (h : ∃ t, s.ticket t ≠ .idle) :
    (orderFeeParams minimum step notice s).2 = s := by
  refine protectedOrder_state (judged_state_of_mem (r := .ticketsOpen) _ _ ?_)
  rw [State.someTicketLive_iff.2 h]
  simp

/-- FEE_PARAMS keeps the tariff while a ticket is OPEN or SETTLE_DUE. -/
theorem tariff_of_feeParams_live {key : Bool} {u : State} (h : ∃ t, s.ticket t ≠ .idle)
    (hu : exec (.feeParams minimum step notice key) s = .next u) : u.tariff = s.tariff := by
  have taken : answered (orderFeeParams minimum step notice (s.sampleKey key)) = u :=
    Host.Outcome.next.inj hu
  have kept := orderFeeParams_state_of_live (minimum := minimum) (step := step) (notice := notice)
    (s := s.sampleKey key) h
  rw [← taken, answered, kept]
  rfl

end

/-- Settles O20: rounding is to the nearest multiple of the step and keeps the order, so the bounds on both
adjustments follow at each step; FEE_PARAMS is refused while a ticket is live; a DEPOSIT ticket's settled
total is within its account's balance. -/
theorem settleRoundsToNearestStep : Obligations.SettleRoundsToNearestStep := by
  intro T hT
  refine ⟨T.settle_zero, fun x hx => ?nearest, fun x y h => T.settle_mono h,
    fun t b cause stamp seq => ⟨rfl, fun h0 => ?noGross, fun hpos => ?adjusts⟩,
    fun m st n key s u => tariff_of_feeParams_live, fun x => hT.settle_le, fun hne => ?top,
    fun s t b a hs hst hb ha => ?committed⟩
  case nearest =>
    obtain ⟨low, high⟩ := hT.settle_nearest hx
    have minimum := hT.minimum
    refine ⟨T.settle_of_pos hx, ?_, ?_, hT.settle_tie hx, ?_, ?_, ?_, ?_, ?_⟩ <;> omega
  case noGross => simp [settlementRecord, h0, T.base_zero, T.settle_zero]
  case adjusts => simp only [settlementRecord, T.base_of_pos hpos, and_self]
  case top => exact hT.settle_centsLimit.trans (if_neg hne)
  case committed =>
    subst hst
    exact hs.settle_le hb ha

/-! ### One account replaced, and cause 9 after it (R158) -/

theorem Ledger.depositIsLow_iff {l : Ledger} : l.depositIsLow = true ↔
    ∃ i, (l.accounts.at i).balance - (l.accounts.at i).committed < (l.accounts.at i).lowMark := by
  refine (Table.any_toList_iff _ _).trans (exists_congr fun i => ?_)
  rw [decide_eq_true_eq, DepositAccount.uncommitted]

/-- An account's record takes effect and cause 9 is recomputed. -/
def State.replaceAccount (s : State) (a : Account) (r : DepositAccount) : State :=
  (s.setAccount a r).recompute .depositLow

/-- The outcome `out` answers `code` with the record `r` in account `a`; cause 9 is pending besides where
some uncommitted balance is then below its low mark, and nothing else changes. -/
def State.TakesAccount (s : State) (out : Out) (a : Account) (r : DepositAccount)
    (code : ResultCode) : Prop :=
  ∃ u : State, out = .next u ∧
    u = { s with
      ledger := { s.ledger with accounts := s.ledger.accounts.put a r }
      attention := u.attention
      orderAnswer := some code } ∧
    u.attention.masked = s.attention.masked ∧
    ∀ c, u.attention.isPending c = (s.attention.isPending c ||
      decide (c = .depositLow ∧
        ∃ i, (u.account i).balance - (u.account i).committed < (u.account i).lowMark))

section
variable (s : State) (a : Account) (r : DepositAccount)

theorem State.replaceAccount_ledger : (s.replaceAccount a r).ledger = (s.setAccount a r).ledger :=
  State.recompute_ledger _ _

theorem State.replaceAccount_frame : s.replaceAccount a r = { s with
    ledger := { s.ledger with accounts := s.ledger.accounts.put a r }
    attention := (s.replaceAccount a r).attention } := by
  have settles : (s.setAccount a r).SettlesTo (s.replaceAccount a r) := State.settlesTo_recompute _ _
  rw [State.SettlesTo, s.replaceAccount_ledger a r] at settles
  exact settles

theorem State.replaceAccount_masked :
    (s.replaceAccount a r).attention.masked = s.attention.masked :=
  (reckons_recompute (s.setAccount a r) .depositLow).masked

theorem State.isPending_replaceAccount (c : Cause) :
    (s.replaceAccount a r).attention.isPending c = (s.attention.isPending c ||
      decide (c = .depositLow ∧ (s.replaceAccount a r).ledger.depositIsLow = true)) := by
  rw [s.replaceAccount_ledger a r]
  exact State.isPending_recompute _ _ _

/-- An order that ends in a replaced account takes it, and answers its code. -/
theorem State.takesAccount_replaceAccount (code : ResultCode) :
    s.TakesAccount (.next (answered (code, s.replaceAccount a r))) a r code := by
  refine ⟨_, rfl, congrArg (fun u : State => { u with orderAnswer := some code })
    (s.replaceAccount_frame a r), s.replaceAccount_masked a r, fun c => ?_⟩
  have pending := s.isPending_replaceAccount a r c
  simp only [Ledger.depositIsLow_iff] at pending
  exact pending

end

/-! ### How the account orders are judged (R156 to R158) -/

theorem badAmount_iff {n : Nat} : badAmount n = true ↔ n = 0 ∨ 99999999 < n := decide_eq_true_iff

/-- An order on a numbered record that refuses a bad operand whichever record is named answers BAD_VALUE
for a bad number or operand. -/
theorem withNumber_badValue {n v : Nat} {s : State} {f : Fin n → Ordered} {bad : Prop}
    (h : n ≤ v ∨ bad) (hf : bad → ∀ i, f i = (.badValue, s)) : withNumber s v f = (.badValue, s) := by
  rcases Nat.lt_or_ge v n with hv | hv
  case inl => exact (withNumber_val s f ⟨v, hv⟩).trans (hf (h.resolve_left (Nat.not_le.2 hv)) _)
  case inr => exact withNumber_of_le s f hv

section
variable {number : BitVec 8} {amount : BitVec 32} {s : State} {a : Account}

theorem exec_accountCredit : exec (.accountCredit number amount) s =
    .next (answered (orderAccountCredit number amount s)) := rfl

theorem exec_accountWithdraw : exec (.accountWithdraw number amount) s =
    .next (answered (orderAccountWithdraw number amount s)) := rfl

theorem exec_accountLowMark : exec (.accountLowMark number amount) s =
    .next (answered (orderAccountLowMark number amount s)) := rfl

theorem orderAccountCredit_badValue
    (h : 15 < number.toNat ∨ amount.toNat = 0 ∨ 99999999 < amount.toNat) :
    orderAccountCredit number amount s = (.badValue, s) :=
  withNumber_badValue h fun bad _ => if_pos (badAmount_iff.2 bad)

theorem orderAccountWithdraw_badValue
    (h : 15 < number.toNat ∨ amount.toNat = 0 ∨ 99999999 < amount.toNat) :
    orderAccountWithdraw number amount s = (.badValue, s) :=
  withNumber_badValue h fun bad _ => by rw [judged_cons, if_pos (badAmount_iff.2 bad)]

theorem orderAccountLowMark_badValue (h : 15 < number.toNat ∨ 99999999 < amount.toNat) :
    orderAccountLowMark number amount s = (.badValue, s) :=
  withNumber_badValue h fun bad _ => by rw [judged_cons, if_pos (decide_eq_true bad)]

theorem orderAccountLowMark_done (ha : number.toNat = a.val) (high : amount.toNat ≤ 99999999) :
    orderAccountLowMark number amount s =
      (.done, s.replaceAccount a { s.account a with lowMark := amount.toNat }) := by
  rw [orderAccountLowMark, ha, withNumber_val, judged_cons,
    if_neg (by simpa [Config.centsLimit] using high), judged_nil, State.replaceAccount]

theorem orderAccountCredit_taken (ha : number.toNat = a.val) (low : 1 ≤ amount.toNat)
    (high : amount.toNat ≤ 99999999) :
    orderAccountCredit number amount s =
      (if 99999999 < (s.account a).balance + amount.toNat then .capped else .done,
        s.replaceAccount a { s.account a with
          balance := min ((s.account a).balance + amount.toNat) 99999999 }) := by
  have good : ¬ badAmount amount.toNat = true := by rw [badAmount_iff]; omega
  rw [orderAccountCredit, ha, withNumber_val, if_neg good]
  rfl

theorem orderAccountWithdraw_judged (ha : number.toNat = a.val) (low : 1 ≤ amount.toNat)
    (high : amount.toNat ≤ 99999999) :
    orderAccountWithdraw number amount s =
      if (s.account a).balance < (s.account a).committed + amount.toNat then (.belowCommitted, s)
      else (.done, s.replaceAccount a { s.account a with
        balance := (s.account a).balance - amount.toNat }) := by
  have good : ¬ badAmount amount.toNat = true := by rw [badAmount_iff]; omega
  rw [orderAccountWithdraw, ha, withNumber_val, judged_cons, if_neg good, judged_cons, judged_nil]
  simp only [decide_eq_true_eq, State.replaceAccount]

/-! ### What the account orders answer -/

theorem exec_accountCredit_capped (ha : number.toNat = a.val) (low : 1 ≤ amount.toNat)
    (high : amount.toNat ≤ 99999999) (excess : 99999999 < (s.account a).balance + amount.toNat) :
    s.TakesAccount (exec (.accountCredit number amount) s) a
      { s.account a with balance := 99999999 } .capped := by
  rw [exec_accountCredit, orderAccountCredit_taken ha low high, if_pos excess,
    Nat.min_eq_right excess.le]
  exact s.takesAccount_replaceAccount a _ _

theorem exec_accountCredit_done (ha : number.toNat = a.val) (low : 1 ≤ amount.toNat)
    (high : amount.toNat ≤ 99999999) (room : (s.account a).balance + amount.toNat ≤ 99999999) :
    s.TakesAccount (exec (.accountCredit number amount) s) a
      { s.account a with balance := (s.account a).balance + amount.toNat } .done := by
  rw [exec_accountCredit, orderAccountCredit_taken ha low high, if_neg (Nat.not_lt.2 room),
    Nat.min_eq_left room]
  exact s.takesAccount_replaceAccount a _ _

theorem exec_accountWithdraw_belowCommitted (ha : number.toNat = a.val) (low : 1 ≤ amount.toNat)
    (high : amount.toNat ≤ 99999999)
    (short : (s.account a).balance < (s.account a).committed + amount.toNat) :
    exec (.accountWithdraw number amount) s = s.shows .belowCommitted := by
  rw [exec_accountWithdraw, orderAccountWithdraw_judged ha low high, if_pos short]
  rfl

theorem exec_accountWithdraw_done (ha : number.toNat = a.val) (low : 1 ≤ amount.toNat)
    (high : amount.toNat ≤ 99999999)
    (covered : (s.account a).committed + amount.toNat ≤ (s.account a).balance) :
    s.TakesAccount (exec (.accountWithdraw number amount) s) a
      { s.account a with balance := (s.account a).balance - amount.toNat } .done := by
  rw [exec_accountWithdraw, orderAccountWithdraw_judged ha low high, if_neg (Nat.not_lt.2 covered)]
  exact s.takesAccount_replaceAccount a _ _

theorem exec_accountLowMark_done (ha : number.toNat = a.val) (high : amount.toNat ≤ 99999999) :
    s.TakesAccount (exec (.accountLowMark number amount) s) a
      { s.account a with lowMark := amount.toNat } .done := by
  rw [exec_accountLowMark, orderAccountLowMark_done ha high]
  exact s.takesAccount_replaceAccount a _ _

end

/-- Settles O17: a bad number or amount is refused before the account is read; otherwise each order ends in
one replaced account, after which cause 9 is recomputed, and the lemmas above give its field and code. -/
theorem accountOrdersJudgedAndTaken : Obligations.AccountOrdersJudgedAndTaken := by
  intro number amount s
  refine ⟨fun bad => ⟨?credit, ?withdraw⟩, fun bad => ?lowMark, fun a ha high =>
    ⟨exec_accountLowMark_done ha high, fun low =>
      ⟨exec_accountCredit_capped ha low high, exec_accountCredit_done ha low high,
        exec_accountWithdraw_belowCommitted ha low high, exec_accountWithdraw_done ha low high⟩⟩⟩
  case credit => rw [exec_accountCredit, orderAccountCredit_badValue bad]; rfl
  case withdraw => rw [exec_accountWithdraw, orderAccountWithdraw_badValue bad]; rfl
  case lowMark => rw [exec_accountLowMark, orderAccountLowMark_badValue bad]; rfl

end Sys2Proof.Machine
end

section
/-! SUPPORT. The two values that follow from the attention flags (R174), what ATTENTION_MASK and
ATTENTION_CLEAR do to each cause's flags (R175, R176), when a level cause's condition holds, and the
statement assembled from these. -/

namespace Sys2Proof.Machine

/-! ### Flag sets and the causes they hold -/

theorem Cause.exists_bit_eq {i : Nat} (h : i < 12) : ∃ c : Cause, c.bit = i :=
  ⟨Cause.ofNat i, by interval_cases i <;> rfl⟩

/-- A flag set is empty where it holds no cause: each of its twelve bits is some cause's. -/
theorem flags_eq_zero_iff (f : BitVec 12) : f = 0#12 ↔ ∀ c : Cause, f.getLsbD c.bit = false := by
  constructor
  · rintro rfl c
    exact BitVec.getLsbD_zero
  · intro off
    refine BitVec.eq_of_getLsbD_eq fun i hi => ?_
    obtain ⟨c, rfl⟩ := Cause.exists_bit_eq hi
    rw [off c, BitVec.getLsbD_zero]

/-- An order's flag operand cut to the twelve causes keeps every cause's flag. -/
theorem Cause.getLsbD_setWidth (flags : BitVec 16) (c : Cause) :
    (flags.setWidth 12).getLsbD c.bit = flags.getLsbD c.bit := by
  simp [c.bit_lt]

theorem Cause.getLsbD_not (f : BitVec 12) (c : Cause) :
    (~~~f).getLsbD c.bit = !f.getLsbD c.bit := by
  simp [c.bit_lt]

/-- Joining the flags of a list of causes holds those causes besides the first set's. -/
theorem getLsbD_foldl_flag (cs : List Cause) (f : BitVec 12) (e : Cause) :
    (cs.foldl (fun f c => f ||| c.flag) f).getLsbD e.bit = (f.getLsbD e.bit || decide (e ∈ cs)) := by
  induction cs generalizing f with
  | nil => simp
  | cons c cs ih => simp [ih, Cause.getLsbD_flag, Bool.or_assoc]

/-! ### The line and the first cause (R174) -/

/-- The causes pending and unmasked, which the line and the first cause are read from. -/
def Attention.unmasked (a : Attention) : BitVec 12 := a.pending &&& ~~~a.masked

section
variable (a : Attention)

theorem Attention.getLsbD_unmasked (c : Cause) :
    a.unmasked.getLsbD c.bit = (a.isPending c && !a.isMasked c) := by
  rw [Attention.unmasked, BitVec.getLsbD_and, Cause.getLsbD_not, Attention.isPending,
    Attention.isMasked]

theorem Attention.line_eq_false_iff :
    a.line = false ↔ ∀ c, (a.isPending c && !a.isMasked c) = false := by
  have read : a.line = (a.unmasked != 0#12) := rfl
  rw [read, bne_eq_false_iff_eq, flags_eq_zero_iff]
  simp only [Attention.getLsbD_unmasked]

theorem Attention.line_iff :
    a.line = true ↔ ∃ c, a.isPending c = true ∧ a.isMasked c = false := by
  rw [← not_iff_not, Bool.not_eq_true, Attention.line_eq_false_iff]
  simp

theorem Attention.firstCause_eq_elim :
    a.firstCause = ((List.range 12).find? fun i => a.unmasked.getLsbD i).elim 0 (· + 1) := by
  unfold Attention.firstCause Attention.unmasked
  generalize List.find? _ _ = found
  cases found <;> rfl

/-- A test of every flag below a position is a test of every cause below it. -/
theorem Attention.unmasked_clear_below_iff {n : Nat} (h : n ≤ 12) :
    (∀ i < n, (!a.unmasked.getLsbD i) = true) ↔
      ∀ e : Cause, e.bit < n → (a.isPending e && !a.isMasked e) = false := by
  simp only [Bool.not_eq_true', ← Attention.getLsbD_unmasked]
  refine ⟨fun off e => off e.bit, fun off i hi => ?_⟩
  obtain ⟨e, rfl⟩ := Cause.exists_bit_eq (hi.trans_le h)
  exact off e hi

theorem Attention.firstCause_eq_zero_iff : a.firstCause = 0 ↔ a.line = false := by
  have search (found : Option Nat) : found.elim 0 (· + 1) = 0 ↔ found = none := by
    cases found <;> simp
  rw [Attention.firstCause_eq_elim, search, List.find?_range_eq_none,
    a.unmasked_clear_below_iff le_rfl, Attention.line_eq_false_iff]
  exact forall_congr' fun c => forall_prop_of_true c.bit_lt

/-- The first cause is pending and unmasked, and no cause of a lower number is. -/
theorem Attention.firstCause_eq_succ_iff (c : Cause) :
    a.firstCause = c.bit + 1 ↔ a.isPending c = true ∧ a.isMasked c = false ∧
      ∀ e : Cause, e.bit < c.bit → a.isPending e = false ∨ a.isMasked e = true := by
  have search (found : Option Nat) (i : Nat) : found.elim 0 (· + 1) = i + 1 ↔ found = some i := by
    cases found <;> simp
  rw [Attention.firstCause_eq_elim, search, List.find?_range_eq_some,
    a.unmasked_clear_below_iff c.bit_lt.le, Attention.getLsbD_unmasked]
  simp [c.bit_lt, and_assoc, or_iff_not_imp_left]

end

/-! ### When a level cause's condition holds -/

section
variable (s : State)

theorem SideRecord.isLow_iff {r : SideRecord} :
    r.isLow = true ↔ ∃ p m, r = .index (some p) m ∧ 3840 < p := by
  cases r with
  | unused => simp [SideRecord.isLow]
  | deed _ _ _ => simp [SideRecord.isLow]
  | index pointer _ => cases pointer <;> simp [SideRecord.isLow, Config.spareLowPointer]

theorem State.remapIsLow_iff : s.remapIsLow = true ↔
    3840 ≤ s.remap.entries.length ∨ ∃ x p m, s.side x = .index (some p) m ∧ 3840 < p := by
  rw [State.remapIsLow, Bool.or_eq_true, decide_eq_true_eq, Table.any_toList_iff]
  simp only [SideRecord.isLow_iff]
  rfl

/-- The four level causes and their conditions; no edge cause has one (R176). -/
theorem State.levelHolds_iff (c : Cause) : s.levelHolds c = true ↔
    (c = .journalFull ∧ 128 ≤ s.ledger.journal.length) ∨
    (c = .remapLow ∧ (3840 ≤ s.remap.entries.length ∨
      ∃ x p m, s.side x = .index (some p) m ∧ 3840 < p)) ∨
    (c = .depositLow ∧ ∃ a, (s.account a).balance - (s.account a).committed <
      (s.account a).lowMark) ∨
    (c = .clockUnset ∧ s.clock = none) := by
  cases c
  case journalFull => simp [State.levelHolds, Ledger.isFull, Config.journalPlaces]
  case remapLow => simp [State.levelHolds, State.remapIsLow_iff]
  case depositLow => simp [State.levelHolds, Ledger.depositIsLow_iff, State.account]
  case clockUnset => simp [State.levelHolds]
  all_goals simp [State.levelHolds]

theorem State.mem_levelCauses_of_levelHolds {s : State} {c : Cause} (h : s.levelHolds c = true) :
    c ∈ levelCauses := by
  obtain ⟨rfl, -⟩ | ⟨rfl, -⟩ | ⟨rfl, -⟩ | ⟨rfl, -⟩ := (s.levelHolds_iff c).1 h <;> decide

theorem State.getLsbD_heldFlags (c : Cause) : s.heldFlags.getLsbD c.bit = s.levelHolds c := by
  rw [State.heldFlags, getLsbD_foldl_flag, BitVec.getLsbD_zero, Bool.false_or, Bool.eq_iff_iff,
    decide_eq_true_eq, List.mem_filter]
  exact ⟨fun ⟨_, holds⟩ => holds, fun holds => ⟨State.mem_levelCauses_of_levelHolds holds, holds⟩⟩

/-! ### The flags of each cause after the two orders -/

/-- ATTENTION_MASK gives the causes of its flags the sense, and leaves every other mask (R175). -/
theorem State.isMasked_maskCauses (f : BitVec 12) (set : Bool) (c : Cause) :
    (s.maskCauses f set).attention.isMasked c =
      if f.getLsbD c.bit then set else s.attention.isMasked c := by
  have masked : (s.maskCauses f set).attention.isMasked c =
      if set then s.attention.isMasked c || f.getLsbD c.bit
      else s.attention.isMasked c && !f.getLsbD c.bit := by
    cases set
    case true => exact BitVec.getLsbD_or
    case false => exact BitVec.getLsbD_and.trans (congrArg _ (Cause.getLsbD_not f c))
  rw [masked]
  cases set <;> cases f.getLsbD c.bit <;> simp

/-- ATTENTION_CLEAR leaves pending the causes it does not name and the level causes that hold (R176). -/
theorem State.isPending_clearCauses (f : BitVec 12) (c : Cause) :
    (s.clearCauses f).attention.isPending c =
      (s.attention.isPending c && (!f.getLsbD c.bit || s.levelHolds c)) := by
  simp only [State.clearCauses_attention, Attention.isPending, BitVec.getLsbD_and,
    BitVec.getLsbD_or, Cause.getLsbD_not, State.getLsbD_heldFlags]

end

/-! ### What the two orders answer -/

section
variable {flags : BitVec 16} {sense : BitVec 8} {s : State}

theorem exec_attentionMask : exec (.attentionMask flags sense) s =
    .next (answered (orderAttentionMask flags sense s)) := rfl

theorem exec_attentionClear : exec (.attentionClear flags) s =
    .next (answered (orderAttentionClear flags s)) := rfl

theorem orderAttentionMask_badValue (h : 4096 ≤ flags.toNat ∨ 1 < sense.toNat) :
    orderAttentionMask flags sense s = (.badValue, s) := by
  rw [orderAttentionMask, judged_cons, if_pos (decide_eq_true h)]

theorem orderAttentionMask_done (hflags : flags.toNat < 4096) (hsense : sense.toNat ≤ 1) :
    orderAttentionMask flags sense s =
      (.done, s.maskCauses (flags.setWidth 12) (sense.toNat = 1)) := by
  have good : ¬ (4096 ≤ flags.toNat ∨ 1 < sense.toNat) := by omega
  rw [orderAttentionMask, judged_cons, if_neg (by simpa using good), judged_nil]

theorem orderAttentionClear_badValue (h : 4096 ≤ flags.toNat) :
    orderAttentionClear flags s = (.badValue, s) := by
  rw [orderAttentionClear, judged_cons, if_pos (decide_eq_true h)]

theorem orderAttentionClear_done (h : flags.toNat < 4096) :
    orderAttentionClear flags s = (.done, s.clearCauses (flags.setWidth 12)) := by
  rw [orderAttentionClear, judged_cons, if_neg (by simpa using h), judged_nil]

end

/-- Settles O22: past its range check each order changes the attention unit alone, cause by cause as
`State.isMasked_maskCauses` and `State.isPending_clearCauses` give it; the line and the first cause follow
from the flags in every attention unit. -/
theorem attentionOrdersJudgedAndTaken : Obligations.AttentionOrdersJudgedAndTaken := by
  refine ⟨fun flags sense s => ⟨fun bad => ?maskRefused, fun hflags hsense => ?masked⟩,
    fun flags s => ⟨fun bad => ?clearRefused, fun hflags => ?cleared⟩⟩
  case maskRefused => rw [exec_attentionMask, orderAttentionMask_badValue bad]; rfl
  case masked =>
    rw [exec_attentionMask, orderAttentionMask_done hflags hsense]
    refine ⟨_, rfl, rfl, rfl, fun c => ?_, Attention.line_iff _, Attention.firstCause_eq_succ_iff _,
      Attention.firstCause_eq_zero_iff _⟩
    rw [← Cause.getLsbD_setWidth]
    exact s.isMasked_maskCauses _ _ c
  case clearRefused => rw [exec_attentionClear, orderAttentionClear_badValue bad]; rfl
  case cleared =>
    rw [exec_attentionClear, orderAttentionClear_done hflags]
    refine ⟨_, rfl, rfl, rfl, fun c => ?_⟩
    have pending := s.isPending_clearCauses (flags.setWidth 12) c
    rw [Cause.getLsbD_setWidth] at pending
    rw [← s.levelHolds_iff c, ← Bool.not_eq_true', ← Bool.or_eq_true, ← Bool.and_eq_true]
    exact iff_of_eq (congrArg (· = true) pending)

end Sys2Proof.Machine
end
